-- ==== Sys2Proof/Word.lean ====
section
/-! DEFINITION. The bit vectors of the block: the 32-bit command and request word (R90), the 12-bit
coordinate field (`COORD_BITS`, R8) and the 4-bit cell, colour and data-bus value (`CELL_BITS`, R8).
Every quantity of the specification is unsigned (R10). -/

namespace Sys2Proof

/-- A word of the host command port or of the engine request port (R90). -/
abbrev Word := BitVec 32

/-- A coordinate, row or column field of a word: `COORD_BITS = 12` (R8). -/
abbrev Coord := BitVec 12

/-- A colour index, a cell value, a `DQ` value: `CELL_BITS = 4` (R8). -/
abbrev Nibble := BitVec 4

end Sys2Proof
end

