-- ==== Sys2Proof/Config.lean ====
section
/-! DEFINITION. What one implementation fixes at synthesis (the parameters of R8), when a
configuration is well formed (R9), the operation durations the budgets of R9 are stated with (R136),
and the free values: what the specification leaves to no law (`any4()` of R11 and R71, the
subset a decay step destroys, R75, and the two registers of the chip a reset in mid-operation leaves
unspecified, R292). -/

namespace Sys2Proof

/-- The implementation parameters of R8, in `clk` cycles unless R8 says otherwise. `visible_width`,
`visible_height`, `capacity`, `PIXEL_CLKS` and `ADDR_BITS` are derived below; the fixed widths
(`CELL_BITS`, `COORD_BITS`, `FRAME_COUNT_BITS`, `NOW_BITS`) are in the types. -/
structure Config where
  /-- framebuffer width in pixels -/
  width : Nat
  /-- framebuffer height in pixels -/
  height : Nat
  /-- rows of the DRAM array -/
  dramRows : Nat
  /-- columns of the DRAM array, also the SAM length -/
  dramCols : Nat
  /-- lines per frame -/
  totalLines : Nat
  /-- blanking lines before the first active line -/
  vBlankLines : Nat
  /-- `V_FP_LINES` -/
  vFpLines : Nat
  /-- `V_SYNC_LINES` -/
  vSyncLines : Nat
  /-- `V_BP_LINES` -/
  vBpLines : Nat
  /-- line timer period -/
  linePeriod : Nat
  /-- width of the horizontal sync pulse -/
  hSyncClks : Nat
  /-- wait between the end of the row transfer and the first pixel pulse -/
  hBpClks : Nat
  /-- cycles the serial clock is high in one pixel pulse -/
  scHigh : Nat
  /-- cycles the serial clock is low in one pixel pulse -/
  scLow : Nat
  /-- slots of the UpdateRing -/
  ringSlots : Nat
  /-- most entries one frame-boundary drain pops -/
  drainBudget : Nat
  /-- `T_ASR`: row address set-up before row strobe -/
  tAsr : Nat
  /-- `T_RAH`: row address hold after row strobe -/
  tRah : Nat
  /-- `T_RCD`: row-to-column delay -/
  tRcd : Nat
  /-- `T_DS`: data-setup time -/
  tDs : Nat
  /-- `T_DH`: data-hold time -/
  tDh : Nat
  /-- `T_CAC`: column-access delay -/
  tCac : Nat
  /-- `T_RP`: precharge time -/
  tRp : Nat
  /-- `T_RTD`: delay from row strobe to transfer strobe -/
  tRtd : Nat
  /-- `T_XFER`: transfer time -/
  tXfer : Nat
  /-- `T_CSR`: column strobe before row strobe in a refresh -/
  tCsr : Nat
  /-- `T_RAS_REF`: row strobe width in a refresh -/
  tRasRef : Nat
  /-- `T_RAS_MIN`: least row strobe width, used in constraints only -/
  tRasMin : Nat
  /-- `T_CAS_MIN`: least column strobe width, used in constraints only -/
  tCasMin : Nat
  /-- `T_WP_MIN`: least write strobe width, used in constraints only -/
  tWpMin : Nat
  /-- `RETENTION`: longest time a row keeps its data unrefreshed -/
  retention : Nat
  /-- `REFRESH_INTERVAL`, in the host's units of `now` -/
  refreshInterval : Nat
  /-- `ACTIVATION_REFRESHES`: a write, read or transfer also restarts the retention of its row -/
  activationRefreshes : Bool
  deriving DecidableEq, Repr

namespace Config

/-- `visible_width = width` (R8). -/
abbrev visibleWidth (c : Config) : Nat := c.width

/-- `visible_height = height` (R8). -/
abbrev visibleHeight (c : Config) : Nat := c.height

/-- `capacity = RING_SLOTS - 1` (R8, conflict C3). -/
abbrev capacity (c : Config) : Nat := c.ringSlots - 1

/-- `PIXEL_CLKS = SC_HIGH + SC_LOW` (R8). -/
abbrev pixelClks (c : Config) : Nat := c.scHigh + c.scLow

/-- `ADDR_BITS`: the least `n` with `2^n >= max(dram_rows, dram_cols)` (R8). -/
abbrev addrBits (c : Config) : Nat := Nat.clog 2 (max c.dramRows c.dramCols)

/-- `T_WRITE`, from the edge of the request to the edge of `done` (R136). -/
abbrev tWrite (c : Config) : Nat := 1 + c.tAsr + c.tRcd + c.tDs + c.tDh + 2 + c.tRp

/-- `T_READ` (R136). -/
abbrev tRead (c : Config) : Nat := 1 + c.tAsr + c.tRcd + c.tCac + 2 + c.tRp

/-- `T_XFER_OP` (R136). -/
abbrev tXferOp (c : Config) : Nat := 1 + c.tAsr + c.tRtd + c.tXfer + 1 + c.tRp

/-- `T_REFROW` (R136). -/
abbrev tRefrow (c : Config) : Nat := 1 + c.tCsr + c.tRasRef + 1 + c.tRp

/-- The clause "Geometry" of R9. -/
abbrev GeometryOk (c : Config) : Prop :=
  1 ≤ c.width ∧ 1 ≤ c.height ∧ c.width * c.height ≤ c.dramRows * c.dramCols ∧
  c.width ≤ 4096 ∧ c.height ≤ 4096 ∧ c.dramRows ≤ 4096 ∧ c.dramCols ≤ 4096 ∧
  c.visibleWidth ≤ c.dramCols ∧ c.visibleHeight ≤ c.dramRows

/-- The clause "Lines" of R9. -/
abbrev LinesOk (c : Config) : Prop :=
  1 ≤ c.vBlankLines ∧ c.vBlankLines + c.visibleHeight ≤ c.totalLines ∧
  c.vFpLines + c.vSyncLines + c.vBpLines = c.vBlankLines

/-- The clause "Ring" of R9. -/
abbrev RingOk (c : Config) : Prop := 2 ≤ c.ringSlots

/-- The line budget C_LINE of R9. -/
abbrev LineBudgetOk (c : Config) : Prop :=
  c.hSyncClks + c.tXferOp + c.hBpClks + c.visibleWidth * c.pixelClks ≤ c.linePeriod

/-- The blanking budget C_VBLANK of R9. -/
abbrev BlankBudgetOk (c : Config) : Prop :=
  c.drainBudget * c.tWrite + c.dramRows * c.tRefrow ≤ c.vBlankLines * c.linePeriod

/-- The retention constraint C_RET of R9. -/
abbrev RetentionOk (c : Config) : Prop :=
  c.totalLines * c.linePeriod + c.drainBudget * c.tWrite + c.dramRows * c.tRefrow ≤ c.retention

/-- The strobe-width constraints of R9, the list as it stands there. R136 says that R9 requires each of the
strobe widths it gives to meet its least width, but the list has no constraint on REFROW's column strobe,
`T_CSR + T_RAS_REF + 1` against `T_CAS_MIN`; that the model asks for none either is its choice (log 27). -/
abbrev StrobesOk (c : Config) : Prop :=
  c.tRasMin ≤ c.tRcd + c.tDs + c.tDh + 2 ∧ c.tCasMin ≤ c.tDs + c.tDh + 1 ∧
  c.tWpMin ≤ c.tDs + c.tDh ∧ c.tRasMin ≤ c.tRcd + c.tCac + 2 ∧ c.tCasMin ≤ c.tCac + 1 ∧
  c.tRasMin ≤ c.tRtd + c.tXfer + 1 ∧ c.tRasMin ≤ c.tRasRef ∧ c.tRah ≤ c.tRcd

/-- The model rejects every other configuration and proves nothing about it: an ill-formed geometry (R9,
U16) and a strobe-width constraint that fails (R9, U4) are refused; of the other clauses of R9 the rules
say what the block does when one fails (R171, R172, R176, R301; log 21). -/
abbrev Admitted (c : Config) : Prop := c.GeometryOk ∧ c.StrobesOk

/-- The least values the parameter table of R8 states ("at least 1"). -/
abbrev RangesOk (c : Config) : Prop :=
  1 ≤ c.hSyncClks ∧ 1 ≤ c.scHigh ∧ 1 ≤ c.scLow ∧ 1 ≤ c.drainBudget ∧ 1 ≤ c.tRcd ∧ 1 ≤ c.tDs ∧
  1 ≤ c.tDh ∧ 1 ≤ c.tCac ∧ 1 ≤ c.tRp ∧ 1 ≤ c.tRtd ∧ 1 ≤ c.tXfer ∧ 1 ≤ c.tCsr ∧ 1 ≤ c.tRasRef

/-- A well-formed configuration (R9, with the ranges of R8's table). -/
abbrev WellFormed (c : Config) : Prop :=
  c.GeometryOk ∧ c.LinesOk ∧ c.RingOk ∧ c.LineBudgetOk ∧ c.BlankBudgetOk ∧ c.RetentionOk ∧
  c.StrobesOk ∧ c.RangesOk

/-- CFG-S of `95_test_vectors.md`: the one complete configuration the specification writes out. -/
def cfgS : Config where
  width := 4
  height := 3
  dramRows := 4
  dramCols := 4
  totalLines := 6
  vBlankLines := 2
  vFpLines := 0
  vSyncLines := 1
  vBpLines := 1
  linePeriod := 60
  hSyncClks := 2
  hBpClks := 1
  scHigh := 1
  scLow := 1
  ringSlots := 4
  drainBudget := 8
  tAsr := 1
  tRah := 1
  tRcd := 2
  tDs := 1
  tDh := 1
  tCac := 2
  tRp := 2
  tRtd := 1
  tXfer := 2
  tCsr := 1
  tRasRef := 2
  tRasMin := 2
  tCasMin := 2
  tWpMin := 2
  retention := 1000
  refreshInterval := 500
  activationRefreshes := true

/-- FREE VALUE. `any4()` (R11): the draw that answers a READ of an `UNDEF` cell (R71, R73), fresh at
every value of the draw counter. Assumption log 3. -/
opaque any4 : Nat → Nibble

/-- FREE VALUE. Whether the decay step of the edge with this draw counter destroys the cell at this
row and column (R75: "any subset of the cells" of an expired row). Assumption log 4. -/
opaque decays : Nat → Nat → Nat → Bool

/-- FREE VALUE. `sam_ptr` after a reset in mid-operation, "unspecified" (R292). Assumption log 5. -/
opaque freeSamPtr : Nat → Nat

/-- FREE VALUE. `SD` after a reset in mid-operation, "unspecified" (R292). Assumption log 5. -/
opaque freeSd : Nat → Option Nibble

end Config

end Sys2Proof
end

