-- ==== Sys2Proof/Machine/State.lean ====
section
/-! DEFINITION. The state of the block, of its host port and of the DRAM chip (R20 to R40), grouped by
the agent that owns it (R42, R273), as plain data, and the state after power-up and reset (R291, R39).
The counters whose width depends on the configuration are naturals. -/

namespace Sys2Proof.Machine

/-- `ls_phase` (R33). -/
inductive LsPhase where
  | idle | hsync | xfer | bp | stream
  deriving DecidableEq, Repr

/-- `fs_phase` (R34). -/
inductive FsPhase where
  | idle | drain | refresh
  deriving DecidableEq, Repr

/-- `hs_phase` (R35). -/
inductive HsPhase where
  | idle | word2 | rect | clear | refall | memop | stopwait
  deriving DecidableEq, Repr

/-- `eng_phase`: `ENG_IDLE` and the phases of the tables of R122 (WR), R124 (RD), R126 (XF) and R128
(RF). -/
inductive EngPhase where
  | idle
  | wr0 | wr1 | wr2 | wr3 | wr4 | wr5 | wr6
  | rd0 | rd1 | rd2 | rd3 | rd4 | rd5
  | xf0 | xf1 | xf2 | xf3 | xf4
  | rf0 | rf1 | rf2 | rf3
  deriving DecidableEq, Repr

/-- `eng_op` (R36). -/
inductive EngOp where
  | write | read | xfer | refrow
  deriving DecidableEq, Repr

/-- `eng_owner`: the requester to be told of completion (R36). -/
inductive Owner where
  | ls | fs | hs
  deriving DecidableEq, Repr

/-- `rsp_status` (R96). -/
inductive Status where
  | ok | fail | illegal | refused
  deriving DecidableEq, Repr

/-- PixelUpdate: a slot of the ring, 28 bits (R26). -/
structure PixelUpdate where
  x : Coord
  y : Coord
  color : Nibble
  deriving DecidableEq, Repr

/-- The input pins at one `clk` edge (R38, R290): `rst`, `cmd_valid`, `cmd_word`. -/
structure PinIn where
  rst : Bool
  cmdValid : Bool
  cmdWord : Word
  deriving DecidableEq, Repr

/-- The line context (R273): TimingState (R21 to R24), the line timer (R31, R32), the line sequencer
(R33) and the pins it drives (R37). -/
structure LineCtx where
  /-- `current_line` (R21) -/
  currentLine : Nat
  /-- `framebuffer_row` (R22) -/
  framebufferRow : Nat
  /-- `frame_count` (R23) -/
  frameCount : Word
  /-- `in_vblank` (R24) -/
  inVblank : Bool
  /-- `h_count` (R31) -/
  hCount : Nat
  /-- `tick_pending` (R32) -/
  tickPending : Bool
  /-- `ls_phase` (R33) -/
  phase : LsPhase
  /-- `ls_dwell` (R33). In `LS_STREAM` it counts the cycles left in the current half of the pulse: the
  model's choice, log 25. -/
  dwell : Nat
  /-- `pix_count` (R33) -/
  pixCount : Nat
  /-- `sc_half` (R33): the second, low half of the current pulse is running -/
  scHalf : Bool
  /-- the register behind pin `HSYNC` (R37); the output is `hsyncOut` (R167, log 20) -/
  hsync : Bool
  /-- the register behind pin `VSYNC` (R37); the output is `vsyncOut` (R167, log 20) -/
  vsync : Bool
  /-- pin `SC` (R37) -/
  sc : Bool
  /-- pin `SE` (R37) -/
  se : Bool
  deriving DecidableEq, Repr

/-- The frame context (R273): the frame sequencer (R34) and the index it alone writes (R28). -/
structure FrameCtx where
  /-- `fs_phase` (R34) -/
  phase : FsPhase
  /-- `fs_drained` (R34) -/
  drained : Nat
  /-- `fs_row` (R34) -/
  row : Nat
  /-- `fs_entry` (R34) -/
  entry : PixelUpdate
  /-- `read_index` (R28) -/
  readIndex : Nat
  deriving DecidableEq, Repr

/-- The host context (R273): the ring slots and the index the host side writes (R26, R27), `running`
(R29), `last_refresh_time` (R30), the host sequencer (R35) and the response outputs (R38). -/
structure HostCtx where
  /-- `ring[0 .. RING_SLOTS-1]` (R26) -/
  ring : List PixelUpdate
  /-- `write_index` (R27) -/
  writeIndex : Nat
  /-- `running` (R29) -/
  running : Bool
  /-- `last_refresh_time` (R30) -/
  lastRefreshTime : Word
  /-- `hs_phase` (R35) -/
  phase : HsPhase
  /-- `hs_cmd` (R35) -/
  cmd : Word
  /-- `hs_arg` (R35) -/
  arg : Word
  /-- `hs_i` (R35) -/
  i : BitVec 12
  /-- `hs_j` (R35) -/
  j : BitVec 12
  /-- the MODEL's own: the latched word or words await their execution edge (R231). Log 6. -/
  pending : Bool
  /-- the MODEL's own: a first word that was transferred at the edge at which a multi-cycle command began
  (R94), waiting for that command to end. Log 6. -/
  held : Option Word
  /-- `rsp_valid` (R38) -/
  rspValid : Bool
  /-- `rsp_status` (R38) -/
  rspStatus : Status
  /-- `rsp_data` (R38) -/
  rspData : Word
  deriving DecidableEq, Repr

/-- HealthFlags (R25). -/
structure HealthFlags where
  /-- `overflow_detected` -/
  overflow : Bool
  /-- `timing_violation_detected` -/
  violation : Bool
  deriving DecidableEq, Repr

/-- The engine's request port (R130): for each requester its request line and, while the line is
raised, its request word. -/
structure Requests where
  ls : Option Word
  fs : Option Word
  hs : Option Word
  deriving DecidableEq, Repr

/-- The engine's registers (R36). -/
structure EngCtx where
  /-- `eng_phase` -/
  phase : EngPhase
  /-- `eng_op` -/
  op : EngOp
  /-- `eng_row` -/
  row : Nat
  /-- `eng_col` -/
  col : Nat
  /-- `eng_val` -/
  val : Nibble
  /-- `eng_dwell` -/
  dwell : Nat
  /-- `eng_owner` -/
  owner : Owner
  deriving DecidableEq, Repr

/-- The pins the engine drives (R37, R121). -/
structure EngPins where
  ras : Bool
  cas : Bool
  we : Bool
  oe : Bool
  trg : Bool
  addr : Nat
  /-- the block drives `DQ` -/
  dqDrive : Bool
  /-- the value on `DQ` while the block drives it -/
  dq : Nibble
  deriving DecidableEq, Repr

/-- The DRAM array: the defined cells, each under its linear cell address `row * dram_cols + col`
(R61, R63), addresses strictly rising. An address that is not listed is `UNDEF` (R71). -/
abbrev Memory := List (Nat × Nibble)

/-- The canonical form of a memory: addresses strictly rising. No entry can equal what an unlisted
address reads as, because that is `UNDEF` and an entry holds a value. -/
abbrev Memory.wf (m : Memory) : Prop := m.Pairwise (fun p q => p.1 < q.1)

/-- The state of the DRAM chip (R39). `none` is `UNDEF`. -/
structure Chip where
  /-- `Cell[r][c]` -/
  cells : Memory
  /-- `row_stamp[r]`, entry `r` of the list -/
  rowStamp : List Nat
  /-- `Sam[i]`, entry `i` of the list -/
  sam : List (Option Nibble)
  /-- `sam_ptr` -/
  samPtr : Nat
  /-- `SD` -/
  sd : Option Nibble
  deriving DecidableEq, Repr

/-- The whole state (R20): the block, the host port, the chip, model time `t` (R40); and, as the
model's own plain data, the configuration the machine was built with (R8; no step changes it), the
draw counter the free values are applied to, and the input pins of the coming edges. -/
structure State where
  /-- the MODEL's own: the implementation parameters (R8). Log 1. -/
  cfg : Config
  /-- model time `t`: the number of the coming edge (R40) -/
  t : Nat
  /-- the MODEL's own: the draw counter of the free values. Log 3. -/
  draws : Nat
  /-- the MODEL's own: the input pins at the coming edges, the next edge first; past its end the
  pins are quiet. Log 2. -/
  inputs : List PinIn
  line : LineCtx
  frame : FrameCtx
  host : HostCtx
  health : HealthFlags
  req : Requests
  eng : EngCtx
  pins : EngPins
  chip : Chip
  deriving DecidableEq, Repr

/-- Why a step stops with a fault. There is no reason: "never a crash or hang" (R260), every fault of
R261 is a flag or a response status of a next state, and no step or meaning of this model faults
(which is safe: nothing can be proved of a fault that cannot occur). -/
inductive Fault : Type
  deriving DecidableEq, Repr

/-- Why the model refuses. -/
inductive Refusal where
  /-- Raised by an arm of `exec` whose instruction has no meaning yet. Safe. -/
  | notModelled (mnemonic : String)
  /-- Raised by the meanings of WRITE, READ, XFER and REFROW when the engine is handed
  `row >= dram_rows` or `col >= dram_cols`: "the model refuses" (R67). Safe. -/
  | addressOutsideArray
  /-- Raised by `step` when the configuration's geometry is ill-formed: such a block is "refused at
  synthesis" (R9, U16). Safe. -/
  | illFormedGeometry
  /-- Raised by `step` when the configuration fails a strobe-width constraint of R9, a protocol timing
  defect, after which the chip's behaviour is undefined (R261, R301): "the model rejects the
  configuration" (U4). Safe. -/
  | protocolTimingDefect
  /-- Raised by the engine's grant when the word on the winning request line is none of the four
  request words: the engine can emit no other pin sequence and the model refuses one (R79, R100). Safe. -/
  | notARequestWord
  deriving DecidableEq, Repr

namespace PinIn

/-- No reset and no command word. -/
def quiet : PinIn := ⟨false, false, 0⟩

end PinIn

namespace PixelUpdate

/-- The contents of a ring slot and of `fs_entry` after reset, which R291 leaves unspecified.
DESIGN CHOICE, log 7. -/
def zero : PixelUpdate := ⟨0, 0, 0⟩

end PixelUpdate

namespace LineCtx

/-- R291. -/
def reset : LineCtx where
  currentLine := 0
  framebufferRow := 0
  frameCount := 0
  inVblank := true
  hCount := 0
  tickPending := false
  phase := .idle
  dwell := 0
  pixCount := 0
  scHalf := false
  hsync := false
  vsync := false
  sc := false
  se := false

end LineCtx

namespace FrameCtx

/-- R291; `fs_entry` by log 7. -/
def reset : FrameCtx where
  phase := .idle
  drained := 0
  row := 0
  entry := PixelUpdate.zero
  readIndex := 0

end FrameCtx

namespace HostCtx

/-- R291; the ring slots, `hs_cmd`, `hs_arg`, `hs_i`, `hs_j`, `rsp_status` and `rsp_data` by log 7. -/
def reset (c : Config) : HostCtx where
  ring := List.replicate c.ringSlots PixelUpdate.zero
  writeIndex := 0
  running := false
  lastRefreshTime := 0
  phase := .idle
  cmd := 0
  arg := 0
  i := 0
  j := 0
  pending := false
  held := none
  rspValid := false
  rspStatus := .ok
  rspData := 0

end HostCtx

namespace HealthFlags

/-- R291. -/
def reset : HealthFlags := ⟨false, false⟩

end HealthFlags

namespace Requests

/-- No request line raised: no sequencer is requesting after reset (R291). -/
def none : Requests := ⟨.none, .none, .none⟩

end Requests

namespace EngCtx

/-- R291; all but `eng_phase` by log 7. -/
def reset : EngCtx where
  phase := .idle
  op := .write
  row := 0
  col := 0
  val := 0
  dwell := 0
  owner := .hs

end EngCtx

namespace EngPins

/-- R291; the value behind the undriven `DQ` by log 7. -/
def reset : EngPins := ⟨false, false, false, false, false, 0, false, 0⟩

end EngPins

namespace Chip

/-- The chip after power-up (R39): every cell and every SAM entry `UNDEF`, `sam_ptr = 0`,
`SD = UNDEF`, every stamp 0. -/
def powerUp (c : Config) : Chip where
  cells := []
  rowStamp := List.replicate c.dramRows 0
  sam := List.replicate c.dramCols none
  samPtr := 0
  sd := none

end Chip

namespace State

/-- The state after power-up and reset of a block built with configuration `c`, at `t = 0` (R291, R39,
R40), with quiet input pins. -/
def resetWith (c : Config) : State where
  cfg := c
  t := 0
  draws := 0
  inputs := []
  line := LineCtx.reset
  frame := FrameCtx.reset
  host := HostCtx.reset c
  health := HealthFlags.reset
  req := Requests.none
  eng := EngCtx.reset
  pins := EngPins.reset
  chip := Chip.powerUp c

/-- The state after power-up and reset, with the one complete configuration the specification writes
out, CFG-S (log 1). -/
def reset : State := resetWith Config.cfgS

end State

end Sys2Proof.Machine
end

