-- ==== Sys2Proof/Machine/Flags.lean ====
section
/-! DEFINITION. The HealthFlags: the only status flags of the block (R25). `raise Flag(f)` is `f <- 1`
and nothing else (R262); both are cleared only by the diagnostic read (R243) and by reset. -/

namespace Sys2Proof.Machine

/-- `raise Flag(overflow_detected)` (R262). -/
def raiseOverflow (s : State) : State := { s with health := { s.health with overflow := true } }

/-- `raise Flag(timing_violation_detected)` (R262). -/
def raiseViolation (s : State) : State := { s with health := { s.health with violation := true } }

/-- The clear of the diagnostic read (R243). -/
def clearFlags (s : State) : State := { s with health := ⟨false, false⟩ }

/-- `zext_32(timing_violation_detected ++ overflow_detected)`: bit 0 is `overflow_detected`, bit 1 is
`timing_violation_detected` (R243, R261). -/
def healthWord (f : HealthFlags) : Word :=
  (BitVec.ofBool f.violation ++ BitVec.ofBool f.overflow).setWidth 32

end Sys2Proof.Machine
end

