-- ==== Sys2Proof/Syntax.lean ====
section
/-! DEFINITION. The operations that have an encoding: the thirteen host commands of R97 and the four
engine requests of R100, one constructor per row of `opcode_table.json`. The operations with no
encoding (R101) are events of the machine and stand in `Machine/`. -/

namespace Sys2Proof

/-- The two encoded interfaces of R90. -/
inductive Port where
  /-- the host command port -/
  | host
  /-- the engine request port -/
  | engine
  deriving DecidableEq, Repr

/-- A host command or an engine request, operands in the order R102 writes them. -/
inductive Instr where
  /-- ENQUEUE(x, y, color), R206 -/
  | enqueue (x y : Coord) (color : Nibble)
  /-- DRAWRECT(x, y, w, h, color), R218 -/
  | drawrect (x y w h : Coord) (color : Nibble)
  /-- CLEARFB(color), R220 -/
  | clearfb (color : Nibble)
  /-- START(MODE), R240 -/
  | start (mode : BitVec 28)
  /-- STOP(), R241 -/
  | stop
  /-- GETHEALTH(), R243 -/
  | gethealth
  /-- GETFRAMECOUNT(), R244 -/
  | getframecount
  /-- REFRESHIFNEEDED(now), R155 -/
  | refreshifneeded (now : Word)
  /-- MEMWRITE(row, col, value), R245 -/
  | memwrite (row col : Coord) (value : Nibble)
  /-- MEMREAD(row, col), R246 -/
  | memread (row col : Coord)
  /-- MEMXFER(row), R247 -/
  | memxfer (row : Coord)
  /-- MEMREFROW(row), R248 -/
  | memrefrow (row : Coord)
  /-- MEMREFALL(), R152 -/
  | memrefall
  /-- WRITE(row, col, value), engine request, R122 -/
  | write (row col : Coord) (value : Nibble)
  /-- READ(row, col), engine request, R124 -/
  | read (row col : Coord)
  /-- XFER(row), engine request, R126 -/
  | xfer (row : Coord)
  /-- REFROW(row), engine request, R128 -/
  | refrow (row : Coord)
  deriving DecidableEq, Repr

namespace Instr

/-- The interface on which the operation is presented (R90, R100). -/
def port : Instr → Port
  | .enqueue _ _ _ => .host
  | .drawrect _ _ _ _ _ => .host
  | .clearfb _ => .host
  | .start _ => .host
  | .stop => .host
  | .gethealth => .host
  | .getframecount => .host
  | .refreshifneeded _ => .host
  | .memwrite _ _ _ => .host
  | .memread _ _ => .host
  | .memxfer _ => .host
  | .memrefrow _ => .host
  | .memrefall => .host
  | .write _ _ _ => .engine
  | .read _ _ => .engine
  | .xfer _ => .engine
  | .refrow _ => .engine

end Instr

end Sys2Proof
end

