-- ==== Sys2Proof/WellFormed.lean ====
section
/-! DEFINITION. When an operation is well formed: checks (2) and (3) of R99 that its operands can still
fail. The must-be-zero fields other than START's `MODE` have no place in `Instr` (the decoder
refuses a word that sets one); the ranges are those of R233 for the host's direct engine commands and
those of R67 for the engine requests. -/

namespace Sys2Proof.Instr

/-- Check (2) of R99 on the one operand that must be zero: START's `MODE`. An operation is encodable
exactly when it passes. -/
def encodable : Instr → Bool
  | .enqueue _ _ _ => true
  | .drawrect _ _ _ _ _ => true
  | .clearfb _ => true
  | .start mode => mode == 0
  | .stop => true
  | .gethealth => true
  | .getframecount => true
  | .refreshifneeded _ => true
  | .memwrite _ _ _ => true
  | .memread _ _ => true
  | .memxfer _ => true
  | .memrefrow _ => true
  | .memrefall => true
  | .write _ _ _ => true
  | .read _ _ => true
  | .xfer _ => true
  | .refrow _ => true

/-- `row < dram_rows`. -/
def rowInRange (c : Config) (row : Coord) : Bool := decide (row.toNat < c.dramRows)

/-- `col < dram_cols`. -/
def colInRange (c : Config) (col : Coord) : Bool := decide (col.toNat < c.dramCols)

/-- Check (3) of R99 (R233) for host commands, and the operand ranges of R122 to R128 for engine
requests. -/
def inRange (c : Config) : Instr → Bool
  | .enqueue _ _ _ => true
  | .drawrect _ _ _ _ _ => true
  | .clearfb _ => true
  | .start _ => true
  | .stop => true
  | .gethealth => true
  | .getframecount => true
  | .refreshifneeded _ => true
  | .memwrite row col _ => rowInRange c row && colInRange c col
  | .memread row col => rowInRange c row && colInRange c col
  | .memxfer row => rowInRange c row
  | .memrefrow row => rowInRange c row
  | .memrefall => true
  | .write row col _ => rowInRange c row && colInRange c col
  | .read row col => rowInRange c row && colInRange c col
  | .xfer row => rowInRange c row
  | .refrow row => rowInRange c row

/-- An operation is well formed for a configuration when no check of R99 before the state gate
fails. -/
def wellFormed (c : Config) (i : Instr) : Bool := i.encodable && i.inRange c

end Sys2Proof.Instr
end

