-- ==== Sys2Proof/Decode.lean ====
section
/-! DEFINITION. Decoding and encoding of the words of both ports (R90 to R100): the fields of formats
W1, W2R and W2N, the length of a command, the opcode map, the must-be-zero checks, and the encoder
written from the same tables. Decoding is total: a word that spells no operation is refused by
name. -/

namespace Sys2Proof

/-- `OP`, bits 31:28 of a first word (R91). -/
def opField (w : Word) : BitVec 4 := w.extractLsb' 28 4

/-- `C`, bits 27:24 of a first word: colour index or cell value (R91). -/
def cField (w : Word) : Nibble := w.extractLsb' 24 4

/-- `Y`, bits 23:12 of a first word: `y` coordinate or DRAM `row` (R91). -/
def yField (w : Word) : Coord := w.extractLsb' 12 12

/-- `X`, bits 11:0 of a first word: `x` coordinate or DRAM `col` (R91). -/
def xField (w : Word) : Coord := w.extractLsb' 0 12

/-- `MODE`, bits 27:0 of START's word (R91). -/
def modeField (w : Word) : BitVec 28 := w.extractLsb' 0 28

/-- Bits 31:24 of DRAWRECT's second word, which must be zero (R92). -/
def topField (w : Word) : BitVec 8 := w.extractLsb' 24 8

/-- `H`, bits 23:12 of DRAWRECT's second word (R92). -/
def hField (w : Word) : Coord := w.extractLsb' 12 12

/-- `W`, bits 11:0 of DRAWRECT's second word (R92). -/
def wField (w : Word) : Coord := w.extractLsb' 0 12

/-- The length of a command is decided by `OP` of the first word alone (R95): `0x2` and `0x8` take a
second word, every other value of `OP`, legal or not, is a one-word command. -/
def hasSecondWord (w : Word) : Bool := opField w == 0x2#4 || opField w == 0x8#4

/-- Why a word or pair of words spells no operation. -/
inductive DecodeReject where
  /-- `OP` in `{0x0, 0xE, 0xF}` on the host port (R98) -/
  | reservedOpcode
  /-- a must-be-zero field is not zero (check (2) of R99) -/
  | mustBeZero
  /-- `OP` is none of the four engine requests (R100) -/
  | notAnEngineRequest
  deriving DecidableEq, Repr

/-- Gives the operation when the must-be-zero fields are zero. -/
def whenZero (zero : Bool) (i : Instr) : Except DecodeReject Instr :=
  if zero then .ok i else .error .mustBeZero

/-- Checks (1) and (2) of R99 on a host command, with the opcode map of R97. The second word counts
only for the two-word commands (R95). -/
def decodeHost (w1 w2 : Word) : Except DecodeReject Instr :=
  match (opField w1).toNat with
  | 0x1 => .ok (.enqueue (xField w1) (yField w1) (cField w1))
  | 0x2 => whenZero (topField w2 == 0)
      (.drawrect (xField w1) (yField w1) (wField w2) (hField w2) (cField w1))
  | 0x3 => whenZero (yField w1 == 0 && xField w1 == 0) (.clearfb (cField w1))
  | 0x4 => whenZero (modeField w1 == 0) (.start (modeField w1))
  | 0x5 => whenZero (modeField w1 == 0) .stop
  | 0x6 => whenZero (modeField w1 == 0) .gethealth
  | 0x7 => whenZero (modeField w1 == 0) .getframecount
  | 0x8 => whenZero (modeField w1 == 0) (.refreshifneeded w2)
  | 0x9 => .ok (.memwrite (yField w1) (xField w1) (cField w1))
  | 0xA => whenZero (cField w1 == 0) (.memread (yField w1) (xField w1))
  | 0xB => whenZero (cField w1 == 0 && xField w1 == 0) (.memxfer (yField w1))
  | 0xC => whenZero (cField w1 == 0 && xField w1 == 0) (.memrefrow (yField w1))
  | 0xD => whenZero (modeField w1 == 0) .memrefall
  | _ => .error .reservedOpcode

/-- The engine request word (R100): `C` is zero except for WRITE, `X` is zero for XFER and REFROW. -/
def decodeEngine (w : Word) : Except DecodeReject Instr :=
  match (opField w).toNat with
  | 0x9 => .ok (.write (yField w) (xField w) (cField w))
  | 0xA => whenZero (cField w == 0) (.read (yField w) (xField w))
  | 0xB => whenZero (cField w == 0 && xField w == 0) (.xfer (yField w))
  | 0xC => whenZero (cField w == 0 && xField w == 0) (.refrow (yField w))
  | _ => .error .notAnEngineRequest

/-- The decoder of either port. -/
def decode (p : Port) (w1 w2 : Word) : Except DecodeReject Instr :=
  match p with
  | .host => decodeHost w1 w2
  | .engine => decodeEngine w1

/-- A first word, format W1 (R91). -/
def mkW1 (op : BitVec 4) (c : Nibble) (y x : Coord) : Word := op ++ c ++ y ++ x

/-- DRAWRECT's second word, format W2R (R92). -/
def mkW2R (h w : Coord) : Word := (0 : BitVec 8) ++ h ++ w

/-- The word or words of an operation (R91, R92, R97, R100). The second component is zero for an
operation of one word. -/
def encode : Instr → Word × Word
  | .enqueue x y color => (mkW1 0x1 color y x, 0)
  | .drawrect x y w h color => (mkW1 0x2 color y x, mkW2R h w)
  | .clearfb color => (mkW1 0x3 color 0 0, 0)
  | .start mode => ((0x4 : BitVec 4) ++ mode, 0)
  | .stop => (mkW1 0x5 0 0 0, 0)
  | .gethealth => (mkW1 0x6 0 0 0, 0)
  | .getframecount => (mkW1 0x7 0 0 0, 0)
  | .refreshifneeded now => (mkW1 0x8 0 0 0, now)
  | .memwrite row col value => (mkW1 0x9 value row col, 0)
  | .memread row col => (mkW1 0xA 0 row col, 0)
  | .memxfer row => (mkW1 0xB 0 row 0, 0)
  | .memrefrow row => (mkW1 0xC 0 row 0, 0)
  | .memrefall => (mkW1 0xD 0 0 0, 0)
  | .write row col value => (mkW1 0x9 value row col, 0)
  | .read row col => (mkW1 0xA 0 row col, 0)
  | .xfer row => (mkW1 0xB 0 row 0, 0)
  | .refrow row => (mkW1 0xC 0 row 0, 0)

/-- The operation the host port's decoder reads from the words laid out in `w`, the first in bits
31:0 and the second in bits 63:32, every bit above `nbits` zero. A word of the engine port is the same
word on the host port (R100), so it decodes here to the host's direct engine command. -/
def decodeTableWord (nbits w : Nat) : Option Instr :=
  let v := w % 2 ^ nbits
  (decodeHost (BitVec.ofNat 32 v) (BitVec.ofNat 32 (v / 2 ^ 32))).toOption

end Sys2Proof
end

