-- ==== Sys2Proof/Machine/Operands.lean ====
section
/-! DEFINITION. How operands are formed and addresses computed: `Map` (R61), the linear cell address,
the classification of lines (R161, R162), the ring index arithmetic (R206, R212), the 13-bit sums of a
rectangle (R218), the request words (R100) and the elapsed time of the refresh check (R155). -/

namespace Sys2Proof.Machine

/-- `linear_index = y * width + x` (R61). -/
def linearIndex (c : Config) (x y : Nat) : Nat := y * c.width + x

/-- `Map(x, y)`: the pair `(row, col)` (R61). -/
def mapPixel (c : Config) (x y : Nat) : Nat × Nat :=
  (linearIndex c x y / c.dramCols, linearIndex c x y % c.dramCols)

/-- The linear address under which the cell `(row, col)` is held: `row * dram_cols + col` (R63). -/
def cellAddr (c : Config) (row col : Nat) : Nat := row * c.dramCols + col

/-- `row < dram_rows` and `col < dram_cols` (R60, R67). -/
def inArray (c : Config) (row col : Nat) : Bool :=
  decide (row < c.dramRows) && decide (col < c.dramCols)

/-- `row < dram_rows` (R67, R233). -/
def inRows (c : Config) (row : Nat) : Bool := decide (row < c.dramRows)

/-- The bounds check of ENQUEUE: `x < width` and `y < height` (R64, R206). -/
def inBounds (c : Config) (x y : Nat) : Bool := decide (x < c.width) && decide (y < c.height)

/-- The index after `i` in the ring, with the wrap at `RING_SLOTS` (R206, R212). -/
def nextIndex (c : Config) (i : Nat) : Nat := if i + 1 = c.ringSlots then 0 else i + 1

/-- `(write_index - read_index) mod RING_SLOTS` (R28). -/
def occupancy (c : Config) (writeIndex readIndex : Nat) : Nat :=
  (writeIndex + c.ringSlots - readIndex) % c.ringSlots

/-- `active(L)`: inclusive lower bound, exclusive upper bound (R161). -/
def activeLine (c : Config) (L : Nat) : Bool :=
  decide (c.vBlankLines ≤ L) && decide (L < c.vBlankLines + c.visibleHeight)

/-- The sub-ranges of a frame (R162). -/
inductive LineClass where
  | frontPorch | syncPulse | backPorch | active
  deriving DecidableEq, Repr

/-- `class(L)` (R162); lines after the active range are front porch. -/
def lineClass (c : Config) (L : Nat) : LineClass :=
  if L < c.vFpLines then .frontPorch
  else if L < c.vFpLines + c.vSyncLines then .syncPulse
  else if L < c.vBlankLines then .backPorch
  else if L < c.vBlankLines + c.visibleHeight then .active
  else .frontPorch

/-- `current_line` after a tick is taken (R163). -/
def nextLine (c : Config) (L : Nat) : Nat := if L + 1 = c.totalLines then 0 else L + 1

/-- `framebuffer_row` after an active line is entered, with the wrap at `visible_height` (R191). -/
def nextFramebufferRow (c : Config) (r : Nat) : Nat := if r + 1 = c.visibleHeight then 0 else r + 1

/-- `x + i` or `y + j` of a rectangle, in 13 bits without wrap (R218). -/
def rectSum (a : Coord) (i : BitVec 12) : Nat := (a.setWidth 13 + i.setWidth 13).toNat

/-- `elapsed <- (now - last_refresh_time) mod 2^32` (R155). -/
def elapsedTime (now last : Word) : Nat := (now - last).toNat

/-- The request word `0x9 ++ value ++ row ++ col` (R100). -/
def writeRequest (row col : Nat) (value : Nibble) : Word :=
  mkW1 0x9 value (BitVec.ofNat 12 row) (BitVec.ofNat 12 col)

/-- The request word `0xB ++ 0x0 ++ row ++ 0x000` (R100). -/
def xferRequest (row : Nat) : Word := mkW1 0xB 0 (BitVec.ofNat 12 row) 0

/-- The request word `0xC ++ 0x0 ++ row ++ 0x000` (R100). -/
def refrowRequest (row : Nat) : Word := mkW1 0xC 0 (BitVec.ofNat 12 row) 0

/-- `rsp_status` as the two bits of the port (R96). -/
def statusCode : Status → BitVec 2
  | .ok => 0
  | .fail => 1
  | .illegal => 2
  | .refused => 3

end Sys2Proof.Machine
end

