-- ==== Sys2Proof/Machine/Ops.lean ====
section
/-! DEFINITION. The named operations over the state that the meanings and the sequencers share: the
cells of the DRAM array and the chip's responses (R70 to R78), the ring (R206, R212), the request lines
(R130, R132), the completion of a command (R96) with its failing statuses (R263), and the entry of a
line, the one thing the taking of an event is here: it saves nothing, masks nothing and needs no
vector (R269, R164). -/

namespace Sys2Proof.Machine

/-- The outcome of a step or meaning. -/
abbrev Result := Host.Outcome State Fault Refusal

/-- Goes on from a next state and stops where the first part stopped. -/
def andThen (r : Result) (f : State → Result) : Result :=
  match r with
  | .next s => f s
  | .fault e => .fault e
  | .refused e => .refused e

/-! ## The cells of the array -/

/-- The value held under a linear address, `none` where the cell is `UNDEF` (R71). -/
def cellLook (a : Nat) : Memory → Option Nibble
  | [] => none
  | (b, v) :: m => if a = b then some v else cellLook a m

/-- Stores a value under a linear address, keeping the addresses strictly rising. -/
def cellPut (a : Nat) (v : Nibble) : Memory → Memory
  | [] => [(a, v)]
  | (b, u) :: m =>
    if a < b then (a, v) :: (b, u) :: m
    else if a = b then (a, v) :: m
    else (b, u) :: cellPut a v m

/-- `Cell[row][col]` (R39): a value or `UNDEF`. -/
def cellAt (s : State) (row col : Nat) : Option Nibble :=
  cellLook (cellAddr s.cfg row col) s.chip.cells

/-- `Cell[row][col] <- value`; no other cell changes (R72). -/
def setCell (row col : Nat) (value : Nibble) (s : State) : State :=
  { s with chip := { s.chip with cells := cellPut (cellAddr s.cfg row col) value s.chip.cells } }

/-! ## The chip's responses -/

/-- `row_stamp[row]` (R39). -/
def stampAt (s : State) (row : Nat) : Nat := s.chip.rowStamp.getD row 0

/-- `row_stamp[row] <- t` (R75, R76). -/
def restartRetention (row : Nat) (s : State) : State :=
  { s with chip := { s.chip with rowStamp := s.chip.rowStamp.set row s.t } }

/-- The restart an access of the row performs when `ACTIVATION_REFRESHES` is true (R72, R75). -/
def activationRestart (row : Nat) (s : State) : State :=
  if s.cfg.activationRefreshes then restartRetention row s else s

/-- What the chip drives on `DQ` when the cell is read: the cell, or a draw where it is `UNDEF` (R71,
R73). -/
def readCell (s : State) (row col : Nat) : Nibble :=
  (cellAt s row col).getD (Config.any4 s.draws)

/-- The block samples `DQ` while the chip drives it with the cell (R73). -/
def sampleCell (s : State) : State :=
  { s with eng := { s.eng with val := readCell s s.eng.row s.eng.col } }

/-- `Sam[i] <- Cell[row][i]` for every `i < dram_cols`, `sam_ptr <- 0`; `SD` is unchanged (R74). -/
def loadSam (row : Nat) (s : State) : State :=
  { s with chip := { s.chip with
      sam := (List.range s.cfg.dramCols).map (fun i => cellAt s row i), samPtr := 0 } }

/-- `Sam[i]` (R39): a value or `UNDEF`. -/
def samAt (s : State) (i : Nat) : Option Nibble := s.chip.sam.getD i none

/-- A change of `SC` from 0 to 1: `SD <- Sam[sam_ptr]`, then
`sam_ptr <- (sam_ptr + 1) mod dram_cols` (R77). -/
def serialClock (s : State) : State :=
  { s with chip := { s.chip with
      sd := samAt s s.chip.samPtr, samPtr := (s.chip.samPtr + 1) % s.cfg.dramCols } }

/-- Row `row` is expired when `t - row_stamp[row] > RETENTION` (R75). -/
def expired (s : State) (row : Nat) : Bool := decide (s.t - stampAt s row > s.cfg.retention)

/-- The decay step: any subset of the cells of the expired rows becomes `UNDEF`, and nothing else
changes (R75). Which cells, is a free value. -/
def decay (s : State) : State :=
  { s with chip := { s.chip with
      cells := s.chip.cells.filter fun p =>
        !(expired s (p.1 / s.cfg.dramCols) &&
          Config.decays s.draws (p.1 / s.cfg.dramCols) (p.1 % s.cfg.dramCols)) } }

/-- The chip after an incomplete strobe sequence (R292): every cell and every SAM entry `UNDEF`, `sam_ptr`
and `SD` unspecified. The retention stamps stay (R293). -/
def scrambleChip (s : State) : State :=
  { s with chip := { s.chip with
      cells := []
      sam := List.replicate s.cfg.dramCols none
      samPtr := Config.freeSamPtr s.draws % s.cfg.dramCols
      sd := Config.freeSd s.draws } }

/-- The sync output `HSYNC` as the monitor sees it: the register while `running = 1`, and 0 while
`running = 0` (R167, log 20). -/
def hsyncOut (s : State) : Bool := s.host.running && s.line.hsync

/-- The sync output `VSYNC`, in the same way (R167, log 20). -/
def vsyncOut (s : State) : Bool := s.host.running && s.line.vsync

/-- What the video path sees: `SD` while `SE = 1`, blank (`none`) while `SE = 0` (R78). -/
def video (s : State) : Option (Option Nibble) := if s.line.se then some s.chip.sd else none

/-- The data bus (R134): what the block drives, or what the chip drives while `OE = 1`, or undriven. -/
def dqBus (s : State) : Option Nibble :=
  if s.pins.dqDrive then some s.pins.dq
  else if s.pins.oe then some (readCell s s.eng.row s.eng.col)
  else none

/-! ## The ring -/

/-- `ring[i]` (R26). -/
def ringAt (s : State) (i : Nat) : PixelUpdate := s.host.ring.getD i PixelUpdate.zero

/-- The body of ENQUEUE (R206): the bounds check, the full test, the store and the publication. The
status is the answer of a lone ENQUEUE. -/
def enqueuePixel (x y : Nat) (color : Nibble) (s : State) : State × Status :=
  if inBounds s.cfg x y then
    if nextIndex s.cfg s.host.writeIndex = s.frame.readIndex then (raiseOverflow s, .fail)
    else
      ({ s with host := { s.host with
          ring := s.host.ring.set s.host.writeIndex ⟨BitVec.ofNat 12 x, BitVec.ofNat 12 y, color⟩
          writeIndex := nextIndex s.cfg s.host.writeIndex } }, .ok)
  else (s, .fail)

/-! ## The request lines -/

/-- The word on the winning request line: line, then frame, then host sequencer (R132). -/
def winningRequest (r : Requests) : Option Word :=
  match r.ls with
  | some w => some w
  | none =>
    match r.fs with
    | some w => some w
    | none => r.hs

/-- The winning requester (R132). With no line raised it is the host sequencer (log 8). -/
def winner (r : Requests) : Owner :=
  if r.ls.isSome then .ls else if r.fs.isSome then .fs else .hs

/-- The granted requester drops its line (R130). -/
def dropLine (o : Owner) (r : Requests) : Requests :=
  match o with
  | .ls => { r with ls := none }
  | .fs => { r with fs := none }
  | .hs => { r with hs := none }

/-- The host sequencer raises its request line (R130). -/
def hostRequest (w : Word) (s : State) : State := { s with req := { s.req with hs := some w } }

/-! ## Completing a command -/

/-- `respond(status, data)`: completes the current host command (R11, R94, R96). -/
def respond (status : Status) (data : Word) (s : State) : State :=
  { s with host := { s.host with
      phase := .idle, rspValid := true, rspStatus := status, rspData := data } }

/-- The answer of a word that spells no command (R98, R99, R263). -/
def answerIllegal (s : State) : State := respond .illegal 0 s

/-- The answer of a legal command in a state that forbids it (R232, R263). -/
def answerRefused (s : State) : State := respond .refused 0 s

/-- The state gate of the commands allowed only while `running = 0` (R232). -/
def gated (s : State) (f : State → State) : State := if s.host.running then answerRefused s else f s

/-- The host sequencer enters a multi-cycle phase, its latches holding the words of the command and
its loop counters zero (R231, R35). -/
def enterHostPhase (p : HsPhase) (i : Instr) (s : State) : State :=
  { s with host := { s.host with
      phase := p, cmd := (encode i).1, arg := (encode i).2, i := 0, j := 0 } }

/-- `hs_i <- i`, `hs_j <- j` (R35). -/
def setCounters (i j : BitVec 12) (s : State) : State :=
  { s with host := { s.host with i := i, j := j } }

/-- `cmd_ready`: forced to 0 while `rst = 1` (R290), else 1 exactly when `hs_phase` is `HS_IDLE` or
`HS_WORD2` (R94). -/
def cmdReady (rst : Bool) (s : State) : Bool :=
  !rst && decide (s.host.phase = .idle ∨ s.host.phase = .word2)

/-! ## Taking an event -/

/-- ENTERLINE(`L`) (R164). -/
def enterLine (L : Nat) (s : State) : State :=
  { s with line := { s.line with
      inVblank := !activeLine s.cfg L
      vsync := decide (lineClass s.cfg L = .syncPulse)
      hsync := true
      phase := .hsync
      dwell := s.cfg.hSyncClks } }

end Sys2Proof.Machine
end

