-- ==== Sys2Proof/Machine/Direct.lean ====
section
/-! DEFINITION. Direct engine access while stopped: MEMWRITE (R245), MEMREAD (R246), MEMXFER (R247) and
MEMREFROW (R248). The command word is passed to the engine unchanged (R100) and answered at `done`. -/

namespace Sys2Proof.Machine

/-- Check (3) of R99 (R233), then the state gate (R232), then `hs_phase <- HS_MEMOP` with the request
raised. -/
def directAccess (i : Instr) (s : State) : State :=
  if i.inRange s.cfg then gated s fun s => hostRequest (encode i).1 (enterHostPhase .memop i s)
  else answerIllegal s

/-- MEMWRITE(row, col, value) (R245). -/
def execMemwrite (row col : Coord) (value : Nibble) (s : State) : Result :=
  .next (directAccess (.memwrite row col value) s)

/-- MEMREAD(row, col) (R246). -/
def execMemread (row col : Coord) (s : State) : Result := .next (directAccess (.memread row col) s)

/-- MEMXFER(row) (R247). -/
def execMemxfer (row : Coord) (s : State) : Result := .next (directAccess (.memxfer row) s)

/-- MEMREFROW(row) (R248). -/
def execMemrefrow (row : Coord) (s : State) : Result := .next (directAccess (.memrefrow row) s)

/-- The answer at `done`: MEMREAD returns the value the engine read, the others 0 (R245 to R248). -/
def memopAnswer (value : Nibble) (s : State) : State :=
  respond .ok (if opField s.host.cmd = 0xA#4 then value.setWidth 32 else 0) s

end Sys2Proof.Machine
end

