-- ==== Sys2Proof/Machine/Drawing.lean ====
section
/-! DEFINITION. The Drawing commands: ENQUEUE (R206), DRAWRECT (R218) and CLEARFB (R220), with the
steps of the phases `HS_RECT` and `HS_CLEAR`. -/

namespace Sys2Proof.Machine

/-- ENQUEUE(x, y, color) (R206). -/
def execEnqueue (x y : Coord) (color : Nibble) (s : State) : Result :=
  let r := enqueuePixel x.toNat y.toNat color s
  .next (respond r.2 0 r.1)

/-- DRAWRECT(x, y, w, h, color) (R218): an empty rectangle has no step to perform and answers at its
execution edge (the model's choice, log 26); any other is drawn pixel by pixel in `HS_RECT`. -/
def execDrawrect (x y w h : Coord) (color : Nibble) (s : State) : Result :=
  if w = 0 ∨ h = 0 then .next (respond .ok 0 s)
  else .next (enterHostPhase .rect (.drawrect x y w h color) s)

/-- The counters move on to the next pixel of the rectangle: columns inner, rows outer (R218). -/
def rectNext (s : State) : State :=
  if s.host.i.toNat + 1 < (wField s.host.arg).toNat then
    setCounters (s.host.i + 1) s.host.j s
  else if s.host.j.toNat + 1 < (hField s.host.arg).toNat then
    setCounters 0 (s.host.j + 1) s
  else respond .ok 0 s

/-- One step of `HS_RECT` (R218): the body of ENQUEUE on the current pixel, its status discarded. -/
def rectStep (s : State) : State :=
  rectNext (enqueuePixel (rectSum (xField s.host.cmd) s.host.i)
    (rectSum (yField s.host.cmd) s.host.j) (cField s.host.cmd) s).1

/-- The WRITE of the sweep's current cell (R220). -/
def clearRequest (s : State) : State :=
  hostRequest (writeRequest s.host.j.toNat s.host.i.toNat (cField s.host.cmd)) s

/-- CLEARFB(color) (R220, R221); the first WRITE is requested as the phase is entered. -/
def execClearfb (color : Nibble) (s : State) : Result :=
  .next (gated s fun s =>
    if s.cfg.dramRows = 0 ∨ s.cfg.dramCols = 0 then respond .ok 0 s
    else clearRequest (enterHostPhase .clear (.clearfb color) s))

/-- The `done` of a WRITE of the sweep: the next cell in row-major order, or the answer (R220). -/
def clearNext (s : State) : State :=
  if s.host.i.toNat + 1 < s.cfg.dramCols then
    clearRequest (setCounters (s.host.i + 1) s.host.j s)
  else if s.host.j.toNat + 1 < s.cfg.dramRows then
    clearRequest (setCounters 0 (s.host.j + 1) s)
  else respond .ok 0 s

end Sys2Proof.Machine
end

