-- ==== Sys2Proof/Machine/Engine.lean ====
section
/-! DEFINITION. The memory protocol engine (R120 to R137): the phase tables of WRITE, READ, XFER and
REFROW as data (dwell, next phase, pin changes at entry, effect at the end of the dwell), the advance of
the operation in progress by one `clk` edge, and the meanings of the four engine requests, which are
the engine's grant (R130). -/

namespace Sys2Proof.Machine

/-- The phase after a phase of the tables of R122, R124, R126 and R128. -/
def nextPhase : EngPhase → EngPhase
  | .idle => .idle
  | .wr0 => .wr1
  | .wr1 => .wr2
  | .wr2 => .wr3
  | .wr3 => .wr4
  | .wr4 => .wr5
  | .wr5 => .wr6
  | .wr6 => .idle
  | .rd0 => .rd1
  | .rd1 => .rd2
  | .rd2 => .rd3
  | .rd3 => .rd4
  | .rd4 => .rd5
  | .rd5 => .idle
  | .xf0 => .xf1
  | .xf1 => .xf2
  | .xf2 => .xf3
  | .xf3 => .xf4
  | .xf4 => .idle
  | .rf0 => .rf1
  | .rf1 => .rf2
  | .rf2 => .rf3
  | .rf3 => .idle

/-- The column "dwell" of the phase tables. -/
def phaseDwell (c : Config) : EngPhase → Nat
  | .idle => 0
  | .wr0 => c.tAsr
  | .wr1 => c.tRcd
  | .wr2 => c.tDs
  | .wr3 => c.tDh
  | .wr4 => 1
  | .wr5 => 1
  | .wr6 => c.tRp
  | .rd0 => c.tAsr
  | .rd1 => c.tRcd
  | .rd2 => c.tCac
  | .rd3 => 1
  | .rd4 => 1
  | .rd5 => c.tRp
  | .xf0 => c.tAsr
  | .xf1 => c.tRtd
  | .xf2 => c.tXfer
  | .xf3 => 1
  | .xf4 => c.tRp
  | .rf0 => c.tCsr
  | .rf1 => c.tRasRef
  | .rf2 => 1
  | .rf3 => c.tRp

/-- The first phase of an operation. -/
def firstPhase : EngOp → EngPhase
  | .write => .wr0
  | .read => .rd0
  | .xfer => .xf0
  | .refrow => .rf0

/-- `ADDR <- row`. -/
def driveRow (s : State) : State := { s with pins := { s.pins with addr := s.eng.row } }

/-- `ADDR <- col`. -/
def driveCol (s : State) : State := { s with pins := { s.pins with addr := s.eng.col } }

/-- `RAS <- b`. -/
def setRas (b : Bool) (s : State) : State := { s with pins := { s.pins with ras := b } }

/-- `CAS <- b`. -/
def setCas (b : Bool) (s : State) : State := { s with pins := { s.pins with cas := b } }

/-- `OE <- b`. -/
def setOe (b : Bool) (s : State) : State := { s with pins := { s.pins with oe := b } }

/-- `TRG <- b`. -/
def setTrg (b : Bool) (s : State) : State := { s with pins := { s.pins with trg := b } }

/-- `WE <- 1`, `dq_drive <- 1`, `DQ <- value` (WR2). -/
def driveData (s : State) : State :=
  { s with pins := { s.pins with we := true, dqDrive := true, dq := s.eng.val } }

/-- `WE <- 0`, `dq_drive <- 0` (WR4). -/
def releaseData (s : State) : State := { s with pins := { s.pins with we := false, dqDrive := false } }

/-- The address multiplexer with a hold of zero cycles: `ADDR <- col` at the entry of WR1 or RD1
already (R133). -/
def holdZero (s : State) : State := if s.cfg.tRah = 0 then driveCol s else s

/-- The column "pin changes at entry" of the phase tables, with the chip's response at that instant:
the restart of the row's retention at the row strobe (R72 to R74, R76). -/
def phaseEntry (p : EngPhase) (s : State) : State :=
  match p with
  | .idle => s
  | .wr0 => driveRow s
  | .wr1 => holdZero (activationRestart s.eng.row (setRas true s))
  | .wr2 => driveData (setCas true s)
  | .wr3 => s
  | .wr4 => releaseData s
  | .wr5 => setCas false s
  | .wr6 => setRas false s
  | .rd0 => driveRow s
  | .rd1 => holdZero (activationRestart s.eng.row (setRas true s))
  | .rd2 => setOe true (setCas true s)
  | .rd3 => setOe false s
  | .rd4 => setCas false s
  | .rd5 => setRas false s
  | .xf0 => driveRow s
  | .xf1 => activationRestart s.eng.row (setRas true s)
  | .xf2 => setTrg true s
  | .xf3 => setTrg false s
  | .xf4 => setRas false s
  | .rf0 => setCas true (driveRow s)
  | .rf1 => restartRetention s.eng.row (setRas true s)
  | .rf2 => setRas false s
  | .rf3 => setCas false s

/-- The effects at the end of a dwell: the store of WR2 (R72), the sample of RD2 (R73) and the SAM load
of XF2 (R74). -/
def phaseEnd (p : EngPhase) (s : State) : State :=
  match p with
  | .wr2 => setCell s.eng.row s.eng.col s.eng.val s
  | .rd2 => sampleCell s
  | .xf2 => loadSam s.eng.row s
  | .idle => s
  | .wr0 => s
  | .wr1 => s
  | .wr3 => s
  | .wr4 => s
  | .wr5 => s
  | .wr6 => s
  | .rd0 => s
  | .rd1 => s
  | .rd3 => s
  | .rd4 => s
  | .rd5 => s
  | .xf0 => s
  | .xf1 => s
  | .xf3 => s
  | .xf4 => s
  | .rf0 => s
  | .rf1 => s
  | .rf2 => s
  | .rf3 => s

/-- Enters a phase; a phase of dwell 0 takes place at the same edge as the next one (R121). The first
argument bounds how many phases are passed at one edge; no operation has more than seven. -/
def enterPhase : Nat → EngPhase → State → State
  | 0, p, s => { s with eng := { s.eng with phase := p, dwell := phaseDwell s.cfg p } }
  | n + 1, p, s =>
    if phaseDwell s.cfg p = 0 ∧ p ≠ .idle then
      enterPhase n (nextPhase p) (phaseEnd p (phaseEntry p s))
    else
      let s1 := phaseEntry p s
      { s1 with eng := { s1.eng with phase := p, dwell := phaseDwell s.cfg p } }

/-- More phases than an operation has. -/
def phaseFuel : Nat := 8

/-- The phases in which `ADDR` changes from row to column after `T_RAH` cycles (R122, R124). -/
def muxPhase (p : EngPhase) : Bool := decide (p = .wr1 ∨ p = .rd1)

/-- `ADDR <- col` at the edge at which the phase has lasted `T_RAH` cycles (R133). -/
def addressMux (s : State) : State :=
  if muxPhase s.eng.phase && decide (phaseDwell s.cfg s.eng.phase - s.eng.dwell + 1 = s.cfg.tRah)
  then driveCol s else s

/-- One `clk` edge of the operation in progress; the idle engine keeps its pins (R121). -/
def engineAdvance (s : State) : State :=
  if s.eng.phase = .idle then s
  else if s.eng.dwell ≤ 1 then
    enterPhase phaseFuel (nextPhase s.eng.phase) (phaseEnd s.eng.phase (addressMux s))
  else
    let s1 := addressMux s
    { s1 with eng := { s1.eng with dwell := s1.eng.dwell - 1 } }

/-- The requester told of completion at this edge: the owner of the operation whose last phase ends
(R130). -/
def doneOwner (s : State) : Option Owner :=
  if s.eng.phase ≠ .idle ∧ (engineAdvance s).eng.phase = .idle then some s.eng.owner else none

/-- The grant (R130): the engine latches the operation, its operands and its owner, the granted
requester drops its line, and the first phase is entered. -/
def grant (op : EngOp) (row col : Nat) (value : Nibble) (s : State) : State :=
  enterPhase phaseFuel (firstPhase op)
    { s with
      eng := { s.eng with op := op, row := row, col := col, val := value, owner := winner s.req }
      req := dropLine (winner s.req) s.req }

/-- The engine handed a request: refused outside the array (R67), granted when the engine is idle, and
otherwise waiting, the line held (R130, R131). -/
def acceptRequest (inside : Bool) (op : EngOp) (row col : Coord) (value : Nibble) (s : State) :
    Result :=
  if inside then
    if s.eng.phase = .idle then .next (grant op row.toNat col.toNat value s) else .next s
  else .refused .addressOutsideArray

/-- WRITE(row, col, value) (R122). -/
def execWrite (row col : Coord) (value : Nibble) (s : State) : Result :=
  acceptRequest (inArray s.cfg row.toNat col.toNat) .write row col value s

/-- READ(row, col) (R124). -/
def execRead (row col : Coord) (s : State) : Result :=
  acceptRequest (inArray s.cfg row.toNat col.toNat) .read row col 0 s

/-- XFER(row) (R126); the column field of its word is zero (R100). -/
def execXfer (row : Coord) (s : State) : Result :=
  acceptRequest (inRows s.cfg row.toNat) .xfer row 0 0 s

/-- REFROW(row) (R128); the column field of its word is zero (R100). -/
def execRefrow (row : Coord) (s : State) : Result :=
  acceptRequest (inRows s.cfg row.toNat) .refrow row 0 0 s

end Sys2Proof.Machine
end

