-- ==== Sys2Proof/Machine/Frame.lean ====
section
/-! DEFINITION. The frame sequencer (R34): the drain of the ring (DRAINPOP, drain write and DRAIN,
R212 to R214) followed by FRAMEREFRESH (R154). It acts at decision edges: the edge that starts a run
and each edge at which its own engine operation completes. -/

namespace Sys2Proof.Machine

/-- The frame sequencer raises its request line (R130). -/
def frameRequest (w : Word) (s : State) : State := { s with req := { s.req with fs := some w } }

/-- DRAINPOP (R212): the oldest entry is copied out, then its slot is freed. -/
def drainPop (s : State) : State :=
  { s with frame := { s.frame with
      entry := ringAt s s.frame.readIndex
      readIndex := nextIndex s.cfg s.frame.readIndex
      drained := s.frame.drained + 1 } }

/-- The drain write (R213): the request `WRITE(Map(x, y), color)` for the entry just popped. -/
def drainWrite (s : State) : State :=
  frameRequest
    (writeRequest (mapPixel s.cfg s.frame.entry.x.toNat s.frame.entry.y.toNat).1
      (mapPixel s.cfg s.frame.entry.x.toNat s.frame.entry.y.toNat).2 s.frame.entry.color) s

/-- A decision of FRAMEREFRESH (R154): the next row in ascending order (R151), or the end of the run. -/
def refreshDecision (s : State) : State :=
  if s.frame.row < s.cfg.dramRows then
    frameRequest (refrowRequest s.frame.row)
      { s with frame := { s.frame with row := s.frame.row + 1 } }
  else { s with frame := { s.frame with phase := .idle } }

/-- The drain gives way to the refresh at the same edge (R214). -/
def beginRefresh (s : State) : State :=
  refreshDecision { s with frame := { s.frame with phase := .refresh, row := 0 } }

/-- A decision of DRAIN (R214). `writeIndex` is the value `write_index` held before the edge (R268). -/
def drainDecision (writeIndex : Nat) (s : State) : State :=
  if s.frame.readIndex ≠ writeIndex ∧ s.frame.drained < s.cfg.drainBudget then
    drainWrite (drainPop s)
  else beginRefresh s

/-- A decision edge of the frame sequencer. -/
def frameDecision (writeIndex : Nat) (s : State) : State :=
  match s.frame.phase with
  | .idle => s
  | .drain => drainDecision writeIndex s
  | .refresh => refreshDecision s

/-- The start of a frame-sequencer run, with its first decision at the same edge (R165, R240). -/
def startFrameRun (writeIndex : Nat) (s : State) : State :=
  frameDecision writeIndex { s with frame := { s.frame with phase := .drain, drained := 0 } }

/-- The frame sequencer at a `clk` edge: a decision when its operation completes (R213, R154). A run
started at this very edge (`wasIdle`) has had its decision. -/
def frameAdvance (wasIdle done : Bool) (writeIndex : Nat) (s : State) : State :=
  if done && !wasIdle then frameDecision writeIndex s else s

end Sys2Proof.Machine
end

