-- ==== Sys2Proof/Machine/Line.lean ====
section
/-! DEFINITION. The timing generator (R160 to R172, R176) and the pixel streaming pipeline (R190 to
R195): the line sequencer's advance by one `clk` edge, the line timer, LINETICK with its overrun
branches, and FRAMEBOUNDARY. -/

namespace Sys2Proof.Machine

/-- The line sequencer asks for the row of the active line and advances the row counter (R191). -/
def beginTransfer (s : State) : State :=
  { s with
    line := { s.line with
      hsync := false
      phase := .xfer
      framebufferRow := nextFramebufferRow s.cfg s.line.framebufferRow }
    req := { s.req with ls := some (xferRequest s.line.framebufferRow) } }

/-- The first edge of a pixel pulse: `SC <- 1` for `SC_HIGH` cycles, which advances the SAM (R194, R77).
That `ls_dwell` counts the half pulse and not the whole phase is the model's choice (log 25). -/
def beginPulse (s : State) : State :=
  serialClock { s with line := { s.line with sc := true, scHalf := false, dwell := s.cfg.scHigh } }

/-- The entry of `LS_STREAM`; the first pulse begins at that edge (R193). -/
def beginStream (s : State) : State :=
  beginPulse { s with line := { s.line with phase := .stream, pixCount := 0, se := true } }

/-- The end of `LS_HSYNC` (R164): on to the pipeline on an active line, idle otherwise. -/
def endHsync (s : State) : State :=
  if activeLine s.cfg s.line.currentLine then beginTransfer s
  else { s with line := { s.line with hsync := false, phase := .idle } }

/-- The transfer's `done` (R192): the back porch, which may last no cycle (R193). -/
def endTransfer (s : State) : State :=
  if s.cfg.hBpClks = 0 then beginStream s
  else { s with line := { s.line with phase := .bp, dwell := s.cfg.hBpClks } }

/-- The end of the high half of a pulse: `SC <- 0` for `SC_LOW` cycles (R194), which `ls_dwell` counts
(the model's choice, log 25). -/
def endHighHalf (s : State) : State :=
  { s with line := { s.line with sc := false, scHalf := true, dwell := s.cfg.scLow } }

/-- The end of a pulse: the next one, or the end of the line (R194, R195). -/
def endPulse (s : State) : State :=
  if s.cfg.visibleWidth ≤ s.line.pixCount + 1 then
    { s with line := { s.line with
        pixCount := s.line.pixCount + 1, se := false, sc := false, phase := .idle } }
  else beginPulse { s with line := { s.line with pixCount := s.line.pixCount + 1 } }

/-- One cycle less to dwell. -/
def lineWait (s : State) : State := { s with line := { s.line with dwell := s.line.dwell - 1 } }

/-- What the end of a dwelt phase of the line sequencer does. -/
def endLinePhase (s : State) : State :=
  match s.line.phase with
  | .idle => s
  | .hsync => endHsync s
  | .xfer => s
  | .bp => beginStream s
  | .stream => if s.line.scHalf then endPulse s else endHighHalf s

/-- One `clk` edge of the line sequencer (R164, R190 to R195). `done` says that its transfer completes
at this edge. -/
def lineAdvance (done : Bool) (s : State) : State :=
  match s.line.phase with
  | .idle => s
  | .xfer => if done then endTransfer s else s
  | _ => if s.line.dwell ≤ 1 then endLinePhase s else lineWait s

/-- FRAMEBOUNDARY (R165, R176). -/
def frameBoundary (writeIndex : Nat) (s : State) : State :=
  let s1 := { s with line := { s.line with
    frameCount := s.line.frameCount + 1, framebufferRow := 0 } }
  if s1.frame.phase = .idle then startFrameRun writeIndex s1 else raiseViolation s1

/-- A taken tick: the line counter advances, the wrap is the frame boundary, the line is entered
(R163). -/
def takeTick (writeIndex : Nat) (s : State) : State :=
  let s1 := { s with line := { s.line with currentLine := nextLine s.cfg s.line.currentLine } }
  enterLine s1.line.currentLine
    (if s1.line.currentLine = 0 then frameBoundary writeIndex s1 else s1)

/-- The wrap of the line timer at this edge (R31, R163). -/
def newTick (s : State) : Bool := decide (s.line.hCount + 1 = s.cfg.linePeriod)

/-- The line timer counts one cycle (R31). -/
def countCycle (s : State) : State :=
  { s with line := { s.line with hCount := if newTick s then 0 else s.line.hCount + 1 } }

/-- `tick_pending <- b`. -/
def setTickPending (b : Bool) (s : State) : State :=
  { s with line := { s.line with tickPending := b } }

/-- `raise Flag(timing_violation_detected)` when the condition holds. -/
def violationWhen (b : Bool) (s : State) : State := if b then raiseViolation s else s

/-- LINETICK (R163) at an edge with `running = 1`, on the state after the line sequencer's own advance:
it is idle there exactly when its phase register held `LS_IDLE` or its last phase ends at this edge. -/
def lineTick (writeIndex : Nat) (s : State) : State :=
  let tick := newTick s
  let s1 := countCycle s
  if s1.line.phase = .idle then
    if s1.line.tickPending then takeTick writeIndex (violationWhen tick (setTickPending tick s1))
    else if tick then takeTick writeIndex s1
    else s1
  else if tick then raiseViolation (setTickPending true s1)
  else s1

/-- The line context at a `clk` edge: the sequencer's advance, then the tick while running. -/
def lineEdge (done : Bool) (writeIndex : Nat) (s : State) : State :=
  let s1 := lineAdvance done s
  if s1.host.running then lineTick writeIndex s1 else s1

end Sys2Proof.Machine
end

