-- ==== Sys2Proof/Machine/Lifecycle.lean ====
section
/-! DEFINITION. The Lifecycle commands START (R240) and STOP (R241) and the Diagnostics commands
GETHEALTH (R243) and GETFRAMECOUNT (R244). -/

namespace Sys2Proof.Machine

/-- The effect of an accepted START (R240): line 0 is entered and the frame sequencer started as at a
frame boundary, but `frame_count` is not incremented. -/
def startRunning (s : State) : State :=
  let s1 := { s with
    host := { s.host with running := true }
    line := { s.line with hCount := 0, tickPending := false, currentLine := 0, framebufferRow := 0 } }
  respond .ok 0 (enterLine 0 (startFrameRun s.host.writeIndex s1))

/-- START(MODE) (R240): check (2) of R99 on `MODE`, then the state gate. -/
def execStart (mode : BitVec 28) (s : State) : Result :=
  if mode = 0 then .next (gated s startRunning) else .next (answerIllegal s)

/-- The accepting edge of a STOP while running (R241): no further tick is taken; the line in progress goes
on, its sync pulse included. -/
def stopRunning (s : State) : State :=
  let s1 := enterHostPhase .stopwait .stop s
  { s1 with
    host := { s1.host with running := false }
    line := { s1.line with hCount := 0, tickPending := false } }

/-- STOP() (R241). -/
def execStop (s : State) : Result :=
  if s.host.running then .next (stopRunning s) else .next (respond .ok 0 s)

/-- Everything STOP waits for, as the registers hold it before the edge (R241). -/
def allIdle (s : State) : Bool :=
  decide (s.line.phase = .idle ∧ s.frame.phase = .idle ∧ s.eng.phase = .idle)

/-- One edge of `HS_STOPWAIT` (R241): `VSYNC <- 0` and the answer, once everything is idle. -/
def stopWait (s : State) : State :=
  if allIdle s then respond .ok 0 { s with line := { s.line with vsync := false } } else s

/-- GETHEALTH() (R243): the flags as they were, and their clear. -/
def execGethealth (s : State) : Result := .next (respond .ok (healthWord s.health) (clearFlags s))

/-- GETFRAMECOUNT() (R244). -/
def execGetframecount (s : State) : Result := .next (respond .ok s.line.frameCount s)

end Sys2Proof.Machine
end

