-- ==== Sys2Proof/Machine/Refresh.lean ====
section
/-! DEFINITION. The refresh commands of the host: MEMREFALL (R152) and REFRESHIFNEEDED (R155), which
share the loop `RefreshAll` (R151) run in `HS_REFALL`. -/

namespace Sys2Proof.Machine

/-- The REFROW of the loop's current row (R151). -/
def refallRequest (s : State) : State := hostRequest (refrowRequest s.host.j.toNat) s

/-- The end of the loop: REFRESHIFNEEDED records `now` and answers 1, MEMREFALL answers 0 (R155, R152).
The two are told apart by the latched command word. -/
def refallAnswer (s : State) : State :=
  if opField s.host.cmd = 0x8#4 then
    respond .ok 1 { s with host := { s.host with lastRefreshTime := s.host.arg } }
  else respond .ok 0 s

/-- The loop `RefreshAll` begins, its first REFROW requested as the phase is entered (R151). -/
def beginRefall (i : Instr) (s : State) : State :=
  let s1 := enterHostPhase .refall i s
  if s.cfg.dramRows = 0 then refallAnswer s1 else refallRequest s1

/-- The `done` of a REFROW of the loop: the next row in ascending order, or the answer (R151). -/
def refallNext (s : State) : State :=
  if s.host.j.toNat + 1 < s.cfg.dramRows then
    refallRequest (setCounters s.host.i (s.host.j + 1) s)
  else refallAnswer s

/-- MEMREFALL() (R152). -/
def execMemrefall (s : State) : Result := .next (gated s (beginRefall .memrefall))

/-- REFRESHIFNEEDED(now) (R155). One that is not due has no refresh to wait for and answers at its
execution edge, without entering `HS_REFALL`: the model's choice, log 26. -/
def execRefreshifneeded (now : Word) (s : State) : Result :=
  .next (gated s fun s =>
    if s.cfg.refreshInterval ≤ elapsedTime now s.host.lastRefreshTime then
      beginRefall (.refreshifneeded now) s
    else respond .ok 0 s)

end Sys2Proof.Machine
end

