-- ==== Sys2Proof/Machine/Dispatch.lean ====
section
/-! DEFINITION. The one dispatch from an operation to its meaning. A host command's meaning is what it
does at its execution edge (R231); an engine request's meaning is its grant (R130). -/

namespace Sys2Proof.Machine

def exec (i : Instr) (s : State) : Host.Outcome State Fault Refusal :=
  match i with
  | .enqueue x y color => Sys2Proof.Machine.execEnqueue x y color s
  | .drawrect x y w h color => Sys2Proof.Machine.execDrawrect x y w h color s
  | .clearfb color => Sys2Proof.Machine.execClearfb color s
  | .start mode => Sys2Proof.Machine.execStart mode s
  | .stop => Sys2Proof.Machine.execStop s
  | .gethealth => Sys2Proof.Machine.execGethealth s
  | .getframecount => Sys2Proof.Machine.execGetframecount s
  | .refreshifneeded now => Sys2Proof.Machine.execRefreshifneeded now s
  | .memwrite row col value => Sys2Proof.Machine.execMemwrite row col value s
  | .memread row col => Sys2Proof.Machine.execMemread row col s
  | .memxfer row => Sys2Proof.Machine.execMemxfer row s
  | .memrefrow row => Sys2Proof.Machine.execMemrefrow row s
  | .memrefall => Sys2Proof.Machine.execMemrefall s
  | .write row col value => Sys2Proof.Machine.execWrite row col value s
  | .read row col => Sys2Proof.Machine.execRead row col s
  | .xfer row => Sys2Proof.Machine.execXfer row s
  | .refrow row => Sys2Proof.Machine.execRefrow row s

end Sys2Proof.Machine
end

