-- ==== Sys2Proof/Machine/Edge.lean ====
section
/-! DEFINITION. One `clk` edge of the whole block. Every rule reads the values registers held before
the edge (R268): the host sequencer and the engine are each worked out from the state before the edge,
their writes are put together (they write different registers, R42), and the line and frame
sequencers, which alone are left, follow. Reset wins over everything (R290). -/

namespace Sys2Proof.Machine

/-! ## The engine -/

/-- The grant at this edge (R130): on an engine that is idle or becomes idle at this edge, the winning
one of the lines raised before the edge. -/
def engineGrant (s : State) : Result :=
  if s.eng.phase = .idle then
    match winningRequest s.req with
    | none => .next s
    | some w =>
      match decode .engine w 0 with
      | .ok i => exec i s
      | .error _ => .refused .notARequestWord
  else .next s

/-- The engine at a `clk` edge. -/
def engineEdge (s : State) : Result := engineGrant (engineAdvance s)

/-! ## The host sequencer -/

/-- The response, if any, has been given, and the latched command is taken up (R94, R231). -/
def hostReady (s : State) : State :=
  { s with host := { s.host with rspValid := false, pending := false } }

/-- The execution edge of the latched command (R231): checks (1) and (2) of R99 are the decoder's, the
rest are the meaning's. -/
def executeCommand (s : State) : Result :=
  match decode .host s.host.cmd s.host.arg with
  | .ok i => exec i (hostReady s)
  | .error _ => .next (answerIllegal (hostReady s))

/-- A phase of the host sequencer at a `clk` edge, from the state before it (R231). -/
def hostPhaseStep (s : State) : State :=
  let done := decide (doneOwner s = some .hs)
  match s.host.phase with
  | .idle => hostReady s
  | .word2 => hostReady s
  | .rect => rectStep (hostReady s)
  | .clear => if done then clearNext (hostReady s) else hostReady s
  | .refall => if done then refallNext (hostReady s) else hostReady s
  | .memop => if done then memopAnswer (engineAdvance s).eng.val (hostReady s) else hostReady s
  | .stopwait => stopWait (hostReady s)

/-- The word the host sequencer has to take at this edge: the one it holds (log 6), or the one
transferred at this edge, with `cmd_valid = 1` and `cmd_ready = 1` before it (R94). -/
def incomingWord (p : PinIn) (before : State) : Option Word :=
  match before.host.held with
  | some w => some w
  | none => if p.cmdValid && cmdReady false before then some p.cmdWord else none

/-- A word is latched (R94, R95): the second word of a two-word command, or a first word, which alone
decides whether a second follows. -/
def latchWord (w : Word) (before s : State) : State :=
  if before.host.phase = .word2 then
    { s with host := { s.host with phase := .idle, arg := w, pending := true, held := none } }
  else if hasSecondWord w then
    { s with host := { s.host with phase := .word2, cmd := w, held := none } }
  else { s with host := { s.host with cmd := w, pending := true, held := none } }

/-- A word that arrives as a multi-cycle command begins waits for that command to end (log 6). -/
def holdWord (w : Word) (s : State) : State := { s with host := { s.host with held := some w } }

/-- What the input pins do to the host sequencer at an edge (R94): `before` is the state before it and
`s` the state its command or phase leaves. -/
def latchPins (p : PinIn) (before s : State) : State :=
  match incomingWord p before with
  | none => s
  | some w => if cmdReady false s then latchWord w before s else holdWord w s

/-- The host sequencer at a `clk` edge. -/
def hostEdge (p : PinIn) (s : State) : Result :=
  andThen (if s.host.pending then executeCommand s else .next (hostPhaseStep s))
    fun h => .next (latchPins p s h)

/-! ## Reset -/

/-- Every register of the block takes its reset value; the parameters, model time, the chip and what
the outside will present stay (R290, R291, R293). -/
def resetRegisters (s : State) : State :=
  { s with
    line := LineCtx.reset
    frame := FrameCtx.reset
    host := HostCtx.reset s.cfg
    health := HealthFlags.reset
    req := Requests.none
    eng := EngCtx.reset
    pins := EngPins.reset }

/-- `rst = 1` at a `clk` edge (R290, R292). -/
def resetEdge (s : State) : State :=
  resetRegisters (if s.eng.phase = .idle then s else scrambleChip s)

/-! ## The whole edge -/

/-- A request line after an edge: one that was raised is as the engine leaves it, one that was not is
as its requester leaves it. -/
def mergeLine (before requester engine : Option Word) : Option Word :=
  match before with
  | none => requester
  | some _ => engine

/-- The host sequencer's writes and the engine's writes put together. -/
def joinEdges (before h g : State) : State :=
  { h with
    eng := g.eng
    pins := g.pins
    chip := g.chip
    req := {
      ls := mergeLine before.req.ls h.req.ls g.req.ls
      fs := mergeLine before.req.fs h.req.fs g.req.fs
      hs := mergeLine before.req.hs h.req.hs g.req.hs } }

/-- START is executed at this edge: it has entered line 0 and started the frame sequencer (R240). -/
def startsHere (before h : State) : Bool := h.host.running && !before.host.running

/-- The line and the frame sequencer at this edge, after the host sequencer and the engine. -/
def sequencersEdge (before s : State) : State :=
  frameAdvance (decide (before.frame.phase = .idle)) (decide (doneOwner before = some .fs))
    before.host.writeIndex (lineEdge (decide (doneOwner before = some .ls)) before.host.writeIndex s)

/-- The block at this edge, given what the host sequencer and the engine do at it. -/
def blockEdge (before h g : State) : State :=
  if startsHere before h then joinEdges before h g
  else sequencersEdge before (joinEdges before h g)

/-- Model time and the draw counter move on to the next edge (R40). -/
def advanceTime (s : State) : State := { s with t := s.t + 1, draws := s.draws + 1 }

/-- The input pins at the coming edge. -/
def pinsNow (s : State) : PinIn := s.inputs.headD PinIn.quiet

/-- What every edge begins with: the input pins are sampled and the chip may decay (R75). -/
def beginEdge (s : State) : State := decay { s with inputs := s.inputs.tail }

/-- The edge of a block that is not in reset. -/
def runningEdge (p : PinIn) (s : State) : Result :=
  andThen (hostEdge p s) fun h => andThen (engineEdge s) fun g => .next (advanceTime (blockEdge s h g))

/-- The edge of a block that was built with a configuration the model admits. -/
def blockClock (s : State) : Result :=
  if (pinsNow s).rst then .next (advanceTime (resetEdge (beginEdge s)))
  else runningEdge (pinsNow s) (beginEdge s)

/-- One `clk` edge (R1, D1): from the state before it to the state of the cycle it begins. The model
rejects an ill-formed geometry, with which no block is synthesised (R9, U16), and a configuration that
fails a strobe-width constraint (R9, U4). -/
def clockEdge (s : State) : Result :=
  if s.cfg.GeometryOk then
    if s.cfg.StrobesOk then blockClock s else .refused .protocolTimingDefect
  else .refused .illFormedGeometry

/-- The first word `w1` and the second word `w2` of a command in the host sequencer's latches, the
execution edge next (R231), no other word held and the pins at that edge quiet. -/
def placeCommand (w1 w2 : Word) (s : State) : State :=
  { s with
    inputs := PinIn.quiet :: s.inputs.tail
    host := { s.host with phase := .idle, cmd := w1, arg := w2, pending := true, held := none } }

end Sys2Proof.Machine
end

