-- ==== Sys2Proof/Machine/Step.lean ====
section
/-! DEFINITION. The step of the machine: one `clk` edge, and the placing of a command where the next
step executes it. -/

namespace Sys2Proof.Machine

/-- One step is one `clk` edge. -/
def step (s : State) : Host.Outcome State Fault Refusal := clockEdge s

/-- The word or words laid out in `w` (the first in bits 31:0, the second in bits 63:32, every bit above
`nbits` zero) latched by the host sequencer, so that the next step executes exactly that command. -/
def State.withFetchWord (s : State) (nbits w : Nat) : State :=
  placeCommand (BitVec.ofNat 32 (w % 2 ^ nbits)) (BitVec.ofNat 32 (w % 2 ^ nbits / 2 ^ 32)) s

end Sys2Proof.Machine
end

