-- ==== Sys2Proof/Laws/Decode.lean ====
section
/-! SUPPORT. The fields of the words the encoder makes, the words the fields make, and one equation of the
decoder per opcode. -/

namespace Sys2Proof

theorem zero_toNat (n : Nat) : (0 : BitVec n).toNat = 0 := by simp

theorem toNat_add_one {a : BitVec 12} (h : a.toNat + 1 < 4096) : (a + 1).toNat = a.toNat + 1 := by
  rw [BitVec.toNat_add]
  exact Nat.mod_eq_of_lt h

theorem append_toNat {n m : Nat} (a : BitVec n) (b : BitVec m) :
    (a ++ b).toNat = a.toNat * 2 ^ m + b.toNat := by
  rw [BitVec.toNat_append, ← Nat.shiftLeft_add_eq_or_of_lt b.isLt, Nat.shiftLeft_eq]

theorem mkW1_toNat (op : BitVec 4) (c : Nibble) (y x : Coord) :
    (mkW1 op c y x).toNat = op.toNat * 2 ^ 28 + c.toNat * 2 ^ 24 + y.toNat * 2 ^ 12 + x.toNat := by
  simp only [mkW1, append_toNat]; omega

theorem mkW2R_toNat (h w : Coord) : (mkW2R h w).toNat = h.toNat * 2 ^ 12 + w.toNat := by
  simp only [mkW2R, append_toNat]; simp

@[simp] theorem opField_mkW1 (op : BitVec 4) (c : Nibble) (y x : Coord) :
    opField (mkW1 op c y x) = op := by
  apply BitVec.eq_of_toNat_eq
  simp only [opField, BitVec.extractLsb'_toNat, mkW1_toNat, Nat.shiftRight_eq_div_pow]
  have := op.isLt; have := c.isLt; have := y.isLt; have := x.isLt
  omega

@[simp] theorem cField_mkW1 (op : BitVec 4) (c : Nibble) (y x : Coord) :
    cField (mkW1 op c y x) = c := by
  apply BitVec.eq_of_toNat_eq
  simp only [cField, BitVec.extractLsb'_toNat, mkW1_toNat, Nat.shiftRight_eq_div_pow]
  have := op.isLt; have := c.isLt; have := y.isLt; have := x.isLt
  omega

@[simp] theorem yField_mkW1 (op : BitVec 4) (c : Nibble) (y x : Coord) :
    yField (mkW1 op c y x) = y := by
  apply BitVec.eq_of_toNat_eq
  simp only [yField, BitVec.extractLsb'_toNat, mkW1_toNat, Nat.shiftRight_eq_div_pow]
  have := op.isLt; have := c.isLt; have := y.isLt; have := x.isLt
  omega

@[simp] theorem xField_mkW1 (op : BitVec 4) (c : Nibble) (y x : Coord) :
    xField (mkW1 op c y x) = x := by
  apply BitVec.eq_of_toNat_eq
  simp only [xField, BitVec.extractLsb'_toNat, mkW1_toNat, Nat.shiftRight_eq_div_pow]
  have := op.isLt; have := c.isLt; have := y.isLt; have := x.isLt
  omega

theorem modeField_toNat (w : Word) :
    (modeField w).toNat = (cField w).toNat * 2 ^ 24 + (yField w).toNat * 2 ^ 12 + (xField w).toNat := by
  simp only [modeField, cField, yField, xField, BitVec.extractLsb'_toNat, Nat.shiftRight_eq_div_pow]
  have := w.isLt
  omega

theorem modeField_eq_zero (w : Word) :
    modeField w = 0 ↔ cField w = 0 ∧ yField w = 0 ∧ xField w = 0 := by
  rw [← BitVec.toNat_inj, ← BitVec.toNat_inj, ← BitVec.toNat_inj, ← BitVec.toNat_inj,
    modeField_toNat]
  simp only [zero_toNat]
  have := (cField w).isLt; have := (yField w).isLt; have := (xField w).isLt
  omega

@[simp] theorem modeField_mkW1_zero (op : BitVec 4) : modeField (mkW1 op 0#4 0#12 0#12) = 0#28 :=
  (modeField_eq_zero _).2 (by simp)

@[simp] theorem opField_start (mode : BitVec 28) : opField (4#4 ++ mode) = 4#4 := by
  apply BitVec.eq_of_toNat_eq
  simp only [opField, BitVec.extractLsb'_toNat, append_toNat, Nat.shiftRight_eq_div_pow]
  have := mode.isLt
  have : (4#4).toNat = 4 := rfl
  omega

@[simp] theorem modeField_start (mode : BitVec 28) :
    modeField (4#4 ++ mode) = mode := by
  apply BitVec.eq_of_toNat_eq
  simp only [modeField, BitVec.extractLsb'_toNat, append_toNat, Nat.shiftRight_eq_div_pow]
  have := mode.isLt
  omega

@[simp] theorem topField_mkW2R (h w : Coord) : topField (mkW2R h w) = 0#8 := by
  apply BitVec.eq_of_toNat_eq
  simp only [topField, BitVec.extractLsb'_toNat, mkW2R_toNat, Nat.shiftRight_eq_div_pow]
  have := h.isLt; have := w.isLt
  have : (0#8).toNat = 0 := rfl
  omega

@[simp] theorem hField_mkW2R (h w : Coord) : hField (mkW2R h w) = h := by
  apply BitVec.eq_of_toNat_eq
  simp only [hField, BitVec.extractLsb'_toNat, mkW2R_toNat, Nat.shiftRight_eq_div_pow]
  have := h.isLt; have := w.isLt
  omega

@[simp] theorem wField_mkW2R (h w : Coord) : wField (mkW2R h w) = w := by
  apply BitVec.eq_of_toNat_eq
  simp only [wField, BitVec.extractLsb'_toNat, mkW2R_toNat, Nat.shiftRight_eq_div_pow]
  have := h.isLt; have := w.isLt
  omega

/-- A first word is made of its four fields. -/
theorem mkW1_fields (w : Word) : mkW1 (opField w) (cField w) (yField w) (xField w) = w := by
  apply BitVec.eq_of_toNat_eq
  simp only [opField, cField, yField, xField, BitVec.extractLsb'_toNat, mkW1_toNat,
    Nat.shiftRight_eq_div_pow]
  have := w.isLt
  omega

/-- START's word is made of its opcode and `MODE`. -/
theorem start_fields (w : Word) : opField w ++ modeField w = w := by
  apply BitVec.eq_of_toNat_eq
  simp only [opField, modeField, BitVec.extractLsb'_toNat, append_toNat, Nat.shiftRight_eq_div_pow]
  have := w.isLt
  omega

/-- DRAWRECT's second word is made of its two operands when its top field is zero. -/
theorem mkW2R_fields {w : Word} (h : topField w = 0) : mkW2R (hField w) (wField w) = w := by
  have ht := congrArg BitVec.toNat h
  apply BitVec.eq_of_toNat_eq
  simp only [topField, hField, wField, BitVec.extractLsb'_toNat, mkW2R_toNat,
    Nat.shiftRight_eq_div_pow, zero_toNat] at ht ⊢
  have := w.isLt
  omega

theorem whenZero_ok {z : Bool} {i j : Instr} : whenZero z i = .ok j ↔ z = true ∧ i = j := by
  cases z <;> simp [whenZero]

theorem whenZero_reserved {z : Bool} {i : Instr} : whenZero z i ≠ .error .reservedOpcode := by
  cases z <;> simp [whenZero]

theorem whenZero_mustBeZero {z : Bool} {i : Instr} :
    whenZero z i = .error .mustBeZero ↔ z = false := by cases z <;> simp [whenZero]

/-- The sixteen values of an opcode. -/
theorem op_cases (op : BitVec 4) :
    op = 0x0 ∨ op = 0x1 ∨ op = 0x2 ∨ op = 0x3 ∨ op = 0x4 ∨ op = 0x5 ∨ op = 0x6 ∨ op = 0x7 ∨
    op = 0x8 ∨ op = 0x9 ∨ op = 0xA ∨ op = 0xB ∨ op = 0xC ∨ op = 0xD ∨ op = 0xE ∨ op = 0xF := by
  revert op; decide

end Sys2Proof
end

