-- ==== Sys2Proof/Safety.lean ====
section
/-! DEFINITION. What counts as a safe run, in the terms the statements use: the invariants of the block
and of the chip, the remaining work the budgets of R9 are about, and the composite runs the statements
speak of. Nothing here is used by the machine. -/

namespace Sys2Proof.Machine

/-! ## Requests and the ring -/

/-- A raised request line carries one of the four request words with operands inside the array (R67,
R100). -/
def requestOk (c : Config) : Option Word → Bool
  | none => true
  | some w =>
    match decode .engine w 0 with
    | .ok i => i.inRange c
    | .error _ => false

/-- The `k`-th live entry of the ring, oldest first (R209). -/
def liveEntry (s : State) (k : Nat) : PixelUpdate :=
  ringAt s ((s.frame.readIndex + k) % s.cfg.ringSlots)

/-- The ring invariants (1) and (4) of R209, with the slot count of R26. -/
structure RingInv (s : State) : Prop where
  slots : s.host.ring.length = s.cfg.ringSlots
  write_lt : s.host.writeIndex < s.cfg.ringSlots
  read_lt : s.frame.readIndex < s.cfg.ringSlots
  live_in_bounds : ∀ k, k < occupancy s.cfg s.host.writeIndex s.frame.readIndex →
    inBounds s.cfg (liveEntry s k).x.toNat (liveEntry s k).y.toNat = true

/-- What keeps the machine going: a geometry, strobe widths and a ring that R9 admits, the ring invariants, a transfer
row inside the frame (R22), requests the engine accepts, and a clear sweep inside the array (R220). -/
structure SafeInv (s : State) : Prop where
  geometry : s.cfg.GeometryOk
  strobes : s.cfg.StrobesOk
  ring_ok : s.cfg.RingOk
  ring : RingInv s
  row_lt : s.line.framebufferRow < s.cfg.visibleHeight
  request_ls : requestOk s.cfg s.req.ls = true
  request_fs : requestOk s.cfg s.req.fs = true
  request_hs : requestOk s.cfg s.req.hs = true
  clear_row : s.host.phase = .clear → s.host.j.toNat < s.cfg.dramRows

/-! ## Who uses the engine -/

/-- The engine runs an operation of this requester. -/
def busyWith (o : Owner) (s : State) : Bool := decide (s.eng.phase ≠ .idle ∧ s.eng.owner = o)

/-- How many operations a requester has waiting or in progress. -/
def inFlight (line : Option Word) (o : Owner) (s : State) : Nat :=
  line.isSome.toNat + (busyWith o s).toNat

/-- The host sequencer is in a phase that uses the engine. -/
def hostUsesEngine (s : State) : Bool :=
  decide (s.host.phase = .clear ∨ s.host.phase = .refall ∨ s.host.phase = .memop)

/-- The operation a request word asks for (R100). -/
def requestOp (w : Word) : Option EngOp :=
  match decode .engine w 0 with
  | .ok (.write _ _ _) => some .write
  | .ok (.read _ _) => some .read
  | .ok (.xfer _) => some .xfer
  | .ok (.refrow _) => some .refrow
  | _ => none

/-- The operation whose table a phase belongs to (R122, R124, R126, R128). -/
def phaseOp : EngPhase → Option EngOp
  | .idle => none
  | .wr0 => some .write
  | .wr1 => some .write
  | .wr2 => some .write
  | .wr3 => some .write
  | .wr4 => some .write
  | .wr5 => some .write
  | .wr6 => some .write
  | .rd0 => some .read
  | .rd1 => some .read
  | .rd2 => some .read
  | .rd3 => some .read
  | .rd4 => some .read
  | .rd5 => some .read
  | .xf0 => some .xfer
  | .xf1 => some .xfer
  | .xf2 => some .xfer
  | .xf3 => some .xfer
  | .xf4 => some .xfer
  | .rf0 => some .refrow
  | .rf1 => some .refrow
  | .rf2 => some .refrow
  | .rf3 => some .refrow

/-- The discipline of the three requesters (R86, R130, R192, R213, R232, R273): each has exactly one
operation in flight while its phase waits for one and none otherwise, the host sequencer only while the
generator is stopped and the other two are idle; the line sequencer asks for XFER only, the frame
sequencer for WRITE and REFROW only; a word waits in `held` only behind a multi-cycle command (log 6). -/
structure AgentsInv (s : State) : Prop where
  line_ops : inFlight s.req.ls .ls s = (decide (s.line.phase = .xfer)).toNat
  frame_ops : inFlight s.req.fs .fs s = (decide (s.frame.phase ≠ .idle)).toNat
  host_ops : inFlight s.req.hs .hs s = (hostUsesEngine s).toNat
  pending_idle : s.host.pending = true → s.host.phase = .idle
  stopwait_stopped : s.host.phase = .stopwait → s.host.running = false
  engine_use_stopped : hostUsesEngine s = true → s.host.running = false
  stopped_quiet : s.host.running = false → s.host.phase ≠ .stopwait →
    s.line.phase = .idle ∧ s.frame.phase = .idle
  line_word : ∀ w, s.req.ls = some w → requestOp w = some .xfer
  frame_word : ∀ w, s.req.fs = some w → requestOp w = some .write ∨ requestOp w = some .refrow
  phase_op : s.eng.phase ≠ .idle → phaseOp s.eng.phase = some s.eng.op
  line_op : busyWith .ls s = true → s.eng.op = .xfer
  frame_op : busyWith .fs s = true → s.eng.op = .write ∨ s.eng.op = .refrow
  held_busy : s.host.held ≠ none → cmdReady false s = false

/-! ## Pins -/

/-- The strobes `RAS, CAS, WE, OE, TRG` and `dq_drive` in each phase, read off the phase tables of
R122, R124, R126, R128 and the idle pattern of R121. -/
def phasePins : EngPhase → Bool × Bool × Bool × Bool × Bool × Bool
  | .idle => (false, false, false, false, false, false)
  | .wr0 => (false, false, false, false, false, false)
  | .wr1 => (true, false, false, false, false, false)
  | .wr2 => (true, true, true, false, false, true)
  | .wr3 => (true, true, true, false, false, true)
  | .wr4 => (true, true, false, false, false, false)
  | .wr5 => (true, false, false, false, false, false)
  | .wr6 => (false, false, false, false, false, false)
  | .rd0 => (false, false, false, false, false, false)
  | .rd1 => (true, false, false, false, false, false)
  | .rd2 => (true, true, false, true, false, false)
  | .rd3 => (true, true, false, false, false, false)
  | .rd4 => (true, false, false, false, false, false)
  | .rd5 => (false, false, false, false, false, false)
  | .xf0 => (false, false, false, false, false, false)
  | .xf1 => (true, false, false, false, false, false)
  | .xf2 => (true, false, false, false, true, false)
  | .xf3 => (true, false, false, false, false, false)
  | .xf4 => (false, false, false, false, false, false)
  | .rf0 => (false, true, false, false, false, false)
  | .rf1 => (true, true, false, false, false, false)
  | .rf2 => (false, true, false, false, false, false)
  | .rf3 => (false, false, false, false, false, false)

/-- The strobes as the state holds them. -/
def strobes (s : State) : Bool × Bool × Bool × Bool × Bool × Bool :=
  (s.pins.ras, s.pins.cas, s.pins.we, s.pins.oe, s.pins.trg, s.pins.dqDrive)

/-- What is on `ADDR` in each phase (R133): the row address until `T_RAH` cycles after the row strobe,
then, in WRITE and READ, the column address until the operation ends. -/
def addrOf (c : Config) (e : EngCtx) : Nat :=
  match e.phase with
  | .idle => e.row
  | .wr0 => e.row
  | .wr1 => if c.tRcd - e.dwell < c.tRah then e.row else e.col
  | .wr2 => e.col
  | .wr3 => e.col
  | .wr4 => e.col
  | .wr5 => e.col
  | .wr6 => e.col
  | .rd0 => e.row
  | .rd1 => if c.tRcd - e.dwell < c.tRah then e.row else e.col
  | .rd2 => e.col
  | .rd3 => e.col
  | .rd4 => e.col
  | .rd5 => e.col
  | .xf0 => e.row
  | .xf1 => e.row
  | .xf2 => e.row
  | .xf3 => e.row
  | .xf4 => e.row
  | .rf0 => e.row
  | .rf1 => e.row
  | .rf2 => e.row
  | .rf3 => e.row

/-- The pins the engine drives are those of the phase tables, an operation in progress holds the address
its phase calls for, and what the block drives on `DQ` is the value to be written (R121 to R134). -/
structure PinInv (s : State) : Prop where
  strobes : strobes s = phasePins s.eng.phase
  address : s.eng.phase ≠ .idle → s.pins.addr = addrOf s.cfg s.eng
  data : s.pins.dqDrive = true → s.pins.dq = s.eng.val
  dwell : s.eng.phase ≠ .idle → 1 ≤ s.eng.dwell ∧ s.eng.dwell ≤ phaseDwell s.cfg s.eng.phase

/-- The line context's registers and pins (R21, R22, R24, R31, R33, R164, R167, R193 to R195, R199). -/
structure LineInv (s : State) : Prop where
  line_lt : s.line.currentLine < s.cfg.totalLines
  row_lt : s.line.framebufferRow < s.cfg.visibleHeight
  count_lt : s.line.hCount < s.cfg.linePeriod
  stopped : s.host.running = false → s.line.hCount = 0 ∧ s.line.tickPending = false
  vblank : s.line.inVblank = !activeLine s.cfg s.line.currentLine
  hsync : s.line.hsync = decide (s.line.phase = .hsync)
  se : s.line.se = decide (s.line.phase = .stream)
  sc : s.line.sc = decide (s.line.phase = .stream ∧ s.line.scHalf = false)
  after_stop : s.host.running = false → s.host.phase ≠ .stopwait → s.line.vsync = false
  vsync : s.line.vsync = true → lineClass s.cfg s.line.currentLine = .syncPulse
  pixels : s.line.phase = .stream → s.line.pixCount < s.cfg.visibleWidth
  pipeline : s.line.phase ≠ .idle → s.line.phase ≠ .hsync →
    activeLine s.cfg s.line.currentLine = true

/-- The chip's registers (R39), the canonical form of its memory, and the operands of the operation in
progress (R36). -/
structure ChipInv (s : State) : Prop where
  canonical : Memory.wf s.chip.cells
  addresses : ∀ p, p ∈ s.chip.cells → p.1 < s.cfg.dramRows * s.cfg.dramCols
  rows : s.chip.rowStamp.length = s.cfg.dramRows
  cols : s.chip.sam.length = s.cfg.dramCols
  ptr_lt : s.chip.samPtr < s.cfg.dramCols
  stamps : ∀ r, stampAt s r ≤ s.t
  operands : s.eng.phase ≠ .idle → inArray s.cfg s.eng.row s.eng.col = true

/-! ## Remaining work -/

/-- The dwells of the phases after this one. -/
def dwellsAfter (c : Config) : EngPhase → Nat
  | .idle => 0
  | .wr0 => c.tRcd + c.tDs + c.tDh + 2 + c.tRp
  | .wr1 => c.tDs + c.tDh + 2 + c.tRp
  | .wr2 => c.tDh + 2 + c.tRp
  | .wr3 => 2 + c.tRp
  | .wr4 => 1 + c.tRp
  | .wr5 => c.tRp
  | .wr6 => 0
  | .rd0 => c.tRcd + c.tCac + 2 + c.tRp
  | .rd1 => c.tCac + 2 + c.tRp
  | .rd2 => 2 + c.tRp
  | .rd3 => 1 + c.tRp
  | .rd4 => c.tRp
  | .rd5 => 0
  | .xf0 => c.tRtd + c.tXfer + 1 + c.tRp
  | .xf1 => c.tXfer + 1 + c.tRp
  | .xf2 => 1 + c.tRp
  | .xf3 => c.tRp
  | .xf4 => 0
  | .rf0 => c.tRasRef + 1 + c.tRp
  | .rf1 => 1 + c.tRp
  | .rf2 => c.tRp
  | .rf3 => 0

/-- Cycles until the `done` of the operation in progress. -/
def engineRemaining (s : State) : Nat :=
  if s.eng.phase = .idle then 0 else s.eng.dwell + dwellsAfter s.cfg s.eng.phase

/-- The duration of the operation a raised request line asks for (R136). -/
def requestTime (c : Config) (w : Word) : Nat :=
  match decode .engine w 0 with
  | .ok (.write _ _ _) => c.tWrite
  | .ok (.read _ _) => c.tRead
  | .ok (.xfer _) => c.tXferOp
  | .ok (.refrow _) => c.tRefrow
  | _ => 0

/-- Cycles until the `done` of a requester's operation, for an engine that serves no other. -/
def operationRemaining (line : Option Word) (s : State) : Nat :=
  match line with
  | some w => requestTime s.cfg w
  | none => engineRemaining s

/-- Cycles of the pixel stream (R194). -/
def streamTime (c : Config) : Nat := c.visibleWidth * c.pixelClks

/-- Cycles until the line sequencer is idle, for an engine free when it asks (R168 with `g = 0`). -/
def lineRemaining (s : State) : Nat :=
  match s.line.phase with
  | .idle => 0
  | .hsync =>
    s.line.dwell +
      (if activeLine s.cfg s.line.currentLine then
        s.cfg.tXferOp + s.cfg.hBpClks + streamTime s.cfg else 0)
  | .xfer => operationRemaining s.req.ls s + s.cfg.hBpClks + streamTime s.cfg
  | .bp => s.line.dwell + streamTime s.cfg
  | .stream =>
    s.line.dwell + (if s.line.scHalf then 0 else s.cfg.scLow) +
      (s.cfg.visibleWidth - (s.line.pixCount + 1)) * s.cfg.pixelClks

/-- Cycles until the frame sequencer is idle at the latest (R214, R154), for an engine that serves no
other. -/
def frameRemaining (s : State) : Nat :=
  match s.frame.phase with
  | .idle => 0
  | .drain =>
    operationRemaining s.req.fs s + (s.cfg.drainBudget - s.frame.drained) * s.cfg.tWrite +
      s.cfg.dramRows * s.cfg.tRefrow
  | .refresh => operationRemaining s.req.fs s + (s.cfg.dramRows - s.frame.row) * s.cfg.tRefrow

/-- Cycles since the edge at which line 0 was entered, for a generator that is on time. -/
def frameElapsed (s : State) : Nat := s.line.currentLine * s.cfg.linePeriod + s.line.hCount

/-- The longest run of the frame sequencer (R312), which C_VBLANK and C_RET of R9 speak of. -/
def frameRunTime (c : Config) : Nat := c.drainBudget * c.tWrite + c.dramRows * c.tRefrow

/-- The generator is on time (R163, R168, R84): while it runs, no tick is held, the line sequencer's
work ends by the next tick, and the frame sequencer's run ends within its longest time, which C_VBLANK
puts before the first active line; and a refresh run has asked for exactly the rows below `fs_row`
(R154). -/
structure OnTime (s : State) : Prop where
  config : s.cfg.WellFormed
  safe : SafeInv s
  agents : AgentsInv s
  line : LineInv s
  engine_dwells : s.eng.phase ≠ .idle → 1 ≤ s.eng.dwell
  line_dwells : s.line.phase ≠ .idle → s.line.phase ≠ .xfer → 1 ≤ s.line.dwell
  not_held : s.host.running = true → s.line.tickPending = false
  line_ends : s.host.running = true → lineRemaining s + s.line.hCount ≤ s.cfg.linePeriod
  frame_ends : s.host.running = true → s.frame.phase ≠ .idle →
    frameRemaining s + frameElapsed s ≤ frameRunTime s.cfg
  refresh_row : s.frame.phase = .refresh → 1 ≤ s.frame.row ∧ s.frame.row ≤ s.cfg.dramRows
  refresh_word : s.frame.phase = .refresh → ∀ w, s.req.fs = some w →
    w = refrowRequest (s.frame.row - 1)
  refresh_op : s.frame.phase = .refresh → busyWith .fs s = true →
    s.eng.op = .refrow ∧ s.eng.row = s.frame.row - 1

/-! ## Retention while the generator runs -/

/-- The frame sequencer's run that began with this frame has restarted the retention of the row: the
run is over, or the REFROW of a later row has been asked for, or the row's own REFROW has strobed
(R76, R154). -/
def refreshedThisRun (s : State) (row : Nat) : Bool :=
  decide (s.frame.phase = .idle ∨
    (s.frame.phase = .refresh ∧ (row + 1 < s.frame.row ∨
      (row + 1 = s.frame.row ∧ busyWith .fs s = true ∧
        (s.eng.phase = .rf1 ∨ s.eng.phase = .rf2 ∨ s.eng.phase = .rf3)))))

/-- The row's retention is in order in a frame that began `frameElapsed` cycles ago: either it was
restarted in this frame, or it lasts until this frame's run, at its longest, has restarted it (R75,
R156). -/
structure RowKept (s : State) (row : Nat) : Prop where
  restarted : refreshedThisRun s row = true → s.t ≤ stampAt s row + frameElapsed s
  lasts : refreshedThisRun s row = false →
    s.t + frameRunTime s.cfg ≤ stampAt s row + s.cfg.retention + frameElapsed s

/-! ## The engine's grant -/

/-- What the grant of an operation leaves (R130): the operation latched, its owner the winning
requester, whose line is dropped, the engine busy for the rest of the operation's time, and nothing
outside the engine, its pins and the chip changed. -/
structure Granted (op : EngOp) (row col time : Nat) (s t : State) : Prop where
  op_eq : t.eng.op = op
  row_eq : t.eng.row = row
  col_eq : t.eng.col = col
  owner_eq : t.eng.owner = winner s.req
  line_dropped : t.req = dropLine (winner s.req) s.req
  busy : t.eng.phase ≠ .idle
  remaining : engineRemaining t + 1 = time
  outside : t = { s with eng := t.eng, pins := t.pins, chip := t.chip, req := t.req }

/-! ## Composite runs -/

/-- `n` steps of the host sequencer's rectangle (R218). -/
def rectSteps : Nat → State → State
  | 0, s => s
  | n + 1, s => rectSteps n (rectStep s)

/-- ENQUEUE's body on each pixel of a list in order, the statuses discarded (R218). -/
def enqueueAll : List (Nat × Nat × Nibble) → State → State
  | [], s => s
  | p :: ps, s => enqueueAll ps (enqueuePixel p.1 p.2.1 p.2.2 s).1

/-- The pixels of a rectangle, rows outermost and ascending, columns ascending (R218). -/
def rectPixels (x y w h : Nat) (color : Nibble) : List (Nat × Nat × Nibble) :=
  (List.range h).flatMap fun j => (List.range w).map fun i => (x + i, y + j, color)

/-- `n` completions of the clear sweep's WRITEs (R220). -/
def clearSteps : Nat → State → State
  | 0, s => s
  | n + 1, s => clearSteps n (clearNext s)

/-- `n` completions of the refresh loop's REFROWs (R151). -/
def refallSteps : Nat → State → State
  | 0, s => s
  | n + 1, s => refallSteps n (refallNext s)

/-- `n` decisions of a drain with no ENQUEUE between them (R214). -/
def drainSteps : Nat → State → State
  | 0, s => s
  | n + 1, s => drainSteps n (drainDecision s.host.writeIndex s)

/-- `n` edges of the line sequencer alone, no transfer completing (R194). -/
def lineEdges : Nat → State → State
  | 0, s => s
  | n + 1, s => lineEdges n (lineAdvance false s)

/-- `n` edges of the engine alone, model time and the draw counter moving on with each. -/
def engineEdges : Nat → State → State
  | 0, s => s
  | n + 1, s => engineEdges n (advanceTime (engineAdvance s))

/-- The latched command at this edge is not GETHEALTH. -/
def notReadingHealth (s : State) : Bool :=
  !(s.host.pending && decide (decode .host s.host.cmd s.host.arg = .ok .gethealth))

/-- A stopped block at rest, the input pins quiet for ever: what a host command that uses the engine
finds (R232). -/
structure AtRest (s : State) : Prop where
  quiet : s.inputs = []
  running : s.host.running = false
  line : s.line.phase = .idle
  frame : s.frame.phase = .idle
  engine : s.eng.phase = .idle
  requests : s.req = Requests.none
  nothing_held : s.host.held = none

end Sys2Proof.Machine
end

