-- ==== Sys2Proof/Laws/State.lean ====
section
/-! SUPPORT. One lemma per register group per named update of the state, true by `rfl`: what an update
leaves alone and what it writes, so that no later proof unfolds a record update. -/

namespace Sys2Proof.Machine

@[simp] theorem raiseOverflow_cfg (s : State) :
    (raiseOverflow s).cfg = s.cfg := rfl
@[simp] theorem raiseOverflow_t (s : State) :
    (raiseOverflow s).t = s.t := rfl
@[simp] theorem raiseOverflow_draws (s : State) :
    (raiseOverflow s).draws = s.draws := rfl
@[simp] theorem raiseOverflow_inputs (s : State) :
    (raiseOverflow s).inputs = s.inputs := rfl
@[simp] theorem raiseOverflow_line (s : State) :
    (raiseOverflow s).line = s.line := rfl
@[simp] theorem raiseOverflow_frame (s : State) :
    (raiseOverflow s).frame = s.frame := rfl
@[simp] theorem raiseOverflow_host (s : State) :
    (raiseOverflow s).host = s.host := rfl
@[simp] theorem raiseOverflow_req (s : State) :
    (raiseOverflow s).req = s.req := rfl
@[simp] theorem raiseOverflow_eng (s : State) :
    (raiseOverflow s).eng = s.eng := rfl
@[simp] theorem raiseOverflow_pins (s : State) :
    (raiseOverflow s).pins = s.pins := rfl
@[simp] theorem raiseOverflow_chip (s : State) :
    (raiseOverflow s).chip = s.chip := rfl
@[simp] theorem raiseViolation_cfg (s : State) :
    (raiseViolation s).cfg = s.cfg := rfl
@[simp] theorem raiseViolation_t (s : State) :
    (raiseViolation s).t = s.t := rfl
@[simp] theorem raiseViolation_draws (s : State) :
    (raiseViolation s).draws = s.draws := rfl
@[simp] theorem raiseViolation_inputs (s : State) :
    (raiseViolation s).inputs = s.inputs := rfl
@[simp] theorem raiseViolation_line (s : State) :
    (raiseViolation s).line = s.line := rfl
@[simp] theorem raiseViolation_frame (s : State) :
    (raiseViolation s).frame = s.frame := rfl
@[simp] theorem raiseViolation_host (s : State) :
    (raiseViolation s).host = s.host := rfl
@[simp] theorem raiseViolation_req (s : State) :
    (raiseViolation s).req = s.req := rfl
@[simp] theorem raiseViolation_eng (s : State) :
    (raiseViolation s).eng = s.eng := rfl
@[simp] theorem raiseViolation_pins (s : State) :
    (raiseViolation s).pins = s.pins := rfl
@[simp] theorem raiseViolation_chip (s : State) :
    (raiseViolation s).chip = s.chip := rfl
@[simp] theorem clearFlags_cfg (s : State) :
    (clearFlags s).cfg = s.cfg := rfl
@[simp] theorem clearFlags_t (s : State) :
    (clearFlags s).t = s.t := rfl
@[simp] theorem clearFlags_draws (s : State) :
    (clearFlags s).draws = s.draws := rfl
@[simp] theorem clearFlags_inputs (s : State) :
    (clearFlags s).inputs = s.inputs := rfl
@[simp] theorem clearFlags_line (s : State) :
    (clearFlags s).line = s.line := rfl
@[simp] theorem clearFlags_frame (s : State) :
    (clearFlags s).frame = s.frame := rfl
@[simp] theorem clearFlags_host (s : State) :
    (clearFlags s).host = s.host := rfl
@[simp] theorem clearFlags_req (s : State) :
    (clearFlags s).req = s.req := rfl
@[simp] theorem clearFlags_eng (s : State) :
    (clearFlags s).eng = s.eng := rfl
@[simp] theorem clearFlags_pins (s : State) :
    (clearFlags s).pins = s.pins := rfl
@[simp] theorem clearFlags_chip (s : State) :
    (clearFlags s).chip = s.chip := rfl
@[simp] theorem setCell_cfg (row col : Nat) (value : Nibble) (s : State) :
    (setCell row col value s).cfg = s.cfg := rfl
@[simp] theorem setCell_t (row col : Nat) (value : Nibble) (s : State) :
    (setCell row col value s).t = s.t := rfl
@[simp] theorem setCell_draws (row col : Nat) (value : Nibble) (s : State) :
    (setCell row col value s).draws = s.draws := rfl
@[simp] theorem setCell_inputs (row col : Nat) (value : Nibble) (s : State) :
    (setCell row col value s).inputs = s.inputs := rfl
@[simp] theorem setCell_line (row col : Nat) (value : Nibble) (s : State) :
    (setCell row col value s).line = s.line := rfl
@[simp] theorem setCell_frame (row col : Nat) (value : Nibble) (s : State) :
    (setCell row col value s).frame = s.frame := rfl
@[simp] theorem setCell_host (row col : Nat) (value : Nibble) (s : State) :
    (setCell row col value s).host = s.host := rfl
@[simp] theorem setCell_health (row col : Nat) (value : Nibble) (s : State) :
    (setCell row col value s).health = s.health := rfl
@[simp] theorem setCell_req (row col : Nat) (value : Nibble) (s : State) :
    (setCell row col value s).req = s.req := rfl
@[simp] theorem setCell_eng (row col : Nat) (value : Nibble) (s : State) :
    (setCell row col value s).eng = s.eng := rfl
@[simp] theorem setCell_pins (row col : Nat) (value : Nibble) (s : State) :
    (setCell row col value s).pins = s.pins := rfl
@[simp] theorem restartRetention_cfg (row : Nat) (s : State) :
    (restartRetention row s).cfg = s.cfg := rfl
@[simp] theorem restartRetention_t (row : Nat) (s : State) :
    (restartRetention row s).t = s.t := rfl
@[simp] theorem restartRetention_draws (row : Nat) (s : State) :
    (restartRetention row s).draws = s.draws := rfl
@[simp] theorem restartRetention_inputs (row : Nat) (s : State) :
    (restartRetention row s).inputs = s.inputs := rfl
@[simp] theorem restartRetention_line (row : Nat) (s : State) :
    (restartRetention row s).line = s.line := rfl
@[simp] theorem restartRetention_frame (row : Nat) (s : State) :
    (restartRetention row s).frame = s.frame := rfl
@[simp] theorem restartRetention_host (row : Nat) (s : State) :
    (restartRetention row s).host = s.host := rfl
@[simp] theorem restartRetention_health (row : Nat) (s : State) :
    (restartRetention row s).health = s.health := rfl
@[simp] theorem restartRetention_req (row : Nat) (s : State) :
    (restartRetention row s).req = s.req := rfl
@[simp] theorem restartRetention_eng (row : Nat) (s : State) :
    (restartRetention row s).eng = s.eng := rfl
@[simp] theorem restartRetention_pins (row : Nat) (s : State) :
    (restartRetention row s).pins = s.pins := rfl
@[simp] theorem loadSam_cfg (row : Nat) (s : State) :
    (loadSam row s).cfg = s.cfg := rfl
@[simp] theorem loadSam_t (row : Nat) (s : State) :
    (loadSam row s).t = s.t := rfl
@[simp] theorem loadSam_draws (row : Nat) (s : State) :
    (loadSam row s).draws = s.draws := rfl
@[simp] theorem loadSam_inputs (row : Nat) (s : State) :
    (loadSam row s).inputs = s.inputs := rfl
@[simp] theorem loadSam_line (row : Nat) (s : State) :
    (loadSam row s).line = s.line := rfl
@[simp] theorem loadSam_frame (row : Nat) (s : State) :
    (loadSam row s).frame = s.frame := rfl
@[simp] theorem loadSam_host (row : Nat) (s : State) :
    (loadSam row s).host = s.host := rfl
@[simp] theorem loadSam_health (row : Nat) (s : State) :
    (loadSam row s).health = s.health := rfl
@[simp] theorem loadSam_req (row : Nat) (s : State) :
    (loadSam row s).req = s.req := rfl
@[simp] theorem loadSam_eng (row : Nat) (s : State) :
    (loadSam row s).eng = s.eng := rfl
@[simp] theorem loadSam_pins (row : Nat) (s : State) :
    (loadSam row s).pins = s.pins := rfl
@[simp] theorem serialClock_cfg (s : State) :
    (serialClock s).cfg = s.cfg := rfl
@[simp] theorem serialClock_t (s : State) :
    (serialClock s).t = s.t := rfl
@[simp] theorem serialClock_draws (s : State) :
    (serialClock s).draws = s.draws := rfl
@[simp] theorem serialClock_inputs (s : State) :
    (serialClock s).inputs = s.inputs := rfl
@[simp] theorem serialClock_line (s : State) :
    (serialClock s).line = s.line := rfl
@[simp] theorem serialClock_frame (s : State) :
    (serialClock s).frame = s.frame := rfl
@[simp] theorem serialClock_host (s : State) :
    (serialClock s).host = s.host := rfl
@[simp] theorem serialClock_health (s : State) :
    (serialClock s).health = s.health := rfl
@[simp] theorem serialClock_req (s : State) :
    (serialClock s).req = s.req := rfl
@[simp] theorem serialClock_eng (s : State) :
    (serialClock s).eng = s.eng := rfl
@[simp] theorem serialClock_pins (s : State) :
    (serialClock s).pins = s.pins := rfl
@[simp] theorem decay_cfg (s : State) :
    (decay s).cfg = s.cfg := rfl
@[simp] theorem decay_t (s : State) :
    (decay s).t = s.t := rfl
@[simp] theorem decay_draws (s : State) :
    (decay s).draws = s.draws := rfl
@[simp] theorem decay_inputs (s : State) :
    (decay s).inputs = s.inputs := rfl
@[simp] theorem decay_line (s : State) :
    (decay s).line = s.line := rfl
@[simp] theorem decay_frame (s : State) :
    (decay s).frame = s.frame := rfl
@[simp] theorem decay_host (s : State) :
    (decay s).host = s.host := rfl
@[simp] theorem decay_health (s : State) :
    (decay s).health = s.health := rfl
@[simp] theorem decay_req (s : State) :
    (decay s).req = s.req := rfl
@[simp] theorem decay_eng (s : State) :
    (decay s).eng = s.eng := rfl
@[simp] theorem decay_pins (s : State) :
    (decay s).pins = s.pins := rfl
@[simp] theorem scrambleChip_cfg (s : State) :
    (scrambleChip s).cfg = s.cfg := rfl
@[simp] theorem scrambleChip_t (s : State) :
    (scrambleChip s).t = s.t := rfl
@[simp] theorem scrambleChip_draws (s : State) :
    (scrambleChip s).draws = s.draws := rfl
@[simp] theorem scrambleChip_inputs (s : State) :
    (scrambleChip s).inputs = s.inputs := rfl
@[simp] theorem scrambleChip_line (s : State) :
    (scrambleChip s).line = s.line := rfl
@[simp] theorem scrambleChip_frame (s : State) :
    (scrambleChip s).frame = s.frame := rfl
@[simp] theorem scrambleChip_host (s : State) :
    (scrambleChip s).host = s.host := rfl
@[simp] theorem scrambleChip_health (s : State) :
    (scrambleChip s).health = s.health := rfl
@[simp] theorem scrambleChip_req (s : State) :
    (scrambleChip s).req = s.req := rfl
@[simp] theorem scrambleChip_eng (s : State) :
    (scrambleChip s).eng = s.eng := rfl
@[simp] theorem scrambleChip_pins (s : State) :
    (scrambleChip s).pins = s.pins := rfl
@[simp] theorem hostRequest_cfg (w : Word) (s : State) :
    (hostRequest w s).cfg = s.cfg := rfl
@[simp] theorem hostRequest_t (w : Word) (s : State) :
    (hostRequest w s).t = s.t := rfl
@[simp] theorem hostRequest_draws (w : Word) (s : State) :
    (hostRequest w s).draws = s.draws := rfl
@[simp] theorem hostRequest_inputs (w : Word) (s : State) :
    (hostRequest w s).inputs = s.inputs := rfl
@[simp] theorem hostRequest_line (w : Word) (s : State) :
    (hostRequest w s).line = s.line := rfl
@[simp] theorem hostRequest_frame (w : Word) (s : State) :
    (hostRequest w s).frame = s.frame := rfl
@[simp] theorem hostRequest_host (w : Word) (s : State) :
    (hostRequest w s).host = s.host := rfl
@[simp] theorem hostRequest_health (w : Word) (s : State) :
    (hostRequest w s).health = s.health := rfl
@[simp] theorem hostRequest_eng (w : Word) (s : State) :
    (hostRequest w s).eng = s.eng := rfl
@[simp] theorem hostRequest_pins (w : Word) (s : State) :
    (hostRequest w s).pins = s.pins := rfl
@[simp] theorem hostRequest_chip (w : Word) (s : State) :
    (hostRequest w s).chip = s.chip := rfl
@[simp] theorem frameRequest_cfg (w : Word) (s : State) :
    (frameRequest w s).cfg = s.cfg := rfl
@[simp] theorem frameRequest_t (w : Word) (s : State) :
    (frameRequest w s).t = s.t := rfl
@[simp] theorem frameRequest_draws (w : Word) (s : State) :
    (frameRequest w s).draws = s.draws := rfl
@[simp] theorem frameRequest_inputs (w : Word) (s : State) :
    (frameRequest w s).inputs = s.inputs := rfl
@[simp] theorem frameRequest_line (w : Word) (s : State) :
    (frameRequest w s).line = s.line := rfl
@[simp] theorem frameRequest_frame (w : Word) (s : State) :
    (frameRequest w s).frame = s.frame := rfl
@[simp] theorem frameRequest_host (w : Word) (s : State) :
    (frameRequest w s).host = s.host := rfl
@[simp] theorem frameRequest_health (w : Word) (s : State) :
    (frameRequest w s).health = s.health := rfl
@[simp] theorem frameRequest_eng (w : Word) (s : State) :
    (frameRequest w s).eng = s.eng := rfl
@[simp] theorem frameRequest_pins (w : Word) (s : State) :
    (frameRequest w s).pins = s.pins := rfl
@[simp] theorem frameRequest_chip (w : Word) (s : State) :
    (frameRequest w s).chip = s.chip := rfl
@[simp] theorem respond_cfg (status : Status) (data : Word) (s : State) :
    (respond status data s).cfg = s.cfg := rfl
@[simp] theorem respond_t (status : Status) (data : Word) (s : State) :
    (respond status data s).t = s.t := rfl
@[simp] theorem respond_draws (status : Status) (data : Word) (s : State) :
    (respond status data s).draws = s.draws := rfl
@[simp] theorem respond_inputs (status : Status) (data : Word) (s : State) :
    (respond status data s).inputs = s.inputs := rfl
@[simp] theorem respond_line (status : Status) (data : Word) (s : State) :
    (respond status data s).line = s.line := rfl
@[simp] theorem respond_frame (status : Status) (data : Word) (s : State) :
    (respond status data s).frame = s.frame := rfl
@[simp] theorem respond_health (status : Status) (data : Word) (s : State) :
    (respond status data s).health = s.health := rfl
@[simp] theorem respond_req (status : Status) (data : Word) (s : State) :
    (respond status data s).req = s.req := rfl
@[simp] theorem respond_eng (status : Status) (data : Word) (s : State) :
    (respond status data s).eng = s.eng := rfl
@[simp] theorem respond_pins (status : Status) (data : Word) (s : State) :
    (respond status data s).pins = s.pins := rfl
@[simp] theorem respond_chip (status : Status) (data : Word) (s : State) :
    (respond status data s).chip = s.chip := rfl
@[simp] theorem enterHostPhase_cfg (p : HsPhase) (i : Instr) (s : State) :
    (enterHostPhase p i s).cfg = s.cfg := rfl
@[simp] theorem enterHostPhase_t (p : HsPhase) (i : Instr) (s : State) :
    (enterHostPhase p i s).t = s.t := rfl
@[simp] theorem enterHostPhase_draws (p : HsPhase) (i : Instr) (s : State) :
    (enterHostPhase p i s).draws = s.draws := rfl
@[simp] theorem enterHostPhase_inputs (p : HsPhase) (i : Instr) (s : State) :
    (enterHostPhase p i s).inputs = s.inputs := rfl
@[simp] theorem enterHostPhase_line (p : HsPhase) (i : Instr) (s : State) :
    (enterHostPhase p i s).line = s.line := rfl
@[simp] theorem enterHostPhase_frame (p : HsPhase) (i : Instr) (s : State) :
    (enterHostPhase p i s).frame = s.frame := rfl
@[simp] theorem enterHostPhase_health (p : HsPhase) (i : Instr) (s : State) :
    (enterHostPhase p i s).health = s.health := rfl
@[simp] theorem enterHostPhase_req (p : HsPhase) (i : Instr) (s : State) :
    (enterHostPhase p i s).req = s.req := rfl
@[simp] theorem enterHostPhase_eng (p : HsPhase) (i : Instr) (s : State) :
    (enterHostPhase p i s).eng = s.eng := rfl
@[simp] theorem enterHostPhase_pins (p : HsPhase) (i : Instr) (s : State) :
    (enterHostPhase p i s).pins = s.pins := rfl
@[simp] theorem enterHostPhase_chip (p : HsPhase) (i : Instr) (s : State) :
    (enterHostPhase p i s).chip = s.chip := rfl
@[simp] theorem enterLine_cfg (L : Nat) (s : State) :
    (enterLine L s).cfg = s.cfg := rfl
@[simp] theorem enterLine_t (L : Nat) (s : State) :
    (enterLine L s).t = s.t := rfl
@[simp] theorem enterLine_draws (L : Nat) (s : State) :
    (enterLine L s).draws = s.draws := rfl
@[simp] theorem enterLine_inputs (L : Nat) (s : State) :
    (enterLine L s).inputs = s.inputs := rfl
@[simp] theorem enterLine_frame (L : Nat) (s : State) :
    (enterLine L s).frame = s.frame := rfl
@[simp] theorem enterLine_host (L : Nat) (s : State) :
    (enterLine L s).host = s.host := rfl
@[simp] theorem enterLine_health (L : Nat) (s : State) :
    (enterLine L s).health = s.health := rfl
@[simp] theorem enterLine_req (L : Nat) (s : State) :
    (enterLine L s).req = s.req := rfl
@[simp] theorem enterLine_eng (L : Nat) (s : State) :
    (enterLine L s).eng = s.eng := rfl
@[simp] theorem enterLine_pins (L : Nat) (s : State) :
    (enterLine L s).pins = s.pins := rfl
@[simp] theorem enterLine_chip (L : Nat) (s : State) :
    (enterLine L s).chip = s.chip := rfl
@[simp] theorem hostReady_cfg (s : State) :
    (hostReady s).cfg = s.cfg := rfl
@[simp] theorem hostReady_t (s : State) :
    (hostReady s).t = s.t := rfl
@[simp] theorem hostReady_draws (s : State) :
    (hostReady s).draws = s.draws := rfl
@[simp] theorem hostReady_inputs (s : State) :
    (hostReady s).inputs = s.inputs := rfl
@[simp] theorem hostReady_line (s : State) :
    (hostReady s).line = s.line := rfl
@[simp] theorem hostReady_frame (s : State) :
    (hostReady s).frame = s.frame := rfl
@[simp] theorem hostReady_health (s : State) :
    (hostReady s).health = s.health := rfl
@[simp] theorem hostReady_req (s : State) :
    (hostReady s).req = s.req := rfl
@[simp] theorem hostReady_eng (s : State) :
    (hostReady s).eng = s.eng := rfl
@[simp] theorem hostReady_pins (s : State) :
    (hostReady s).pins = s.pins := rfl
@[simp] theorem hostReady_chip (s : State) :
    (hostReady s).chip = s.chip := rfl
@[simp] theorem drainPop_cfg (s : State) :
    (drainPop s).cfg = s.cfg := rfl
@[simp] theorem drainPop_t (s : State) :
    (drainPop s).t = s.t := rfl
@[simp] theorem drainPop_draws (s : State) :
    (drainPop s).draws = s.draws := rfl
@[simp] theorem drainPop_inputs (s : State) :
    (drainPop s).inputs = s.inputs := rfl
@[simp] theorem drainPop_line (s : State) :
    (drainPop s).line = s.line := rfl
@[simp] theorem drainPop_host (s : State) :
    (drainPop s).host = s.host := rfl
@[simp] theorem drainPop_health (s : State) :
    (drainPop s).health = s.health := rfl
@[simp] theorem drainPop_req (s : State) :
    (drainPop s).req = s.req := rfl
@[simp] theorem drainPop_eng (s : State) :
    (drainPop s).eng = s.eng := rfl
@[simp] theorem drainPop_pins (s : State) :
    (drainPop s).pins = s.pins := rfl
@[simp] theorem drainPop_chip (s : State) :
    (drainPop s).chip = s.chip := rfl
@[simp] theorem driveRow_cfg (s : State) :
    (driveRow s).cfg = s.cfg := rfl
@[simp] theorem driveRow_t (s : State) :
    (driveRow s).t = s.t := rfl
@[simp] theorem driveRow_draws (s : State) :
    (driveRow s).draws = s.draws := rfl
@[simp] theorem driveRow_inputs (s : State) :
    (driveRow s).inputs = s.inputs := rfl
@[simp] theorem driveRow_line (s : State) :
    (driveRow s).line = s.line := rfl
@[simp] theorem driveRow_frame (s : State) :
    (driveRow s).frame = s.frame := rfl
@[simp] theorem driveRow_host (s : State) :
    (driveRow s).host = s.host := rfl
@[simp] theorem driveRow_health (s : State) :
    (driveRow s).health = s.health := rfl
@[simp] theorem driveRow_req (s : State) :
    (driveRow s).req = s.req := rfl
@[simp] theorem driveRow_eng (s : State) :
    (driveRow s).eng = s.eng := rfl
@[simp] theorem driveRow_chip (s : State) :
    (driveRow s).chip = s.chip := rfl
@[simp] theorem driveCol_cfg (s : State) :
    (driveCol s).cfg = s.cfg := rfl
@[simp] theorem driveCol_t (s : State) :
    (driveCol s).t = s.t := rfl
@[simp] theorem driveCol_draws (s : State) :
    (driveCol s).draws = s.draws := rfl
@[simp] theorem driveCol_inputs (s : State) :
    (driveCol s).inputs = s.inputs := rfl
@[simp] theorem driveCol_line (s : State) :
    (driveCol s).line = s.line := rfl
@[simp] theorem driveCol_frame (s : State) :
    (driveCol s).frame = s.frame := rfl
@[simp] theorem driveCol_host (s : State) :
    (driveCol s).host = s.host := rfl
@[simp] theorem driveCol_health (s : State) :
    (driveCol s).health = s.health := rfl
@[simp] theorem driveCol_req (s : State) :
    (driveCol s).req = s.req := rfl
@[simp] theorem driveCol_eng (s : State) :
    (driveCol s).eng = s.eng := rfl
@[simp] theorem driveCol_chip (s : State) :
    (driveCol s).chip = s.chip := rfl
@[simp] theorem setRas_cfg (b : Bool) (s : State) :
    (setRas b s).cfg = s.cfg := rfl
@[simp] theorem setRas_t (b : Bool) (s : State) :
    (setRas b s).t = s.t := rfl
@[simp] theorem setRas_draws (b : Bool) (s : State) :
    (setRas b s).draws = s.draws := rfl
@[simp] theorem setRas_inputs (b : Bool) (s : State) :
    (setRas b s).inputs = s.inputs := rfl
@[simp] theorem setRas_line (b : Bool) (s : State) :
    (setRas b s).line = s.line := rfl
@[simp] theorem setRas_frame (b : Bool) (s : State) :
    (setRas b s).frame = s.frame := rfl
@[simp] theorem setRas_host (b : Bool) (s : State) :
    (setRas b s).host = s.host := rfl
@[simp] theorem setRas_health (b : Bool) (s : State) :
    (setRas b s).health = s.health := rfl
@[simp] theorem setRas_req (b : Bool) (s : State) :
    (setRas b s).req = s.req := rfl
@[simp] theorem setRas_eng (b : Bool) (s : State) :
    (setRas b s).eng = s.eng := rfl
@[simp] theorem setRas_chip (b : Bool) (s : State) :
    (setRas b s).chip = s.chip := rfl
@[simp] theorem setCas_cfg (b : Bool) (s : State) :
    (setCas b s).cfg = s.cfg := rfl
@[simp] theorem setCas_t (b : Bool) (s : State) :
    (setCas b s).t = s.t := rfl
@[simp] theorem setCas_draws (b : Bool) (s : State) :
    (setCas b s).draws = s.draws := rfl
@[simp] theorem setCas_inputs (b : Bool) (s : State) :
    (setCas b s).inputs = s.inputs := rfl
@[simp] theorem setCas_line (b : Bool) (s : State) :
    (setCas b s).line = s.line := rfl
@[simp] theorem setCas_frame (b : Bool) (s : State) :
    (setCas b s).frame = s.frame := rfl
@[simp] theorem setCas_host (b : Bool) (s : State) :
    (setCas b s).host = s.host := rfl
@[simp] theorem setCas_health (b : Bool) (s : State) :
    (setCas b s).health = s.health := rfl
@[simp] theorem setCas_req (b : Bool) (s : State) :
    (setCas b s).req = s.req := rfl
@[simp] theorem setCas_eng (b : Bool) (s : State) :
    (setCas b s).eng = s.eng := rfl
@[simp] theorem setCas_chip (b : Bool) (s : State) :
    (setCas b s).chip = s.chip := rfl
@[simp] theorem setOe_cfg (b : Bool) (s : State) :
    (setOe b s).cfg = s.cfg := rfl
@[simp] theorem setOe_t (b : Bool) (s : State) :
    (setOe b s).t = s.t := rfl
@[simp] theorem setOe_draws (b : Bool) (s : State) :
    (setOe b s).draws = s.draws := rfl
@[simp] theorem setOe_inputs (b : Bool) (s : State) :
    (setOe b s).inputs = s.inputs := rfl
@[simp] theorem setOe_line (b : Bool) (s : State) :
    (setOe b s).line = s.line := rfl
@[simp] theorem setOe_frame (b : Bool) (s : State) :
    (setOe b s).frame = s.frame := rfl
@[simp] theorem setOe_host (b : Bool) (s : State) :
    (setOe b s).host = s.host := rfl
@[simp] theorem setOe_health (b : Bool) (s : State) :
    (setOe b s).health = s.health := rfl
@[simp] theorem setOe_req (b : Bool) (s : State) :
    (setOe b s).req = s.req := rfl
@[simp] theorem setOe_eng (b : Bool) (s : State) :
    (setOe b s).eng = s.eng := rfl
@[simp] theorem setOe_chip (b : Bool) (s : State) :
    (setOe b s).chip = s.chip := rfl
@[simp] theorem setTrg_cfg (b : Bool) (s : State) :
    (setTrg b s).cfg = s.cfg := rfl
@[simp] theorem setTrg_t (b : Bool) (s : State) :
    (setTrg b s).t = s.t := rfl
@[simp] theorem setTrg_draws (b : Bool) (s : State) :
    (setTrg b s).draws = s.draws := rfl
@[simp] theorem setTrg_inputs (b : Bool) (s : State) :
    (setTrg b s).inputs = s.inputs := rfl
@[simp] theorem setTrg_line (b : Bool) (s : State) :
    (setTrg b s).line = s.line := rfl
@[simp] theorem setTrg_frame (b : Bool) (s : State) :
    (setTrg b s).frame = s.frame := rfl
@[simp] theorem setTrg_host (b : Bool) (s : State) :
    (setTrg b s).host = s.host := rfl
@[simp] theorem setTrg_health (b : Bool) (s : State) :
    (setTrg b s).health = s.health := rfl
@[simp] theorem setTrg_req (b : Bool) (s : State) :
    (setTrg b s).req = s.req := rfl
@[simp] theorem setTrg_eng (b : Bool) (s : State) :
    (setTrg b s).eng = s.eng := rfl
@[simp] theorem setTrg_chip (b : Bool) (s : State) :
    (setTrg b s).chip = s.chip := rfl
@[simp] theorem driveData_cfg (s : State) :
    (driveData s).cfg = s.cfg := rfl
@[simp] theorem driveData_t (s : State) :
    (driveData s).t = s.t := rfl
@[simp] theorem driveData_draws (s : State) :
    (driveData s).draws = s.draws := rfl
@[simp] theorem driveData_inputs (s : State) :
    (driveData s).inputs = s.inputs := rfl
@[simp] theorem driveData_line (s : State) :
    (driveData s).line = s.line := rfl
@[simp] theorem driveData_frame (s : State) :
    (driveData s).frame = s.frame := rfl
@[simp] theorem driveData_host (s : State) :
    (driveData s).host = s.host := rfl
@[simp] theorem driveData_health (s : State) :
    (driveData s).health = s.health := rfl
@[simp] theorem driveData_req (s : State) :
    (driveData s).req = s.req := rfl
@[simp] theorem driveData_eng (s : State) :
    (driveData s).eng = s.eng := rfl
@[simp] theorem driveData_chip (s : State) :
    (driveData s).chip = s.chip := rfl
@[simp] theorem releaseData_cfg (s : State) :
    (releaseData s).cfg = s.cfg := rfl
@[simp] theorem releaseData_t (s : State) :
    (releaseData s).t = s.t := rfl
@[simp] theorem releaseData_draws (s : State) :
    (releaseData s).draws = s.draws := rfl
@[simp] theorem releaseData_inputs (s : State) :
    (releaseData s).inputs = s.inputs := rfl
@[simp] theorem releaseData_line (s : State) :
    (releaseData s).line = s.line := rfl
@[simp] theorem releaseData_frame (s : State) :
    (releaseData s).frame = s.frame := rfl
@[simp] theorem releaseData_host (s : State) :
    (releaseData s).host = s.host := rfl
@[simp] theorem releaseData_health (s : State) :
    (releaseData s).health = s.health := rfl
@[simp] theorem releaseData_req (s : State) :
    (releaseData s).req = s.req := rfl
@[simp] theorem releaseData_eng (s : State) :
    (releaseData s).eng = s.eng := rfl
@[simp] theorem releaseData_chip (s : State) :
    (releaseData s).chip = s.chip := rfl
@[simp] theorem countCycle_cfg (s : State) :
    (countCycle s).cfg = s.cfg := rfl
@[simp] theorem countCycle_t (s : State) :
    (countCycle s).t = s.t := rfl
@[simp] theorem countCycle_draws (s : State) :
    (countCycle s).draws = s.draws := rfl
@[simp] theorem countCycle_inputs (s : State) :
    (countCycle s).inputs = s.inputs := rfl
@[simp] theorem countCycle_frame (s : State) :
    (countCycle s).frame = s.frame := rfl
@[simp] theorem countCycle_host (s : State) :
    (countCycle s).host = s.host := rfl
@[simp] theorem countCycle_health (s : State) :
    (countCycle s).health = s.health := rfl
@[simp] theorem countCycle_req (s : State) :
    (countCycle s).req = s.req := rfl
@[simp] theorem countCycle_eng (s : State) :
    (countCycle s).eng = s.eng := rfl
@[simp] theorem countCycle_pins (s : State) :
    (countCycle s).pins = s.pins := rfl
@[simp] theorem countCycle_chip (s : State) :
    (countCycle s).chip = s.chip := rfl
@[simp] theorem setTickPending_cfg (b : Bool) (s : State) :
    (setTickPending b s).cfg = s.cfg := rfl
@[simp] theorem setTickPending_t (b : Bool) (s : State) :
    (setTickPending b s).t = s.t := rfl
@[simp] theorem setTickPending_draws (b : Bool) (s : State) :
    (setTickPending b s).draws = s.draws := rfl
@[simp] theorem setTickPending_inputs (b : Bool) (s : State) :
    (setTickPending b s).inputs = s.inputs := rfl
@[simp] theorem setTickPending_frame (b : Bool) (s : State) :
    (setTickPending b s).frame = s.frame := rfl
@[simp] theorem setTickPending_host (b : Bool) (s : State) :
    (setTickPending b s).host = s.host := rfl
@[simp] theorem setTickPending_health (b : Bool) (s : State) :
    (setTickPending b s).health = s.health := rfl
@[simp] theorem setTickPending_req (b : Bool) (s : State) :
    (setTickPending b s).req = s.req := rfl
@[simp] theorem setTickPending_eng (b : Bool) (s : State) :
    (setTickPending b s).eng = s.eng := rfl
@[simp] theorem setTickPending_pins (b : Bool) (s : State) :
    (setTickPending b s).pins = s.pins := rfl
@[simp] theorem setTickPending_chip (b : Bool) (s : State) :
    (setTickPending b s).chip = s.chip := rfl
@[simp] theorem lineWait_cfg (s : State) :
    (lineWait s).cfg = s.cfg := rfl
@[simp] theorem lineWait_t (s : State) :
    (lineWait s).t = s.t := rfl
@[simp] theorem lineWait_draws (s : State) :
    (lineWait s).draws = s.draws := rfl
@[simp] theorem lineWait_inputs (s : State) :
    (lineWait s).inputs = s.inputs := rfl
@[simp] theorem lineWait_frame (s : State) :
    (lineWait s).frame = s.frame := rfl
@[simp] theorem lineWait_host (s : State) :
    (lineWait s).host = s.host := rfl
@[simp] theorem lineWait_health (s : State) :
    (lineWait s).health = s.health := rfl
@[simp] theorem lineWait_req (s : State) :
    (lineWait s).req = s.req := rfl
@[simp] theorem lineWait_eng (s : State) :
    (lineWait s).eng = s.eng := rfl
@[simp] theorem lineWait_pins (s : State) :
    (lineWait s).pins = s.pins := rfl
@[simp] theorem lineWait_chip (s : State) :
    (lineWait s).chip = s.chip := rfl
@[simp] theorem endHighHalf_cfg (s : State) :
    (endHighHalf s).cfg = s.cfg := rfl
@[simp] theorem endHighHalf_t (s : State) :
    (endHighHalf s).t = s.t := rfl
@[simp] theorem endHighHalf_draws (s : State) :
    (endHighHalf s).draws = s.draws := rfl
@[simp] theorem endHighHalf_inputs (s : State) :
    (endHighHalf s).inputs = s.inputs := rfl
@[simp] theorem endHighHalf_frame (s : State) :
    (endHighHalf s).frame = s.frame := rfl
@[simp] theorem endHighHalf_host (s : State) :
    (endHighHalf s).host = s.host := rfl
@[simp] theorem endHighHalf_health (s : State) :
    (endHighHalf s).health = s.health := rfl
@[simp] theorem endHighHalf_req (s : State) :
    (endHighHalf s).req = s.req := rfl
@[simp] theorem endHighHalf_eng (s : State) :
    (endHighHalf s).eng = s.eng := rfl
@[simp] theorem endHighHalf_pins (s : State) :
    (endHighHalf s).pins = s.pins := rfl
@[simp] theorem endHighHalf_chip (s : State) :
    (endHighHalf s).chip = s.chip := rfl
@[simp] theorem resetRegisters_cfg (s : State) :
    (resetRegisters s).cfg = s.cfg := rfl
@[simp] theorem resetRegisters_t (s : State) :
    (resetRegisters s).t = s.t := rfl
@[simp] theorem resetRegisters_draws (s : State) :
    (resetRegisters s).draws = s.draws := rfl
@[simp] theorem resetRegisters_inputs (s : State) :
    (resetRegisters s).inputs = s.inputs := rfl
@[simp] theorem resetRegisters_chip (s : State) :
    (resetRegisters s).chip = s.chip := rfl
@[simp] theorem advanceTime_cfg (s : State) :
    (advanceTime s).cfg = s.cfg := rfl
@[simp] theorem advanceTime_inputs (s : State) :
    (advanceTime s).inputs = s.inputs := rfl
@[simp] theorem advanceTime_line (s : State) :
    (advanceTime s).line = s.line := rfl
@[simp] theorem advanceTime_frame (s : State) :
    (advanceTime s).frame = s.frame := rfl
@[simp] theorem advanceTime_host (s : State) :
    (advanceTime s).host = s.host := rfl
@[simp] theorem advanceTime_health (s : State) :
    (advanceTime s).health = s.health := rfl
@[simp] theorem advanceTime_req (s : State) :
    (advanceTime s).req = s.req := rfl
@[simp] theorem advanceTime_eng (s : State) :
    (advanceTime s).eng = s.eng := rfl
@[simp] theorem advanceTime_pins (s : State) :
    (advanceTime s).pins = s.pins := rfl
@[simp] theorem advanceTime_chip (s : State) :
    (advanceTime s).chip = s.chip := rfl

/-! ## The groups an update writes -/

@[simp] theorem raiseOverflow_overflow (s : State) : (raiseOverflow s).health.overflow = true := rfl
@[simp] theorem raiseOverflow_violation (s : State) :
    (raiseOverflow s).health.violation = s.health.violation := rfl
@[simp] theorem raiseViolation_violation (s : State) : (raiseViolation s).health.violation = true := rfl
@[simp] theorem raiseViolation_overflow (s : State) :
    (raiseViolation s).health.overflow = s.health.overflow := rfl
@[simp] theorem clearFlags_health (s : State) : (clearFlags s).health = ⟨false, false⟩ := rfl
@[simp] theorem setCell_cells (row col : Nat) (value : Nibble) (s : State) :
    (setCell row col value s).chip.cells = cellPut (cellAddr s.cfg row col) value s.chip.cells := rfl
@[simp] theorem setCell_rowStamp (row col : Nat) (value : Nibble) (s : State) :
    (setCell row col value s).chip.rowStamp = s.chip.rowStamp := rfl
@[simp] theorem setCell_sam (row col : Nat) (value : Nibble) (s : State) :
    (setCell row col value s).chip.sam = s.chip.sam := rfl
@[simp] theorem setCell_samPtr (row col : Nat) (value : Nibble) (s : State) :
    (setCell row col value s).chip.samPtr = s.chip.samPtr := rfl
@[simp] theorem setCell_sd (row col : Nat) (value : Nibble) (s : State) :
    (setCell row col value s).chip.sd = s.chip.sd := rfl
@[simp] theorem restartRetention_cells (row : Nat) (s : State) :
    (restartRetention row s).chip.cells = s.chip.cells := rfl
@[simp] theorem restartRetention_rowStamp (row : Nat) (s : State) :
    (restartRetention row s).chip.rowStamp = s.chip.rowStamp.set row s.t := rfl
@[simp] theorem restartRetention_sam (row : Nat) (s : State) :
    (restartRetention row s).chip.sam = s.chip.sam := rfl
@[simp] theorem restartRetention_samPtr (row : Nat) (s : State) :
    (restartRetention row s).chip.samPtr = s.chip.samPtr := rfl
@[simp] theorem restartRetention_sd (row : Nat) (s : State) :
    (restartRetention row s).chip.sd = s.chip.sd := rfl
@[simp] theorem loadSam_cells (row : Nat) (s : State) :
    (loadSam row s).chip.cells = s.chip.cells := rfl
@[simp] theorem loadSam_rowStamp (row : Nat) (s : State) :
    (loadSam row s).chip.rowStamp = s.chip.rowStamp := rfl
@[simp] theorem loadSam_samPtr (row : Nat) (s : State) : (loadSam row s).chip.samPtr = 0 := rfl
@[simp] theorem loadSam_sd (row : Nat) (s : State) : (loadSam row s).chip.sd = s.chip.sd := rfl
@[simp] theorem serialClock_cells (s : State) : (serialClock s).chip.cells = s.chip.cells := rfl
@[simp] theorem serialClock_rowStamp (s : State) :
    (serialClock s).chip.rowStamp = s.chip.rowStamp := rfl
@[simp] theorem serialClock_sam (s : State) : (serialClock s).chip.sam = s.chip.sam := rfl
@[simp] theorem serialClock_samPtr (s : State) :
    (serialClock s).chip.samPtr = (s.chip.samPtr + 1) % s.cfg.dramCols := rfl
@[simp] theorem serialClock_sd (s : State) : (serialClock s).chip.sd = samAt s s.chip.samPtr := rfl
@[simp] theorem decay_rowStamp (s : State) : (decay s).chip.rowStamp = s.chip.rowStamp := rfl
@[simp] theorem decay_sam (s : State) : (decay s).chip.sam = s.chip.sam := rfl
@[simp] theorem decay_samPtr (s : State) : (decay s).chip.samPtr = s.chip.samPtr := rfl
@[simp] theorem decay_sd (s : State) : (decay s).chip.sd = s.chip.sd := rfl
@[simp] theorem scrambleChip_cells (s : State) : (scrambleChip s).chip.cells = [] := rfl
@[simp] theorem scrambleChip_rowStamp (s : State) :
    (scrambleChip s).chip.rowStamp = s.chip.rowStamp := rfl
@[simp] theorem scrambleChip_sam (s : State) :
    (scrambleChip s).chip.sam = List.replicate s.cfg.dramCols none := rfl
@[simp] theorem hostRequest_hs (w : Word) (s : State) : (hostRequest w s).req.hs = some w := rfl
@[simp] theorem hostRequest_fs (w : Word) (s : State) : (hostRequest w s).req.fs = s.req.fs := rfl
@[simp] theorem hostRequest_ls (w : Word) (s : State) : (hostRequest w s).req.ls = s.req.ls := rfl
@[simp] theorem frameRequest_fs (w : Word) (s : State) : (frameRequest w s).req.fs = some w := rfl
@[simp] theorem frameRequest_hs (w : Word) (s : State) : (frameRequest w s).req.hs = s.req.hs := rfl
@[simp] theorem frameRequest_ls (w : Word) (s : State) : (frameRequest w s).req.ls = s.req.ls := rfl
@[simp] theorem respond_phase (status : Status) (data : Word) (s : State) :
    (respond status data s).host.phase = .idle := rfl
@[simp] theorem respond_rspValid (status : Status) (data : Word) (s : State) :
    (respond status data s).host.rspValid = true := rfl
@[simp] theorem respond_rspStatus (status : Status) (data : Word) (s : State) :
    (respond status data s).host.rspStatus = status := rfl
@[simp] theorem respond_rspData (status : Status) (data : Word) (s : State) :
    (respond status data s).host.rspData = data := rfl
@[simp] theorem respond_ring (status : Status) (data : Word) (s : State) :
    (respond status data s).host.ring = s.host.ring := rfl
@[simp] theorem respond_writeIndex (status : Status) (data : Word) (s : State) :
    (respond status data s).host.writeIndex = s.host.writeIndex := rfl
@[simp] theorem respond_running (status : Status) (data : Word) (s : State) :
    (respond status data s).host.running = s.host.running := rfl
@[simp] theorem respond_lastRefreshTime (status : Status) (data : Word) (s : State) :
    (respond status data s).host.lastRefreshTime = s.host.lastRefreshTime := rfl
@[simp] theorem respond_pending (status : Status) (data : Word) (s : State) :
    (respond status data s).host.pending = s.host.pending := rfl
@[simp] theorem enterHostPhase_phase (p : HsPhase) (i : Instr) (s : State) :
    (enterHostPhase p i s).host.phase = p := rfl
@[simp] theorem enterHostPhase_cmd (p : HsPhase) (i : Instr) (s : State) :
    (enterHostPhase p i s).host.cmd = (encode i).1 := rfl
@[simp] theorem enterHostPhase_arg (p : HsPhase) (i : Instr) (s : State) :
    (enterHostPhase p i s).host.arg = (encode i).2 := rfl
@[simp] theorem enterHostPhase_i (p : HsPhase) (i : Instr) (s : State) :
    (enterHostPhase p i s).host.i = 0 := rfl
@[simp] theorem enterHostPhase_j (p : HsPhase) (i : Instr) (s : State) :
    (enterHostPhase p i s).host.j = 0 := rfl
@[simp] theorem enterHostPhase_ring (p : HsPhase) (i : Instr) (s : State) :
    (enterHostPhase p i s).host.ring = s.host.ring := rfl
@[simp] theorem enterHostPhase_writeIndex (p : HsPhase) (i : Instr) (s : State) :
    (enterHostPhase p i s).host.writeIndex = s.host.writeIndex := rfl
@[simp] theorem enterHostPhase_running (p : HsPhase) (i : Instr) (s : State) :
    (enterHostPhase p i s).host.running = s.host.running := rfl
@[simp] theorem enterHostPhase_lastRefreshTime (p : HsPhase) (i : Instr) (s : State) :
    (enterHostPhase p i s).host.lastRefreshTime = s.host.lastRefreshTime := rfl
@[simp] theorem enterHostPhase_pending (p : HsPhase) (i : Instr) (s : State) :
    (enterHostPhase p i s).host.pending = s.host.pending := rfl
@[simp] theorem hostReady_pending (s : State) : (hostReady s).host.pending = false := rfl
@[simp] theorem hostReady_rspValid (s : State) : (hostReady s).host.rspValid = false := rfl
@[simp] theorem hostReady_phase (s : State) : (hostReady s).host.phase = s.host.phase := rfl
@[simp] theorem hostReady_running (s : State) : (hostReady s).host.running = s.host.running := rfl
@[simp] theorem hostReady_ring (s : State) : (hostReady s).host.ring = s.host.ring := rfl
@[simp] theorem hostReady_writeIndex (s : State) :
    (hostReady s).host.writeIndex = s.host.writeIndex := rfl
@[simp] theorem hostReady_cmd (s : State) : (hostReady s).host.cmd = s.host.cmd := rfl
@[simp] theorem hostReady_arg (s : State) : (hostReady s).host.arg = s.host.arg := rfl
@[simp] theorem hostReady_i (s : State) : (hostReady s).host.i = s.host.i := rfl
@[simp] theorem hostReady_j (s : State) : (hostReady s).host.j = s.host.j := rfl
@[simp] theorem hostReady_lastRefreshTime (s : State) :
    (hostReady s).host.lastRefreshTime = s.host.lastRefreshTime := rfl
@[simp] theorem enterLine_phase (L : Nat) (s : State) : (enterLine L s).line.phase = .hsync := rfl
@[simp] theorem enterLine_dwell (L : Nat) (s : State) :
    (enterLine L s).line.dwell = s.cfg.hSyncClks := rfl
@[simp] theorem enterLine_hsync (L : Nat) (s : State) : (enterLine L s).line.hsync = true := rfl
@[simp] theorem enterLine_vsync (L : Nat) (s : State) :
    (enterLine L s).line.vsync = decide (lineClass s.cfg L = .syncPulse) := rfl
@[simp] theorem enterLine_inVblank (L : Nat) (s : State) :
    (enterLine L s).line.inVblank = !activeLine s.cfg L := rfl
@[simp] theorem enterLine_currentLine (L : Nat) (s : State) :
    (enterLine L s).line.currentLine = s.line.currentLine := rfl
@[simp] theorem enterLine_framebufferRow (L : Nat) (s : State) :
    (enterLine L s).line.framebufferRow = s.line.framebufferRow := rfl
@[simp] theorem enterLine_frameCount (L : Nat) (s : State) :
    (enterLine L s).line.frameCount = s.line.frameCount := rfl
@[simp] theorem enterLine_hCount (L : Nat) (s : State) :
    (enterLine L s).line.hCount = s.line.hCount := rfl
@[simp] theorem enterLine_tickPending (L : Nat) (s : State) :
    (enterLine L s).line.tickPending = s.line.tickPending := rfl
@[simp] theorem enterLine_pixCount (L : Nat) (s : State) :
    (enterLine L s).line.pixCount = s.line.pixCount := rfl
@[simp] theorem enterLine_scHalf (L : Nat) (s : State) :
    (enterLine L s).line.scHalf = s.line.scHalf := rfl
@[simp] theorem enterLine_sc (L : Nat) (s : State) : (enterLine L s).line.sc = s.line.sc := rfl
@[simp] theorem enterLine_se (L : Nat) (s : State) : (enterLine L s).line.se = s.line.se := rfl
@[simp] theorem drainPop_entry (s : State) :
    (drainPop s).frame.entry = ringAt s s.frame.readIndex := rfl
@[simp] theorem drainPop_readIndex (s : State) :
    (drainPop s).frame.readIndex = nextIndex s.cfg s.frame.readIndex := rfl
@[simp] theorem drainPop_drained (s : State) :
    (drainPop s).frame.drained = s.frame.drained + 1 := rfl
@[simp] theorem drainPop_phase (s : State) : (drainPop s).frame.phase = s.frame.phase := rfl
@[simp] theorem drainPop_row (s : State) : (drainPop s).frame.row = s.frame.row := rfl
@[simp] theorem resetRegisters_line (s : State) : (resetRegisters s).line = LineCtx.reset := rfl
@[simp] theorem resetRegisters_frame (s : State) : (resetRegisters s).frame = FrameCtx.reset := rfl
@[simp] theorem resetRegisters_host (s : State) :
    (resetRegisters s).host = HostCtx.reset s.cfg := rfl
@[simp] theorem resetRegisters_health (s : State) :
    (resetRegisters s).health = HealthFlags.reset := rfl
@[simp] theorem resetRegisters_req (s : State) : (resetRegisters s).req = Requests.none := rfl
@[simp] theorem resetRegisters_eng (s : State) : (resetRegisters s).eng = EngCtx.reset := rfl
@[simp] theorem resetRegisters_pins (s : State) : (resetRegisters s).pins = EngPins.reset := rfl
@[simp] theorem advanceTime_t (s : State) : (advanceTime s).t = s.t + 1 := rfl
@[simp] theorem advanceTime_draws (s : State) : (advanceTime s).draws = s.draws + 1 := rfl
@[simp] theorem joinEdges_cfg (b h g : State) : (joinEdges b h g).cfg = h.cfg := rfl
@[simp] theorem joinEdges_t (b h g : State) : (joinEdges b h g).t = h.t := rfl
@[simp] theorem joinEdges_draws (b h g : State) : (joinEdges b h g).draws = h.draws := rfl
@[simp] theorem joinEdges_inputs (b h g : State) : (joinEdges b h g).inputs = h.inputs := rfl
@[simp] theorem joinEdges_line (b h g : State) : (joinEdges b h g).line = h.line := rfl
@[simp] theorem joinEdges_frame (b h g : State) : (joinEdges b h g).frame = h.frame := rfl
@[simp] theorem joinEdges_host (b h g : State) : (joinEdges b h g).host = h.host := rfl
@[simp] theorem joinEdges_health (b h g : State) : (joinEdges b h g).health = h.health := rfl
@[simp] theorem joinEdges_eng (b h g : State) : (joinEdges b h g).eng = g.eng := rfl
@[simp] theorem joinEdges_pins (b h g : State) : (joinEdges b h g).pins = g.pins := rfl
@[simp] theorem joinEdges_chip (b h g : State) : (joinEdges b h g).chip = g.chip := rfl
@[simp] theorem setCounters_cfg (i j : BitVec 12) (s : State) :
    (setCounters i j s).cfg = s.cfg := rfl
@[simp] theorem setCounters_t (i j : BitVec 12) (s : State) :
    (setCounters i j s).t = s.t := rfl
@[simp] theorem setCounters_draws (i j : BitVec 12) (s : State) :
    (setCounters i j s).draws = s.draws := rfl
@[simp] theorem setCounters_inputs (i j : BitVec 12) (s : State) :
    (setCounters i j s).inputs = s.inputs := rfl
@[simp] theorem setCounters_line (i j : BitVec 12) (s : State) :
    (setCounters i j s).line = s.line := rfl
@[simp] theorem setCounters_frame (i j : BitVec 12) (s : State) :
    (setCounters i j s).frame = s.frame := rfl
@[simp] theorem setCounters_health (i j : BitVec 12) (s : State) :
    (setCounters i j s).health = s.health := rfl
@[simp] theorem setCounters_req (i j : BitVec 12) (s : State) :
    (setCounters i j s).req = s.req := rfl
@[simp] theorem setCounters_eng (i j : BitVec 12) (s : State) :
    (setCounters i j s).eng = s.eng := rfl
@[simp] theorem setCounters_pins (i j : BitVec 12) (s : State) :
    (setCounters i j s).pins = s.pins := rfl
@[simp] theorem setCounters_chip (i j : BitVec 12) (s : State) :
    (setCounters i j s).chip = s.chip := rfl
@[simp] theorem setCounters_phase (i j : BitVec 12) (s : State) :
    (setCounters i j s).host.phase = s.host.phase := rfl
@[simp] theorem setCounters_cmd (i j : BitVec 12) (s : State) :
    (setCounters i j s).host.cmd = s.host.cmd := rfl
@[simp] theorem setCounters_arg (i j : BitVec 12) (s : State) :
    (setCounters i j s).host.arg = s.host.arg := rfl
@[simp] theorem setCounters_ring (i j : BitVec 12) (s : State) :
    (setCounters i j s).host.ring = s.host.ring := rfl
@[simp] theorem setCounters_writeIndex (i j : BitVec 12) (s : State) :
    (setCounters i j s).host.writeIndex = s.host.writeIndex := rfl
@[simp] theorem setCounters_running (i j : BitVec 12) (s : State) :
    (setCounters i j s).host.running = s.host.running := rfl
@[simp] theorem setCounters_lastRefreshTime (i j : BitVec 12) (s : State) :
    (setCounters i j s).host.lastRefreshTime = s.host.lastRefreshTime := rfl
@[simp] theorem setCounters_pending (i j : BitVec 12) (s : State) :
    (setCounters i j s).host.pending = s.host.pending := rfl
@[simp] theorem setCounters_rspValid (i j : BitVec 12) (s : State) :
    (setCounters i j s).host.rspValid = s.host.rspValid := rfl
@[simp] theorem setCounters_i (i j : BitVec 12) (s : State) :
    (setCounters i j s).host.i = i := rfl
@[simp] theorem setCounters_j (i j : BitVec 12) (s : State) :
    (setCounters i j s).host.j = j := rfl
@[simp] theorem setCounters_setCounters (i j k l : BitVec 12) (s : State) :
    setCounters i j (setCounters k l s) = setCounters i j s := rfl
@[simp] theorem sampleCell_cfg (s : State) :
    (sampleCell s).cfg = s.cfg := rfl
@[simp] theorem sampleCell_t (s : State) :
    (sampleCell s).t = s.t := rfl
@[simp] theorem sampleCell_draws (s : State) :
    (sampleCell s).draws = s.draws := rfl
@[simp] theorem sampleCell_inputs (s : State) :
    (sampleCell s).inputs = s.inputs := rfl
@[simp] theorem sampleCell_line (s : State) :
    (sampleCell s).line = s.line := rfl
@[simp] theorem sampleCell_frame (s : State) :
    (sampleCell s).frame = s.frame := rfl
@[simp] theorem sampleCell_host (s : State) :
    (sampleCell s).host = s.host := rfl
@[simp] theorem sampleCell_health (s : State) :
    (sampleCell s).health = s.health := rfl
@[simp] theorem sampleCell_req (s : State) :
    (sampleCell s).req = s.req := rfl
@[simp] theorem sampleCell_pins (s : State) :
    (sampleCell s).pins = s.pins := rfl
@[simp] theorem sampleCell_chip (s : State) :
    (sampleCell s).chip = s.chip := rfl
@[simp] theorem sampleCell_val (s : State) :
    (sampleCell s).eng.val = readCell s s.eng.row s.eng.col := rfl
@[simp] theorem sampleCell_eng_phase (s : State) :
    (sampleCell s).eng.phase = s.eng.phase := rfl
@[simp] theorem sampleCell_eng_op (s : State) :
    (sampleCell s).eng.op = s.eng.op := rfl
@[simp] theorem sampleCell_eng_row (s : State) :
    (sampleCell s).eng.row = s.eng.row := rfl
@[simp] theorem sampleCell_eng_col (s : State) :
    (sampleCell s).eng.col = s.eng.col := rfl
@[simp] theorem sampleCell_eng_dwell (s : State) :
    (sampleCell s).eng.dwell = s.eng.dwell := rfl
@[simp] theorem sampleCell_eng_owner (s : State) :
    (sampleCell s).eng.owner = s.eng.owner := rfl
@[simp] theorem holdWord_cfg (w : Word) (s : State) :
    (holdWord w s).cfg = s.cfg := rfl
@[simp] theorem holdWord_t (w : Word) (s : State) :
    (holdWord w s).t = s.t := rfl
@[simp] theorem holdWord_draws (w : Word) (s : State) :
    (holdWord w s).draws = s.draws := rfl
@[simp] theorem holdWord_inputs (w : Word) (s : State) :
    (holdWord w s).inputs = s.inputs := rfl
@[simp] theorem holdWord_line (w : Word) (s : State) :
    (holdWord w s).line = s.line := rfl
@[simp] theorem holdWord_frame (w : Word) (s : State) :
    (holdWord w s).frame = s.frame := rfl
@[simp] theorem holdWord_health (w : Word) (s : State) :
    (holdWord w s).health = s.health := rfl
@[simp] theorem holdWord_req (w : Word) (s : State) :
    (holdWord w s).req = s.req := rfl
@[simp] theorem holdWord_eng (w : Word) (s : State) :
    (holdWord w s).eng = s.eng := rfl
@[simp] theorem holdWord_pins (w : Word) (s : State) :
    (holdWord w s).pins = s.pins := rfl
@[simp] theorem holdWord_chip (w : Word) (s : State) :
    (holdWord w s).chip = s.chip := rfl
@[simp] theorem holdWord_held (w : Word) (s : State) :
    (holdWord w s).host.held = some w := rfl
@[simp] theorem holdWord_phase (w : Word) (s : State) :
    (holdWord w s).host.phase = s.host.phase := rfl
@[simp] theorem holdWord_pending (w : Word) (s : State) :
    (holdWord w s).host.pending = s.host.pending := rfl
@[simp] theorem holdWord_cmd (w : Word) (s : State) :
    (holdWord w s).host.cmd = s.host.cmd := rfl
@[simp] theorem holdWord_arg (w : Word) (s : State) :
    (holdWord w s).host.arg = s.host.arg := rfl
@[simp] theorem holdWord_i (w : Word) (s : State) :
    (holdWord w s).host.i = s.host.i := rfl
@[simp] theorem holdWord_j (w : Word) (s : State) :
    (holdWord w s).host.j = s.host.j := rfl
@[simp] theorem holdWord_running (w : Word) (s : State) :
    (holdWord w s).host.running = s.host.running := rfl
@[simp] theorem holdWord_ring (w : Word) (s : State) :
    (holdWord w s).host.ring = s.host.ring := rfl
@[simp] theorem holdWord_writeIndex (w : Word) (s : State) :
    (holdWord w s).host.writeIndex = s.host.writeIndex := rfl
@[simp] theorem holdWord_lastRefreshTime (w : Word) (s : State) :
    (holdWord w s).host.lastRefreshTime = s.host.lastRefreshTime := rfl
@[simp] theorem holdWord_rspValid (w : Word) (s : State) :
    (holdWord w s).host.rspValid = s.host.rspValid := rfl
@[simp] theorem holdWord_rspStatus (w : Word) (s : State) :
    (holdWord w s).host.rspStatus = s.host.rspStatus := rfl
@[simp] theorem holdWord_rspData (w : Word) (s : State) :
    (holdWord w s).host.rspData = s.host.rspData := rfl
@[simp] theorem hostReady_held (s : State) :
    (hostReady s).host.held = s.host.held := rfl
@[simp] theorem respond_held (status : Status) (data : Word) (s : State) :
    (respond status data s).host.held = s.host.held := rfl
@[simp] theorem enterHostPhase_held (p : HsPhase) (i : Instr) (s : State) :
    (enterHostPhase p i s).host.held = s.host.held := rfl
@[simp] theorem setCounters_held (i j : BitVec 12) (s : State) :
    (setCounters i j s).host.held = s.host.held := rfl
@[simp] theorem scrambleChip_samPtr (s : State) :
    (scrambleChip s).chip.samPtr = Config.freeSamPtr s.draws % s.cfg.dramCols := rfl
@[simp] theorem scrambleChip_sd (s : State) :
    (scrambleChip s).chip.sd = Config.freeSd s.draws := rfl

end Sys2Proof.Machine
end

