-- ==== Sys2Proof/Laws/Memory.lean ====
section
/-! SUPPORT. The laws of the DRAM array: a read after a write, a write leaves every other cell alone, and
every operation on the array keeps its canonical form. -/

namespace Sys2Proof.Machine

theorem cellLook_cellPut_same (a : Nat) (v : Nibble) (m : Memory) :
    cellLook a (cellPut a v m) = some v := by
  induction m with
  | nil => simp [cellPut, cellLook]
  | cons p m ih =>
    obtain ⟨b, u⟩ := p
    simp only [cellPut]
    split
    · simp [cellLook]
    · split <;> simp_all [cellLook]

theorem cellLook_cellPut_other {a b : Nat} (v : Nibble) (m : Memory) (h : b ≠ a) :
    cellLook b (cellPut a v m) = cellLook b m := by
  induction m with
  | nil => simp [cellPut, cellLook, h]
  | cons p m ih =>
    obtain ⟨c, u⟩ := p
    simp only [cellPut]
    split
    · simp [cellLook, h]
    · split
      · subst_vars; simp [cellLook, h]
      · simp [cellLook, ih]

theorem mem_cellPut {a : Nat} {v : Nibble} {m : Memory} {p : Nat × Nibble}
    (h : p ∈ cellPut a v m) : p = (a, v) ∨ p ∈ m := by
  induction m with
  | nil => simpa [cellPut] using h
  | cons q m ih =>
    obtain ⟨b, u⟩ := q
    simp only [cellPut] at h
    split at h
    · simpa using h
    · split at h
      · simp only [List.mem_cons] at h ⊢; tauto
      · simp only [List.mem_cons] at h ⊢
        obtain h | h := h
        · exact .inr (.inl h)
        · have := ih h; tauto

theorem cellPut_wf {m : Memory} (a : Nat) (v : Nibble) (h : Memory.wf m) :
    Memory.wf (cellPut a v m) := by
  induction m with
  | nil => simp [cellPut, Memory.wf]
  | cons q m ih =>
    obtain ⟨b, u⟩ := q
    simp only [Memory.wf, List.pairwise_cons] at h
    simp only [cellPut]
    split
    · rename_i hab
      simp only [Memory.wf, List.pairwise_cons, List.mem_cons]
      refine ⟨?_, h.1, h.2⟩
      rintro p (rfl | hp)
      · exact hab
      · exact lt_trans hab (h.1 p hp)
    · split
      · subst_vars; simpa [Memory.wf] using h
      · simp only [Memory.wf, List.pairwise_cons]
        refine ⟨fun p hp => ?_, ih h.2⟩
        obtain rfl | hp := mem_cellPut hp
        · simp only; omega
        · exact h.1 p hp

theorem filter_wf {m : Memory} (f : Nat × Nibble → Bool) (h : Memory.wf m) :
    Memory.wf (m.filter f) := List.Pairwise.filter f h

theorem cellLook_of_mem {m : Memory} {p : Nat × Nibble} (h : Memory.wf m) (hp : p ∈ m) :
    cellLook p.1 m = some p.2 := by
  induction m with
  | nil => cases hp
  | cons q m ih =>
    obtain ⟨b, u⟩ := q
    simp only [Memory.wf, List.pairwise_cons] at h
    rcases List.mem_cons.1 hp with rfl | hp
    · simp [cellLook]
    · have : b < p.1 := h.1 p hp
      simp [cellLook, Nat.ne_of_gt this, ih h.2 hp]

theorem mem_of_cellLook {m : Memory} {a : Nat} {v : Nibble} (h : cellLook a m = some v) :
    (a, v) ∈ m := by
  induction m with
  | nil => simp [cellLook] at h
  | cons q m ih =>
    obtain ⟨b, u⟩ := q
    simp only [cellLook] at h
    split at h
    · simp_all
    · exact List.mem_cons_of_mem _ (ih h)

/-- A filtered memory reads as before or as `UNDEF`, as the filter says of the cell it holds. -/
theorem cellLook_filter {m : Memory} (f : Nat → Bool) (a : Nat) :
    cellLook a (m.filter fun p => f p.1) = if f a then cellLook a m else none := by
  induction m with
  | nil => simp [cellLook]
  | cons q m ih =>
    obtain ⟨b, u⟩ := q
    by_cases hb : f b = true
    · rw [List.filter_cons_of_pos (by simpa using hb)]
      by_cases hab : a = b
      · subst hab; simp [cellLook, hb]
      · simp [cellLook, hab, ih]
    · rw [List.filter_cons_of_neg (by simpa using hb)]
      by_cases hab : a = b
      · subst hab; simp [ih, hb]
      · simp [cellLook, hab, ih]

/-- Two cells of the array have the same linear address only when they are the same cell. -/
theorem cellAddr_inj {c : Config} {r k r' k' : Nat} (hk : k < c.dramCols) (hk' : k' < c.dramCols)
    (h : cellAddr c r k = cellAddr c r' k') : r = r' ∧ k = k' := by
  have h1 : cellAddr c r k / c.dramCols = r := by
    rw [cellAddr, Nat.mul_comm, Nat.mul_add_div (by omega), Nat.div_eq_of_lt hk, Nat.add_zero]
  have h2 : cellAddr c r' k' / c.dramCols = r' := by
    rw [cellAddr, Nat.mul_comm, Nat.mul_add_div (by omega), Nat.div_eq_of_lt hk', Nat.add_zero]
  have : r = r' := by rw [← h1, ← h2, h]
  subst this
  simp only [cellAddr] at h
  omega

theorem cellAddr_div {c : Config} {r k : Nat} (hk : k < c.dramCols) :
    cellAddr c r k / c.dramCols = r := by
  rw [cellAddr, Nat.mul_comm, Nat.mul_add_div (by omega), Nat.div_eq_of_lt hk, Nat.add_zero]

theorem cellAddr_mod {c : Config} {r k : Nat} (hk : k < c.dramCols) :
    cellAddr c r k % c.dramCols = k := by
  rw [cellAddr, Nat.mul_comm, Nat.mul_add_mod, Nat.mod_eq_of_lt hk]

theorem cellAddr_lt {c : Config} {r k : Nat} (hr : r < c.dramRows) (hk : k < c.dramCols) :
    cellAddr c r k < c.dramRows * c.dramCols := by
  have : (r + 1) * c.dramCols ≤ c.dramRows * c.dramCols := Nat.mul_le_mul_right _ hr
  simp only [cellAddr]
  rw [Nat.add_mul, Nat.one_mul] at this
  omega

@[simp] theorem cellAt_setCell_same (row col : Nat) (v : Nibble) (s : State) :
    cellAt (setCell row col v s) row col = some v := cellLook_cellPut_same _ _ _

/-- `Cell[row][col] <- value`: "No other cell changes" (R72). -/
theorem cellAt_setCell_other {row col r k : Nat} (v : Nibble) (s : State)
    (hk : k < s.cfg.dramCols) (hcol : col < s.cfg.dramCols) (h : (r, k) ≠ (row, col)) :
    cellAt (setCell row col v s) r k = cellAt s r k := by
  refine cellLook_cellPut_other _ _ fun he => h ?_
  obtain ⟨rfl, rfl⟩ := cellAddr_inj hk hcol he
  rfl

/-- What a cell reads as after the decay step: itself, unless its row is expired and the environment
destroys it (R75). -/
theorem cellAt_decay {s : State} {r k : Nat} (hk : k < s.cfg.dramCols) :
    cellAt (decay s) r k =
      if expired s r && Config.decays s.draws r k then none else cellAt s r k := by
  have := cellLook_filter (m := s.chip.cells)
    (fun a => !(expired s (a / s.cfg.dramCols) &&
      Config.decays s.draws (a / s.cfg.dramCols) (a % s.cfg.dramCols))) (cellAddr s.cfg r k)
  simp only [cellAddr_div hk, cellAddr_mod hk] at this
  simp only [cellAt, decay]
  rw [this]
  cases expired s r && Config.decays s.draws r k <;> simp

/-- The decay step keeps the canonical form of the memory. -/
theorem decay_wf {s : State} (h : Memory.wf s.chip.cells) : Memory.wf (decay s).chip.cells :=
  filter_wf _ h

/-- The store of a WRITE keeps the canonical form of the memory. -/
theorem setCell_wf {s : State} (row col : Nat) (v : Nibble) (h : Memory.wf s.chip.cells) :
    Memory.wf (setCell row col v s).chip.cells := cellPut_wf _ _ h

/-- The reset in mid-operation keeps the canonical form of the memory. -/
theorem scrambleChip_wf (s : State) : Memory.wf (scrambleChip s).chip.cells := List.Pairwise.nil

end Sys2Proof.Machine
end

