-- ==== Sys2Proof/Laws/Drawing.lean ====
section
/-! SUPPORT. What ENQUEUE's body does, said once, and the loops of DRAWRECT, CLEARFB and RefreshAll as
repeated steps. -/

namespace Sys2Proof.Machine

/-! ## ENQUEUE's body -/

/-- ENQUEUE's body writes the ring, `write_index` and `overflow_detected`, nothing else (R206, R42). -/
theorem enqueuePixel_only (x y : Nat) (color : Nibble) (s : State) :
    (enqueuePixel x y color s).1 = { s with
      health := { s.health with overflow := (enqueuePixel x y color s).1.health.overflow }
      host := { s.host with
        ring := (enqueuePixel x y color s).1.host.ring
        writeIndex := (enqueuePixel x y color s).1.host.writeIndex } } := by
  simp only [enqueuePixel]; repeat' split
  all_goals rfl

/-- The three outcomes of ENQUEUE's body (R206). -/
theorem enqueuePixel_cases (x y : Nat) (color : Nibble) (s : State) :
    (¬(x < s.cfg.width ∧ y < s.cfg.height) ∧ enqueuePixel x y color s = (s, .fail)) ∨
    (x < s.cfg.width ∧ y < s.cfg.height ∧ nextIndex s.cfg s.host.writeIndex = s.frame.readIndex ∧
      enqueuePixel x y color s = (raiseOverflow s, .fail)) ∨
    (x < s.cfg.width ∧ y < s.cfg.height ∧ nextIndex s.cfg s.host.writeIndex ≠ s.frame.readIndex ∧
      enqueuePixel x y color s = ({ s with host := { s.host with
        ring := s.host.ring.set s.host.writeIndex ⟨BitVec.ofNat 12 x, BitVec.ofNat 12 y, color⟩
        writeIndex := nextIndex s.cfg s.host.writeIndex } }, .ok)) := by
  by_cases hb : x < s.cfg.width ∧ y < s.cfg.height
  · by_cases hf : nextIndex s.cfg s.host.writeIndex = s.frame.readIndex
    · exact .inr (.inl ⟨hb.1, hb.2, hf, by simp [enqueuePixel, inBounds, hb, hf]⟩)
    · exact .inr (.inr ⟨hb.1, hb.2, hf, by simp [enqueuePixel, inBounds, hb, hf]⟩)
  · exact .inl ⟨hb, by simp [enqueuePixel, inBounds, hb]⟩

theorem enqueueAll_only (ps : List (Nat × Nat × Nibble)) (s : State) :
    enqueueAll ps s = { s with
      health := { s.health with overflow := (enqueueAll ps s).health.overflow }
      host := { s.host with
        ring := (enqueueAll ps s).host.ring, writeIndex := (enqueueAll ps s).host.writeIndex } } := by
  induction ps generalizing s with
  | nil => rfl
  | cons p ps ih => simp only [enqueueAll]; rw [ih, enqueuePixel_only]

theorem enqueueAll_append (ps qs : List (Nat × Nat × Nibble)) (s : State) :
    enqueueAll (ps ++ qs) s = enqueueAll qs (enqueueAll ps s) := by
  induction ps generalizing s with
  | nil => rfl
  | cons p ps ih => exact ih _

/-- ENQUEUE's body does not look at the loop counters. -/
theorem enqueuePixel_setCounters (x y : Nat) (color : Nibble) (i j : BitVec 12) (s : State) :
    (enqueuePixel x y color (setCounters i j s)).1 =
      setCounters i j (enqueuePixel x y color s).1 := by
  rcases enqueuePixel_cases x y color s with ⟨hb, he⟩ | ⟨hx, hy, hf, he⟩ | ⟨hx, hy, hf, he⟩ <;>
    rcases enqueuePixel_cases x y color (setCounters i j s) with
      ⟨hb', he'⟩ | ⟨hx', hy', hf', he'⟩ | ⟨hx', hy', hf', he'⟩ <;>
    simp only [setCounters_cfg, setCounters_frame, setCounters_writeIndex] at * <;>
    rw [he, he'] <;> first | rfl | tauto

/-! ## Loops, one step at the end -/

theorem rectSteps_succ (n : Nat) (s : State) : rectSteps (n + 1) s = rectStep (rectSteps n s) := by
  induction n generalizing s with
  | zero => rfl
  | succ n ih => exact ih _

theorem clearSteps_succ (n : Nat) (s : State) : clearSteps (n + 1) s = clearNext (clearSteps n s) := by
  induction n generalizing s with
  | zero => rfl
  | succ n ih => exact ih _

theorem refallSteps_succ (n : Nat) (s : State) :
    refallSteps (n + 1) s = refallNext (refallSteps n s) := by
  induction n generalizing s with
  | zero => rfl
  | succ n ih => exact ih _

theorem drainSteps_succ (n : Nat) (s : State) :
    drainSteps (n + 1) s =
      drainDecision (drainSteps n s).host.writeIndex (drainSteps n s) := by
  induction n generalizing s with
  | zero => rfl
  | succ n ih => exact ih _

theorem lineEdges_succ (n : Nat) (s : State) :
    lineEdges (n + 1) s = lineAdvance false (lineEdges n s) := by
  induction n generalizing s with
  | zero => rfl
  | succ n ih => exact ih _

theorem engineEdges_succ (n : Nat) (s : State) :
    engineEdges (n + 1) s = advanceTime (engineAdvance (engineEdges n s)) := by
  induction n generalizing s with
  | zero => rfl
  | succ n ih => exact ih _

theorem lineEdges_add (m n : Nat) (s : State) :
    lineEdges (m + n) s = lineEdges n (lineEdges m s) := by
  induction m generalizing s with
  | zero => rw [Nat.zero_add]; rfl
  | succ m ih => rw [Nat.succ_add]; exact ih _

/-! ## Row-major order -/

theorem rectPixels_length (x y w h : Nat) (color : Nibble) :
    (rectPixels x y w h color).length = w * h := by
  induction h with
  | zero => simp [rectPixels]
  | succ h ih =>
    simp only [rectPixels, List.range_succ, List.flatMap_append, List.length_append] at ih ⊢
    rw [ih]; simp [Nat.mul_succ]

/-- The `k`-th pixel of a rectangle (R218). -/
theorem rectPixels_get {x y w h : Nat} {color : Nibble} {k : Nat} (hk : k < w * h) :
    (rectPixels x y w h color)[k]? = some (x + k % w, y + k / w, color) := by
  have hw : 0 < w := by
    rcases Nat.eq_zero_or_pos w with rfl | hw
    · simp at hk
    · exact hw
  induction h with
  | zero => simp at hk
  | succ h ih =>
    have hs : rectPixels x y w (h + 1) color =
        rectPixels x y w h color ++ (List.range w).map fun i => (x + i, y + h, color) := by
      simp [rectPixels, List.range_succ]
    rw [hs]
    by_cases hlt : k < w * h
    · rw [List.getElem?_append_left (by rw [rectPixels_length]; exact hlt), ih hlt]
    · have hle : w * h ≤ k := by omega
      obtain ⟨i, rfl⟩ := Nat.exists_eq_add_of_le hle
      have hi : i < w := by rw [Nat.mul_succ] at hk; omega
      rw [List.getElem?_append_right (by rw [rectPixels_length]; omega), rectPixels_length,
        Nat.add_sub_cancel_left, List.getElem?_map, List.getElem?_range hi]
      simp [Nat.mod_eq_of_lt hi, Nat.mul_add_div hw, Nat.div_eq_of_lt hi]

/-- The step from one cell to the next in row-major order. -/
theorem rowMajor_next {k n : Nat} (hn : 0 < n) :
    (k % n + 1 < n → (k + 1) % n = k % n + 1 ∧ (k + 1) / n = k / n) ∧
    (¬k % n + 1 < n → (k + 1) % n = 0 ∧ (k + 1) / n = k / n + 1) := by
  have hk := Nat.div_add_mod k n
  have hm := Nat.mod_lt k hn
  constructor
  · intro h
    rw [← hk, Nat.add_assoc, Nat.mul_add_mod, Nat.mul_add_div hn, Nat.mod_eq_of_lt h,
      Nat.div_eq_of_lt h, Nat.mul_add_mod, Nat.mul_add_div hn, Nat.mod_mod, Nat.div_eq_of_lt hm]
    simp
  · intro h
    have he : k % n + 1 = n := by omega
    have : k + 1 = n * (k / n + 1) := by rw [Nat.mul_add, Nat.mul_one]; omega
    rw [this]
    simp [Nat.mul_div_cancel_left _ hn]

end Sys2Proof.Machine
end

