-- ==== Sys2Proof/Laws/Engine.lean ====
section
/-! SUPPORT. What the engine can do at one edge, said once: the state it leaves alone, the pins of the
phase it is in (R121 to R134), the count-down to `done` (R130, R136), and its stores to the chip
(R72 to R76). -/

namespace Sys2Proof.Machine

/-! ## What the engine leaves alone -/

theorem phaseEntry_only (p : EngPhase) (s : State) :
    phaseEntry p s =
      { s with pins := (phaseEntry p s).pins, chip := (phaseEntry p s).chip } := by
  cases p <;> simp only [phaseEntry, holdZero, activationRestart]
  all_goals repeat' split
  all_goals rfl

theorem phaseEnd_only (p : EngPhase) (s : State) :
    phaseEnd p s =
      { s with eng := { s.eng with val := (phaseEnd p s).eng.val }, chip := (phaseEnd p s).chip } := by
  cases p <;> rfl

theorem enterPhase_only (n : Nat) (p : EngPhase) (s : State) :
    enterPhase n p s = { s with
      eng := { s.eng with
        phase := (enterPhase n p s).eng.phase
        dwell := (enterPhase n p s).eng.dwell
        val := (enterPhase n p s).eng.val }
      pins := (enterPhase n p s).pins
      chip := (enterPhase n p s).chip } := by
  induction n generalizing p s with
  | zero => rfl
  | succ n ih =>
    simp only [enterPhase]
    split
    · rw [ih, phaseEnd_only, phaseEntry_only]
    · rw [phaseEntry_only]

theorem addressMux_only (s : State) :
    addressMux s = { s with pins := { s.pins with addr := (addressMux s).pins.addr } } := by
  simp only [addressMux]; split <;> rfl

theorem engineAdvance_only (s : State) :
    engineAdvance s = { s with
      eng := { s.eng with
        phase := (engineAdvance s).eng.phase
        dwell := (engineAdvance s).eng.dwell
        val := (engineAdvance s).eng.val }
      pins := (engineAdvance s).pins
      chip := (engineAdvance s).chip } := by
  simp only [engineAdvance]
  split
  · rfl
  · split
    · rw [enterPhase_only, phaseEnd_only, addressMux_only]
    · rw [addressMux_only]

theorem grant_only (op : EngOp) (row col : Nat) (v : Nibble) (s : State) :
    grant op row col v s = { s with
      eng := {
        phase := (grant op row col v s).eng.phase
        dwell := (grant op row col v s).eng.dwell
        val := (grant op row col v s).eng.val
        op := op, row := row, col := col, owner := winner s.req }
      req := dropLine (winner s.req) s.req
      pins := (grant op row col v s).pins
      chip := (grant op row col v s).chip } := by
  simp only [grant]; rw [enterPhase_only]

@[simp] theorem phaseEntry_cfg (p : EngPhase) (s : State) :
    (phaseEntry p s).cfg = s.cfg := by rw [phaseEntry_only]
@[simp] theorem phaseEntry_t (p : EngPhase) (s : State) :
    (phaseEntry p s).t = s.t := by rw [phaseEntry_only]
@[simp] theorem phaseEntry_draws (p : EngPhase) (s : State) :
    (phaseEntry p s).draws = s.draws := by rw [phaseEntry_only]
@[simp] theorem phaseEntry_inputs (p : EngPhase) (s : State) :
    (phaseEntry p s).inputs = s.inputs := by rw [phaseEntry_only]
@[simp] theorem phaseEntry_line (p : EngPhase) (s : State) :
    (phaseEntry p s).line = s.line := by rw [phaseEntry_only]
@[simp] theorem phaseEntry_frame (p : EngPhase) (s : State) :
    (phaseEntry p s).frame = s.frame := by rw [phaseEntry_only]
@[simp] theorem phaseEntry_host (p : EngPhase) (s : State) :
    (phaseEntry p s).host = s.host := by rw [phaseEntry_only]
@[simp] theorem phaseEntry_health (p : EngPhase) (s : State) :
    (phaseEntry p s).health = s.health := by rw [phaseEntry_only]
@[simp] theorem phaseEntry_req (p : EngPhase) (s : State) :
    (phaseEntry p s).req = s.req := by rw [phaseEntry_only]
@[simp] theorem phaseEntry_eng (p : EngPhase) (s : State) :
    (phaseEntry p s).eng = s.eng := by rw [phaseEntry_only]
@[simp] theorem phaseEnd_cfg (p : EngPhase) (s : State) :
    (phaseEnd p s).cfg = s.cfg := by rw [phaseEnd_only]
@[simp] theorem phaseEnd_t (p : EngPhase) (s : State) :
    (phaseEnd p s).t = s.t := by rw [phaseEnd_only]
@[simp] theorem phaseEnd_draws (p : EngPhase) (s : State) :
    (phaseEnd p s).draws = s.draws := by rw [phaseEnd_only]
@[simp] theorem phaseEnd_inputs (p : EngPhase) (s : State) :
    (phaseEnd p s).inputs = s.inputs := by rw [phaseEnd_only]
@[simp] theorem phaseEnd_line (p : EngPhase) (s : State) :
    (phaseEnd p s).line = s.line := by rw [phaseEnd_only]
@[simp] theorem phaseEnd_frame (p : EngPhase) (s : State) :
    (phaseEnd p s).frame = s.frame := by rw [phaseEnd_only]
@[simp] theorem phaseEnd_host (p : EngPhase) (s : State) :
    (phaseEnd p s).host = s.host := by rw [phaseEnd_only]
@[simp] theorem phaseEnd_health (p : EngPhase) (s : State) :
    (phaseEnd p s).health = s.health := by rw [phaseEnd_only]
@[simp] theorem phaseEnd_req (p : EngPhase) (s : State) :
    (phaseEnd p s).req = s.req := by rw [phaseEnd_only]
@[simp] theorem phaseEnd_pins (p : EngPhase) (s : State) :
    (phaseEnd p s).pins = s.pins := by rw [phaseEnd_only]
@[simp] theorem enterPhase_cfg (n : Nat) (p : EngPhase) (s : State) :
    (enterPhase n p s).cfg = s.cfg := by rw [enterPhase_only]
@[simp] theorem enterPhase_t (n : Nat) (p : EngPhase) (s : State) :
    (enterPhase n p s).t = s.t := by rw [enterPhase_only]
@[simp] theorem enterPhase_draws (n : Nat) (p : EngPhase) (s : State) :
    (enterPhase n p s).draws = s.draws := by rw [enterPhase_only]
@[simp] theorem enterPhase_inputs (n : Nat) (p : EngPhase) (s : State) :
    (enterPhase n p s).inputs = s.inputs := by rw [enterPhase_only]
@[simp] theorem enterPhase_line (n : Nat) (p : EngPhase) (s : State) :
    (enterPhase n p s).line = s.line := by rw [enterPhase_only]
@[simp] theorem enterPhase_frame (n : Nat) (p : EngPhase) (s : State) :
    (enterPhase n p s).frame = s.frame := by rw [enterPhase_only]
@[simp] theorem enterPhase_host (n : Nat) (p : EngPhase) (s : State) :
    (enterPhase n p s).host = s.host := by rw [enterPhase_only]
@[simp] theorem enterPhase_health (n : Nat) (p : EngPhase) (s : State) :
    (enterPhase n p s).health = s.health := by rw [enterPhase_only]
@[simp] theorem enterPhase_req (n : Nat) (p : EngPhase) (s : State) :
    (enterPhase n p s).req = s.req := by rw [enterPhase_only]
@[simp] theorem addressMux_cfg (s : State) :
    (addressMux s).cfg = s.cfg := by rw [addressMux_only]
@[simp] theorem addressMux_t (s : State) :
    (addressMux s).t = s.t := by rw [addressMux_only]
@[simp] theorem addressMux_draws (s : State) :
    (addressMux s).draws = s.draws := by rw [addressMux_only]
@[simp] theorem addressMux_inputs (s : State) :
    (addressMux s).inputs = s.inputs := by rw [addressMux_only]
@[simp] theorem addressMux_line (s : State) :
    (addressMux s).line = s.line := by rw [addressMux_only]
@[simp] theorem addressMux_frame (s : State) :
    (addressMux s).frame = s.frame := by rw [addressMux_only]
@[simp] theorem addressMux_host (s : State) :
    (addressMux s).host = s.host := by rw [addressMux_only]
@[simp] theorem addressMux_health (s : State) :
    (addressMux s).health = s.health := by rw [addressMux_only]
@[simp] theorem addressMux_req (s : State) :
    (addressMux s).req = s.req := by rw [addressMux_only]
@[simp] theorem addressMux_eng (s : State) :
    (addressMux s).eng = s.eng := by rw [addressMux_only]
@[simp] theorem addressMux_chip (s : State) :
    (addressMux s).chip = s.chip := by rw [addressMux_only]
@[simp] theorem engineAdvance_cfg (s : State) :
    (engineAdvance s).cfg = s.cfg := by rw [engineAdvance_only]
@[simp] theorem engineAdvance_t (s : State) :
    (engineAdvance s).t = s.t := by rw [engineAdvance_only]
@[simp] theorem engineAdvance_draws (s : State) :
    (engineAdvance s).draws = s.draws := by rw [engineAdvance_only]
@[simp] theorem engineAdvance_inputs (s : State) :
    (engineAdvance s).inputs = s.inputs := by rw [engineAdvance_only]
@[simp] theorem engineAdvance_line (s : State) :
    (engineAdvance s).line = s.line := by rw [engineAdvance_only]
@[simp] theorem engineAdvance_frame (s : State) :
    (engineAdvance s).frame = s.frame := by rw [engineAdvance_only]
@[simp] theorem engineAdvance_host (s : State) :
    (engineAdvance s).host = s.host := by rw [engineAdvance_only]
@[simp] theorem engineAdvance_health (s : State) :
    (engineAdvance s).health = s.health := by rw [engineAdvance_only]
@[simp] theorem engineAdvance_req (s : State) :
    (engineAdvance s).req = s.req := by rw [engineAdvance_only]
@[simp] theorem grant_cfg (op : EngOp) (row col : Nat) (v : Nibble) (s : State) :
    (grant op row col v s).cfg = s.cfg := by rw [grant_only]
@[simp] theorem grant_t (op : EngOp) (row col : Nat) (v : Nibble) (s : State) :
    (grant op row col v s).t = s.t := by rw [grant_only]
@[simp] theorem grant_draws (op : EngOp) (row col : Nat) (v : Nibble) (s : State) :
    (grant op row col v s).draws = s.draws := by rw [grant_only]
@[simp] theorem grant_inputs (op : EngOp) (row col : Nat) (v : Nibble) (s : State) :
    (grant op row col v s).inputs = s.inputs := by rw [grant_only]
@[simp] theorem grant_line (op : EngOp) (row col : Nat) (v : Nibble) (s : State) :
    (grant op row col v s).line = s.line := by rw [grant_only]
@[simp] theorem grant_frame (op : EngOp) (row col : Nat) (v : Nibble) (s : State) :
    (grant op row col v s).frame = s.frame := by rw [grant_only]
@[simp] theorem grant_host (op : EngOp) (row col : Nat) (v : Nibble) (s : State) :
    (grant op row col v s).host = s.host := by rw [grant_only]
@[simp] theorem grant_health (op : EngOp) (row col : Nat) (v : Nibble) (s : State) :
    (grant op row col v s).health = s.health := by rw [grant_only]
@[simp] theorem phaseEnd_eng_op (p : EngPhase) (s : State) :
    (phaseEnd p s).eng.op = s.eng.op := by rw [phaseEnd_only]
@[simp] theorem phaseEnd_eng_row (p : EngPhase) (s : State) :
    (phaseEnd p s).eng.row = s.eng.row := by rw [phaseEnd_only]
@[simp] theorem phaseEnd_eng_col (p : EngPhase) (s : State) :
    (phaseEnd p s).eng.col = s.eng.col := by rw [phaseEnd_only]
@[simp] theorem phaseEnd_eng_owner (p : EngPhase) (s : State) :
    (phaseEnd p s).eng.owner = s.eng.owner := by rw [phaseEnd_only]
@[simp] theorem phaseEnd_eng_phase (p : EngPhase) (s : State) :
    (phaseEnd p s).eng.phase = s.eng.phase := by rw [phaseEnd_only]
@[simp] theorem phaseEnd_eng_dwell (p : EngPhase) (s : State) :
    (phaseEnd p s).eng.dwell = s.eng.dwell := by rw [phaseEnd_only]
@[simp] theorem enterPhase_eng_op (n : Nat) (p : EngPhase) (s : State) :
    (enterPhase n p s).eng.op = s.eng.op := by rw [enterPhase_only]
@[simp] theorem enterPhase_eng_row (n : Nat) (p : EngPhase) (s : State) :
    (enterPhase n p s).eng.row = s.eng.row := by rw [enterPhase_only]
@[simp] theorem enterPhase_eng_col (n : Nat) (p : EngPhase) (s : State) :
    (enterPhase n p s).eng.col = s.eng.col := by rw [enterPhase_only]
@[simp] theorem enterPhase_eng_owner (n : Nat) (p : EngPhase) (s : State) :
    (enterPhase n p s).eng.owner = s.eng.owner := by rw [enterPhase_only]
@[simp] theorem engineAdvance_eng_op (s : State) :
    (engineAdvance s).eng.op = s.eng.op := by rw [engineAdvance_only]
@[simp] theorem engineAdvance_eng_row (s : State) :
    (engineAdvance s).eng.row = s.eng.row := by rw [engineAdvance_only]
@[simp] theorem engineAdvance_eng_col (s : State) :
    (engineAdvance s).eng.col = s.eng.col := by rw [engineAdvance_only]
@[simp] theorem engineAdvance_eng_owner (s : State) :
    (engineAdvance s).eng.owner = s.eng.owner := by rw [engineAdvance_only]
@[simp] theorem grant_eng_op (op : EngOp) (row col : Nat) (v : Nibble) (s : State) :
    (grant op row col v s).eng.op = op := by rw [grant_only]
@[simp] theorem grant_eng_row (op : EngOp) (row col : Nat) (v : Nibble) (s : State) :
    (grant op row col v s).eng.row = row := by rw [grant_only]
@[simp] theorem grant_eng_col (op : EngOp) (row col : Nat) (v : Nibble) (s : State) :
    (grant op row col v s).eng.col = col := by rw [grant_only]
@[simp] theorem grant_eng_owner (op : EngOp) (row col : Nat) (v : Nibble) (s : State) :
    (grant op row col v s).eng.owner = winner s.req := by rw [grant_only]
@[simp] theorem grant_req (op : EngOp) (row col : Nat) (v : Nibble) (s : State) :
    (grant op row col v s).req = dropLine (winner s.req) s.req := by rw [grant_only]

/-! ## Phases -/

/-- How many phases are left, this one included. -/
def phaseRank : EngPhase → Nat
  | .idle => 0
  | .wr0 => 7 | .wr1 => 6 | .wr2 => 5 | .wr3 => 4 | .wr4 => 3 | .wr5 => 2 | .wr6 => 1
  | .rd0 => 6 | .rd1 => 5 | .rd2 => 4 | .rd3 => 3 | .rd4 => 2 | .rd5 => 1
  | .xf0 => 5 | .xf1 => 4 | .xf2 => 3 | .xf3 => 2 | .xf4 => 1
  | .rf0 => 4 | .rf1 => 3 | .rf2 => 2 | .rf3 => 1

theorem phaseRank_next {p : EngPhase} (h : p ≠ .idle) : phaseRank p = phaseRank (nextPhase p) + 1 := by
  cases p <;> first | rfl | exact absurd rfl h

theorem phaseRank_lt_fuel (p : EngPhase) : phaseRank p < phaseFuel := by cases p <;> decide

theorem dwellsAfter_next (c : Config) {p : EngPhase} (h : p ≠ .idle) :
    dwellsAfter c p = phaseDwell c (nextPhase p) + dwellsAfter c (nextPhase p) := by
  cases p <;> simp [dwellsAfter, phaseDwell, nextPhase] at h ⊢ <;> omega

/-- Where the engine is after entering a phase: every cycle the entered phase and the later ones last
is still to come (R121). -/
theorem enterPhase_remaining {n : Nat} {p : EngPhase} (s : State) (h : phaseRank p < n) :
    engineRemaining (enterPhase n p s) = phaseDwell s.cfg p + dwellsAfter s.cfg p := by
  induction n generalizing p s with
  | zero => omega
  | succ n ih =>
    simp only [enterPhase]
    split
    · rename_i hp
      rw [ih _ (by rw [phaseRank_next hp.2] at h; omega), phaseEnd_cfg, phaseEntry_cfg, hp.1,
        dwellsAfter_next _ hp.2, Nat.zero_add]
    · simp only [engineRemaining, phaseEntry_cfg]
      split
      · subst_vars; rfl
      · rfl

theorem enterPhase_dwell {n : Nat} {p : EngPhase} (s : State) (h : phaseRank p < n)
    (hi : (enterPhase n p s).eng.phase ≠ .idle) : 1 ≤ (enterPhase n p s).eng.dwell := by
  induction n generalizing p s with
  | zero => omega
  | succ n ih =>
    simp only [enterPhase] at hi ⊢
    split at hi
    · rename_i hp
      rw [if_pos hp]
      exact ih _ (by rw [phaseRank_next hp.2] at h; omega) hi
    · rename_i hp
      rw [if_neg hp]
      simp only at hi ⊢
      by_contra hd
      exact hp ⟨by omega, hi⟩

theorem enterPhase_idle_iff {n : Nat} {p : EngPhase} (s : State) (h : phaseRank p < n) :
    (enterPhase n p s).eng.phase = .idle ↔ phaseDwell s.cfg p + dwellsAfter s.cfg p = 0 := by
  have hr := enterPhase_remaining s h
  constructor
  · intro hi; rw [← hr, engineRemaining, if_pos hi]
  · intro h0
    by_contra hi
    have := enterPhase_dwell s h hi
    rw [engineRemaining, if_neg hi] at hr
    omega

/-- A phase and the next belong to one operation (R122, R124, R126, R128). -/
theorem phaseOp_next {p : EngPhase} (h : nextPhase p ≠ .idle) : phaseOp (nextPhase p) = phaseOp p := by
  cases p <;> first | rfl | exact absurd rfl h

/-- Entering a phase stays inside its operation. -/
theorem enterPhase_phaseOp {n : Nat} {p : EngPhase} {s : State}
    (h : (enterPhase n p s).eng.phase ≠ .idle) :
    phaseOp (enterPhase n p s).eng.phase = phaseOp p := by
  induction n generalizing p s with
  | zero => rfl
  | succ n ih =>
    simp only [enterPhase] at h ⊢
    split at h
    · rename_i hp
      rw [if_pos hp, ih h]
      by_cases hn : nextPhase p = .idle
      · have hi : ∀ m (u : State), (enterPhase m .idle u).eng.phase = .idle := by
          intro m u; cases m <;> simp [enterPhase]
        rw [hn] at h
        exact absurd (hi _ _) h
      · exact phaseOp_next hn
    · rename_i hp
      rw [if_neg hp]

/-- An operation in progress stays the operation its phase belongs to. -/
theorem engineAdvance_phaseOp {s : State} (h : (engineAdvance s).eng.phase ≠ .idle) :
    phaseOp (engineAdvance s).eng.phase = phaseOp s.eng.phase := by
  simp only [engineAdvance] at h ⊢
  split at h
  · rename_i hi; exact absurd hi h
  · rename_i hi
    rw [if_neg hi]
    split at h
    · rename_i hd
      rw [if_pos hd, enterPhase_phaseOp h]
      refine phaseOp_next fun hn => h ?_
      rw [hn]; rfl
    · rename_i hd
      rw [if_neg hd]
      simp

/-- A granted operation is in a phase of its own table (R130). -/
theorem grant_phaseOp {op : EngOp} {row col : Nat} {v : Nibble} {s : State}
    (h : (grant op row col v s).eng.phase ≠ .idle) :
    phaseOp (grant op row col v s).eng.phase = some op := by
  simp only [grant] at h ⊢
  rw [enterPhase_phaseOp h]
  cases op <;> rfl

/-- Each `clk` edge takes one cycle off an operation in progress (R121, R136). -/
theorem engineAdvance_remaining {s : State} (h : s.eng.phase ≠ .idle) (hd : 1 ≤ s.eng.dwell) :
    engineRemaining (engineAdvance s) + 1 = engineRemaining s := by
  conv_rhs => rw [engineRemaining, if_neg h]
  simp only [engineAdvance, if_neg h]
  split
  · rw [enterPhase_remaining _ (phaseRank_lt_fuel _), phaseEnd_cfg, addressMux_cfg,
      ← dwellsAfter_next _ h]
    omega
  · simp only [engineRemaining, addressMux_eng, if_neg h, addressMux_cfg]
    omega

theorem engineAdvance_dwell {s : State}
    (h : (engineAdvance s).eng.phase ≠ .idle) : 1 ≤ (engineAdvance s).eng.dwell := by
  simp only [engineAdvance] at h ⊢
  split
  · rename_i hi; rw [if_pos hi] at h; exact absurd hi h
  · rename_i hi
    rw [if_neg hi] at h
    split
    · rename_i h1
      rw [if_pos h1] at h
      exact enterPhase_dwell _ (phaseRank_lt_fuel _) h
    · simp only [addressMux_eng]; omega

theorem engineAdvance_of_idle {s : State} (h : s.eng.phase = .idle) : engineAdvance s = s := by
  simp [engineAdvance, h]

/-- `done` comes at the edge that takes the last cycle (R130). -/
theorem engineAdvance_idle_iff {s : State} (h : s.eng.phase ≠ .idle) (hd : 1 ≤ s.eng.dwell) :
    (engineAdvance s).eng.phase = .idle ↔ engineRemaining s = 1 := by
  have hr := engineAdvance_remaining h hd
  constructor
  · intro hi; rw [← hr, engineRemaining, if_pos hi]
  · intro h1
    by_contra hi
    have := engineAdvance_dwell hi
    rw [engineRemaining, if_neg hi] at hr
    omega

theorem doneOwner_eq_some {s : State} {o : Owner} :
    doneOwner s = some o ↔
      s.eng.phase ≠ .idle ∧ (engineAdvance s).eng.phase = .idle ∧ s.eng.owner = o := by
  simp only [doneOwner]; split <;> simp_all

theorem doneOwner_of_idle {s : State} (h : s.eng.phase = .idle) : doneOwner s = none := by
  simp [doneOwner, h]

theorem grant_remaining {s : State} (op : EngOp) (row col : Nat) (v : Nibble) :
    engineRemaining (grant op row col v s) =
      phaseDwell s.cfg (firstPhase op) + dwellsAfter s.cfg (firstPhase op) :=
  enterPhase_remaining _ (phaseRank_lt_fuel _)

theorem grant_busy {s : State} (op : EngOp) (row col : Nat) (v : Nibble) :
    (grant op row col v s).eng.phase ≠ .idle := by
  rw [grant, Ne, enterPhase_idle_iff _ (phaseRank_lt_fuel _)]
  cases op <;> simp [firstPhase, phaseDwell, dwellsAfter]

theorem grant_dwell {s : State} (op : EngOp) (row col : Nat) (v : Nibble) :
    1 ≤ (grant op row col v s).eng.dwell :=
  enterPhase_dwell _ (phaseRank_lt_fuel _) (grant_busy op row col v)

/-! ## Pins -/

@[simp] theorem strobes_phaseEnd (p : EngPhase) (s : State) :
    strobes (phaseEnd p s) = strobes s := by simp [strobes]

@[simp] theorem strobes_addressMux (s : State) : strobes (addressMux s) = strobes s := by
  rw [addressMux_only]; rfl

theorem strobes_phaseEntry_next {p : EngPhase} {s : State} (h : strobes s = phasePins p) :
    strobes (phaseEntry (nextPhase p) s) = phasePins (nextPhase p) := by
  simp only [strobes] at h
  cases p <;> simp only [phasePins, Prod.mk.injEq] at h <;> obtain ⟨h1, h2, h3, h4, h5, h6⟩ := h <;>
    simp only [nextPhase, phaseEntry, holdZero, activationRestart]
  all_goals repeat' split
  all_goals
    simp [strobes, phasePins, driveCol, setRas, setCas, setOe, setTrg, driveData, releaseData,
      restartRetention, h1, h2, h3, h4, h5, h6]

theorem strobes_phaseEntry_first {op : EngOp} {s : State} (h : strobes s = phasePins .idle) :
    strobes (phaseEntry (firstPhase op) s) = phasePins (firstPhase op) := by
  simp only [strobes, phasePins, Prod.mk.injEq] at h
  obtain ⟨h1, h2, h3, h4, h5, h6⟩ := h
  cases op <;>
    simp [firstPhase, phaseEntry, strobes, phasePins, driveRow, setCas, h1, h2, h3, h4, h5, h6]

theorem strobes_enterPhase {n : Nat} {p : EngPhase} {s : State} (h : phaseRank p < n)
    (hs : strobes (phaseEntry p s) = phasePins p) :
    strobes (enterPhase n p s) = phasePins (enterPhase n p s).eng.phase := by
  induction n generalizing p s with
  | zero => omega
  | succ n ih =>
    simp only [enterPhase]
    split
    · rename_i hp
      refine ih (by rw [phaseRank_next hp.2] at h; omega) ?_
      exact strobes_phaseEntry_next (by simpa using hs)
    · exact hs

/-- In every cycle of every operation the strobes are those of the phase tables (R121 to R128). -/
theorem strobes_engineAdvance {s : State} (h : strobes s = phasePins s.eng.phase) :
    strobes (engineAdvance s) = phasePins (engineAdvance s).eng.phase := by
  simp only [engineAdvance]
  split
  · exact h
  · split
    · exact strobes_enterPhase (phaseRank_lt_fuel _) (strobes_phaseEntry_next (by simpa using h))
    · exact (strobes_addressMux s).trans (h.trans (by rw [addressMux_eng]))

theorem strobes_grant {s : State} (op : EngOp) (row col : Nat) (v : Nibble)
    (h : strobes s = phasePins .idle) :
    strobes (grant op row col v s) = phasePins (grant op row col v s).eng.phase :=
  strobes_enterPhase (phaseRank_lt_fuel _) (strobes_phaseEntry_first h)

end Sys2Proof.Machine
end

