-- ==== Sys2Proof/Certificates/Slice0/Obligations.lean ====
section
/-! DEFINITION. The statements for the provers, one definition each; each docstring names the rules of the
specification it formalises. A statement over a state that no step has answered assumes
`s.cfg.Admitted`: of a configuration with an ill-formed geometry or a failed strobe-width constraint the
model proves nothing but that it is rejected (R9, U4, U16). -/

open Sys2Proof Sys2Proof.Machine

/-! ## Words -/

/-- R104: the fields, the word or words, and the decoding of every worked encoding. -/
def Obligations.WorkedEncodings : Prop :=
  (opField 0x1F00A00A = 1 ∧ cField 0x1F00A00A = 0xF ∧ yField 0x1F00A00A = 0x00A ∧
    xField 0x1F00A00A = 0x00A ∧ hField 0x00004004 = 0x004 ∧ wField 0x00004004 = 0x004) ∧
  encode (.enqueue 10 10 0xF) = (0x1F00A00A, 0) ∧
  decode .host 0x1F00A00A 0 = .ok (.enqueue 10 10 0xF) ∧
  encode (.drawrect 10 10 4 4 0xF) = (0x2F00A00A, 0x00004004) ∧
  decode .host 0x2F00A00A 0x00004004 = .ok (.drawrect 10 10 4 4 0xF) ∧
  encode (.clearfb 0) = (0x30000000, 0) ∧ decode .host 0x30000000 0 = .ok (.clearfb 0) ∧
  encode (.start 0) = (0x40000000, 0) ∧ decode .host 0x40000000 0 = .ok (.start 0) ∧
  encode .stop = (0x50000000, 0) ∧ decode .host 0x50000000 0 = .ok .stop ∧
  encode .gethealth = (0x60000000, 0) ∧ decode .host 0x60000000 0 = .ok .gethealth ∧
  encode .getframecount = (0x70000000, 0) ∧ decode .host 0x70000000 0 = .ok .getframecount ∧
  encode (.refreshifneeded 1000) = (0x80000000, 0x000003E8) ∧
  decode .host 0x80000000 0x000003E8 = .ok (.refreshifneeded 1000) ∧
  encode (.memwrite 6 138 0xF) = (0x9F00608A, 0) ∧
  decode .host 0x9F00608A 0 = .ok (.memwrite 6 138 0xF) ∧
  encode (.memread 6 138) = (0xA000608A, 0) ∧ decode .host 0xA000608A 0 = .ok (.memread 6 138) ∧
  encode (.memxfer 3) = (0xB0003000, 0) ∧ decode .host 0xB0003000 0 = .ok (.memxfer 3) ∧
  encode (.memrefrow 511) = (0xC01FF000, 0) ∧ decode .host 0xC01FF000 0 = .ok (.memrefrow 511) ∧
  encode .memrefall = (0xD0000000, 0) ∧ decode .host 0xD0000000 0 = .ok .memrefall

/-- R91, R92, R97, R100: on either port, decoding the encoding of an operation gives it back, every
operand at every value its field admits. -/
def Obligations.DecodeOfEncode : Prop :=
  ∀ i : Instr, i.encodable = true → decode i.port (encode i).1 (encode i).2 = .ok i

/-- R91, R92, R97, R99, R100: a word that decodes is the encoding of what it decodes to: no bit of the
first word is ignored, and of the second word none where the operation has one. -/
def Obligations.EncodeOfDecode : Prop :=
  ∀ (p : Port) (w1 w2 : Word) (i : Instr), decode p w1 w2 = .ok i →
    i.encodable = true ∧ i.port = p ∧ (encode i).1 = w1 ∧
      (p = .host → hasSecondWord w1 = true → (encode i).2 = w2)

/-- R98, check (1) and check (2) of R99: exactly which host words are turned away by the decoder, and by
which check. -/
def Obligations.HostWordsRejected : Prop :=
  ∀ w1 w2 : Word,
    (decode .host w1 w2 = .error .reservedOpcode ↔
      opField w1 = 0x0 ∨ opField w1 = 0xE ∨ opField w1 = 0xF) ∧
    (decode .host w1 w2 = .error .mustBeZero ↔
      (opField w1 = 0x2 ∧ topField w2 ≠ 0) ∨
      (opField w1 = 0x3 ∧ (yField w1 ≠ 0 ∨ xField w1 ≠ 0)) ∨
      ((opField w1 = 0x4 ∨ opField w1 = 0x5 ∨ opField w1 = 0x6 ∨ opField w1 = 0x7 ∨
        opField w1 = 0x8 ∨ opField w1 = 0xD) ∧ modeField w1 ≠ 0) ∨
      (opField w1 = 0xA ∧ cField w1 ≠ 0) ∨
      ((opField w1 = 0xB ∨ opField w1 = 0xC) ∧ (cField w1 ≠ 0 ∨ xField w1 ≠ 0)))

/-- R98, check (1) and check (2) of R99, R263: at its execution edge every word the decoder turns away, a
reserved opcode or a must-be-zero field that is not zero, answers ILLEGAL with `rsp_data = 0` and changes
no state other than the host sequencer's own (the latch flag is log 6); the all-zero word and the all-one
word are both reserved. -/
def Obligations.ReservedOpcodeAnswersIllegal : Prop :=
  (∀ s t : State, s.cfg.Admitted →
    t = { s with host := { s.host with
      phase := .idle, pending := false, rspValid := true, rspStatus := .illegal, rspData := 0 } } →
    (∀ e, decode .host s.host.cmd s.host.arg = .error e → executeCommand s = .next t) ∧
    (opField s.host.cmd = 0x0 ∨ opField s.host.cmd = 0xE ∨ opField s.host.cmd = 0xF →
      executeCommand s = .next t)) ∧
  opField 0x00000000 = 0x0 ∧ opField 0xFFFFFFFF = 0xF

/-- R94, R95: on a first word with `OP` in `{0x2, 0x8}` the host sequencer latches it and waits for the
second word; any other first word is a whole command; the next transferred word is the second, whatever
its bits. The command then awaits its execution edge, where alone the checks of R99 are applied; a word
presented while `cmd_ready = 0` is not transferred. The model's choices (log 6): a whole command waits
in `HS_IDLE` with the latch flag set; a word transferred at its execution edge is latched at that edge
or, where a multi-cycle command begins there, held and latched at the edge at which that command
ends. -/
def Obligations.CommandLength : Prop :=
  ∀ (p : PinIn) (s : State) (first : Word → State → State), s.cfg.Admitted →
    (∀ w h, ((opField w = 0x2 ∨ opField w = 0x8) →
        first w h = { h with host := { h.host with phase := .word2, cmd := w, held := none } }) ∧
      (¬(opField w = 0x2 ∨ opField w = 0x8) →
        first w h = { h with host := { h.host with cmd := w, pending := true, held := none } })) →
    (p.cmdValid = true → s.host.pending = false → s.host.held = none →
      (s.host.phase = .idle → (opField p.cmdWord = 0x2 ∨ opField p.cmdWord = 0x8) →
        hostEdge p s = .next { s with host := { s.host with
          rspValid := false, phase := .word2, cmd := p.cmdWord } }) ∧
      (s.host.phase = .idle → ¬(opField p.cmdWord = 0x2 ∨ opField p.cmdWord = 0x8) →
        hostEdge p s = .next { s with host := { s.host with
          rspValid := false, cmd := p.cmdWord, pending := true } }) ∧
      (s.host.phase = .word2 →
        hostEdge p s = .next { s with host := { s.host with
          rspValid := false, phase := .idle, arg := p.cmdWord, pending := true } })) ∧
    (p.cmdValid = true → s.host.pending = true → s.host.phase = .idle → s.host.held = none →
      ∀ h, executeCommand s = .next h →
        (cmdReady false h = true → hostEdge p s = .next (first p.cmdWord h)) ∧
        (cmdReady false h = false →
          hostEdge p s = .next { h with host := { h.host with held := some p.cmdWord } })) ∧
    (s.host.pending = false → cmdReady false s = false → ∀ h, h = hostPhaseStep s →
      (s.host.held = none → hostEdge p s = .next h) ∧
      (∀ w, s.host.held = some w →
        (cmdReady false h = true → hostEdge p s = .next (first w h)) ∧
        (cmdReady false h = false →
          hostEdge p s = .next { h with host := { h.host with held := some w } })))

/-! ## From words to runs -/

/-- R231, R268: with a command latched, `rst = 0` and a command word that decodes
to `i`, the step is
`exec i` on the state before the edge (after the decay the edge begins with, the response withdrawn),
what the pins present being latched after it (log 2, log 6), put together with the engine's own edge
from the same state and followed by the line and the frame sequencer, model time moving on. -/
def Obligations.StepRunsLatchedCommand : Prop :=
  (∀ (s : State) (i : Instr), s.cfg.Admitted → s.host.pending = true →
    (pinsNow s).rst = false → decode .host s.host.cmd s.host.arg = .ok i →
    step s =
      andThen (exec i (hostReady (beginEdge s))) fun h =>
        andThen (engineEdge (beginEdge s)) fun g =>
          .next (advanceTime (blockEdge (beginEdge s) (latchPins (pinsNow s) (beginEdge s) h) g))) ∧
  (∀ (s : State) (nbits w : Nat) (i : Instr), decodeTableWord nbits w = some i →
    (s.withFetchWord nbits w).host.pending = true ∧
    (pinsNow (s.withFetchWord nbits w)).rst = false ∧
    decode .host (s.withFetchWord nbits w).host.cmd (s.withFetchWord nbits w).host.arg = .ok i)

/-- R130, R132: an engine that is idle, or becomes idle at this edge (log 9), runs the operation that the
winning request word spells: line, then frame, then host sequencer. -/
def Obligations.EngineRunsWinningRequest : Prop :=
  (∀ (s : State) (w : Word) (i : Instr), s.cfg.Admitted → (engineAdvance s).eng.phase = .idle →
    winningRequest s.req = some w → decode .engine w 0 = .ok i →
      engineEdge s = exec i (engineAdvance s)) ∧
  (∀ (ls fs hs : Option Word) (w : Word),
    winningRequest ⟨some w, fs, hs⟩ = some w ∧ winner ⟨some w, fs, hs⟩ = .ls ∧
    winningRequest ⟨none, some w, hs⟩ = some w ∧ winner ⟨none, some w, hs⟩ = .fs ∧
    winningRequest ⟨none, none, some w⟩ = some w ∧ winner ⟨none, none, some w⟩ = .hs ∧
    dropLine .ls ⟨ls, fs, hs⟩ = ⟨none, fs, hs⟩ ∧ dropLine .fs ⟨ls, fs, hs⟩ = ⟨ls, none, hs⟩ ∧
    dropLine .hs ⟨ls, fs, hs⟩ = ⟨ls, fs, none⟩)

/-- R100: what each sequencer puts on its request line, and that the host's direct commands are passed
to the engine unchanged. -/
def Obligations.RequestWords : Prop :=
  (∀ (row col : Coord) (value : Nibble),
    encode (.write row col value) = encode (.memwrite row col value) ∧
    encode (.read row col) = encode (.memread row col) ∧
    encode (.xfer row) = encode (.memxfer row) ∧
    encode (.refrow row) = encode (.memrefrow row)) ∧
  (∀ (row col : Nat) (value : Nibble), row < 4096 → col < 4096 →
    decode .engine (writeRequest row col value) 0 =
      .ok (.write (BitVec.ofNat 12 row) (BitVec.ofNat 12 col) value) ∧
    writeRequest row col value =
      (0x9 : BitVec 4) ++ value ++ (BitVec.ofNat 12 row) ++ (BitVec.ofNat 12 col) ∧
    decode .engine (xferRequest row) 0 = .ok (.xfer (BitVec.ofNat 12 row)) ∧
    xferRequest row = (0xB : BitVec 4) ++ (0x0 : BitVec 4) ++ (BitVec.ofNat 12 row) ++ (0x000 : BitVec 12) ∧
    decode .engine (refrowRequest row) 0 = .ok (.refrow (BitVec.ofNat 12 row)) ∧
    refrowRequest row =
      (0xC : BitVec 4) ++ (0x0 : BitVec 4) ++ (BitVec.ofNat 12 row) ++ (0x000 : BitVec 12) ∧
    (BitVec.ofNat 12 row).toNat = row ∧ (BitVec.ofNat 12 col).toNat = col)

/-! ## Drawing commands -/

/-- R206: the word of ENQUEUE and its three outcomes, running or not, each with the whole state it
leaves. -/
def Obligations.EnqueueEffect : Prop :=
  ∀ (s : State) (x y : Coord) (color : Nibble) (next : Nat), s.cfg.Admitted →
    encode (.enqueue x y color) = (mkW1 0x1 color y x, 0) ∧
    (next = (if s.host.writeIndex + 1 = s.cfg.ringSlots then 0 else s.host.writeIndex + 1) →
    (¬(x.toNat < s.cfg.width ∧ y.toNat < s.cfg.height) →
      exec (.enqueue x y color) s = .next { s with host := { s.host with
        phase := .idle, rspValid := true, rspStatus := .fail, rspData := 0 } }) ∧
    (x.toNat < s.cfg.width → y.toNat < s.cfg.height → next = s.frame.readIndex →
      exec (.enqueue x y color) s = .next { s with
        health := { s.health with overflow := true }
        host := { s.host with
          phase := .idle, rspValid := true, rspStatus := .fail, rspData := 0 } }) ∧
    (x.toNat < s.cfg.width → y.toNat < s.cfg.height → next ≠ s.frame.readIndex →
      exec (.enqueue x y color) s = .next { s with host := { s.host with
        ring := s.host.ring.set s.host.writeIndex ⟨x, y, color⟩
        writeIndex := next
        phase := .idle, rspValid := true, rspStatus := .ok, rspData := 0 } }))

/-- R218: the words of DRAWRECT; an empty rectangle answers at once; any other is drawn in `HS_RECT`, one
body of ENQUEUE per `clk` cycle, rows outermost, the statuses discarded; the answer is OK and nothing is
undone. That the first pixel is drawn at the edge after the execution edge is deduced (log 11), that an
empty rectangle answers at its execution edge the model's choice (log 26), and so are the values of the
latches and counters (log 12). -/
def Obligations.DrawrectEffect : Prop :=
  ∀ (s : State) (x y w h : Coord) (color : Nibble), s.cfg.Admitted →
    encode (.drawrect x y w h color) = (mkW1 0x2 color y x, mkW2R h w) ∧
    (w = 0 ∨ h = 0 →
      exec (.drawrect x y w h color) s = .next { s with host := { s.host with
        phase := .idle, rspValid := true, rspStatus := .ok, rspData := 0 } }) ∧
    (w ≠ 0 → h ≠ 0 → ∀ t : State,
      t = { s with host := { s.host with
        phase := .rect, cmd := mkW1 0x2 color y x, arg := mkW2R h w, i := 0, j := 0 } } →
      exec (.drawrect x y w h color) s = .next t ∧
      (∀ k, k < w.toNat * h.toNat → (rectSteps k t).host.phase = .rect ∧
        (rectSteps k t).host.ring =
          (enqueueAll ((rectPixels x.toNat y.toNat w.toNat h.toNat color).take k) t).host.ring) ∧
      ∃ u : State,
        u = enqueueAll (rectPixels x.toNat y.toNat w.toNat h.toNat color) t ∧
        rectSteps (w.toNat * h.toNat) t = { u with host := { u.host with
          i := w - 1, j := h - 1
          phase := .idle, rspValid := true, rspStatus := .ok, rspData := 0 } }) ∧
    (∀ p : PinIn, s.host.pending = false → s.host.held = none → s.host.phase = .rect →
      hostEdge p s = .next (rectStep (hostReady s)))

/-- R220, R221: CLEARFB is refused while running; stopped, it requests a WRITE of every cell in row-major
order, each at the `done` of the one before, and then answers; ring, flags and the generator are
untouched throughout. That the first WRITE is requested at the execution edge is deduced (log 11); the
values of the latches and counters are the model's choice (log 12). -/
def Obligations.ClearfbEffect : Prop :=
  ∀ (s : State) (color : Nibble), s.cfg.Admitted →
    (s.host.running = true →
      exec (.clearfb color) s = .next { s with host := { s.host with
        phase := .idle, rspValid := true, rspStatus := .refused, rspData := 0 } }) ∧
    (s.host.running = false → 1 ≤ s.cfg.dramRows → 1 ≤ s.cfg.dramCols →
      s.cfg.dramRows ≤ 4096 → s.cfg.dramCols ≤ 4096 → ∀ t : State,
      t = { s with
        host := { s.host with
          phase := .clear, cmd := mkW1 0x3 color 0 0, arg := 0, i := 0, j := 0 }
        req := { s.req with hs := some (writeRequest 0 0 color) } } →
      exec (.clearfb color) s = .next t ∧
      (∀ k, k < s.cfg.dramRows * s.cfg.dramCols →
        clearSteps k t = { t with
          host := { t.host with
            i := BitVec.ofNat 12 (k % s.cfg.dramCols), j := BitVec.ofNat 12 (k / s.cfg.dramCols) }
          req := { t.req with
            hs := some (writeRequest (k / s.cfg.dramCols) (k % s.cfg.dramCols) color) } }) ∧
      (clearSteps (s.cfg.dramRows * s.cfg.dramCols) t).host.phase = .idle ∧
      (clearSteps (s.cfg.dramRows * s.cfg.dramCols) t).host.rspValid = true ∧
      (clearSteps (s.cfg.dramRows * s.cfg.dramCols) t).host.rspStatus = .ok ∧
      (clearSteps (s.cfg.dramRows * s.cfg.dramCols) t).host.rspData = 0 ∧
      (clearSteps (s.cfg.dramRows * s.cfg.dramCols) t).host.ring = s.host.ring ∧
      (clearSteps (s.cfg.dramRows * s.cfg.dramCols) t).health = s.health) ∧
    (∀ p : PinIn, s.host.pending = false → s.host.held = none → s.host.phase = .clear →
      hostEdge p s =
        .next (if doneOwner s = some .hs then clearNext (hostReady s) else hostReady s))

/-! ## Lifecycle and diagnostics -/

/-- R240: START. -/
def Obligations.StartEffect : Prop :=
  ∀ s : State, s.cfg.Admitted →
    (∀ mode : BitVec 28, mode ≠ 0 →
      exec (.start mode) s = .next { s with host := { s.host with
        phase := .idle, rspValid := true, rspStatus := .illegal, rspData := 0 } }) ∧
    (s.host.running = true →
      exec (.start 0) s = .next { s with host := { s.host with
        phase := .idle, rspValid := true, rspStatus := .refused, rspData := 0 } }) ∧
    (s.host.running = false → ∀ f : State,
      f = drainDecision s.host.writeIndex
        { s with frame := { s.frame with phase := .drain, drained := 0 } } →
      exec (.start 0) s = .next { s with
        host := { s.host with
          running := true, phase := .idle, rspValid := true, rspStatus := .ok, rspData := 0 }
        line := { s.line with
          hCount := 0, tickPending := false, currentLine := 0, framebufferRow := 0
          inVblank := !activeLine s.cfg 0
          vsync := decide (lineClass s.cfg 0 = .syncPulse)
          hsync := true, phase := .hsync, dwell := s.cfg.hSyncClks }
        frame := f.frame
        req := f.req })

/-- R241, R167: STOP, its wait, that the tick of its accepting edge is not taken, and the pins after its
answer. From the accepting edge on the two sync outputs are 0 (R167), while the registers behind them
keep what the line in progress makes of them until the answer (R241): the model's reading of the two
rules together (log 20). The values of the latches and counters are the model's choice (log 12). -/
def Obligations.StopEffect : Prop :=
  (∀ s : State, s.cfg.Admitted →
    (s.host.running = false →
      exec .stop s = .next { s with host := { s.host with
        phase := .idle, rspValid := true, rspStatus := .ok, rspData := 0 } }) ∧
    (s.host.running = true →
      exec .stop s = .next { s with
        host := { s.host with
          running := false, phase := .stopwait, cmd := 0x50000000, arg := 0, i := 0, j := 0 }
        line := { s.line with
          hCount := 0, tickPending := false } })) ∧
  (∀ (p : PinIn) (s : State), s.cfg.Admitted → s.host.pending = false → s.host.held = none →
    s.host.phase = .stopwait →
    (s.line.phase = .idle → s.frame.phase = .idle → s.eng.phase = .idle →
      hostEdge p s = .next { s with
        line := { s.line with vsync := false }
        host := { s.host with
          phase := .idle, rspValid := true, rspStatus := .ok, rspData := 0 } }) ∧
    (¬(s.line.phase = .idle ∧ s.frame.phase = .idle ∧ s.eng.phase = .idle) →
      hostEdge p s = .next { s with host := { s.host with rspValid := false } })) ∧
  (∀ s t : State, s.host.pending = true → s.host.running = true → (pinsNow s).rst = false →
    decode .host s.host.cmd s.host.arg = .ok .stop → step s = .next t →
      t.host.running = false ∧ t.line.hCount = 0 ∧ t.line.tickPending = false ∧
      t.line.vsync = s.line.vsync ∧ hsyncOut t = false ∧ vsyncOut t = false ∧
      t.line.currentLine = s.line.currentLine ∧ t.line.frameCount = s.line.frameCount ∧
      t.line.inVblank = s.line.inVblank ∧ t.health = s.health ∧
      t.host.ring = s.host.ring ∧ t.host.writeIndex = s.host.writeIndex) ∧
  (∀ s t : State, LineInv s → s.host.pending = false → s.host.phase = .stopwait →
    s.host.running = false → (pinsNow s).rst = false → step s = .next t →
    t.host.rspValid = true →
      t.host.rspStatus = .ok ∧ t.host.rspData = 0 ∧ t.line.hsync = false ∧ t.line.vsync = false ∧
      hsyncOut t = false ∧ vsyncOut t = false ∧
      t.line.sc = false ∧ t.line.se = false ∧ video t = none ∧
      t.line.currentLine = s.line.currentLine ∧ t.line.framebufferRow = s.line.framebufferRow ∧
      t.line.inVblank = s.line.inVblank ∧ t.line.frameCount = s.line.frameCount ∧
      t.host.ring = s.host.ring ∧ t.health = s.health)

/-- R243, with R163, R165, R176 and R268 for the tick: GETHEALTH answers the flags as they were and clears
them; at the edge itself the violation flag is 1 afterwards exactly when the tick operation sets it
there, the answer carrying the old value. That a frame boundary tests `fs_phase` as it was before the
edge is deduced (log 10). -/
def Obligations.GethealthEffect : Prop :=
  encode .gethealth = (0x60000000, 0) ∧
  (∀ s : State, s.cfg.Admitted → ∃ d : Word,
    exec .gethealth s = .next { s with
      health := ⟨false, false⟩
      host := { s.host with
        phase := .idle, rspValid := true, rspStatus := .ok, rspData := d } } ∧
    d.toNat = s.health.overflow.toNat + 2 * s.health.violation.toNat) ∧
  (∀ (s t : State) (idle wraps held : Prop), s.host.pending = true → (pinsNow s).rst = false →
    decode .host s.host.cmd s.host.arg = .ok .gethealth → step s = .next t →
    (idle ↔ (lineAdvance (decide (doneOwner s = some .ls)) s).line.phase = .idle) →
    (wraps ↔ s.line.hCount + 1 = s.cfg.linePeriod) → (held ↔ s.line.tickPending = true) →
      t.health.overflow = false ∧
      t.host.rspValid = true ∧ t.host.rspStatus = .ok ∧
      t.host.rspData.toNat = s.health.overflow.toNat + 2 * s.health.violation.toNat ∧
      (t.health.violation = true ↔ s.host.running = true ∧
        ((wraps ∧ (¬idle ∨ held)) ∨
          (idle ∧ (wraps ∨ held) ∧ s.line.currentLine + 1 = s.cfg.totalLines ∧
            s.frame.phase ≠ .idle))))

/-- R244: GETFRAMECOUNT answers the frame count and has no side effect. -/
def Obligations.GetframecountEffect : Prop :=
  ∀ s : State, s.cfg.Admitted → exec .getframecount s = .next { s with host := { s.host with
    phase := .idle, rspValid := true, rspStatus := .ok, rspData := s.line.frameCount } }

/-! ## Refresh commands -/

/-- R155, R151: REFRESHIFNEEDED, its words, its gate and its comparison, with the loop it runs. That the
first REFROW is requested at the execution edge is deduced (log 11); that a command that is not due
answers at its execution edge (log 26) and the values of the latches and counters, the row being counted
in `hs_j` (log 12), are the model's choice. -/
def Obligations.RefreshifneededEffect : Prop :=
  ∀ (s : State) (now : Word), s.cfg.Admitted →
    encode (.refreshifneeded now) = (0x80000000, now) ∧
    (s.host.running = true →
      exec (.refreshifneeded now) s = .next { s with host := { s.host with
        phase := .idle, rspValid := true, rspStatus := .refused, rspData := 0 } }) ∧
    (s.host.running = false →
      (now.toNat + 2 ^ 32 - s.host.lastRefreshTime.toNat) % 2 ^ 32 < s.cfg.refreshInterval →
      exec (.refreshifneeded now) s = .next { s with host := { s.host with
        phase := .idle, rspValid := true, rspStatus := .ok, rspData := 0 } }) ∧
    (s.host.running = false → 1 ≤ s.cfg.dramRows → s.cfg.dramRows ≤ 4096 →
      s.cfg.refreshInterval ≤ (now.toNat + 2 ^ 32 - s.host.lastRefreshTime.toNat) % 2 ^ 32 →
      ∀ t : State,
      t = { s with
        host := { s.host with phase := .refall, cmd := 0x80000000, arg := now, i := 0, j := 0 }
        req := { s.req with hs := some (refrowRequest 0) } } →
      exec (.refreshifneeded now) s = .next t ∧
      (∀ k, k < s.cfg.dramRows →
        refallSteps k t = { t with
          host := { t.host with j := BitVec.ofNat 12 k }
          req := { t.req with hs := some (refrowRequest k) } }) ∧
      ∃ u : State, refallSteps (s.cfg.dramRows - 1) t = u ∧
        refallNext u = { u with host := { u.host with
          lastRefreshTime := now
          phase := .idle, rspValid := true, rspStatus := .ok, rspData := 1 } }) ∧
    (∀ p : PinIn, s.host.pending = false → s.host.held = none → s.host.phase = .refall →
      hostEdge p s =
        .next (if doneOwner s = some .hs then refallNext (hostReady s) else hostReady s))

/-- R152: MEMREFALL, with the loop it runs (R151); `last_refresh_time` is not touched. That the first
REFROW is requested at the execution edge is deduced (log 11); the values of the latches and counters,
the row being counted in `hs_j`, are the model's choice (log 12). -/
def Obligations.MemrefallEffect : Prop :=
  ∀ s : State, s.cfg.Admitted →
    (s.host.running = true →
      exec .memrefall s = .next { s with host := { s.host with
        phase := .idle, rspValid := true, rspStatus := .refused, rspData := 0 } }) ∧
    (s.host.running = false → 1 ≤ s.cfg.dramRows → s.cfg.dramRows ≤ 4096 → ∀ t : State,
      t = { s with
        host := { s.host with phase := .refall, cmd := 0xD0000000, arg := 0, i := 0, j := 0 }
        req := { s.req with hs := some (refrowRequest 0) } } →
      exec .memrefall s = .next t ∧
      (∀ k, k < s.cfg.dramRows →
        refallSteps k t = { t with
          host := { t.host with j := BitVec.ofNat 12 k }
          req := { t.req with hs := some (refrowRequest k) } }) ∧
      ∃ u : State, refallSteps (s.cfg.dramRows - 1) t = u ∧
        refallNext u = { u with host := { u.host with
          phase := .idle, rspValid := true, rspStatus := .ok, rspData := 0 } }) ∧
    (∀ p : PinIn, s.host.pending = false → s.host.held = none → s.host.phase = .refall →
      hostEdge p s =
        .next (if doneOwner s = some .hs then refallNext (hostReady s) else hostReady s))

/-! ## Direct engine access, the range check and the state gate -/

/-- R245 to R248: stopped, a direct engine command in range enters `HS_MEMOP` with its own word on the
request line; at `done` MEMREAD answers the value the engine read and the others 0. That the request is
raised as the phase is entered is deduced (log 11); the values of the latches and counters are the
model's choice (log 12). -/
def Obligations.DirectCommandsEffect : Prop :=
  ∀ (s : State) (row col : Coord) (value : Nibble) (i : Instr) (w : Word), s.cfg.Admitted →
    ((i = .memwrite row col value ∧ w = mkW1 0x9 value row col) ∨
      (i = .memread row col ∧ w = mkW1 0xA 0 row col) ∨
      (i = .memxfer row ∧ w = mkW1 0xB 0 row 0) ∨
      (i = .memrefrow row ∧ w = mkW1 0xC 0 row 0)) →
    (s.host.running = false → row.toNat < s.cfg.dramRows → col.toNat < s.cfg.dramCols →
      exec i s = .next { s with
        host := { s.host with phase := .memop, cmd := w, arg := 0, i := 0, j := 0 }
        req := { s.req with hs := some w } }) ∧
    (∀ p : PinIn, s.host.pending = false → s.host.held = none → s.host.phase = .memop →
      s.host.cmd = w →
      (doneOwner s = some .hs →
        hostEdge p s = .next { s with host := { s.host with
          phase := .idle, rspValid := true, rspStatus := .ok
          rspData := if i = .memread row col
            then ((engineAdvance s).eng.val).setWidth 32 else 0 } }) ∧
      (doneOwner s ≠ some .hs →
        hostEdge p s = .next { s with host := { s.host with rspValid := false } }))

/-- R245, R122, R136, R231: a MEMWRITE latched by a block at rest answers OK exactly `T_WRITE` cycles after
its execution edge, and not before, and the block is at rest again; the cell then holds the value unless its row has meanwhile expired, and every other cell is as
before or has decayed (a free choice, log 4). The cycle count rests on the request being raised at the
execution edge (log 11, deduced), `cmd_ready = 1` in the response cycle on log 6 (the model's choice). -/
def Obligations.MemwriteRun : Prop :=
  ∀ (s : State) (row col : Coord) (value : Nibble), s.cfg.Admitted → AtRest s →
    s.host.pending = true →
    decode .host s.host.cmd s.host.arg = .ok (.memwrite row col value) →
    row.toNat < s.cfg.dramRows → col.toNat < s.cfg.dramCols →
    (∀ k, 1 ≤ k → k ≤ s.cfg.tWrite → ∃ u : State, Host.Core.run Sys2Proof.core k s = .next u ∧
      u.host.phase = .memop ∧ u.host.rspValid = false ∧ cmdReady false u = false) ∧
    ∃ t : State, Host.Core.run Sys2Proof.core (1 + s.cfg.tWrite) s = .next t ∧
      t.host.rspValid = true ∧ t.host.rspStatus = .ok ∧ t.host.rspData = 0 ∧
      cmdReady false t = true ∧ AtRest t ∧ t.host.pending = false ∧
      (cellAt t row.toNat col.toNat = some value ∨
        (cellAt t row.toNat col.toNat = none ∧
          s.cfg.retention < t.t - stampAt t row.toNat)) ∧
      (∀ r c, c < s.cfg.dramCols → (r, c) ≠ (row.toNat, col.toNat) →
        cellAt t r c = cellAt s r c ∨ cellAt t r c = none) ∧
      t.host.ring = s.host.ring ∧ t.health = s.health ∧ t.line = s.line ∧ t.frame = s.frame

/-- R246, R124, R136, R231: a MEMREAD latched by a block at rest answers OK exactly `T_READ` cycles after its
execution edge, and the block is at rest again; the answer is the value of a defined cell whose row does not expire by then, and no cell changes but by decay (a free
choice, log 4); what an `UNDEF` cell answers is `ReadOperation`'s. The cycle count rests on the request
being raised at the execution edge (log 11, deduced), `cmd_ready = 1` in the response cycle on log 6
(the model's choice). -/
def Obligations.MemreadRun : Prop :=
  ∀ (s : State) (row col : Coord), s.cfg.Admitted → AtRest s → s.host.pending = true →
    decode .host s.host.cmd s.host.arg = .ok (.memread row col) →
    row.toNat < s.cfg.dramRows → col.toNat < s.cfg.dramCols →
    (∀ k, 1 ≤ k → k ≤ s.cfg.tRead → ∃ u : State, Host.Core.run Sys2Proof.core k s = .next u ∧
      u.host.phase = .memop ∧ u.host.rspValid = false ∧ cmdReady false u = false) ∧
    ∃ t : State, Host.Core.run Sys2Proof.core (1 + s.cfg.tRead) s = .next t ∧
      t.host.rspValid = true ∧ t.host.rspStatus = .ok ∧
      cmdReady false t = true ∧ AtRest t ∧ t.host.pending = false ∧
      (∀ v : Nibble, cellAt s row.toNat col.toNat = some v → stampAt s row.toNat ≤ s.t →
        s.t + s.cfg.tRead ≤ s.cfg.retention + stampAt s row.toNat →
        t.host.rspData.toNat = v.toNat) ∧
      (∀ r c, c < s.cfg.dramCols → cellAt t r c = cellAt s r c ∨ cellAt t r c = none) ∧
      t.host.ring = s.host.ring ∧ t.health = s.health ∧ t.line = s.line ∧ t.frame = s.frame

/-- R233: a direct engine command out of range answers ILLEGAL, running or not. -/
def Obligations.RangeCheckAnswersIllegal : Prop :=
  ∀ (s t : State) (row col : Coord) (value : Nibble), s.cfg.Admitted →
    t = { s with host := { s.host with
      phase := .idle, rspValid := true, rspStatus := .illegal, rspData := 0 } } →
    (s.cfg.dramRows ≤ row.toNat ∨ s.cfg.dramCols ≤ col.toNat →
      exec (.memwrite row col value) s = .next t ∧ exec (.memread row col) s = .next t) ∧
    (s.cfg.dramRows ≤ row.toNat →
      exec (.memxfer row) s = .next t ∧ exec (.memrefrow row) s = .next t)

/-- R232: the gated commands answer REFUSED while running, with no other effect; no other command, and no
command while stopped, is ever refused; and a gated command always finds the line sequencer, the frame
sequencer and the engine idle. -/
def Obligations.StateGate : Prop :=
  (∀ (s : State) (i : Instr), s.cfg.Admitted → s.host.running = true → i.wellFormed s.cfg = true →
    ((∃ c, i = .clearfb c) ∨ i = .start 0 ∨ (∃ now, i = .refreshifneeded now) ∨
      (∃ r c v, i = .memwrite r c v) ∨ (∃ r c, i = .memread r c) ∨ (∃ r, i = .memxfer r) ∨
      (∃ r, i = .memrefrow r) ∨ i = .memrefall) →
    exec i s = .next { s with host := { s.host with
      phase := .idle, rspValid := true, rspStatus := .refused, rspData := 0 } }) ∧
  (∀ (s t : State) (i : Instr), s.cfg.Admitted → s.host.rspValid = false → i.port = .host →
    (s.host.running = false ∨ (∃ x y c, i = .enqueue x y c) ∨ (∃ x y w h c, i = .drawrect x y w h c) ∨
      i = .gethealth ∨ i = .getframecount ∨ i = .stop) →
    exec i s = .next t → t.host.rspValid = true → t.host.rspStatus ≠ .refused) ∧
  (∀ s : State, s.cfg.Admitted → AgentsInv s → s.host.running = false → s.host.phase = .idle →
    s.line.phase = .idle ∧ s.frame.phase = .idle ∧ s.eng.phase = .idle)

/-- R42, R68, R207, R273: what no host command does at its execution edge: it touches neither the array,
the SAM, the retention stamps nor any pin the engine drives, raises no violation, changes no
`frame_count` and no parameter, and every cell reads as before. -/
def Obligations.HostCommandFrame : Prop :=
  ∀ (i : Instr) (s t : State), s.cfg.Admitted → i.port = .host → exec i s = .next t →
    (∀ row col, cellAt t row col = cellAt s row col) ∧ t.chip = s.chip ∧ t.eng = s.eng ∧
    t.pins = s.pins ∧ t.cfg = s.cfg ∧ t.t = s.t ∧ t.line.frameCount = s.line.frameCount ∧
    t.req.ls = s.req.ls ∧
    (t.health.violation = true → s.health.violation = true) ∧
    (i ≠ .start 0 → t.frame = s.frame ∧ t.req.fs = s.req.fs) ∧
    (i ≠ .start 0 → i ≠ .stop → t.line = s.line ∧ t.host.running = s.host.running) ∧
    ((∀ x y c, i ≠ .enqueue x y c) →
      t.host.ring = s.host.ring ∧ t.host.writeIndex = s.host.writeIndex) ∧
    ((∀ now, i ≠ .refreshifneeded now) → t.host.lastRefreshTime = s.host.lastRefreshTime)

/-! ## The engine -/

/-- R130: an idle engine grants a request inside the array: it latches the operation and the winning
requester (log 8), whose line drops, and runs for the time of R136 less the request cycle; where the
first phase lasts at least a cycle, the whole state is given. -/
def Obligations.EngineGrants : Prop :=
  ∀ (s : State) (row col : Coord) (value : Nibble), s.cfg.Admitted → s.eng.phase = .idle →
    row.toNat < s.cfg.dramRows →
    (col.toNat < s.cfg.dramCols →
      (∃ t, exec (.write row col value) s = .next t ∧
        Granted .write row.toNat col.toNat s.cfg.tWrite s t ∧ t.eng.val = value) ∧
      (∃ t, exec (.read row col) s = .next t ∧
        Granted .read row.toNat col.toNat s.cfg.tRead s t) ∧
      (1 ≤ s.cfg.tAsr →
        exec (.write row col value) s = .next { s with
          eng := ⟨.wr0, .write, row.toNat, col.toNat, value, s.cfg.tAsr, winner s.req⟩
          req := dropLine (winner s.req) s.req
          pins := { s.pins with addr := row.toNat } } ∧
        exec (.read row col) s = .next { s with
          eng := ⟨.rd0, .read, row.toNat, col.toNat, 0, s.cfg.tAsr, winner s.req⟩
          req := dropLine (winner s.req) s.req
          pins := { s.pins with addr := row.toNat } })) ∧
    (∃ t, exec (.xfer row) s = .next t ∧ Granted .xfer row.toNat 0 s.cfg.tXferOp s t) ∧
    (∃ t, exec (.refrow row) s = .next t ∧ Granted .refrow row.toNat 0 s.cfg.tRefrow s t) ∧
    (1 ≤ s.cfg.tAsr →
      exec (.xfer row) s = .next { s with
        eng := ⟨.xf0, .xfer, row.toNat, 0, 0, s.cfg.tAsr, winner s.req⟩
        req := dropLine (winner s.req) s.req
        pins := { s.pins with addr := row.toNat } }) ∧
    (1 ≤ s.cfg.tCsr →
      exec (.refrow row) s = .next { s with
        eng := ⟨.rf0, .refrow, row.toNat, 0, 0, s.cfg.tCsr, winner s.req⟩
        req := dropLine (winner s.req) s.req
        pins := { s.pins with addr := row.toNat, cas := true } })

/-- R67: an engine handed an address outside the array: the model refuses. R9, U4, U16: the model rejects
a configuration whose geometry is ill-formed or that fails a strobe-width constraint, at every step, and
steps no other block. -/
def Obligations.EngineRefusesOutsideArray : Prop :=
  (∀ (s : State) (row col : Coord) (value : Nibble), s.cfg.Admitted →
    (s.cfg.dramRows ≤ row.toNat ∨ s.cfg.dramCols ≤ col.toNat →
      exec (.write row col value) s = .refused .addressOutsideArray ∧
      exec (.read row col) s = .refused .addressOutsideArray) ∧
    (s.cfg.dramRows ≤ row.toNat →
      exec (.xfer row) s = .refused .addressOutsideArray ∧
      exec (.refrow row) s = .refused .addressOutsideArray)) ∧
  (∀ s : State,
    (¬s.cfg.GeometryOk → step s = .refused .illFormedGeometry) ∧
    (s.cfg.GeometryOk → ¬s.cfg.StrobesOk → step s = .refused .protocolTimingDefect) ∧
    ∀ t, step s = .next t → s.cfg.Admitted ∧ t.cfg = s.cfg)

/-- R131: a busy engine accepts nothing: the edge of an operation that does not end at it is that
operation's own advance, whatever the lines ask. That `exec` of a request on a busy engine answers the
state unchanged, the request waiting with its line held, is the model's choice for a case no step
reaches (log 8). -/
def Obligations.BusyEngineAcceptsNothing : Prop :=
  (∀ (s : State) (row col : Coord) (value : Nibble), s.cfg.Admitted → s.eng.phase ≠ .idle →
    row.toNat < s.cfg.dramRows →
    (col.toNat < s.cfg.dramCols →
      exec (.write row col value) s = .next s ∧ exec (.read row col) s = .next s) ∧
    exec (.xfer row) s = .next s ∧ exec (.refrow row) s = .next s) ∧
  (∀ s : State, s.cfg.Admitted → (engineAdvance s).eng.phase ≠ .idle →
    engineEdge s = .next (engineAdvance s) ∧ (engineAdvance s).req = s.req ∧
    (engineAdvance s).eng.op = s.eng.op ∧ (engineAdvance s).eng.row = s.eng.row ∧
    (engineAdvance s).eng.col = s.eng.col ∧ (engineAdvance s).eng.owner = s.eng.owner ∧
    ∀ r, engineAdvance { s with req := r } = { engineAdvance s with req := r })

/-- R136: an operation takes exactly the time of its dwells: every edge takes one cycle off what remains,
and `done` comes at the edge that takes the last. -/
def Obligations.OperationDurations : Prop :=
  ∀ s : State, s.cfg.Admitted → s.eng.phase ≠ .idle → 1 ≤ s.eng.dwell →
    (∀ k, k < engineRemaining s →
      engineRemaining (engineEdges k s) = engineRemaining s - k ∧
      (engineEdges k s).eng.phase ≠ .idle) ∧
    (engineEdges (engineRemaining s) s).eng.phase = .idle ∧
    (∀ k, k + 1 < engineRemaining s → doneOwner (engineEdges k s) = none) ∧
    doneOwner (engineEdges (engineRemaining s - 1) s) = some s.eng.owner

/-- R122, R72, R136: a WRITE granted at an edge ends `T_WRITE` after its request with the cell holding the
value, every other cell, the SAM and the serial outputs unchanged, and the row's stamp set to the time of
its row strobe when accesses restart retention. -/
def Obligations.WriteOperation : Prop :=
  ∀ (s : State) (row col : Coord) (value : Nibble), s.cfg.Admitted → s.eng.phase = .idle →
    row.toNat < s.cfg.dramRows → col.toNat < s.cfg.dramCols →
    ∃ t u : State, exec (.write row col value) s = .next t ∧
      u = engineEdges (s.cfg.tWrite - 1) (advanceTime t) ∧
      u.eng.phase = .idle ∧ u.t = s.t + s.cfg.tWrite ∧
      cellAt u row.toNat col.toNat = some value ∧
      (∀ r c, c < s.cfg.dramCols → (r, c) ≠ (row.toNat, col.toNat) →
        cellAt u r c = cellAt s r c) ∧
      u.chip.sam = s.chip.sam ∧ u.chip.samPtr = s.chip.samPtr ∧ u.chip.sd = s.chip.sd ∧
      u.chip.rowStamp =
        (if s.cfg.activationRefreshes then s.chip.rowStamp.set row.toNat (s.t + s.cfg.tAsr)
          else s.chip.rowStamp) ∧
      u.host = s.host ∧ u.line = s.line ∧ u.frame = s.frame ∧ u.health = s.health

/-- R124, R73, R136: a READ granted at an edge ends `T_READ` after its request with the cell's value sampled,
a draw where it is `UNDEF` (a free value, log 3), and no cell changed. -/
def Obligations.ReadOperation : Prop :=
  ∀ (s : State) (row col : Coord), s.cfg.Admitted → s.eng.phase = .idle →
    row.toNat < s.cfg.dramRows → col.toNat < s.cfg.dramCols →
    ∃ t u : State, exec (.read row col) s = .next t ∧
      u = engineEdges (s.cfg.tRead - 1) (advanceTime t) ∧
      u.eng.phase = .idle ∧ u.t = s.t + s.cfg.tRead ∧
      (∀ v, cellAt s row.toNat col.toNat = some v → u.eng.val = v) ∧
      (cellAt s row.toNat col.toNat = none → ∃ d, u.eng.val = Config.any4 d) ∧
      (∀ r c, cellAt u r c = cellAt s r c) ∧
      u.chip.sam = s.chip.sam ∧ u.chip.samPtr = s.chip.samPtr ∧ u.chip.sd = s.chip.sd ∧
      u.chip.rowStamp =
        (if s.cfg.activationRefreshes then s.chip.rowStamp.set row.toNat (s.t + s.cfg.tAsr)
          else s.chip.rowStamp) ∧
      u.host = s.host ∧ u.line = s.line ∧ u.frame = s.frame ∧ u.health = s.health

/-- R126, R74, R136: an XFER granted at an edge ends `T_XFER_OP` after its request with the whole row in the
SAM, `sam_ptr = 0`, `SD` unchanged and no cell changed. -/
def Obligations.XferOperation : Prop :=
  ∀ (s : State) (row : Coord), s.cfg.Admitted → s.eng.phase = .idle →
    row.toNat < s.cfg.dramRows →
    ∃ t u : State, exec (.xfer row) s = .next t ∧
      u = engineEdges (s.cfg.tXferOp - 1) (advanceTime t) ∧
      u.eng.phase = .idle ∧ u.t = s.t + s.cfg.tXferOp ∧
      (∀ i, i < s.cfg.dramCols → samAt u i = cellAt s row.toNat i) ∧
      u.chip.sam.length = s.cfg.dramCols ∧ u.chip.samPtr = 0 ∧ u.chip.sd = s.chip.sd ∧
      (∀ r c, cellAt u r c = cellAt s r c) ∧
      u.chip.rowStamp =
        (if s.cfg.activationRefreshes then s.chip.rowStamp.set row.toNat (s.t + s.cfg.tAsr)
          else s.chip.rowStamp) ∧
      u.host = s.host ∧ u.line = s.line ∧ u.frame = s.frame ∧ u.health = s.health

/-- R128, R76, R136: a REFROW granted at an edge ends `T_REFROW` after its request with the row's stamp set to
the time of its row strobe; no cell and no SAM entry changes, and an `UNDEF` cell stays so. -/
def Obligations.RefrowOperation : Prop :=
  ∀ (s : State) (row : Coord), s.cfg.Admitted → s.eng.phase = .idle →
    row.toNat < s.cfg.dramRows →
    ∃ t u : State, exec (.refrow row) s = .next t ∧
      u = engineEdges (s.cfg.tRefrow - 1) (advanceTime t) ∧
      u.eng.phase = .idle ∧ u.t = s.t + s.cfg.tRefrow ∧
      u.chip.rowStamp = s.chip.rowStamp.set row.toNat (s.t + s.cfg.tCsr) ∧
      (∀ r c, cellAt u r c = cellAt s r c) ∧
      u.chip.sam = s.chip.sam ∧ u.chip.samPtr = s.chip.samPtr ∧ u.chip.sd = s.chip.sd ∧
      u.host = s.host ∧ u.line = s.line ∧ u.frame = s.frame ∧ u.health = s.health

/-- R121, R122, R124, R126, R128, R133, R134: every step keeps the pins at what the phase tables say, with
the row address on `ADDR` until `T_RAH` cycles after the row strobe and the column address after it, and
the value to be written on `DQ` while the block drives it; the block drives `DQ` in WR2 and WR3, the chip
in RD2, with the cell, and nobody in any other phase. -/
def Obligations.PinsFollowPhases : Prop :=
  (∀ s t : State, PinInv s → step s = .next t → PinInv t) ∧
  (∀ s : State, s.cfg.Admitted → PinInv s →
    (s.eng.phase = .idle → s.pins.ras = false ∧ s.pins.cas = false ∧ s.pins.we = false ∧
      s.pins.oe = false ∧ s.pins.trg = false ∧ s.pins.dqDrive = false) ∧
    (s.pins.dqDrive = true ↔ s.eng.phase = .wr2 ∨ s.eng.phase = .wr3) ∧
    (s.pins.oe = true ↔ s.eng.phase = .rd2) ∧ (s.pins.trg = true ↔ s.eng.phase = .xf2) ∧
    (s.eng.phase = .wr2 ∨ s.eng.phase = .wr3 →
      s.pins.dq = s.eng.val ∧ dqBus s = some s.eng.val) ∧
    (s.eng.phase = .rd2 → dqBus s = some (readCell s s.eng.row s.eng.col)) ∧
    (s.eng.phase ≠ .wr2 → s.eng.phase ≠ .wr3 → s.eng.phase ≠ .rd2 → dqBus s = none))

/-! ## The timing generator -/

/-- R161, R162: the lines of a frame are partitioned, the active ones being exactly the `visible_height`
lines from `v_blank_lines` on. -/
def Obligations.LinePartition : Prop :=
  ∀ c : Config, c.Admitted → c.LinesOk → ∀ L, L < c.totalLines →
    (activeLine c L = true ↔ c.vBlankLines ≤ L ∧ L < c.vBlankLines + c.visibleHeight) ∧
    (lineClass c L = .active ↔ activeLine c L = true) ∧
    (lineClass c L = .syncPulse ↔ c.vFpLines ≤ L ∧ L < c.vFpLines + c.vSyncLines) ∧
    (lineClass c L = .backPorch ↔ c.vFpLines + c.vSyncLines ≤ L ∧ L < c.vBlankLines) ∧
    (lineClass c L = .frontPorch ↔ L < c.vFpLines ∨ c.vBlankLines + c.visibleHeight ≤ L) ∧
    ((List.range c.totalLines).filter (activeLine c)).length = c.visibleHeight

/-- R163: LINETICK, on the state after the line sequencer's own advance. -/
def Obligations.LineTick : Prop :=
  ∀ (w : Nat) (s c : State) (wraps : Prop), s.cfg.Admitted →
    (wraps ↔ s.line.hCount + 1 = s.cfg.linePeriod) →
    c = { s with line := { s.line with
      hCount := if s.line.hCount + 1 = s.cfg.linePeriod then 0 else s.line.hCount + 1 } } →
    (s.line.phase = .idle → s.line.tickPending = true → ¬wraps →
      lineTick w s = takeTick w { c with line := { c.line with tickPending := false } }) ∧
    (s.line.phase = .idle → s.line.tickPending = true → wraps →
      lineTick w s = takeTick w { c with
        health := { c.health with violation := true } }) ∧
    (s.line.phase = .idle → s.line.tickPending = false → wraps → lineTick w s = takeTick w c) ∧
    (s.line.phase ≠ .idle → wraps →
      lineTick w s = { c with
        line := { c.line with tickPending := true }
        health := { c.health with violation := true } }) ∧
    (¬wraps → (s.line.phase ≠ .idle ∨ s.line.tickPending = false) → lineTick w s = c) ∧
    (takeTick w s).line.currentLine =
      (if s.line.currentLine + 1 = s.cfg.totalLines then 0 else s.line.currentLine + 1) ∧
    (∀ n : State, n = { s with line := { s.line with
        currentLine := if s.line.currentLine + 1 = s.cfg.totalLines then 0
          else s.line.currentLine + 1 } } →
      (n.line.currentLine ≠ 0 → takeTick w s = enterLine n.line.currentLine n) ∧
      (n.line.currentLine = 0 → takeTick w s = enterLine 0 (frameBoundary w n)))

/-- R164: ENTERLINE and what the end of `LS_HSYNC` does on a blanking line. -/
def Obligations.EnterLine : Prop :=
  (∀ (L : Nat) (s : State), s.cfg.Admitted →
    enterLine L s = { s with line := { s.line with
      inVblank := !activeLine s.cfg L
      vsync := decide (lineClass s.cfg L = .syncPulse)
      hsync := true
      phase := .hsync
      dwell := s.cfg.hSyncClks } }) ∧
  (∀ (done : Bool) (s : State), s.cfg.Admitted → s.line.phase = .hsync →
    (1 < s.line.dwell →
      lineAdvance done s = { s with line := { s.line with dwell := s.line.dwell - 1 } }) ∧
    (s.line.dwell ≤ 1 → activeLine s.cfg s.line.currentLine = false →
      lineAdvance done s = { s with line := { s.line with hsync := false, phase := .idle } }) ∧
    (s.line.dwell ≤ 1 → activeLine s.cfg s.line.currentLine = true →
      (lineAdvance done s).line.hsync = false ∧ (lineAdvance done s).line.phase = .xfer))

/-- R165: FRAMEBOUNDARY, and that it is taken at the tick that wraps `current_line`. -/
def Obligations.FrameBoundary : Prop :=
  ∀ (w : Nat) (s n : State), s.cfg.Admitted →
    n = { s with line := { s.line with
      frameCount := s.line.frameCount + 1, framebufferRow := 0 } } →
    (s.frame.phase = .idle →
      frameBoundary w s =
        drainDecision w { n with frame := { n.frame with phase := .drain, drained := 0 } }) ∧
    (s.frame.phase ≠ .idle →
      frameBoundary w s = { n with health := { n.health with violation := true } }) ∧
    (s.line.currentLine + 1 = s.cfg.totalLines →
      takeTick w s =
        enterLine 0 (frameBoundary w { s with line := { s.line with currentLine := 0 } })) ∧
    (s.line.currentLine + 1 ≠ s.cfg.totalLines →
      (takeTick w s).line.frameCount = s.line.frameCount ∧ (takeTick w s).frame = s.frame)

/-! ## The pixel pipeline -/

/-- R191, R192, R193: an active line requests the transfer of `framebuffer_row` and advances it, waits for
`done`, waits the back porch, which may last no cycle, and enters the stream. That a back porch of no
cycles takes place at the edge of the `done` is deduced (log 13), that `ls_dwell` is loaded with `SC_HIGH`
at the entry of the stream the model's choice (log 25). -/
def Obligations.ActiveLineBody : Prop :=
  ∀ (done : Bool) (s : State), s.cfg.Admitted →
    (s.line.phase = .hsync → s.line.dwell ≤ 1 → activeLine s.cfg s.line.currentLine = true →
      lineAdvance done s = { s with
        line := { s.line with
          hsync := false
          phase := .xfer
          framebufferRow :=
            if s.line.framebufferRow + 1 = s.cfg.visibleHeight then 0
            else s.line.framebufferRow + 1 }
        req := { s.req with ls := some (xferRequest s.line.framebufferRow) } }) ∧
    (s.line.phase = .xfer → lineAdvance false s = s) ∧
    (s.line.phase = .xfer → 1 ≤ s.cfg.hBpClks →
      lineAdvance true s =
        { s with line := { s.line with phase := .bp, dwell := s.cfg.hBpClks } }) ∧
    (s.line.phase = .xfer → s.cfg.hBpClks = 0 → lineAdvance true s = beginStream s) ∧
    (s.line.phase = .bp → 1 < s.line.dwell →
      lineAdvance done s = { s with line := { s.line with dwell := s.line.dwell - 1 } }) ∧
    (s.line.phase = .bp → s.line.dwell ≤ 1 → lineAdvance done s = beginStream s) ∧
    beginStream s = { s with
      line := { s.line with
        phase := .stream, pixCount := 0, scHalf := false, se := true, sc := true
        dwell := s.cfg.scHigh }
      chip := { s.chip with
        sd := samAt s s.chip.samPtr, samPtr := (s.chip.samPtr + 1) % s.cfg.dramCols } }

/-- R194, R195, R77, R78: from the entry of `LS_STREAM` with `sam_ptr = 0`, cycle `k` of pulse `p` has
`SE = 1`, `SC = 1` exactly in its first `SC_HIGH` cycles and shows `Sam[p]`; after `visible_width` pulses
the line is over, the video is blank and `sam_ptr` is `visible_width`, modulo the SAM's length; the
SAM and the array are unchanged throughout. -/
def Obligations.StreamShowsRow : Prop :=
  ∀ s : State, s.cfg.Admitted → 1 ≤ s.cfg.scHigh → 1 ≤ s.cfg.scLow → 1 ≤ s.cfg.visibleWidth →
    s.cfg.visibleWidth ≤ s.cfg.dramCols → s.chip.samPtr = 0 →
    (∀ p k u, p < s.cfg.visibleWidth → k < s.cfg.pixelClks →
      u = lineEdges (p * s.cfg.pixelClks + k) (beginStream s) →
      video u = some (samAt s p) ∧ u.line.phase = .stream ∧ u.line.se = true ∧
      (u.line.sc = true ↔ k < s.cfg.scHigh) ∧ u.line.pixCount = p ∧
      u.chip.samPtr = (p + 1) % s.cfg.dramCols ∧ u.chip.sam = s.chip.sam ∧
      u.chip.cells = s.chip.cells) ∧
    (∀ u, u = lineEdges (s.cfg.visibleWidth * s.cfg.pixelClks) (beginStream s) →
      u.line.phase = .idle ∧ u.line.se = false ∧ u.line.sc = false ∧ video u = none ∧
      u.line.pixCount = s.cfg.visibleWidth ∧
      u.chip.samPtr = s.cfg.visibleWidth % s.cfg.dramCols ∧ u.chip.sam = s.chip.sam ∧
      u.chip.cells = s.chip.cells)

/-! ## The ring's consumer and the refresh of a frame -/

/-- R212, R213, R214: a decision of DRAIN: the pop, its WRITE of `Map(x, y)`, the budget, and the giving
way to the refresh. -/
def Obligations.DrainDecision : Prop :=
  ∀ (w : Nat) (s : State), s.cfg.Admitted →
    (s.frame.readIndex ≠ w → s.frame.drained < s.cfg.drainBudget → ∀ e : PixelUpdate,
      e = ringAt s s.frame.readIndex →
      drainDecision w s = { s with
        frame := { s.frame with
          entry := e
          readIndex := if s.frame.readIndex + 1 = s.cfg.ringSlots then 0 else s.frame.readIndex + 1
          drained := s.frame.drained + 1 }
        req := { s.req with fs := some (writeRequest
          ((e.y.toNat * s.cfg.width + e.x.toNat) / s.cfg.dramCols)
          ((e.y.toNat * s.cfg.width + e.x.toNat) % s.cfg.dramCols) e.color) } }) ∧
    (¬(s.frame.readIndex ≠ w ∧ s.frame.drained < s.cfg.drainBudget) →
      drainDecision w s =
        refreshDecision { s with frame := { s.frame with phase := .refresh, row := 0 } })

/-- R214, R209: with no ENQUEUE between, the drain pops the live entries oldest first, one WRITE each,
stops at the first of "ring empty" and "`DRAIN_BUDGET` popped", and gives way to the refresh of row 0;
the rest stay live, first in line. -/
def Obligations.DrainOrder : Prop :=
  ∀ s : State, s.cfg.Admitted → s.cfg.RingOk → RingInv s → 1 ≤ s.cfg.dramRows → s.frame.phase = .drain →
    s.frame.drained = 0 → ∀ n,
    n = min (occupancy s.cfg s.host.writeIndex s.frame.readIndex) s.cfg.drainBudget →
    (∀ k u, k < n → u = drainSteps (k + 1) s →
      u.frame.phase = .drain ∧ u.frame.drained = k + 1 ∧ u.frame.entry = liveEntry s k ∧
      u.frame.readIndex = (s.frame.readIndex + (k + 1)) % s.cfg.ringSlots ∧
      u.req.fs = some (writeRequest
        (mapPixel s.cfg (liveEntry s k).x.toNat (liveEntry s k).y.toNat).1
        (mapPixel s.cfg (liveEntry s k).x.toNat (liveEntry s k).y.toNat).2 (liveEntry s k).color)) ∧
    (∀ u, u = drainSteps (n + 1) s →
      u.frame.phase = .refresh ∧ u.req.fs = some (refrowRequest 0) ∧
      u.frame.readIndex = (s.frame.readIndex + n) % s.cfg.ringSlots ∧
      u.host = s.host ∧ u.chip = s.chip ∧
      ∀ j, n + j < occupancy s.cfg s.host.writeIndex s.frame.readIndex →
        liveEntry u j = liveEntry s (n + j))

/-- R154, R151, R214: FRAMEREFRESH requests REFROW of row `fs_row` at each decision, in ascending order, and
ends after the last row. In every step, a decision, of the drain and of the refresh alike, is taken
exactly at the `done` of the frame sequencer's own operation, with the `write_index` of before the edge;
at any other edge a run stays as it is, but for its request being granted. -/
def Obligations.FrameRefresh : Prop :=
  (∀ (w : Nat) (s : State), s.cfg.Admitted →
    (s.frame.phase = .drain → frameDecision w s = drainDecision w s) ∧
    (s.frame.phase = .refresh → s.frame.row < s.cfg.dramRows →
      frameDecision w s = { s with
        frame := { s.frame with row := s.frame.row + 1 }
        req := { s.req with fs := some (refrowRequest s.frame.row) } }) ∧
    (s.frame.phase = .refresh → ¬s.frame.row < s.cfg.dramRows →
      frameDecision w s = { s with frame := { s.frame with phase := .idle } })) ∧
  (∀ s t : State, AgentsInv s → (pinsNow s).rst = false → step s = .next t →
    (doneOwner s = some .fs →
      s.frame.phase ≠ .idle ∧
      t.frame = (frameDecision s.host.writeIndex s).frame ∧
      t.req.fs = (frameDecision s.host.writeIndex s).req.fs) ∧
    (s.frame.phase ≠ .idle → doneOwner s ≠ some .fs →
      t.frame = s.frame ∧
      (t.req.fs = s.req.fs ∨
        (t.req.fs = none ∧ t.eng.phase ≠ .idle ∧ t.eng.owner = .fs))))

/-- R216: enqueuing more pixels in bounds than the ring holds, from an empty ring and with no drain
between, keeps exactly the oldest `capacity` and sets the flag; nothing but the ring, `write_index`
and the flag is touched. -/
def Obligations.OverflowKeepsOldest : Prop :=
  ∀ (s u : State) (ps : List (Nat × Nat × Nibble)), s.cfg.Admitted → s.cfg.RingOk → RingInv s →
    s.host.writeIndex = s.frame.readIndex →
    (∀ p, p ∈ ps → p.1 < s.cfg.width ∧ p.2.1 < s.cfg.height) → u = enqueueAll ps s →
    occupancy s.cfg u.host.writeIndex u.frame.readIndex = min ps.length s.cfg.capacity ∧
    (∀ k p, k < s.cfg.capacity → ps[k]? = some p →
      liveEntry u k = ⟨BitVec.ofNat 12 p.1, BitVec.ofNat 12 p.2.1, p.2.2⟩ ∧
      (liveEntry u k).x.toNat = p.1 ∧ (liveEntry u k).y.toNat = p.2.1) ∧
    (u.health.overflow = true ↔ s.health.overflow = true ∨ s.cfg.capacity < ps.length) ∧
    u = { s with
      health := { s.health with overflow := u.health.overflow }
      host := { s.host with ring := u.host.ring, writeIndex := u.host.writeIndex } }

/-! ## The array, the chip and the address map -/

/-- R61, R62: `Map` sends the framebuffer one to one onto the cells below `width * height`, inside the
array, with the inverse R62 gives. -/
def Obligations.AddressMap : Prop :=
  ∀ c : Config, c.Admitted →
    (∀ x y, x < c.width → y < c.height →
      mapPixel c x y = ((y * c.width + x) / c.dramCols, (y * c.width + x) % c.dramCols) ∧
      (mapPixel c x y).1 < c.dramRows ∧ (mapPixel c x y).2 < c.dramCols ∧
      cellAddr c (mapPixel c x y).1 (mapPixel c x y).2 < c.width * c.height ∧
      cellAddr c (mapPixel c x y).1 (mapPixel c x y).2 / c.width = y ∧
      cellAddr c (mapPixel c x y).1 (mapPixel c x y).2 % c.width = x ∧
      y * c.width + x < 2 ^ 24) ∧
    (∀ x y x' y', x < c.width → y < c.height → x' < c.width → y' < c.height →
      mapPixel c x y = mapPixel c x' y' → x = x' ∧ y = y') ∧
    (∀ row col, row < c.dramRows → col < c.dramCols → cellAddr c row col < c.width * c.height →
      ∃ x y, x < c.width ∧ y < c.height ∧ mapPixel c x y = (row, col))

/-- R77, R78: a rising `SC` puts the next SAM entry on `SD` and moves the pointer, and the video path sees
`SD` exactly while `SE = 1`. -/
def Obligations.SerialClock : Prop :=
  (∀ s : State, s.cfg.Admitted →
    serialClock s = { s with chip := { s.chip with
      sd := samAt s s.chip.samPtr, samPtr := (s.chip.samPtr + 1) % s.cfg.dramCols } }) ∧
  (∀ s : State, s.cfg.Admitted → (s.line.se = true → video s = some s.chip.sd) ∧
    (s.line.se = false → video s = none)) ∧
  (∀ (done : Bool) (s : State), s.cfg.Admitted →
    (lineAdvance done s).chip.sd ≠ s.chip.sd ∨ (lineAdvance done s).chip.samPtr ≠ s.chip.samPtr →
    (lineAdvance done s).line.sc = true ∧
    (s.line.sc = false ∨ s.line.phase ≠ .stream ∨ s.line.scHalf = true))

/-- R75: the decay step (which cells, a free choice, log 4) turns cells of expired rows into `UNDEF` and
does nothing else; a row no longer unrefreshed than `RETENTION` loses nothing. -/
def Obligations.DecayOnlyExpired : Prop :=
  ∀ (s : State) (row col : Nat), s.cfg.Admitted → col < s.cfg.dramCols →
    (cellAt (decay s) row col = cellAt s row col ∨
      (cellAt (decay s) row col = none ∧ s.cfg.retention < s.t - stampAt s row)) ∧
    (s.t - stampAt s row ≤ s.cfg.retention → cellAt (decay s) row col = cellAt s row col) ∧
    decay s = { s with chip := { s.chip with cells := (decay s).chip.cells } }

/-! ## Whole-machine rules -/

/-- R75, R72, R80, R42: in a step without reset a cell keeps its content, or becomes `UNDEF` because its row
is expired, or takes the value of the WRITE in progress at its own address. -/
def Obligations.CellsChangeOnlyByWriteOrDecay : Prop :=
  ∀ (s t : State) (row col : Nat), (pinsNow s).rst = false → step s = .next t →
    col < s.cfg.dramCols →
    cellAt t row col = cellAt s row col ∨
    (cellAt t row col = none ∧ s.cfg.retention < s.t - stampAt s row) ∨
    (cellAddr s.cfg row col = cellAddr s.cfg t.eng.row t.eng.col ∧
      cellAt t row col = some t.eng.val ∧ (t.eng.phase = .wr3 ∨ t.eng.phase = .wr4))

/-- R25, R262: a raised flag stays raised through every step but a GETHEALTH and a reset. -/
def Obligations.FlagsAreSticky : Prop :=
  ∀ s t : State, (pinsNow s).rst = false → notReadingHealth s = true → step s = .next t →
    (s.health.overflow = true → t.health.overflow = true) ∧
    (s.health.violation = true → t.health.violation = true)

/-- R163, R171, R172, R176, R25: after a step `timing_violation_detected` is 1 exactly when it was and no
GETHEALTH cleared it, or the generator ran (and no STOP was accepted) and the tick found the line
sequencer busy, or a held tick was taken as the next one came, or a frame boundary found the frame
sequencer busy. That the frame boundary tests `fs_phase` as it was before the edge (R268), so that a run
whose last `done` falls on it counts as busy, is deduced (log 10). -/
def Obligations.ViolationRaisedExactly : Prop :=
  ∀ (s t : State) (idle wraps held : Prop), (pinsNow s).rst = false → step s = .next t →
    (idle ↔ (lineAdvance (decide (doneOwner s = some .ls)) s).line.phase = .idle) →
    (wraps ↔ s.line.hCount + 1 = s.cfg.linePeriod) → (held ↔ s.line.tickPending = true) →
    (t.health.violation = true ↔
      (s.health.violation = true ∧ notReadingHealth s = true) ∨
      (s.host.running = true ∧
        ¬(s.host.pending = true ∧ decode .host s.host.cmd s.host.arg = .ok .stop) ∧
        ((wraps ∧ (¬idle ∨ held)) ∨
          (idle ∧ (wraps ∨ held) ∧ s.line.currentLine + 1 = s.cfg.totalLines ∧
            s.frame.phase ≠ .idle))))

/-- R42, row by row, with R21 to R31, R40, R163, R191, R193, R194, R241: in a step without reset,
`current_line` advances at a taken tick, which there is exactly when the generator runs, no STOP is
accepted, the line sequencer is idle or becomes so and the timer wraps or a tick is held, is 0 after an
accepted START, and else stays; `in_vblank` is written exactly then; `frame_count` rises by one, modulo
`2^32`, exactly when a taken tick wraps `current_line`; `framebuffer_row` is 0 after START and at that
wrap, moves on exactly as an active line asks for its transfer, and else stays; `h_count` and
`tick_pending` move as LINETICK says while the generator runs, are 0 after an accepted START or STOP, and
else stay; `running` is set by an accepted START and cleared by a STOP and by nothing else;
`last_refresh_time` changes only at the end of a REFRESHIFNEEDED's refresh, to its `now`; the ring and
`write_index` only at an ENQUEUE or a step of DRAWRECT, and `overflow_detected` is raised only there;
`read_index` only at a pop. Of the chip, within the ranges of R8: the SAM changes exactly at the end of
XF2, `sam_ptr` and `SD` only there and as the line sequencer begins a pulse, `row_stamp` only at a row
strobe, and there of its own row to the `t` of the edge. -/
def Obligations.RegistersHaveOneWriter : Prop :=
  ∀ (s t : State) (start stop taken wraps fetch load pulse idle tick held : Prop),
    (pinsNow s).rst = false → step s = .next t →
    (start ↔ s.host.pending = true ∧ decode .host s.host.cmd s.host.arg = .ok (.start 0) ∧
      s.host.running = false) →
    (stop ↔ s.host.pending = true ∧ decode .host s.host.cmd s.host.arg = .ok .stop) →
    (idle ↔ (lineAdvance (decide (doneOwner s = some .ls)) s).line.phase = .idle) →
    (tick ↔ s.line.hCount + 1 = s.cfg.linePeriod) → (held ↔ s.line.tickPending = true) →
    (taken ↔ s.host.running = true ∧ ¬stop ∧ idle ∧ (tick ∨ held)) →
    (wraps ↔ taken ∧ s.line.currentLine + 1 = s.cfg.totalLines) →
    (fetch ↔ s.line.phase = .hsync ∧ s.line.dwell ≤ 1 ∧
      activeLine s.cfg s.line.currentLine = true) →
    (load ↔ s.eng.phase = .xf2 ∧ s.eng.dwell ≤ 1) →
    (pulse ↔ (s.line.phase = .xfer ∧ doneOwner s = some .ls ∧ s.cfg.hBpClks = 0) ∨
      (s.line.phase = .bp ∧ s.line.dwell ≤ 1) ∨
      (s.line.phase = .stream ∧ s.line.dwell ≤ 1 ∧ s.line.scHalf = true ∧
        s.line.pixCount + 1 < s.cfg.visibleWidth)) →
    ((taken → t.line.currentLine =
        if s.line.currentLine + 1 = s.cfg.totalLines then 0 else s.line.currentLine + 1) ∧
      (start → t.line.currentLine = 0) ∧
      (taken ∨ start → t.line.inVblank = !activeLine s.cfg t.line.currentLine) ∧
      (¬taken → ¬start → t.line.currentLine = s.line.currentLine ∧
        t.line.inVblank = s.line.inVblank)) ∧
    ((wraps → t.line.frameCount = s.line.frameCount + 1) ∧
      (¬wraps → t.line.frameCount = s.line.frameCount)) ∧
    ((start ∨ wraps → t.line.framebufferRow = 0) ∧
      (fetch → ¬start → t.line.framebufferRow =
        if s.line.framebufferRow + 1 = s.cfg.visibleHeight then 0
        else s.line.framebufferRow + 1) ∧
      (¬start → ¬wraps → ¬fetch → t.line.framebufferRow = s.line.framebufferRow)) ∧
    ((start ∨ (stop ∧ s.host.running = true) →
        t.line.hCount = 0 ∧ t.line.tickPending = false) ∧
      (s.host.running = true → ¬stop →
        t.line.hCount = (if s.line.hCount + 1 = s.cfg.linePeriod then 0 else s.line.hCount + 1) ∧
        (t.line.tickPending = true ↔ (¬idle ∧ (tick ∨ held)) ∨ (idle ∧ tick ∧ held))) ∧
      (s.host.running = false → ¬start →
        t.line.hCount = s.line.hCount ∧ t.line.tickPending = s.line.tickPending)) ∧
    (t.host.running = true ↔ start ∨ (s.host.running = true ∧ ¬stop)) ∧
    (t.host.lastRefreshTime ≠ s.host.lastRefreshTime →
      s.host.pending = false ∧ s.host.phase = .refall ∧ opField s.host.cmd = 0x8 ∧
      doneOwner s = some .hs ∧ t.host.lastRefreshTime = s.host.arg ∧
      t.host.rspValid = true ∧ t.host.rspData = 1) ∧
    ((t.host.ring ≠ s.host.ring ∨ t.host.writeIndex ≠ s.host.writeIndex ∨
        (s.health.overflow = false ∧ t.health.overflow = true)) →
      (s.host.pending = true ∧
        ∃ x y c, decode .host s.host.cmd s.host.arg = .ok (.enqueue x y c)) ∨
      (s.host.pending = false ∧ s.host.phase = .rect)) ∧
    (t.frame.readIndex ≠ s.frame.readIndex →
      t.frame.phase = .drain ∧ t.frame.entry = ringAt s s.frame.readIndex ∧
      t.frame.readIndex = (if s.frame.readIndex + 1 = s.cfg.ringSlots then 0
        else s.frame.readIndex + 1)) ∧
    (s.cfg.RangesOk →
      (¬load → t.chip.sam = s.chip.sam) ∧
      (load → ∀ i, i < s.cfg.dramCols → samAt t i = cellAt t s.eng.row i) ∧
      (∀ p, (load → p = 0) → (¬load → p = s.chip.samPtr) →
        (pulse → ¬start →
          t.chip.sd = samAt t p ∧ t.chip.samPtr = (p + 1) % s.cfg.dramCols) ∧
        (¬(pulse ∧ ¬start) → t.chip.sd = s.chip.sd ∧ t.chip.samPtr = p)) ∧
      (∀ row, stampAt t row = stampAt s row ∨
        (stampAt t row = s.t ∧ row = t.eng.row ∧
          (t.eng.phase = .rf1 ∨ (s.cfg.activationRefreshes = true ∧
            (t.eng.phase = .wr1 ∨ t.eng.phase = .rd1 ∨ t.eng.phase = .xf1)))))) ∧
    t.cfg = s.cfg ∧ t.t = s.t + 1

/-- R94, R96, R231: a response lasts one cycle: `rsp_valid` after a step means that a command completed
at it, and the host sequencer is then free for the next word (log 6). -/
def Obligations.ResponseLastsOneCycle : Prop :=
  ∀ s t : State, (pinsNow s).rst = false → step s = .next t →
    (t.host.rspValid = true →
      s.host.pending = true ∨
      (s.host.phase ≠ .idle ∧ s.host.phase ≠ .word2)) ∧
    (t.host.rspValid = true → t.host.phase = .idle ∨ t.host.phase = .word2) ∧
    (cmdReady false t = true ↔ t.host.phase = .idle ∨ t.host.phase = .word2) ∧
    cmdReady true t = false

/-! ## Reset -/

/-- R290, R291, R292, R293: an edge with `rst = 1` gives every register of the block its reset value
whatever else would have happened; the chip keeps its state unless the engine was in mid-operation, when
every cell and SAM entry becomes `UNDEF`; stamps, time and parameters go on. That every request line is
dropped is deduced (log 19); the latch flag and the held word, dropped too, are the model's own state
(log 6, log 19). -/
def Obligations.ResetEdge : Prop :=
  ∀ s : State, s.cfg.Admitted → (pinsNow s).rst = true → ∃ t : State, step s = .next t ∧
    t.line.currentLine = 0 ∧ t.line.framebufferRow = 0 ∧ t.line.frameCount = 0 ∧
    t.line.inVblank = true ∧ t.health = ⟨false, false⟩ ∧ t.host.writeIndex = 0 ∧
    t.frame.readIndex = 0 ∧ t.host.running = false ∧ t.host.lastRefreshTime = 0 ∧
    t.line.hCount = 0 ∧ t.line.tickPending = false ∧
    t.line.phase = .idle ∧ t.line.dwell = 0 ∧ t.line.pixCount = 0 ∧ t.line.scHalf = false ∧
    t.frame.phase = .idle ∧ t.frame.drained = 0 ∧ t.frame.row = 0 ∧
    t.host.phase = .idle ∧ t.host.pending = false ∧ t.host.held = none ∧ t.eng.phase = .idle ∧
    strobes t = phasePins .idle ∧ t.pins.addr = 0 ∧
    t.line.sc = false ∧ t.line.se = false ∧ t.line.hsync = false ∧ t.line.vsync = false ∧
    cmdReady true s = false ∧ cmdReady false t = true ∧ t.host.rspValid = false ∧
    t.req = ⟨none, none, none⟩ ∧
    (s.eng.phase = .idle → t.chip.sam = s.chip.sam ∧ t.chip.samPtr = s.chip.samPtr ∧
      t.chip.sd = s.chip.sd ∧ ∀ row col, col < s.cfg.dramCols →
        cellAt t row col = cellAt s row col ∨
        (cellAt t row col = none ∧ s.cfg.retention < s.t - stampAt s row)) ∧
    (s.eng.phase ≠ .idle → (∀ row col, cellAt t row col = none) ∧ ∀ i, samAt t i = none) ∧
    t.chip.rowStamp = s.chip.rowStamp ∧ t.cfg = s.cfg ∧ t.t = s.t + 1

/-- R291 for the block, R39 for the chip after power-up, R40 for `t`: the state after power-up and reset, for
every configuration the model does not reject. -/
def Obligations.ResetState : Prop :=
  ∀ (c : Config) (s : State), c.Admitted → s = State.resetWith c ∨ s = State.reset →
    s.line.currentLine = 0 ∧ s.line.framebufferRow = 0 ∧ s.line.frameCount = 0 ∧
    s.line.inVblank = true ∧ s.health = ⟨false, false⟩ ∧ s.host.writeIndex = 0 ∧
    s.frame.readIndex = 0 ∧ s.host.running = false ∧ s.host.lastRefreshTime = 0 ∧
    s.line.hCount = 0 ∧ s.line.tickPending = false ∧
    s.line.phase = .idle ∧ s.line.dwell = 0 ∧ s.line.pixCount = 0 ∧ s.line.scHalf = false ∧
    s.frame.phase = .idle ∧ s.frame.drained = 0 ∧ s.frame.row = 0 ∧
    s.host.phase = .idle ∧ s.eng.phase = .idle ∧
    strobes s = phasePins .idle ∧ s.pins.addr = 0 ∧
    s.line.sc = false ∧ s.line.se = false ∧ s.line.hsync = false ∧ s.line.vsync = false ∧
    cmdReady false s = true ∧ s.host.rspValid = false ∧ video s = none ∧
    (∀ row col, cellAt s row col = none) ∧ (∀ i, samAt s i = none) ∧ s.chip.samPtr = 0 ∧
    s.chip.sd = none ∧ (∀ row, stampAt s row = 0) ∧ s.t = 0

/-! ## Invariants -/

/-- R9, R209, R291: a block built with a well-formed configuration meets every invariant after reset. -/
def Obligations.InvariantsHoldAtReset : Prop :=
  (∀ c : Config, c.WellFormed →
    SafeInv (State.resetWith c) ∧ AgentsInv (State.resetWith c) ∧ LineInv (State.resetWith c) ∧
    PinInv (State.resetWith c) ∧ ChipInv (State.resetWith c) ∧ OnTime (State.resetWith c)) ∧
  Config.cfgS.WellFormed

/-- R260, R209, R67, R79: from every state that meets the safety invariant the machine goes on, without
fault or refusal, and the invariant holds again: the ring indices stay in range, every live entry stays
inside the framebuffer, and the engine is handed only addresses inside the array. -/
def Obligations.SafetyIsKept : Prop :=
  ∀ s : State, SafeInv s → ∃ t, step s = .next t ∧ SafeInv t

/-- R86, R130, R132, R192, R213, R232, R273: every step keeps the discipline of the three requesters. -/
def Obligations.AgentsAreKept : Prop :=
  ∀ s t : State, SafeInv s → AgentsInv s → step s = .next t → AgentsInv t

/-- R21, R22, R24, R31, R164, R167, R193, R194, R199, R241: every step keeps the line context's registers in
range and its pins at what its phase says; stopped and outside `HS_STOPWAIT`, VSYNC is 0. HSYNC and VSYNC
are here the registers behind the two pins, which a STOP leaves to the line in progress; the outputs are 0
from its accepting edge on (`StopEffect`): the model's reading of R167 and R241 together (log 20). -/
def Obligations.LineRegistersAreKept : Prop :=
  ∀ s t : State, s.cfg.LinesOk → 1 ≤ s.cfg.linePeriod → AgentsInv s →
    LineInv s → step s = .next t → LineInv t

/-- R39, R71, R74, R77: every step keeps the array's list canonical and inside the array, the chip's
registers at their lengths and ranges, and no stamp in the future. -/
def Obligations.ChipIsKept : Prop :=
  ∀ s t : State, ChipInv s → step s = .next t → ChipInv t

/-- R163, R168, R169, R84, R310 (5): a block that is on time stays on time, and never raises a violation.
R156, R154, R310 (6): while its generator runs, no row whose retention is in order is expired, and it
stays in order; the first frame refresh after START that restarts a row puts it in order, and so does
START itself where the host has kept the duty of R302, the row lasting until that refresh. -/
def Obligations.GeneratorStaysOnTime : Prop :=
  ∀ s t : State, OnTime s → step s = .next t →
    OnTime t ∧
    ((pinsNow s).rst = false → s.health.violation = false → t.health.violation = false) ∧
    (ChipInv s → ∀ row, row < s.cfg.dramRows →
      (s.host.running = true → RowKept s row → expired s row = false) ∧
      (s.host.running = true → t.host.running = true → RowKept s row → RowKept t row) ∧
      (s.host.running = true → t.host.running = true → refreshedThisRun s row = false →
        refreshedThisRun t row = true → RowKept t row) ∧
      (s.host.running = false → t.host.running = true →
        s.t + 1 + frameRunTime s.cfg ≤ stampAt s row + s.cfg.retention → RowKept t row))

/-- R84, R170, R273: on time and running, from the request of an active line's transfer to the end of its
stream the frame sequencer is idle, no WRITE or REFROW is waiting, and what the engine runs, if
anything, is the line sequencer's XFER. -/
def Obligations.NoWriteWhileStreaming : Prop :=
  ∀ s : State, OnTime s → s.host.running = true →
    (s.line.phase = .xfer ∨ s.line.phase = .bp ∨ s.line.phase = .stream) →
    s.frame.phase = .idle ∧ s.req.fs = none ∧ s.req.hs = none ∧
    (∀ w, s.req.ls = some w → requestOp w = some .xfer) ∧
    (s.eng.phase = .idle ∨
      (s.eng.owner = .ls ∧ s.eng.op = .xfer ∧ phaseOp s.eng.phase = some .xfer))
end

