-- ==== Sys2Proof/Laws/Ring.lean ====
section
/-! SUPPORT. The ring as a queue (R26 to R28, R209): how the occupancy and the live entries change when
an entry is pushed (R206) and when one is popped (R212). -/

namespace Sys2Proof.Machine

theorem mod_wrap {a n : Nat} (h : a < 2 * n) : a % n = if a < n then a else a - n := by
  split
  · rename_i h1; exact Nat.mod_eq_of_lt h1
  · rename_i h1
    rw [Nat.mod_eq_sub_mod (by omega), Nat.mod_eq_of_lt (by omega)]

theorem nextIndex_lt {c : Config} {i : Nat} (h : i < c.ringSlots) : nextIndex c i < c.ringSlots := by
  simp only [nextIndex]; split <;> omega

theorem nextIndex_eq_mod {c : Config} {i : Nat} (h : i < c.ringSlots) :
    nextIndex c i = (i + 1) % c.ringSlots := by
  rw [mod_wrap (by omega)]
  simp only [nextIndex]
  split <;> split <;> omega

/-- The occupancy without the remainder. -/
theorem occupancy_eq {c : Config} {w r : Nat} (hw : w < c.ringSlots) (hr : r < c.ringSlots) :
    occupancy c w r = if r ≤ w then w - r else w + c.ringSlots - r := by
  rw [occupancy, mod_wrap (by omega)]
  split <;> split <;> omega

/-- "`0 <= n <= capacity`" (R209). -/
theorem occupancy_le {c : Config} {w r : Nat} (hw : w < c.ringSlots) (hr : r < c.ringSlots) :
    occupancy c w r ≤ c.capacity := by
  rw [occupancy_eq hw hr, Config.capacity]; split <;> omega

/-- "`write_index == read_index` means empty" (R209). -/
theorem occupancy_eq_zero {c : Config} {w r : Nat} (hw : w < c.ringSlots) (hr : r < c.ringSlots) :
    occupancy c w r = 0 ↔ w = r := by
  rw [occupancy_eq hw hr]; split <;> omega

/-- The ring is full at occupancy `capacity` (R206, C3). -/
theorem nextIndex_eq_read {c : Config} {w r : Nat} (h2 : c.RingOk) (hw : w < c.ringSlots)
    (hr : r < c.ringSlots) : nextIndex c w = r ↔ occupancy c w r = c.capacity := by
  rw [occupancy_eq hw hr, Config.capacity]
  simp only [Config.RingOk] at h2
  simp only [nextIndex]
  split <;> split <;> omega

theorem occupancy_push {c : Config} {w r : Nat} (h2 : c.RingOk) (hw : w < c.ringSlots)
    (hr : r < c.ringSlots) (hf : nextIndex c w ≠ r) :
    occupancy c (nextIndex c w) r = occupancy c w r + 1 := by
  have hn := nextIndex_lt hw
  rw [occupancy_eq hn hr, occupancy_eq hw hr]
  simp only [Config.RingOk] at h2
  simp only [nextIndex] at hf hn ⊢
  split at hf <;> split <;> split <;> split <;> omega

theorem occupancy_pop {c : Config} {w r : Nat} (hw : w < c.ringSlots)
    (hr : r < c.ringSlots) (he : r ≠ w) :
    occupancy c w (nextIndex c r) + 1 = occupancy c w r := by
  have hn := nextIndex_lt hr
  rw [occupancy_eq hw hn, occupancy_eq hw hr]
  simp only [nextIndex] at hn ⊢
  split <;> split <;> split <;> omega

/-- The slot of the `k`-th live entry is not the slot ENQUEUE writes (R81). -/
theorem liveSlot_ne_write {c : Config} {w r k : Nat} (hw : w < c.ringSlots) (hr : r < c.ringSlots)
    (hk : k < occupancy c w r) : (r + k) % c.ringSlots ≠ w := by
  have hle := occupancy_le hw hr
  rw [occupancy_eq hw hr] at hk
  simp only [Config.capacity] at hle
  rw [mod_wrap (by split at hk <;> omega)]
  split at hk <;> split <;> omega

theorem liveSlot_last {c : Config} {w r : Nat} (hw : w < c.ringSlots) (hr : r < c.ringSlots) :
    (r + occupancy c w r) % c.ringSlots = w := by
  rw [occupancy_eq hw hr]
  split
  · rw [mod_wrap (by omega)]; split <;> omega
  · rw [mod_wrap (by omega)]; split <;> omega

theorem liveSlot_pop {c : Config} {r k : Nat} (hr : r < c.ringSlots) :
    (nextIndex c r + k) % c.ringSlots = (r + (k + 1)) % c.ringSlots := by
  rw [nextIndex_eq_mod hr, Nat.mod_add_mod]
  congr 1; omega

/-! ## The ring invariants (R209) -/

/-- ENQUEUE's body keeps the ring invariants (R206, R209). -/
theorem enqueuePixel_ring {s : State} (x y : Nat) (color : Nibble) (hg : s.cfg.GeometryOk)
    (h2 : s.cfg.RingOk) (h : RingInv s) : RingInv (enqueuePixel x y color s).1 := by
  rcases enqueuePixel_cases x y color s with ⟨-, he⟩ | ⟨-, -, -, he⟩ | ⟨hx, hy, hf, he⟩ <;> rw [he]
  · exact h
  · exact ⟨h.slots, h.write_lt, h.read_lt, h.live_in_bounds⟩
  · refine ⟨by simpa using h.slots, nextIndex_lt h.write_lt, h.read_lt, ?_⟩
    intro k hk
    simp only [liveEntry, ringAt, List.getD_eq_getElem?_getD] at hk ⊢
    rw [occupancy_push h2 h.write_lt h.read_lt hf] at hk
    by_cases hlast : k = occupancy s.cfg s.host.writeIndex s.frame.readIndex
    · subst hlast
      rw [liveSlot_last h.write_lt h.read_lt,
        List.getElem?_set_self (by rw [h.slots]; exact h.write_lt)]
      have hx' : x % 4096 = x := Nat.mod_eq_of_lt (by have := hg.2.2.2.1; omega)
      have hy' : y % 4096 = y := Nat.mod_eq_of_lt (by have := hg.2.2.2.2.1; omega)
      simp [inBounds, hx', hy', hx, hy]
    · have hk' : k < occupancy s.cfg s.host.writeIndex s.frame.readIndex := by omega
      rw [List.getElem?_set_ne (liveSlot_ne_write h.write_lt h.read_lt hk').symm]
      have := h.live_in_bounds k hk'
      simpa only [liveEntry, ringAt, List.getD_eq_getElem?_getD] using this

/-- A pop keeps the ring invariants (R212, R209). -/
theorem drainPop_ring {s : State} (h : RingInv s) (he : s.frame.readIndex ≠ s.host.writeIndex) :
    RingInv (drainPop s) := by
  refine ⟨h.slots, h.write_lt, nextIndex_lt h.read_lt, ?_⟩
  intro k hk
  simp only [drainPop_cfg, drainPop_host, drainPop_readIndex] at hk
  have hp := occupancy_pop h.write_lt h.read_lt he
  have := h.live_in_bounds (k + 1) (by omega)
  simp only [liveEntry, drainPop_readIndex, drainPop_cfg, liveSlot_pop h.read_lt] at this ⊢
  exact this

/-- The entry a pop copies out lies inside the framebuffer (R209). -/
theorem popped_in_bounds {s : State} (h : RingInv s) (he : s.frame.readIndex ≠ s.host.writeIndex) :
    inBounds s.cfg (ringAt s s.frame.readIndex).x.toNat (ringAt s s.frame.readIndex).y.toNat = true := by
  have hp := occupancy_pop h.write_lt h.read_lt he
  have := h.live_in_bounds 0 (by omega)
  simpa only [liveEntry, Nat.add_zero, Nat.mod_eq_of_lt h.read_lt] using this

theorem RingInv.congr {s t : State} (h : RingInv s) (hc : t.cfg = s.cfg)
    (hr : t.host.ring = s.host.ring) (hw : t.host.writeIndex = s.host.writeIndex)
    (hi : t.frame.readIndex = s.frame.readIndex) : RingInv t := by
  refine ⟨by rw [hr, hc]; exact h.slots, by rw [hw, hc]; exact h.write_lt,
    by rw [hi, hc]; exact h.read_lt, ?_⟩
  intro k hk
  rw [hw, hi, hc] at hk
  have := h.live_in_bounds k hk
  simpa only [liveEntry, ringAt, hr, hi, hc] using this

end Sys2Proof.Machine
end

