-- ==== Sys2Proof/Laws/Step.lean ====
section
/-! SUPPORT. What one step can do, said once: the step is a reset edge or a host edge, an engine edge and
the two sequencers; the engine edge is an advance or an advance and a grant; the host edge is one of
the moves of `HostMove`, followed by the latching of a word. -/

namespace Sys2Proof.Machine

/-! ## The step -/

theorem andThen_next {r : Result} {f : State → Result} {t : State} (h : andThen r f = .next t) :
    ∃ u, r = .next u ∧ f u = .next t := by
  cases r with
  | next u => exact ⟨u, rfl, h⟩
  | fault e => cases h
  | refused e => cases h

/-- A block whose configuration the model admits is stepped (R9, U4, U16). -/
theorem step_of_admitted {s : State} (h : s.cfg.Admitted) : step s = blockClock s := by
  simp only [step, clockEdge, if_pos h.1, if_pos h.2]

/-- No other block is stepped. -/
theorem step_admitted {s t : State} (h : step s = .next t) : s.cfg.Admitted := by
  simp only [step, clockEdge] at h
  split at h
  · rename_i hg
    split at h
    · rename_i hs; exact ⟨hg, hs⟩
    · cases h
  · cases h

/-- The two kinds of step (R290). -/
theorem step_cases {s t : State} (h : step s = .next t) :
    ((pinsNow s).rst = true ∧ t = advanceTime (resetEdge (beginEdge s))) ∨
    ((pinsNow s).rst = false ∧ ∃ hh g, hostEdge (pinsNow s) (beginEdge s) = .next hh ∧
      engineEdge (beginEdge s) = .next g ∧ t = advanceTime (blockEdge (beginEdge s) hh g)) := by
  rw [step_of_admitted (step_admitted h), blockClock, runningEdge] at h
  split at h
  · rename_i hr; cases h; exact .inl ⟨hr, rfl⟩
  · rename_i hr
    obtain ⟨hh, h1, h⟩ := andThen_next h
    obtain ⟨g, h2, h⟩ := andThen_next h
    cases h
    exact .inr ⟨by simpa using hr, hh, g, h1, h2, rfl⟩

/-! ## The engine edge -/

/-- The meaning of each engine request on an idle engine is a grant, inside the array (R130, R67). -/
theorem exec_engine_cases {i : Instr} {w : Word} {s g : State} (hd : decode .engine w 0 = .ok i)
    (hi : s.eng.phase = .idle) (h : exec i s = .next g) :
    ∃ op row col v, g = grant op row col v s ∧ row < s.cfg.dramRows ∧
      (col < s.cfg.dramCols ∨ col = 0) ∧ engineRemaining g + 1 = requestTime s.cfg w ∧
      requestOp w = some op := by
  cases i
  case write row col v =>
    simp only [exec, execWrite, acceptRequest, inArray, hi] at h
    split at h
    · rename_i hin
      simp only [Bool.and_eq_true, decide_eq_true_eq] at hin
      cases h
      refine ⟨_, _, _, _, rfl, hin.1, .inl hin.2, ?_, by simp only [requestOp, hd]⟩
      rw [grant_remaining]
      simp only [requestTime, hd, firstPhase, phaseDwell, dwellsAfter, Config.tWrite]; omega
    · cases h
  case read row col =>
    simp only [exec, execRead, acceptRequest, inArray, hi] at h
    split at h
    · rename_i hin
      simp only [Bool.and_eq_true, decide_eq_true_eq] at hin
      cases h
      refine ⟨_, _, _, _, rfl, hin.1, .inl hin.2, ?_, by simp only [requestOp, hd]⟩
      rw [grant_remaining]
      simp only [requestTime, hd, firstPhase, phaseDwell, dwellsAfter, Config.tRead]; omega
    · cases h
  case xfer row =>
    simp only [exec, execXfer, acceptRequest, inRows, hi] at h
    split at h
    · rename_i hin
      simp only [decide_eq_true_eq] at hin
      cases h
      refine ⟨_, _, _, _, rfl, hin, .inr rfl, ?_, by simp only [requestOp, hd]⟩
      rw [grant_remaining]
      simp only [requestTime, hd, firstPhase, phaseDwell, dwellsAfter, Config.tXferOp]; omega
    · cases h
  case refrow row =>
    simp only [exec, execRefrow, acceptRequest, inRows, hi] at h
    split at h
    · rename_i hin
      simp only [decide_eq_true_eq] at hin
      cases h
      refine ⟨_, _, _, _, rfl, hin, .inr rfl, ?_, by simp only [requestOp, hd]⟩
      rw [grant_remaining]
      simp only [requestTime, hd, firstPhase, phaseDwell, dwellsAfter, Config.tRefrow]; omega
    · cases h
  all_goals
    simp only [decode, decodeEngine] at hd
    split at hd <;> simp [whenZero] at hd <;> split at hd <;> cases hd

/-- The engine edge is the advance alone, or the advance and a grant (R130, R131). -/
theorem engineEdge_cases {s g : State} (h : engineEdge s = .next g) :
    (g = engineAdvance s ∧
      ((engineAdvance s).eng.phase ≠ .idle ∨ winningRequest s.req = none)) ∨
    ((engineAdvance s).eng.phase = .idle ∧ ∃ w op row col v,
      winningRequest s.req = some w ∧ g = grant op row col v (engineAdvance s) ∧
      row < s.cfg.dramRows ∧ (col < s.cfg.dramCols ∨ col = 0) ∧
      engineRemaining g + 1 = requestTime s.cfg w ∧ requestOp w = some op) := by
  simp only [engineEdge, engineGrant] at h
  split at h
  · rename_i hi
    simp only [engineAdvance_req] at h
    split at h
    · rename_i hw; cases h; exact .inl ⟨rfl, .inr hw⟩
    · rename_i w hw
      split at h
      · rename_i i hd
        obtain ⟨op, row, col, v, hg, h1, h2, h3⟩ := exec_engine_cases hd hi h
        simp only [engineAdvance_cfg] at h1 h2 h3
        exact .inr ⟨hi, w, op, row, col, v, hw, hg, h1, h2, h3⟩
      · cases h
  · rename_i hi; cases h; exact .inl ⟨rfl, .inl hi⟩

/-- With requests the engine accepts, its edge always goes on (R120, R67, R79). -/
theorem engineEdge_goes_on {s : State} (h : ∀ w, winningRequest s.req = some w →
    requestOk s.cfg (some w) = true) : ∃ g, engineEdge s = .next g := by
  simp only [engineEdge, engineGrant]
  split
  · rename_i hi
    simp only [engineAdvance_req]
    split
    · exact ⟨_, rfl⟩
    · rename_i w hw
      have hok := h w hw
      simp only [requestOk] at hok
      split at hok
      · rename_i i hd
        try simp only [hd]
        cases i
        case write | read | xfer | refrow =>
          simp_all [exec, execWrite, execRead, execXfer, execRefrow, acceptRequest, inArray, inRows,
            Instr.inRange, Instr.rowInRange, Instr.colInRange]
        all_goals
          simp only [decode, decodeEngine] at hd
          split at hd <;> simp [whenZero] at hd <;> split at hd <;> cases hd
      · cases hok
  · exact ⟨_, rfl⟩

/-! ## The host edge -/

/-- What the host sequencer can do at an edge, before a word is latched; `r` is the state with the
response withdrawn (R231). -/
inductive HostMove (b r : State) : State → Prop where
  /-- nothing, or a wait inside a multi-cycle phase -/
  | quiet (np : b.host.pending = false)
      (nd : b.host.phase = .clear ∨ b.host.phase = .refall ∨ b.host.phase = .memop →
        doneOwner b ≠ some .hs) : HostMove b r r
  /-- an answer that changes nothing else -/
  | answer (st : Status) (d : Word) (hp : b.host.pending = true) : HostMove b r (respond st d r)
  /-- ENQUEUE -/
  | enqueue (st : Status) (x y : Nat) (c : Nibble) (hp : b.host.pending = true)
      (hd : ∃ x y c, decode .host b.host.cmd b.host.arg = .ok (.enqueue x y c)) :
      HostMove b r (respond st 0 (enqueuePixel x y c r).1)
  /-- a DRAWRECT with pixels -/
  | beginRect (i : Instr) (hp : b.host.pending = true) : HostMove b r (enterHostPhase .rect i r)
  /-- a step of `HS_RECT` -/
  | rect (np : b.host.pending = false) (ph : b.host.phase = .rect) : HostMove b r (rectStep r)
  /-- GETHEALTH -/
  | gethealth (d : Word) (hp : b.host.pending = true)
      (hd : decode .host b.host.cmd b.host.arg = .ok .gethealth) :
      HostMove b r (respond .ok d (clearFlags r))
  /-- an accepted START -/
  | start (hp : b.host.pending = true) (hr : b.host.running = false)
      (hd : decode .host b.host.cmd b.host.arg = .ok (.start 0)) : HostMove b r (startRunning r)
  /-- a STOP while running -/
  | stop (hp : b.host.pending = true) (hr : b.host.running = true)
      (hd : decode .host b.host.cmd b.host.arg = .ok .stop) : HostMove b r (stopRunning r)
  /-- the end of `HS_STOPWAIT` -/
  | stopEnd (np : b.host.pending = false) (ph : b.host.phase = .stopwait) (hi : allIdle b = true) :
      HostMove b r (respond .ok 0 { r with line := { r.line with vsync := false } })
  /-- a gated command that enters a phase which uses the engine -/
  | request (p : HsPhase) (i : Instr) (w : Word) (hp : b.host.pending = true)
      (hr : b.host.running = false) (hph : p = .clear ∨ p = .refall ∨ p = .memop)
      (hw : b.cfg.GeometryOk → requestOk b.cfg (some w) = true) :
      HostMove b r (hostRequest w (enterHostPhase p i r))
  /-- a refresh of an array of no rows -/
  | noRows (i : Instr) (d l : Word) (hp : b.host.pending = true) (h0 : b.cfg.dramRows = 0) :
      HostMove b r (respond .ok d
        { enterHostPhase .refall i r with
          host := { (enterHostPhase .refall i r).host with lastRefreshTime := l } })
  /-- the next operation of a loop -/
  | next (w : Word) (i j : BitVec 12) (np : b.host.pending = false)
      (ph : b.host.phase = .clear ∨ b.host.phase = .refall) (hd : doneOwner b = some .hs)
      (hw : b.cfg.GeometryOk → (b.host.phase = .clear → b.host.j.toNat < b.cfg.dramRows) →
        requestOk b.cfg (some w) = true ∧ (b.host.phase = .clear → j.toNat < b.cfg.dramRows)) :
      HostMove b r (hostRequest w (setCounters i j r))
  /-- the end of a phase that uses the engine -/
  | finish (d l : Word) (np : b.host.pending = false)
      (ph : b.host.phase = .clear ∨ b.host.phase = .refall ∨ b.host.phase = .memop)
      (hd : doneOwner b = some .hs) (hl : l ≠ b.host.lastRefreshTime → b.host.phase = .refall) :
      HostMove b r (respond .ok d { r with host := { r.host with lastRefreshTime := l } })

theorem requestOk_write {c : Config} {row col : Nat} {v : Nibble} (hr : row < c.dramRows)
    (hc : col < c.dramCols) (hr' : c.dramRows ≤ 4096) (hc' : c.dramCols ≤ 4096) :
    requestOk c (some (writeRequest row col v)) = true := by
  have h1 : row % 4096 = row := Nat.mod_eq_of_lt (by omega)
  have h2 : col % 4096 = col := Nat.mod_eq_of_lt (by omega)
  simp [requestOk, decode, decodeEngine, writeRequest, Instr.inRange, Instr.rowInRange,
    Instr.colInRange, h1, h2, hr, hc]

theorem requestOk_xfer {c : Config} {row : Nat} (hr : row < c.dramRows) (hr' : c.dramRows ≤ 4096) :
    requestOk c (some (xferRequest row)) = true := by
  have h1 : row % 4096 = row := Nat.mod_eq_of_lt (by omega)
  simp [requestOk, decode, decodeEngine, xferRequest, whenZero, Instr.inRange, Instr.rowInRange, h1,
    hr]

theorem requestOk_refrow {c : Config} {row : Nat} (hr : row < c.dramRows)
    (hr' : c.dramRows ≤ 4096) : requestOk c (some (refrowRequest row)) = true := by
  have h1 : row % 4096 = row := Nat.mod_eq_of_lt (by omega)
  simp [requestOk, decode, decodeEngine, refrowRequest, whenZero, Instr.inRange, Instr.rowInRange, h1,
    hr]

theorem geometry_rows {c : Config} (h : c.GeometryOk) : 1 ≤ c.dramRows ∧ 1 ≤ c.dramCols := by
  obtain ⟨hw, hh, -, -, -, -, -, h1, h2⟩ := h
  simp only [Config.visibleWidth, Config.visibleHeight] at h1 h2
  omega

theorem decodeHost_port {w1 w2 : Word} {i : Instr} (h : decode .host w1 w2 = .ok i) :
    i.port = .host := by
  simp only [decode, decodeHost] at h
  split at h <;> simp [whenZero_ok] at h
  all_goals obtain ⟨-, rfl⟩ := h; rfl

theorem encode_cmd_clearfb (c : Nibble) : (encode (.clearfb c)).1 = mkW1 0x3 c 0 0 := rfl

/-- A direct command in range puts on the request line a word the engine accepts (R100, R233). -/
theorem requestOk_encode {c : Config} {i : Instr} (hi : i.inRange c = true)
    (h : (∃ r k v, i = .memwrite r k v) ∨ (∃ r k, i = .memread r k) ∨ (∃ r, i = .memxfer r) ∨
      (∃ r, i = .memrefrow r)) : requestOk c (some (encode i).1) = true := by
  rcases h with ⟨r, k, v, rfl⟩ | ⟨r, k, rfl⟩ | ⟨r, rfl⟩ | ⟨r, rfl⟩ <;>
    simpa [requestOk, decode, decodeEngine, encode, whenZero, Instr.inRange] using hi

/-- The execution edge of a command (R231) is one of the moves. -/
theorem executeCommand_cases {b : State} (hp : b.host.pending = true) :
    ∃ h0, executeCommand b = .next h0 ∧ HostMove b (hostReady b) h0 := by
  simp only [executeCommand]
  split
  · rename_i i hd
    have hport := decodeHost_port hd
    cases i
    case enqueue x y c =>
      exact ⟨_, rfl, .enqueue _ _ _ _ hp ⟨_, _, _, hd⟩⟩
    case drawrect x y w h c =>
      simp only [exec, execDrawrect]
      split
      · exact ⟨_, rfl, .answer _ _ hp⟩
      · exact ⟨_, rfl, .beginRect _ hp⟩
    case clearfb c =>
      simp only [exec, execClearfb, gated]
      split
      · exact ⟨_, rfl, .answer _ _ hp⟩
      · rename_i hr
        split
        · exact ⟨_, rfl, .answer _ _ hp⟩
        · refine ⟨_, rfl, ?_⟩
          have hc : (enterHostPhase .clear (.clearfb c) (hostReady b)).host.cmd = mkW1 0x3 c 0 0 := rfl
          simp only [clearRequest, hc, cField_mkW1]
          refine .request _ _ _ hp (by simpa using hr) (.inl rfl) fun hg => ?_
          exact requestOk_write (geometry_rows hg).1 (geometry_rows hg).2 hg.2.2.2.2.2.1 hg.2.2.2.2.2.2.1
    case start m =>
      simp only [exec, execStart]
      split
      · rename_i hm; subst hm
        simp only [gated]
        split
        · exact ⟨_, rfl, .answer _ _ hp⟩
        · rename_i hr
          exact ⟨_, rfl, .start hp (by simpa using hr) hd⟩
      · exact ⟨_, rfl, .answer _ _ hp⟩
    case stop =>
      simp only [exec, execStop]
      split
      · rename_i hr
        exact ⟨_, rfl, .stop hp (by simpa using hr) hd⟩
      · exact ⟨_, rfl, .answer _ _ hp⟩
    case gethealth => exact ⟨_, rfl, .gethealth _ hp hd⟩
    case getframecount => exact ⟨_, rfl, .answer _ _ hp⟩
    case refreshifneeded now =>
      simp only [exec, execRefreshifneeded, gated]
      split
      · exact ⟨_, rfl, .answer _ _ hp⟩
      · rename_i hr
        split
        · refine ⟨_, rfl, ?_⟩
          simp only [beginRefall]
          split
          · rename_i h0
            have hc : opField (enterHostPhase .refall (.refreshifneeded now)
                (hostReady b)).host.cmd = 0x8#4 := opField_mkW1 _ _ _ _
            simp only [refallAnswer, hc, if_true]
            exact .noRows _ _ _ hp h0
          · refine .request _ _ _ hp (by simpa using hr) (.inr (.inl rfl)) fun hg => ?_
            exact requestOk_refrow (geometry_rows hg).1 hg.2.2.2.2.2.1
        · exact ⟨_, rfl, .answer _ _ hp⟩
    case memrefall =>
      simp only [exec, execMemrefall, gated]
      split
      · exact ⟨_, rfl, .answer _ _ hp⟩
      · rename_i hr
        refine ⟨_, rfl, ?_⟩
        simp only [beginRefall]
        split
        · rename_i h0
          have hc : opField (enterHostPhase .refall .memrefall (hostReady b)).host.cmd = 0xD#4 :=
            opField_mkW1 _ _ _ _
          rw [refallAnswer, hc, if_neg (by decide)]
          exact HostMove.noRows (b := b) (r := hostReady b) .memrefall 0 b.host.lastRefreshTime hp h0
        · refine .request _ _ _ hp (by simpa using hr) (.inr (.inl rfl)) fun hg => ?_
          exact requestOk_refrow (geometry_rows hg).1 hg.2.2.2.2.2.1
    case memwrite | memread | memxfer | memrefrow =>
      simp only [exec, execMemwrite, execMemread, execMemxfer, execMemrefrow, directAccess, gated]
      split
      · rename_i hin
        split
        · exact ⟨_, rfl, .answer _ _ hp⟩
        · rename_i hr
          refine ⟨_, rfl, .request _ _ _ hp (by simpa using hr) (.inr (.inr rfl)) fun _ => ?_⟩
          exact requestOk_encode hin (by simp)
      · exact ⟨_, rfl, .answer _ _ hp⟩
    all_goals cases hport
  · exact ⟨_, rfl, .answer _ _ hp⟩

/-- The end of a WRITE of the clear sweep is one of the moves. -/
theorem clearNext_cases {b : State} (np : b.host.pending = false) (ph : b.host.phase = .clear)
    (hd : doneOwner b = some .hs) : HostMove b (hostReady b) (clearNext (hostReady b)) := by
  rw [clearNext, hostReady_i, hostReady_j, hostReady_cfg]
  by_cases hlt : b.host.i.toNat + 1 < b.cfg.dramCols
  · rw [if_pos hlt]
    refine .next _ _ _ np (.inl ph) hd fun hg hj => ?_
    have h1 : (b.host.i + 1).toNat = b.host.i.toNat + 1 :=
      toNat_add_one (by have := hg.2.2.2.2.2.2.1; omega)
    simp only [setCounters_i, setCounters_j, h1]
    exact ⟨requestOk_write (hj ph) hlt hg.2.2.2.2.2.1 hg.2.2.2.2.2.2.1, hj⟩
  · rw [if_neg hlt]
    by_cases hlt : b.host.j.toNat + 1 < b.cfg.dramRows
    · rw [if_pos hlt]
      refine .next _ _ _ np (.inl ph) hd fun hg _ => ?_
      have h1 : (b.host.j + 1).toNat = b.host.j.toNat + 1 :=
        toNat_add_one (by have := hg.2.2.2.2.2.1; omega)
      simp only [setCounters_i, setCounters_j, h1]
      exact ⟨requestOk_write hlt (geometry_rows hg).2 hg.2.2.2.2.2.1 hg.2.2.2.2.2.2.1, fun _ => hlt⟩
    · rw [if_neg hlt]
      exact .finish _ b.host.lastRefreshTime np (.inl ph) hd fun h => absurd rfl h

/-- The end of a REFROW of the refresh loop is one of the moves. -/
theorem refallNext_cases {b : State} (np : b.host.pending = false) (ph : b.host.phase = .refall)
    (hd : doneOwner b = some .hs) : HostMove b (hostReady b) (refallNext (hostReady b)) := by
  rw [refallNext, hostReady_i, hostReady_j, hostReady_cfg]
  by_cases hlt : b.host.j.toNat + 1 < b.cfg.dramRows
  · rw [if_pos hlt]
    refine .next _ _ _ np (.inr ph) hd fun hg _ => ?_
    have h1 : (b.host.j + 1).toNat = b.host.j.toNat + 1 :=
      toNat_add_one (by have := hg.2.2.2.2.2.1; omega)
    simp only [setCounters_j, h1]
    exact ⟨requestOk_refrow hlt hg.2.2.2.2.2.1, fun h => by rw [ph] at h; cases h⟩
  · rw [if_neg hlt, refallAnswer]
    by_cases ho : opField (hostReady b).host.cmd = 0x8#4
    · rw [if_pos ho]
      exact .finish _ _ np (.inr (.inl ph)) hd fun _ => ph
    · rw [if_neg ho]
      exact .finish _ b.host.lastRefreshTime np (.inr (.inl ph)) hd fun h => absurd rfl h

/-- An edge of a phase of the host sequencer (R231) is one of the moves. -/
theorem hostPhaseStep_cases {b : State} (np : b.host.pending = false) :
    HostMove b (hostReady b) (hostPhaseStep b) := by
  simp only [hostPhaseStep]
  split
  · rename_i ph; exact .quiet np (by simp [ph])
  · rename_i ph; exact .quiet np (by simp [ph])
  · rename_i ph; exact .rect np ph
  · rename_i ph
    split
    · rename_i hd; exact clearNext_cases np ph (by simpa using hd)
    · rename_i hd; exact .quiet np fun _ => by simpa using hd
  · rename_i ph
    split
    · rename_i hd; exact refallNext_cases np ph (by simpa using hd)
    · rename_i hd; exact .quiet np fun _ => by simpa using hd
  · rename_i ph
    split
    · rename_i hd
      exact .finish _ b.host.lastRefreshTime np (.inr (.inr ph)) (by simpa using hd)
        fun h => absurd rfl h
    · rename_i hd; exact .quiet np fun _ => by simpa using hd
  · rename_i ph
    simp only [stopWait]
    split
    · rename_i hi
      exact .stopEnd np ph hi
    · exact .quiet np (by simp [ph])

/-- The host edge is one of the moves, followed by the latching of a word (R94, R231); it always goes
on. -/
theorem hostEdge_cases (p : PinIn) (b : State) :
    ∃ h0, HostMove b (hostReady b) h0 ∧ hostEdge p b = .next (latchPins p b h0) := by
  simp only [hostEdge]
  split
  · rename_i hp
    obtain ⟨h0, he, hm⟩ := executeCommand_cases hp
    exact ⟨h0, hm, by rw [he]; rfl⟩
  · rename_i hp
    exact ⟨_, hostPhaseStep_cases (by simpa using hp), rfl⟩

/-! ## The latching of a word -/

/-- A word that is taken is held behind a multi-cycle command, or latched: as the second word of a
two-word command, as the first word of one, or as a whole command (R94, R95, log 6). -/
theorem latchPins_cases (p : PinIn) (b h0 : State) :
    (incomingWord p b = none ∧ latchPins p b h0 = h0) ∨
    ∃ w, incomingWord p b = some w ∧
      ((cmdReady false h0 = false ∧ latchPins p b h0 = holdWord w h0) ∨
       (cmdReady false h0 = true ∧
        ((b.host.phase = .word2 ∧ latchPins p b h0 = { h0 with host := { h0.host with
            phase := .idle, arg := w, pending := true, held := none } }) ∨
         (b.host.phase ≠ .word2 ∧ hasSecondWord w = true ∧
          latchPins p b h0 = { h0 with host := { h0.host with
            phase := .word2, cmd := w, held := none } }) ∨
         (b.host.phase ≠ .word2 ∧ hasSecondWord w = false ∧
          latchPins p b h0 = { h0 with host := { h0.host with
            cmd := w, pending := true, held := none } })))) := by
  simp only [latchPins]
  split
  · rename_i hw; exact .inl ⟨hw, rfl⟩
  · rename_i w hw
    refine .inr ⟨w, hw, ?_⟩
    split
    · rename_i hr
      refine .inr ⟨hr, ?_⟩
      simp only [latchWord]
      split
      · rename_i h2; exact .inl ⟨h2, rfl⟩
      · rename_i h2
        split
        · rename_i h3; exact .inr (.inl ⟨h2, h3, rfl⟩)
        · rename_i h3; exact .inr (.inr ⟨h2, by simpa using h3, rfl⟩)
    · rename_i hr; exact .inl ⟨by simpa using hr, rfl⟩

end Sys2Proof.Machine
end

