-- ==== Sys2Proof/Laws/Sequencers.lean ====
section
/-! SUPPORT. What the frame and the line sequencer can do at one edge, said once: the state each leaves
alone, what each requests of the engine, and how the two edges of the block are put together. -/

namespace Sys2Proof.Machine

/-! ## Addresses -/

theorem linearIndex_lt {c : Config} {x y : Nat} (hx : x < c.width) (hy : y < c.height) :
    linearIndex c x y < c.width * c.height := by
  have : (y + 1) * c.width ≤ c.height * c.width := Nat.mul_le_mul_right _ hy
  rw [Nat.add_mul, Nat.one_mul, Nat.mul_comm c.height] at this
  simp only [linearIndex]
  omega

/-- `Map` stays inside the array (R62). -/
theorem mapPixel_lt {c : Config} {x y : Nat} (hg : c.GeometryOk) (hx : x < c.width)
    (hy : y < c.height) :
    (mapPixel c x y).1 < c.dramRows ∧ (mapPixel c x y).2 < c.dramCols := by
  have h1 := linearIndex_lt hx hy
  have hc := (geometry_rows hg).2
  refine ⟨Nat.div_lt_of_lt_mul ?_, Nat.mod_lt _ hc⟩
  rw [Nat.mul_comm]
  exact lt_of_lt_of_le h1 hg.2.2.1

/-! ## The frame sequencer -/

theorem refreshDecision_only (s : State) :
    refreshDecision s = { s with
      frame := (refreshDecision s).frame
      req := { s.req with fs := (refreshDecision s).req.fs } } := by
  simp only [refreshDecision]; split <;> rfl

theorem drainDecision_only (w : Nat) (s : State) :
    drainDecision w s = { s with
      frame := (drainDecision w s).frame
      req := { s.req with fs := (drainDecision w s).req.fs } } := by
  simp only [drainDecision, beginRefresh]
  split
  · rfl
  · rw [refreshDecision_only]

theorem frameDecision_only (w : Nat) (s : State) :
    frameDecision w s = { s with
      frame := (frameDecision w s).frame
      req := { s.req with fs := (frameDecision w s).req.fs } } := by
  simp only [frameDecision]
  split
  · rfl
  · exact drainDecision_only w s
  · exact refreshDecision_only s

theorem frameAdvance_only (i d : Bool) (w : Nat) (s : State) :
    frameAdvance i d w s = { s with
      frame := (frameAdvance i d w s).frame
      req := { s.req with fs := (frameAdvance i d w s).req.fs } } := by
  simp only [frameAdvance]
  split
  · exact frameDecision_only w s
  · rfl

theorem startFrameRun_only (w : Nat) (s : State) :
    startFrameRun w s = { s with
      frame := (startFrameRun w s).frame
      req := { s.req with fs := (startFrameRun w s).req.fs } } := by
  simp only [startFrameRun]
  rw [frameDecision_only]

/-- Every decision requests something the engine accepts, or ends the run with no new request; the ring
invariants hold after it (R212 to R214, R151, R154). -/
theorem frameDecision_safe {s : State} {w : Nat} (hg : s.cfg.GeometryOk)
    (hr : RingInv s) (hw : s.frame.phase = .drain → s.frame.readIndex ≠ w →
      s.frame.readIndex ≠ s.host.writeIndex) (hq : requestOk s.cfg s.req.fs = true) :
    RingInv (frameDecision w s) ∧ requestOk s.cfg (frameDecision w s).req.fs = true := by
  have hrows := hg.2.2.2.2.2.1
  have hcols := hg.2.2.2.2.2.2.1
  have href : ∀ u : State, u.cfg = s.cfg → RingInv u → requestOk s.cfg u.req.fs = true →
      RingInv (refreshDecision u) ∧ requestOk s.cfg (refreshDecision u).req.fs = true := by
    intro u hc hu hq
    simp only [refreshDecision]
    split
    · rename_i hlt
      rw [hc] at hlt
      exact ⟨hu.congr rfl rfl rfl rfl, requestOk_refrow hlt hrows⟩
    · exact ⟨hu.congr rfl rfl rfl rfl, hq⟩
  simp only [frameDecision]
  split
  · exact ⟨hr, hq⟩
  · rename_i hph
    simp only [drainDecision]
    split
    · rename_i hd
      have hne := hw hph hd.1
      have hb := popped_in_bounds hr hne
      simp only [inBounds, Bool.and_eq_true, decide_eq_true_eq] at hb
      have hm := mapPixel_lt hg hb.1 hb.2
      exact ⟨(drainPop_ring hr hne).congr rfl rfl rfl rfl, requestOk_write hm.1 hm.2 hrows hcols⟩
    · exact href { s with frame := { s.frame with phase := .refresh, row := 0 } } rfl
        (hr.congr rfl rfl rfl rfl) hq
  · exact href s rfl hr hq

/-- A decision leaves the run going with a request raised, or the sequencer idle (R213, R154). -/
theorem frameDecision_request {s : State} {w : Nat} (hp : s.frame.phase ≠ .idle)
    (hq : s.req.fs = none) :
    ((frameDecision w s).frame.phase ≠ .idle ∧ (frameDecision w s).req.fs.isSome = true) ∨
    ((frameDecision w s).frame.phase = .idle ∧ (frameDecision w s).req.fs = none) := by
  simp only [frameDecision]
  split
  · rename_i h; exact absurd h hp
  · simp only [drainDecision]
    split
    · rename_i h1 h2
      exact .inl ⟨by simp [drainWrite, h1], rfl⟩
    · simp only [beginRefresh, refreshDecision]
      split
      · exact .inl ⟨by simp, rfl⟩
      · exact .inr ⟨rfl, hq⟩
  · rename_i h1
    simp only [refreshDecision]
    split
    · exact .inl ⟨by simp [h1], rfl⟩
    · exact .inr ⟨rfl, hq⟩

/-! ## The line sequencer -/

theorem lineAdvance_only (d : Bool) (s : State) :
    lineAdvance d s = { s with
      line := (lineAdvance d s).line
      req := { s.req with ls := (lineAdvance d s).req.ls }
      chip := { s.chip with
        sd := (lineAdvance d s).chip.sd, samPtr := (lineAdvance d s).chip.samPtr } } := by
  simp only [lineAdvance, endLinePhase, endHsync, endTransfer, endPulse]
  repeat' split
  all_goals rfl

theorem frameBoundary_only (w : Nat) (s : State) :
    frameBoundary w s = { s with
      line := { s.line with frameCount := s.line.frameCount + 1, framebufferRow := 0 }
      frame := (frameBoundary w s).frame
      health := { s.health with violation := (frameBoundary w s).health.violation }
      req := { s.req with fs := (frameBoundary w s).req.fs } } := by
  simp only [frameBoundary]
  split
  · rw [startFrameRun_only]
  · rfl

theorem takeTick_only (w : Nat) (s : State) :
    takeTick w s = { s with
      line := (takeTick w s).line
      frame := (takeTick w s).frame
      health := { s.health with violation := (takeTick w s).health.violation }
      req := { s.req with fs := (takeTick w s).req.fs } } := by
  simp only [takeTick]
  split
  · rw [frameBoundary_only]; rfl
  · rfl

theorem lineTick_only (w : Nat) (s : State) :
    lineTick w s = { s with
      line := (lineTick w s).line
      frame := (lineTick w s).frame
      health := { s.health with violation := (lineTick w s).health.violation }
      req := { s.req with fs := (lineTick w s).req.fs } } := by
  simp only [lineTick, violationWhen]
  split
  · split
    · split <;> (rw [takeTick_only]; rfl)
    · split
      · rw [takeTick_only]; rfl
      · rfl
  · split <;> rfl

theorem lineEdge_only (d : Bool) (w : Nat) (s : State) :
    lineEdge d w s = { s with
      line := (lineEdge d w s).line
      frame := (lineEdge d w s).frame
      health := { s.health with violation := (lineEdge d w s).health.violation }
      req := { s.req with ls := (lineEdge d w s).req.ls, fs := (lineEdge d w s).req.fs }
      chip := { s.chip with
        sd := (lineEdge d w s).chip.sd, samPtr := (lineEdge d w s).chip.samPtr } } := by
  simp only [lineEdge]
  split
  · rw [lineTick_only, lineAdvance_only]
  · rw [lineAdvance_only]

end Sys2Proof.Machine
end

