-- ==== Sys2Proof/Laws/Safe.lean ====
section
/-! SUPPORT. The parts of a step and the safety invariant: what each part leaves alone and that each keeps
its share of `SafeInv`. -/

namespace Sys2Proof.Machine


/-- What no move of the host sequencer touches (R42, R273). -/
theorem hostMove_only {b h0 : State} (m : HostMove b (hostReady b) h0) :
    h0.cfg = b.cfg ∧ h0.t = b.t ∧ h0.draws = b.draws ∧ h0.inputs = b.inputs ∧ h0.eng = b.eng ∧ h0.pins = b.pins ∧
    h0.chip = b.chip ∧ h0.req.ls = b.req.ls ∧ h0.host.pending = false ∧
    h0.host.held = b.host.held := by
  cases m
  case enqueue => rw [enqueuePixel_only]; exact ⟨rfl, rfl, rfl, rfl, rfl, rfl, rfl, rfl, rfl, rfl⟩
  case rect =>
    simp only [rectStep, rectNext]
    rw [enqueuePixel_only]
    repeat' split
    all_goals exact ⟨rfl, rfl, rfl, rfl, rfl, rfl, rfl, rfl, rfl, rfl⟩
  case start =>
    simp only [startRunning]
    rw [startFrameRun_only]
    exact ⟨rfl, rfl, rfl, rfl, rfl, rfl, rfl, rfl, rfl, rfl⟩
  all_goals exact ⟨rfl, rfl, rfl, rfl, rfl, rfl, rfl, rfl, rfl, rfl⟩

/-- Every move of the host sequencer keeps its part of the safety invariant (R206, R220, R233). -/
theorem hostMove_safe {b h0 : State} (m : HostMove b (hostReady b) h0) (h : SafeInv b) :
    RingInv h0 ∧ requestOk b.cfg h0.req.fs = true ∧ requestOk b.cfg h0.req.hs = true ∧
    h0.line.framebufferRow < b.cfg.visibleHeight ∧
    (h0.host.phase = .clear → h0.host.j.toNat < b.cfg.dramRows) := by
  have hr : RingInv (hostReady b) := h.ring.congr rfl rfl rfl rfl
  have hrow := geometry_rows h.geometry
  have hv : 0 < b.cfg.visibleHeight := h.geometry.2.1
  cases m
  case quiet => exact ⟨hr, h.request_fs, h.request_hs, h.row_lt, h.clear_row⟩
  case answer => exact ⟨hr.congr rfl rfl rfl rfl, h.request_fs, h.request_hs, h.row_lt, by simp⟩
  case enqueue st x y c hp hd =>
    have he := enqueuePixel_ring (s := hostReady b) x y c h.geometry h.ring_ok hr
    refine ⟨he.congr rfl rfl rfl rfl, ?_, ?_, ?_, by simp⟩ <;> rw [enqueuePixel_only]
    · exact h.request_fs
    · exact h.request_hs
    · exact h.row_lt
  case beginRect => exact ⟨hr.congr rfl rfl rfl rfl, h.request_fs, h.request_hs, h.row_lt, by simp⟩
  case rect np ph =>
    simp only [rectStep]
    have he := enqueuePixel_ring (s := hostReady b) (rectSum (xField (hostReady b).host.cmd) (hostReady b).host.i) (rectSum (yField (hostReady b).host.cmd) (hostReady b).host.j) (cField (hostReady b).host.cmd) h.geometry h.ring_ok hr
    have ho := enqueuePixel_only (rectSum (xField (hostReady b).host.cmd) (hostReady b).host.i) (rectSum (yField (hostReady b).host.cmd) (hostReady b).host.j) (cField (hostReady b).host.cmd) (hostReady b)
    generalize (enqueuePixel _ _ _ _).1 = u at he ho ⊢
    simp only [rectNext]
    split
    · refine ⟨he.congr rfl rfl rfl rfl, ?_, ?_, ?_, ?_⟩ <;> rw [ho]
      · exact h.request_fs
      · exact h.request_hs
      · exact h.row_lt
      · simp [ph]
    · split
      · refine ⟨he.congr rfl rfl rfl rfl, ?_, ?_, ?_, ?_⟩ <;> rw [ho]
        · exact h.request_fs
        · exact h.request_hs
        · exact h.row_lt
        · simp [ph]
      · refine ⟨he.congr rfl rfl rfl rfl, ?_, ?_, ?_, by simp⟩ <;> rw [ho]
        · exact h.request_fs
        · exact h.request_hs
        · exact h.row_lt
  case gethealth => exact ⟨hr.congr rfl rfl rfl rfl, h.request_fs, h.request_hs, h.row_lt, by simp⟩
  case start hp hrun hd =>
    have := frameDecision_safe (s := { hostReady b with
      host := { (hostReady b).host with running := true }
      line := { (hostReady b).line with hCount := 0, tickPending := false, currentLine := 0, framebufferRow := 0 }
      frame := { (hostReady b).frame with phase := .drain, drained := 0 } }) (w := b.host.writeIndex) h.geometry
      (hr.congr rfl rfl rfl rfl) (fun _ h => h) h.request_fs
    refine ⟨this.1.congr rfl rfl rfl rfl, this.2, ?_, ?_, ?_⟩ <;> simp only [startRunning] <;> rw [startFrameRun_only]
    · exact h.request_hs
    · exact hv
    · simp
  case stop => exact ⟨hr.congr rfl rfl rfl rfl, h.request_fs, h.request_hs, h.row_lt, by simp [stopRunning]⟩
  case stopEnd => exact ⟨hr.congr rfl rfl rfl rfl, h.request_fs, h.request_hs, h.row_lt, by simp⟩
  case request p i w hp hrun hph hw =>
    exact ⟨hr.congr rfl rfl rfl rfl, h.request_fs, hw h.geometry, h.row_lt, fun _ => hrow.1⟩
  case noRows => exact ⟨hr.congr rfl rfl rfl rfl, h.request_fs, h.request_hs, h.row_lt, by simp⟩
  case next w i j np ph hd hw =>
    have := hw h.geometry h.clear_row
    exact ⟨hr.congr rfl rfl rfl rfl, h.request_fs, this.1, h.row_lt, this.2⟩
  case finish => exact ⟨hr.congr rfl rfl rfl rfl, h.request_fs, h.request_hs, h.row_lt, by simp⟩

/-- Dropping a line leaves the lines acceptable (R130). -/
theorem requestOk_dropLine {c : Config} {o : Owner} {r : Requests} (h : requestOk c r.ls = true ∧ requestOk c r.fs = true ∧ requestOk c r.hs = true) :
   requestOk c (dropLine o r).ls = true ∧ requestOk c (dropLine o r).fs = true ∧ requestOk c (dropLine o r).hs = true := by
  cases o <;> simp_all [dropLine, requestOk]

/-- The engine edge drops the granted line and no other (R130). -/
theorem engineEdge_req {s g : State} (h : engineEdge s = .next g) : g.req = s.req ∨ (winningRequest s.req ≠ none ∧ g.req = dropLine (winner s.req) s.req) := by
  rcases engineEdge_cases h with ⟨rfl, -⟩ | ⟨-, w, op, row, col, v, hw, rfl, -⟩
  · exact .inl (by simp)
  · exact .inr ⟨by simp [hw], by simp⟩

/-- A line put together from two acceptable ones is acceptable. -/
theorem mergeLine_ok {c : Config} {b r e : Option Word} (h1 : requestOk c r = true) (h2 : requestOk c e = true) : requestOk c (mergeLine b r e) = true := by
  cases b <;> assumption

/-- The line sequencer asks only for rows of the array (R191). -/
theorem lineAdvance_safe {s : State} (d : Bool) (hg : s.cfg.GeometryOk) (hr : s.line.framebufferRow < s.cfg.visibleHeight) (hl : requestOk s.cfg s.req.ls = true) :
  (lineAdvance d s).line.framebufferRow < s.cfg.visibleHeight ∧ requestOk s.cfg (lineAdvance d s).req.ls = true := by
  simp only [lineAdvance, endLinePhase, endHsync, endTransfer, endPulse]
  have hx : requestOk s.cfg (some (xferRequest s.line.framebufferRow)) = true :=
    requestOk_xfer (lt_of_lt_of_le hr hg.2.2.2.2.2.2.2.2) hg.2.2.2.2.2.1
  have hn : nextFramebufferRow s.cfg s.line.framebufferRow < s.cfg.visibleHeight := by
    simp only [nextFramebufferRow]; split <;> omega
  repeat' split
  all_goals first | exact ⟨hr, hl⟩ | exact ⟨hn, hx⟩

/-- The start of a frame-sequencer run keeps the ring and the request acceptable (R165). -/
theorem startFrameRun_safe {s : State} {w : Nat} (hg : s.cfg.GeometryOk) (hr : RingInv s)
    (hw : s.frame.readIndex ≠ w → s.frame.readIndex ≠ s.host.writeIndex) (hq : requestOk s.cfg s.req.fs = true) :
    RingInv (startFrameRun w s) ∧ requestOk s.cfg (startFrameRun w s).req.fs = true :=
  frameDecision_safe (s := { s with frame := { s.frame with phase := .drain, drained := 0 } }) hg (hr.congr rfl rfl rfl rfl) (fun _ => hw) hq

/-- So does a taken tick (R163). -/
theorem takeTick_safe {s : State} {w : Nat} (hg : s.cfg.GeometryOk) (hr : RingInv s)
    (hw : s.frame.readIndex ≠ w → s.frame.readIndex ≠ s.host.writeIndex) (hq : requestOk s.cfg s.req.fs = true)
    (hrow : s.line.framebufferRow < s.cfg.visibleHeight) :
    RingInv (takeTick w s) ∧ requestOk s.cfg (takeTick w s).req.fs = true ∧
    (takeTick w s).line.framebufferRow < s.cfg.visibleHeight := by
  have hv : 0 < s.cfg.visibleHeight := by omega
  simp only [takeTick]
  split
  · simp only [frameBoundary]
    split
    · have := startFrameRun_safe (s := { s with line := { s.line with currentLine := nextLine s.cfg s.line.currentLine, frameCount := s.line.frameCount + 1, framebufferRow := 0 } }) (w := w) hg (hr.congr rfl rfl rfl rfl) hw hq
      refine ⟨this.1.congr rfl rfl rfl rfl, this.2, ?_⟩
      rw [startFrameRun_only]; exact hv
    · exact ⟨hr.congr rfl rfl rfl rfl, hq, hv⟩
  · exact ⟨hr.congr rfl rfl rfl rfl, hq, hrow⟩

/-- So does LINETICK (R163). -/
theorem lineTick_safe {s : State} {w : Nat} (hg : s.cfg.GeometryOk) (hr : RingInv s)
    (hw : s.frame.readIndex ≠ w → s.frame.readIndex ≠ s.host.writeIndex) (hq : requestOk s.cfg s.req.fs = true)
    (hrow : s.line.framebufferRow < s.cfg.visibleHeight) :
    RingInv (lineTick w s) ∧ requestOk s.cfg (lineTick w s).req.fs = true ∧
    (lineTick w s).line.framebufferRow < s.cfg.visibleHeight := by
  simp only [lineTick, violationWhen]
  split
  · split
    · split <;> exact takeTick_safe (s := _) hg (hr.congr rfl rfl rfl rfl) hw hq hrow
    · split
      · exact takeTick_safe (s := countCycle s) hg (hr.congr rfl rfl rfl rfl) hw hq hrow
      · exact ⟨hr.congr rfl rfl rfl rfl, hq, hrow⟩
  · split <;> exact ⟨hr.congr rfl rfl rfl rfl, hq, hrow⟩

/-- So does the line context at an edge. -/
theorem lineEdge_safe {s : State} {w : Nat} (d : Bool) (hg : s.cfg.GeometryOk) (hr : RingInv s)
    (hw : s.frame.readIndex ≠ w → s.frame.readIndex ≠ s.host.writeIndex) (hq : requestOk s.cfg s.req.fs = true)
    (hl : requestOk s.cfg s.req.ls = true)
    (hrow : s.line.framebufferRow < s.cfg.visibleHeight) :
    RingInv (lineEdge d w s) ∧ requestOk s.cfg (lineEdge d w s).req.fs = true ∧
    requestOk s.cfg (lineEdge d w s).req.ls = true ∧
    (lineEdge d w s).line.framebufferRow < s.cfg.visibleHeight := by
  obtain ⟨h1, h2⟩ := lineAdvance_safe d hg hrow hl
  have ho := lineAdvance_only d s
  simp only [lineEdge]
  generalize lineAdvance d s = u at h1 h2 ho ⊢
  have hc : u.cfg = s.cfg := by rw [ho]
  have hru : RingInv u := hr.congr hc (by rw [ho]) (by rw [ho]) (by rw [ho])
  have hqu : requestOk s.cfg u.req.fs = true := by rw [ho]; exact hq
  split
  · have := lineTick_safe (s := u) (w := w) (by rw [hc]; exact hg) hru (by rw [ho]; exact hw) (by rw [hc]; exact hqu) (by rw [hc]; exact h1)
    rw [hc] at this
    refine ⟨this.1, this.2.1, ?_, this.2.2⟩
    rw [lineTick_only]; exact h2
  · exact ⟨hru, hqu, h2, h1⟩

/-- A frame-sequencer run in progress is not touched by the line context (R176). -/
theorem lineEdge_frame {s : State} {w : Nat} (d : Bool) (h : s.frame.phase ≠ .idle) : (lineEdge d w s).frame = s.frame := by
  have hb : ∀ u : State, u.frame = s.frame → (frameBoundary w u).frame = s.frame := by
    intro u hu
    simp only [frameBoundary]
    split
    · rename_i hh; rw [hu] at hh; exact absurd hh h
    · exact hu
  have ht : ∀ u : State, u.frame = s.frame → (takeTick w u).frame = s.frame := by
    intro u hu
    simp only [takeTick]
    split
    · exact hb _ hu
    · exact hu
  have ho := lineAdvance_only d s
  simp only [lineEdge]
  generalize lineAdvance d s = u at ho ⊢
  have hu : u.frame = s.frame := by rw [ho]
  split
  · simp only [lineTick, violationWhen]
    split
    · split
      · split <;> exact ht _ hu
      · split
        · exact ht _ hu
        · exact hu
    · split <;> exact hu
  · exact hu

/-- Only START touches the frame sequencer (R273, R240). -/
theorem hostMove_frame {b h0 : State} (m : HostMove b (hostReady b) h0) :
   (h0.frame = b.frame ∧ h0.req.fs = b.req.fs ∧ ¬ (h0.host.running = true ∧ b.host.running = false)) ∨
   (b.host.running = false ∧ h0.host.running = true ∧ h0 = startRunning (hostReady b)) := by
  cases m
  case enqueue => rw [enqueuePixel_only]; left; simp
  case rect =>
    left
    simp only [rectStep, rectNext]
    rw [enqueuePixel_only]
    repeat' split
    all_goals simp
  case start hp hr hd =>
    right
    refine ⟨hr, ?_, rfl⟩
    simp [startRunning]
    rw [startFrameRun_only]
  all_goals left; simp [stopRunning]

/-- Latching a word touches the latches and the phase of the host sequencer alone (R94). -/
theorem latchPins_only (p : PinIn) (b h0 : State) :
    latchPins p b h0 = { h0 with host := { h0.host with
      phase := (latchPins p b h0).host.phase
      cmd := (latchPins p b h0).host.cmd
      arg := (latchPins p b h0).host.arg
      pending := (latchPins p b h0).host.pending
      held := (latchPins p b h0).host.held } } := by
  simp only [latchPins, latchWord, holdWord]; repeat' split
  all_goals rfl

/-- A drain that finds the ring non-empty by the old `write_index` finds it so by the new one (R81, R268):
an ENQUEUE at the same edge never catches up with `read_index`. -/
theorem hostMove_fresh {b h0 : State} (m : HostMove b (hostReady b) h0)
    (hne : b.frame.readIndex ≠ b.host.writeIndex) : b.frame.readIndex ≠ h0.host.writeIndex := by
  have he : ∀ x y c, b.frame.readIndex ≠ (enqueuePixel x y c (hostReady b)).1.host.writeIndex := by
    intro x y c
    simp only [enqueuePixel]
    split
    · split
      · exact hne
      · rename_i hn; exact fun h => hn h.symm
    · exact hne
  cases m
  case enqueue x y c _ _ => exact he _ _ _
  case rect =>
    simp only [rectStep, rectNext]
    repeat' split
    all_goals exact he _ _ _
  case start => simp only [startRunning]; rw [startFrameRun_only]; exact hne
  all_goals exact hne

end Sys2Proof.Machine
end

