-- ==== Sys2Proof/Laws/Agents.lean ====
section
/-! SUPPORT. The parts of a step and the discipline of the three requesters: how each part moves the
operations in flight and the phases. -/

namespace Sys2Proof.Machine


/-- The request line of a requester. -/
def lineOf (o : Owner) (r : Requests) : Option Word :=
  match o with
  | .ls => r.ls
  | .fs => r.fs
  | .hs => r.hs

/-- The engine neither loses nor invents an operation: what a requester has in flight goes down by one
exactly at its `done` (R130). -/
theorem engine_inFlight {s g : State} (h : engineEdge s = .next g) (o : Owner) :
    inFlight (lineOf o g.req) o g + (decide (doneOwner s = some o)).toNat = inFlight (lineOf o s.req) o s := by
  have hdone : ∀ u : State, u.eng = (engineAdvance s).eng → (busyWith o u).toNat + (decide (doneOwner s = some o)).toNat = (busyWith o s).toNat := by
    intro u hu
    simp only [busyWith, hu, engineAdvance_eng_owner, doneOwner_eq_some]
    by_cases h1 : s.eng.phase = .idle
    · rw [engineAdvance_of_idle h1]; simp [h1]
    · by_cases h2 : (engineAdvance s).eng.phase = .idle <;> by_cases h3 : s.eng.owner = o <;> simp [h1, h2, h3]
  rcases engineEdge_cases h with ⟨rfl, -⟩ | ⟨hi, w, op, row, col, v, hw, rfl, -⟩
  · simp only [inFlight, engineAdvance_req]
    have := hdone _ rfl
    omega
  · have h1 := hdone (engineAdvance s) rfl
    have h2 : (busyWith o (engineAdvance s)).toNat = 0 := by simp [busyWith, hi]
    have h3 : busyWith o (grant op row col v (engineAdvance s)) = decide (winner s.req = o) := by
      simp [busyWith, grant_busy]
    simp only [inFlight, grant_req, engineAdvance_req, h3]
    have h4 : (lineOf o (dropLine (winner s.req) s.req)).isSome.toNat + (decide (winner s.req = o)).toNat = (lineOf o s.req).isSome.toNat := by
      simp only [winningRequest] at hw
      generalize s.req = r at hw ⊢
      obtain ⟨ls, fs, hs⟩ := r
      cases ls <;> cases fs <;> cases hs <;> cases o <;> simp_all [winner, dropLine, lineOf]
    omega

/-- The engine raises no line (R130). -/
theorem engine_line_none {s g : State} (h : engineEdge s = .next g) (o : Owner) (hn : lineOf o s.req = none) : lineOf o g.req = none := by
  rcases engineEdge_cases h with ⟨rfl, -⟩ | ⟨hi, w, op, row, col, v, hw, rfl, -⟩
  · simpa using hn
  · simp only [grant_req, engineAdvance_req]
    generalize winner s.req = x
    generalize s.req = r at hn ⊢
    obtain ⟨ls, fs, hs⟩ := r
    cases x <;> cases o <;> simp_all [dropLine, lineOf]

/-- How the line sequencer's phase moves at an edge, and when it asks for a transfer (R164, R190 to R195). -/
theorem lineAdvance_phase (d : Bool) (s : State) :
    (s.line.phase = .idle ∧ lineAdvance d s = s) ∨
    (s.line.phase = .xfer ∧ d = false ∧ lineAdvance d s = s) ∨
    (s.line.phase = .xfer ∧ d = true ∧ (lineAdvance d s).line.phase ≠ .xfer ∧ (lineAdvance d s).line.phase ≠ .idle ∧ (lineAdvance d s).req = s.req) ∨
    (s.line.phase = .hsync ∧ (lineAdvance d s).line.phase = .xfer ∧ (lineAdvance d s).req.ls.isSome = true) ∨
    (s.line.phase ≠ .xfer ∧ s.line.phase ≠ .idle ∧ (lineAdvance d s).line.phase ≠ .xfer ∧ (lineAdvance d s).req = s.req) := by
  simp only [lineAdvance]
  split
  · rename_i h; exact .inl ⟨h, rfl⟩
  · rename_i h
    split
    · rename_i hd
      refine .inr (.inr (.inl ⟨h, hd, ?_⟩))
      simp only [endTransfer]; split <;> simp [beginStream, beginPulse]
    · rename_i hd
      exact .inr (.inl ⟨h, by simpa using hd, rfl⟩)
  · rename_i h1 h2
    right; right; right
    split
    · simp only [endLinePhase]
      split
      · rename_i h; exact absurd h h1
      · rename_i h
        simp only [endHsync]
        split
        · exact .inl ⟨h, rfl, rfl⟩
        · right; simp [h]
      · rename_i h; exact absurd h h2
      · rename_i h; right; simp [h, beginStream, beginPulse]
      · rename_i h; right
        simp only [endPulse, endHighHalf]
        repeat' split
        all_goals simp [h, beginPulse]
    · right; exact ⟨h2, h1, h2, rfl⟩

/-- What LINETICK does to the phases of the line and the frame sequencer (R163 to R165). -/
theorem lineTick_phase (w : Nat) (s : State) :
    ((lineTick w s).line.phase = s.line.phase ∧ (lineTick w s).frame = s.frame ∧ (lineTick w s).req = s.req) ∨
    (s.line.phase = .idle ∧ (lineTick w s).line.phase = .hsync ∧ (lineTick w s).req.ls = s.req.ls ∧
      (((lineTick w s).frame = s.frame ∧ (lineTick w s).req = s.req) ∨
       (s.frame.phase = .idle ∧ ∃ u, u.frame = s.frame ∧ u.req = s.req ∧ (lineTick w s).frame = (startFrameRun w u).frame ∧ (lineTick w s).req.fs = (startFrameRun w u).req.fs))) := by
  have hb : ∀ u : State, u.frame = s.frame → u.req = s.req → ((takeTick w u).line.phase = .hsync ∧ (takeTick w u).req.ls = s.req.ls ∧
      (((takeTick w u).frame = s.frame ∧ (takeTick w u).req = s.req) ∨
       (s.frame.phase = .idle ∧ ∃ u', u'.frame = s.frame ∧ u'.req = s.req ∧ (takeTick w u).frame = (startFrameRun w u').frame ∧ (takeTick w u).req.fs = (startFrameRun w u').req.fs))) := by
    intro u hf hq
    refine ⟨rfl, by rw [takeTick_only, hq], ?_⟩
    simp only [takeTick]
    split
    · simp only [frameBoundary]
      split
      · rename_i hi
        right
        exact ⟨by rw [← hf]; exact hi, { u with line := { u.line with
          currentLine := nextLine u.cfg u.line.currentLine
          frameCount := u.line.frameCount + 1, framebufferRow := 0 } }, hf, hq, rfl, rfl⟩
      · left; exact ⟨hf, hq⟩
    · left; exact ⟨hf, hq⟩
  simp only [lineTick, violationWhen]
  split
  · rename_i hi
    split
    · split <;> exact .inr ⟨hi, hb _ rfl rfl⟩
    · split
      · exact .inr ⟨hi, hb _ rfl rfl⟩
      · exact .inl ⟨rfl, rfl, rfl⟩
  · split <;> exact .inl ⟨rfl, rfl, rfl⟩

/-- What a move of the host sequencer does to its use of the engine and to the phases the discipline of the
requesters speaks of (R231, R232, R241). -/
structure HostFlow (b h0 : State) : Prop where
  hs : (h0.req.hs = b.req.hs ∧ (hostUsesEngine h0 = hostUsesEngine b) ∧ (hostUsesEngine b = true → doneOwner b ≠ some .hs)) ∨
       (h0.req.hs.isSome = true ∧ hostUsesEngine h0 = true ∧ h0.host.running = false ∧ (hostUsesEngine b = true → doneOwner b = some .hs)) ∨
       (h0.req.hs = b.req.hs ∧ hostUsesEngine h0 = false ∧ doneOwner b = some .hs)
  word2 : h0.host.phase = .word2 → b.host.phase = .word2
  stop : h0.host.phase = .stopwait → h0.host.running = false
  stopped : h0.host.running = false → h0.host.phase ≠ .stopwait → (b.host.running = false ∧ b.host.phase ≠ .stopwait) ∨ allIdle b = true
  use : hostUsesEngine h0 = true → h0.host.running = false
  linePhase : h0.line.phase = b.line.phase ∨ (b.host.running = false ∧ h0.host.running = true ∧ h0.line.phase = .hsync)

/-- Every move of the host sequencer is of this kind. -/
theorem hostFlow {b h0 : State} (m : HostMove b (hostReady b) h0) (a : AgentsInv b) : HostFlow b h0 := by
  have hp : b.host.pending = true → hostUsesEngine b = false := fun h => by simp [hostUsesEngine, a.pending_idle h]
  have hpn : b.host.pending = true → b.host.phase ≠ .stopwait := fun h => by simp [a.pending_idle h]
  have hu := a.engine_use_stopped
  have hst := a.stopwait_stopped
  cases m
  case quiet np nd =>
    exact ⟨.inl ⟨rfl, rfl, fun h => nd (by simpa [hostUsesEngine] using h)⟩, id, hst, fun h1 h2 => .inl ⟨h1, h2⟩, hu, .inl rfl⟩
  case answer st d h =>
    exact ⟨.inl ⟨rfl, by rw [hp h]; rfl, by simp [hp h]⟩, by simp, by simp, fun h1 _ => .inl ⟨h1, hpn h⟩, by simp [hostUsesEngine], .inl rfl⟩
  case enqueue st x y c h hd =>
    rw [enqueuePixel_only]
    exact ⟨.inl ⟨rfl, by rw [hp h]; rfl, by simp [hp h]⟩, by simp, by simp, fun h1 _ => .inl ⟨h1, hpn h⟩, by simp [hostUsesEngine], .inl rfl⟩
  case beginRect i h =>
    exact ⟨.inl ⟨rfl, by rw [hp h]; rfl, by simp [hp h]⟩, by simp, by simp, fun h1 _ => .inl ⟨h1, hpn h⟩, by simp [hostUsesEngine], .inl rfl⟩
  case rect np ph =>
    have hub : hostUsesEngine b = false := by simp [hostUsesEngine, ph]
    simp only [rectStep, rectNext]
    rw [enqueuePixel_only]
    repeat' split
    all_goals
      refine ⟨.inl ⟨rfl, by simp [hostUsesEngine, ph], by simp [hub]⟩, by simp [ph], by simp [ph], fun h1 _ => .inl ⟨h1, by simp [ph]⟩, by simp [hostUsesEngine, ph], .inl rfl⟩
  case gethealth d h hd =>
    exact ⟨.inl ⟨rfl, by rw [hp h]; rfl, by simp [hp h]⟩, by simp, by simp, fun h1 _ => .inl ⟨h1, hpn h⟩, by simp [hostUsesEngine], .inl rfl⟩
  case start h hr hd =>
    simp only [startRunning]
    rw [startFrameRun_only]
    exact ⟨.inl ⟨rfl, by rw [hp h]; rfl, by simp [hp h]⟩, by simp, by simp, fun h1 _ => by simp at h1, by simp [hostUsesEngine], .inr ⟨hr, rfl, rfl⟩⟩
  case stop h hr hd =>
    exact ⟨.inl ⟨rfl, by rw [hp h]; rfl, by simp [hp h]⟩, by simp [stopRunning], by simp [stopRunning], fun _ h2 => by simp [stopRunning] at h2, by simp [hostUsesEngine, stopRunning], .inl rfl⟩
  case stopEnd np ph hi =>
    have hub : hostUsesEngine b = false := by simp [hostUsesEngine, ph]
    exact ⟨.inl ⟨rfl, by rw [hub]; rfl, by simp [hub]⟩, by simp, by simp, fun _ _ => .inr hi, by simp [hostUsesEngine], .inl rfl⟩
  case request p i w h hr hph hw =>
    refine ⟨.inr (.inl ⟨rfl, decide_eq_true hph, hr, by simp [hp h]⟩), ?_, ?_, fun _ _ => .inl ⟨hr, hpn h⟩, fun _ => hr, .inl rfl⟩
    · rcases hph with rfl | rfl | rfl <;> simp
    · rcases hph with rfl | rfl | rfl <;> simp
  case noRows i d l h h0 =>
    exact ⟨.inl ⟨rfl, by rw [hp h]; rfl, by simp [hp h]⟩, by simp, by simp, fun h1 _ => .inl ⟨h1, hpn h⟩, by simp [hostUsesEngine], .inl rfl⟩
  case next w i j np ph hd hw =>
    have hub : hostUsesEngine b = true := by rcases ph with ph | ph <;> simp [hostUsesEngine, ph]
    have hr := hu hub
    refine ⟨.inr (.inl ⟨rfl, hub, hr, fun _ => hd⟩), ?_, ?_, fun _ _ => .inl ⟨hr, ?_⟩, fun _ => hr, .inl rfl⟩
    · rcases ph with ph | ph <;> simp [ph]
    · rcases ph with ph | ph <;> simp [ph]
    · rcases ph with ph | ph <;> simp [ph]
  case finish d l np ph hd hl =>
    have hub : hostUsesEngine b = true := by rcases ph with ph | ph | ph <;> simp [hostUsesEngine, ph]
    have hr := hu hub
    refine ⟨.inr (.inr ⟨rfl, by simp [hostUsesEngine], hd⟩), by simp, by simp, fun h1 _ => .inl ⟨hr, ?_⟩, by simp [hostUsesEngine], .inl rfl⟩
    rcases ph with ph | ph | ph <;> simp [ph]

end Sys2Proof.Machine
end

