-- ==== Sys2Proof/Laws/PerInstr.lean ====
section
/-! SUPPORT. The family `Opcode`: the opcode and the length of every operation's encoding, as the opcode map
states them (R95, R97, R100). -/

namespace Sys2Proof.Laws.Opcode

/-- The `OP` column of R97 and of R100. -/
def opcodeOf : Instr → BitVec 4
  | .enqueue _ _ _ => 0x1
  | .drawrect _ _ _ _ _ => 0x2
  | .clearfb _ => 0x3
  | .start _ => 0x4
  | .stop => 0x5
  | .gethealth => 0x6
  | .getframecount => 0x7
  | .refreshifneeded _ => 0x8
  | .memwrite _ _ _ => 0x9
  | .memread _ _ => 0xA
  | .memxfer _ => 0xB
  | .memrefrow _ => 0xC
  | .memrefall => 0xD
  | .write _ _ _ => 0x9
  | .read _ _ => 0xA
  | .xfer _ => 0xB
  | .refrow _ => 0xC

/-- The `words` column of R97: DRAWRECT and REFRESHIFNEEDED alone have a second word. -/
def twoWords : Instr → Bool
  | .enqueue _ _ _ => false
  | .drawrect _ _ _ _ _ => true
  | .clearfb _ => false
  | .start _ => false
  | .stop => false
  | .gethealth => false
  | .getframecount => false
  | .refreshifneeded _ => true
  | .memwrite _ _ _ => false
  | .memread _ _ => false
  | .memxfer _ => false
  | .memrefrow _ => false
  | .memrefall => false
  | .write _ _ _ => false
  | .read _ _ => false
  | .xfer _ => false
  | .refrow _ => false

/-- The encoding carries the operation's opcode and length, and a one-word encoding has no second word. -/
def Statement (i : Instr) : Prop :=
  opField (encode i).1 = opcodeOf i ∧ hasSecondWord (encode i).1 = twoWords i ∧
    (twoWords i = false → (encode i).2 = 0)

theorem enqueue (x y : Coord) (color : Nibble) : Statement (.enqueue x y color) := by
  simp [Statement, encode, opcodeOf, twoWords, hasSecondWord]

theorem drawrect (x y w h : Coord) (color : Nibble) : Statement (.drawrect x y w h color) := by
  simp [Statement, encode, opcodeOf, twoWords, hasSecondWord]

theorem clearfb (color : Nibble) : Statement (.clearfb color) := by
  simp [Statement, encode, opcodeOf, twoWords, hasSecondWord]

theorem start (mode : BitVec 28) : Statement (.start mode) := by
  simp [Statement, encode, opcodeOf, twoWords, hasSecondWord]

theorem stop : Statement .stop := by
  simp [Statement, encode, opcodeOf, twoWords, hasSecondWord]

theorem gethealth : Statement .gethealth := by
  simp [Statement, encode, opcodeOf, twoWords, hasSecondWord]

theorem getframecount : Statement .getframecount := by
  simp [Statement, encode, opcodeOf, twoWords, hasSecondWord]

theorem refreshifneeded (now : Word) : Statement (.refreshifneeded now) := by
  simp [Statement, encode, opcodeOf, twoWords, hasSecondWord]

theorem memwrite (row col : Coord) (value : Nibble) : Statement (.memwrite row col value) := by
  simp [Statement, encode, opcodeOf, twoWords, hasSecondWord]

theorem memread (row col : Coord) : Statement (.memread row col) := by
  simp [Statement, encode, opcodeOf, twoWords, hasSecondWord]

theorem memxfer (row : Coord) : Statement (.memxfer row) := by
  simp [Statement, encode, opcodeOf, twoWords, hasSecondWord]

theorem memrefrow (row : Coord) : Statement (.memrefrow row) := by
  simp [Statement, encode, opcodeOf, twoWords, hasSecondWord]

theorem memrefall : Statement .memrefall := by
  simp [Statement, encode, opcodeOf, twoWords, hasSecondWord]

theorem write (row col : Coord) (value : Nibble) : Statement (.write row col value) := by
  simp [Statement, encode, opcodeOf, twoWords, hasSecondWord]

theorem read (row col : Coord) : Statement (.read row col) := by
  simp [Statement, encode, opcodeOf, twoWords, hasSecondWord]

theorem xfer (row : Coord) : Statement (.xfer row) := by
  simp [Statement, encode, opcodeOf, twoWords, hasSecondWord]

theorem refrow (row : Coord) : Statement (.refrow row) := by
  simp [Statement, encode, opcodeOf, twoWords, hasSecondWord]

end Sys2Proof.Laws.Opcode
end

