-- ==== Sys2Proof/Tests/Slice0.lean ====
section
/-! SUPPORT. The model's own tests. Every expected value is from the specification: the worked encodings of
R104, the vectors V1 to V82 and traces T1 and T2 of `95_test_vectors.md`, and the phase tables of R122
to R128. Last, for every statement that has hypotheses, states and operands that meet them. -/

namespace Sys2Proof.Tests

open Sys2Proof Sys2Proof.Machine

/-! ## Helpers -/

/-- The test holds of the next state. -/
def onNext (r : Result) (p : State → Bool) : Bool :=
  match r with
  | .next t => p t
  | .fault _ => false
  | .refused _ => false

/-- CFG-S after reset (R291). -/
def rest : State := State.reset

/-- CFG-8: the geometry of the D00 scenario, the open parameters from CFG-S. -/
def cfg8 : Config :=
  { Config.cfgS with width := 320, height := 240, dramRows := 512, dramCols := 512 }

/-- CFG-O of `95_test_vectors.md`. -/
def cfgO : Config :=
  { Config.cfgS with
    totalLines := 7, vBlankLines := 3, vFpLines := 1, vSyncLines := 1, vBpLines := 1
    linePeriod := 18, drainBudget := 1 }

/-- The block runs, in the back porch line of CFG-S. -/
def running : State :=
  { rest with
    host := { rest.host with running := true }
    line := { rest.line with currentLine := 1, hCount := 20 } }

/-- T1 at `t = 131`: line 2 has just entered its stream. -/
def streaming : State :=
  { rest with
    t := 132
    host := { rest.host with running := true }
    line := { rest.line with
      currentLine := 2, framebufferRow := 1, inVblank := false, hCount := 11
      phase := .stream, dwell := 1, sc := true, se := true }
    chip := { rest.chip with
      sam := [some 0, some 0xA, some 2, some 3], samPtr := 1, sd := some 0 } }

/-- T1 at `t = 122`: line 2 asks for the transfer of row 0. -/
def asking : State :=
  { rest with
    t := 123
    host := { rest.host with running := true }
    line := { rest.line with
      currentLine := 2, framebufferRow := 1, inVblank := false, hCount := 2, phase := .xfer }
    req := { rest.req with ls := some 0xB0000000 } }

/-- A command latched, its execution edge next. -/
def latched (i : Instr) (s : State) : State := placeCommand (encode i).1 (encode i).2 s

/-- The engine runs an operation, at the last cycle of the given phase. -/
def inPhase (p : EngPhase) (e : EngCtx) (s : State) : State :=
  { s with eng := { e with phase := p, dwell := 1 } }

/-! ## Well-formedness: an ill-formed term for each check -/

theorem test_start_mode_not_zero : (Instr.start 1).wellFormed cfg8 = false := by decide

theorem test_memwrite_row_outside : (Instr.memwrite 512 0 0).wellFormed cfg8 = false := by decide

theorem test_memwrite_col_outside : (Instr.memwrite 0 512 0).wellFormed cfg8 = false := by decide

theorem test_memread_row_outside : (Instr.memread 512 0).wellFormed cfg8 = false := by decide

theorem test_memread_col_outside : (Instr.memread 0 512).wellFormed cfg8 = false := by decide

theorem test_memxfer_row_outside : (Instr.memxfer 512).wellFormed cfg8 = false := by decide

theorem test_memrefrow_row_outside : (Instr.memrefrow 512).wellFormed cfg8 = false := by decide

theorem test_write_outside :
    (Instr.write 512 0 0).wellFormed cfg8 = false ∧ (Instr.write 0 512 0).wellFormed cfg8 = false := by
  decide

theorem test_read_outside :
    (Instr.read 512 0).wellFormed cfg8 = false ∧ (Instr.read 0 512).wellFormed cfg8 = false := by
  decide

theorem test_xfer_refrow_outside :
    (Instr.xfer 512).wellFormed cfg8 = false ∧ (Instr.refrow 512).wellFormed cfg8 = false := by
  decide

theorem test_well_formed_at_the_edges :
    (Instr.memwrite 511 511 0xF).wellFormed cfg8 = true ∧
    (Instr.enqueue 4095 4095 0xF).wellFormed cfg8 = true ∧ (Instr.start 0).wellFormed cfg8 = true := by
  decide

theorem test_config_geometry : ¬{ Config.cfgS with width := 5 }.GeometryOk := by decide

theorem test_config_lines : ¬{ Config.cfgS with totalLines := 4 }.LinesOk := by decide

theorem test_config_ring : ¬{ Config.cfgS with ringSlots := 1 }.RingOk := by decide

theorem test_config_line_budget : ¬cfgO.LineBudgetOk ∧ cfgO.BlankBudgetOk := by decide

theorem test_config_blank_budget : ¬{ Config.cfgS with drainBudget := 10 }.BlankBudgetOk := by decide

theorem test_config_retention : ¬{ Config.cfgS with retention := 467 }.RetentionOk := by decide

theorem test_config_strobes : ¬{ Config.cfgS with tRah := 3 }.StrobesOk := by decide

theorem test_config_ranges : ¬{ Config.cfgS with scHigh := 0 }.RangesOk := by decide

/-- The derived numbers of CFG-S that `95_test_vectors.md` gives. -/
theorem test_config_durations :
    Config.cfgS.tWrite = 10 ∧ Config.cfgS.tRead = 10 ∧ Config.cfgS.tXferOp = 8 ∧
    Config.cfgS.tRefrow = 7 ∧ Config.cfgS.WellFormed := by decide

/-! ## Decoding: V2, V4, V5 -/

theorem test_decode_enqueue :
    decode .host 0x100EF13F 0 = .ok (.enqueue 319 239 0) ∧
    decode .host 0x1FFFFFFF 0 = .ok (.enqueue 4095 4095 0xF) := by decide

theorem test_decode_drawrect :
    decode .host 0x230EE13E 0x00004004 = .ok (.drawrect 318 238 4 4 3) ∧
    decode .host 0x2F00A00A 0x01004004 = .error .mustBeZero := by decide

theorem test_decode_clearfb :
    decode .host 0x3F000000 0 = .ok (.clearfb 0xF) ∧
    decode .host 0x30000001 0 = .error .mustBeZero := by decide

theorem test_decode_start :
    decode .host 0x40000000 0 = .ok (.start 0) ∧ decode .host 0x40000001 0 = .error .mustBeZero := by
  decide

theorem test_decode_stop :
    decode .host 0x50000000 0 = .ok .stop ∧ decode .host 0x50000100 0 = .error .mustBeZero := by
  decide

theorem test_decode_gethealth :
    decode .host 0x60000000 0 = .ok .gethealth ∧ decode .host 0x60000001 0 = .error .mustBeZero := by
  decide

theorem test_decode_getframecount :
    decode .host 0x70000000 0 = .ok .getframecount ∧
    decode .host 0x71000000 0 = .error .mustBeZero := by decide

theorem test_decode_refreshifneeded :
    decode .host 0x80000000 0x000003E8 = .ok (.refreshifneeded 1000) ∧
    decode .host 0x80000001 0x000003E8 = .error .mustBeZero := by decide

/-- V5: no field is sign-extended, none is swapped. -/
theorem test_decode_memwrite : decode .host 0x9A1FF0FF 0 = .ok (.memwrite 511 255 0xA) := by decide

theorem test_decode_memread :
    decode .host 0xA000608A 0 = .ok (.memread 6 138) ∧
    decode .host 0xA100608A 0 = .error .mustBeZero := by decide

theorem test_decode_memxfer :
    decode .host 0xB0003000 0 = .ok (.memxfer 3) ∧
    decode .host 0xB0003001 0 = .error .mustBeZero := by decide

theorem test_decode_memrefrow :
    decode .host 0xC01FF000 0 = .ok (.memrefrow 511) ∧
    decode .host 0xC1003000 0 = .error .mustBeZero := by decide

theorem test_decode_memrefall :
    decode .host 0xD0000000 0 = .ok .memrefall ∧
    decode .host 0xD0000001 0 = .error .mustBeZero := by decide

theorem test_decode_reserved :
    decode .host 0x00000000 0 = .error .reservedOpcode ∧
    decode .host 0xE0000000 0 = .error .reservedOpcode ∧
    decode .host 0xF1234567 0 = .error .reservedOpcode ∧
    decode .host 0xFFFFFFFF 0 = .error .reservedOpcode := by decide

/-- The request words of V40 to V43. -/
theorem test_decode_requests :
    decode .engine 0x95002003 0 = .ok (.write 2 3 5) ∧
    decode .engine 0xA0002003 0 = .ok (.read 2 3) ∧
    decode .engine 0xB0001000 0 = .ok (.xfer 1) ∧
    decode .engine 0xC0003000 0 = .ok (.refrow 3) ∧
    decode .engine 0x10000000 0 = .error .notAnEngineRequest := by decide

/-- V5: the fields of a second word. -/
theorem test_second_word_fields :
    topField 0x00FFF001 = 0 ∧ hField 0x00FFF001 = 4095 ∧ wField 0x00FFF001 = 1 := by decide

/-- The table's numbering: the first word in bits 31:0, the second in bits 63:32. -/
theorem test_table_word :
    decodeTableWord 64 0x000040042F00A00A = some (.drawrect 10 10 4 4 0xF) ∧
    decodeTableWord 32 0x9F00608A = some (.memwrite 6 138 0xF) ∧
    decodeTableWord 32 0xE0000000 = none := by decide

/-! ## Addresses and lines: V10 to V16, V20 to V22 -/

theorem test_map_cfg8 :
    mapPixel cfg8 10 10 = (6, 138) ∧ mapPixel cfg8 191 1 = (0, 511) ∧ mapPixel cfg8 192 1 = (1, 0) ∧
    mapPixel cfg8 319 239 = (149, 511) ∧ mapPixel cfg8 5 5 = (3, 69) := by decide

theorem test_map_cfgS : mapPixel Config.cfgS 2 1 = (1, 2) := by decide

theorem test_active_lines :
    (List.range 10).map (activeLine { cfgO with totalLines := 10, height := 5 }) =
      [false, false, false, true, true, true, true, true, false, false] ∧
    (List.range 6).map (activeLine Config.cfgS) = [false, false, true, true, true, false] := by decide

/-- The classes of CFG-O. -/
theorem test_line_classes :
    (List.range 7).map (lineClass cfgO) =
      [.frontPorch, .syncPulse, .backPorch, .active, .active, .active, .frontPorch] := by decide

/-! ## Host commands, one step each -/

/-- V30: the write index wraps. -/
theorem test_enqueue_wraps :
    onNext (exec (.enqueue 3 2 0xF)
      { rest with
        cfg := { Config.cfgS with ringSlots := 8 }
        host := { rest.host with ring := List.replicate 8 PixelUpdate.zero, writeIndex := 7 }
        frame := { rest.frame with readIndex := 3 } })
      (fun t => t.host.writeIndex == 0 && ringAt t 7 == ⟨3, 2, 0xF⟩ && t.host.rspStatus == .ok) =
    true := by decide

/-- V32, V31: on a full ring the bounds check comes first, and sets no flag. -/
theorem test_enqueue_full :
    onNext (exec (.enqueue 3 2 1) { rest with host := { rest.host with writeIndex := 3 } })
      (fun t => t.host.rspStatus == .fail && t.health == ⟨true, false⟩ && t.host.writeIndex == 3) =
    true ∧
    onNext (exec (.enqueue 4 0 1) { rest with host := { rest.host with writeIndex := 3 } })
      (fun t => t.host.rspStatus == .fail && t.health == ⟨false, false⟩) = true := by decide

/-- V37: `w = 0` performs no step. -/
theorem test_drawrect_empty :
    onNext (exec (.drawrect 1 1 0 4 0xF) rest)
      (fun t => t.host.rspValid && t.host.rspStatus == .ok && t.host.phase == .idle &&
        t.host.writeIndex == 0) = true := by decide

/-- V38, its second step: pixel (1, 0). -/
theorem test_drawrect_step :
    onNext (step { rest with host := { rest.host with
      phase := .rect, cmd := 0x21000000, arg := 0x00003003, i := 1, writeIndex := 1 } })
      (fun t => ringAt t 1 == ⟨1, 0, 1⟩ && t.host.writeIndex == 2 && t.host.i == 2 &&
        t.host.j == 0 && t.host.phase == .rect) = true := by decide

/-- V39: the first WRITE of the sweep; refused while running. -/
theorem test_clearfb :
    onNext (exec (.clearfb 0xC) rest)
      (fun t => t.req.hs == some 0x9C000000 && t.host.phase == .clear) = true ∧
    onNext (exec (.clearfb 0xC) running)
      (fun t => t.host.rspStatus == .refused && t.req == running.req) = true := by decide

/-- V39: the sweep's order, from the last cell of row 0 to the first of row 1. -/
theorem test_clearfb_next :
    (clearNext { rest with host := { rest.host with
      phase := .clear, cmd := 0x3C000000, i := 3, j := 0 } }).req.hs = some 0x9C001000 := by decide

/-- T1 at `t = 0`. -/
theorem test_start :
    onNext (exec (.start 0)
      { rest with host := { rest.host with
        ring := [⟨1, 0, 0xA⟩, ⟨3, 2, 5⟩, ⟨0, 0, 0⟩, ⟨0, 0, 0⟩], writeIndex := 2 } })
      (fun t => t.host.running && t.line.currentLine == 0 && t.line.inVblank && t.line.vsync &&
        t.line.hsync && t.line.frameCount == 0 && t.frame.readIndex == 1 &&
        t.req.fs == some 0x9A000001) = true := by decide

/-- V72: a second START is refused and disturbs nothing. -/
theorem test_start_refused :
    onNext (exec (.start 0) running)
      (fun t => t.host.rspStatus == .refused && t.line == running.line) = true := by decide

/-- V72: nothing to do while stopped. -/
theorem test_stop_stopped :
    onNext (exec .stop rest) (fun t => t.host.rspValid && t.host.rspStatus == .ok) = true := by decide

/-- V73: STOP at a wrap edge; the tick is not taken and raises no flag. -/
theorem test_stop_at_wrap :
    onNext (step (latched .stop { running with line := { running.line with hCount := 59 } }))
      (fun t => t.host.phase == .stopwait && t.line.currentLine == 1 && t.line.hCount == 0 &&
        t.health == ⟨false, false⟩) = true := by decide

/-- V70: both flags set. -/
theorem test_gethealth :
    onNext (exec .gethealth { rest with health := ⟨true, true⟩ })
      (fun t => t.host.rspData == 3 && t.health == ⟨false, false⟩) = true ∧
    onNext (exec .gethealth { rest with health := ⟨false, true⟩ })
      (fun t => t.host.rspData == 2) = true := by decide

/-- V71: the tick sets the flag at the edge GETHEALTH clears it. -/
theorem test_gethealth_against_tick :
    onNext (step (latched .gethealth { streaming with line := { streaming.line with hCount := 59 } }))
      (fun t => t.host.rspData == 0 && t.health == ⟨false, true⟩ && t.line.tickPending) = true := by
  decide

theorem test_getframecount :
    onNext (exec .getframecount { running with line := { running.line with frameCount := 7 } })
      (fun t => t.host.rspData == 7 && t.host.rspStatus == .ok) = true := by decide

/-- V51: 499 does nothing, 500 refreshes. -/
theorem test_refreshifneeded :
    onNext (exec (.refreshifneeded 499) rest)
      (fun t => t.host.rspValid && t.host.rspData == 0 && t.req.hs == none) = true ∧
    onNext (exec (.refreshifneeded 500) rest)
      (fun t => t.host.phase == .refall && t.req.hs == some 0xC0000000 && !t.host.rspValid) = true := by
  decide

/-- V52: `now` wraps. -/
theorem test_refreshifneeded_wraps :
    onNext (exec (.refreshifneeded 0x100)
      { rest with host := { rest.host with lastRefreshTime := 0xFFFFFF00 } })
      (fun t => t.host.phase == .refall) = true ∧
    onNext (exec (.refreshifneeded 0x10)
      { rest with host := { rest.host with lastRefreshTime := 0xFFFFFF00 } })
      (fun t => t.host.phase == .idle && t.host.rspData == 0) = true := by decide

/-- V3: the word is passed on unchanged; refused while running; illegal before refused (V4). -/
theorem test_memwrite :
    onNext (exec (.memwrite 2 1 7) rest)
      (fun t => t.req.hs == some 0x97002001 && t.host.phase == .memop) = true ∧
    onNext (exec (.memwrite 2 1 7) running) (fun t => t.host.rspStatus == .refused) = true ∧
    onNext (exec (.memwrite 4 1 7) running) (fun t => t.host.rspStatus == .illegal) = true := by decide

theorem test_memread :
    onNext (exec (.memread 2 1) rest) (fun t => t.req.hs == some 0xA0002001) = true ∧
    onNext (exec (.memread 2 4) rest) (fun t => t.host.rspStatus == .illegal) = true := by decide

/-- V3: the answer of MEMREAD at `done`. -/
theorem test_memread_answer :
    onNext (step (inPhase .rd5 ⟨.idle, .read, 2, 1, 0xF, 0, .hs⟩
      { rest with host := { rest.host with phase := .memop, cmd := 0xA0002001 } }))
      (fun t => t.host.rspValid && t.host.rspStatus == .ok && t.host.rspData == 0xF &&
        t.host.phase == .idle && t.eng.phase == .idle) = true := by decide

theorem test_memxfer :
    onNext (exec (.memxfer 3) rest) (fun t => t.req.hs == some 0xB0003000) = true ∧
    onNext (exec (.memxfer 4) rest) (fun t => t.host.rspStatus == .illegal) = true := by decide

theorem test_memrefrow :
    onNext (exec (.memrefrow 3) rest) (fun t => t.req.hs == some 0xC0003000) = true ∧
    onNext (exec (.memrefrow 3) running) (fun t => t.host.rspStatus == .refused) = true := by decide

/-- V53. -/
theorem test_memrefall :
    onNext (exec .memrefall rest)
      (fun t => t.req.hs == some 0xC0000000 && t.host.phase == .refall) = true ∧
    onNext (exec .memrefall running) (fun t => t.host.rspStatus == .refused) = true := by decide

/-- V50: the loop's order, and its end. -/
theorem test_memrefall_next :
    (refallNext { rest with host := { rest.host with
      phase := .refall, cmd := 0xD0000000, j := 2 } }).req.hs = some 0xC0003000 ∧
    (refallNext { rest with host := { rest.host with
      phase := .refall, cmd := 0xD0000000, j := 3 } }).host.rspValid = true := by decide

/-- V4: a reserved word answers ILLEGAL. -/
theorem test_reserved_word :
    onNext (step (placeCommand 0xF1234567 0 rest))
      (fun t => t.host.rspValid && t.host.rspStatus == .illegal && t.host.rspData == 0) = true := by
  decide

/-! ## Engine requests: V40 to V43 -/

/-- V40, edge 1: the grant. -/
theorem test_write_grant :
    onNext (step { rest with req := { rest.req with hs := some 0x95002003 } })
      (fun t => t.eng.phase == .wr0 && t.eng.row == 2 && t.eng.col == 3 && t.eng.val == 5 &&
        t.pins.addr == 2 && !t.pins.ras && t.req.hs == none) = true := by decide

/-- V40, edge 5: the cell is stored at the end of WR2. -/
theorem test_write_stores :
    onNext (step (inPhase .wr2 ⟨.idle, .write, 2, 3, 5, 0, .hs⟩ rest))
      (fun t => cellAt t 2 3 == some 5 && cellAt t 3 2 == none && t.eng.phase == .wr3) = true := by
  decide

/-- V40, edges 3 and 4: the column address after `T_RAH`, then the strobes of WR2. -/
theorem test_write_strobes :
    onNext (step { rest with eng := ⟨.wr1, .write, 2, 3, 5, 2, .hs⟩ })
      (fun t => t.pins.addr == 3 && t.eng.phase == .wr1) = true ∧
    onNext (step (inPhase .wr1 ⟨.idle, .write, 2, 3, 5, 0, .hs⟩ rest))
      (fun t => t.pins.cas && t.pins.we && t.pins.dqDrive && t.pins.dq == 5) = true := by decide

/-- V41, edge 6: the sample at the end of RD2, of a defined cell. -/
theorem test_read_samples :
    onNext (step (inPhase .rd2 ⟨.idle, .read, 2, 3, 0, 0, .hs⟩
      { rest with chip := { rest.chip with cells := [(11, 5)] } }))
      (fun t => t.eng.val == 5 && !t.pins.oe && t.eng.phase == .rd3) = true := by decide

/-- V41, edge 4. -/
theorem test_read_strobes :
    onNext (step (inPhase .rd1 ⟨.idle, .read, 2, 3, 0, 0, .hs⟩ rest))
      (fun t => t.pins.cas && t.pins.oe && !t.pins.we && !t.pins.dqDrive) = true := by decide

/-- V42, edge 5: the row is in the SAM, an `UNDEF` cell as `UNDEF`. -/
theorem test_xfer_loads :
    onNext (step (inPhase .xf2 ⟨.idle, .xfer, 1, 0, 0, 0, .ls⟩
      { rest with chip := { rest.chip with
        cells := [(4, 4), (5, 5), (7, 7), (8, 8)], samPtr := 3 } }))
      (fun t => t.chip.sam == [some 4, some 5, none, some 7] && t.chip.samPtr == 0 &&
        !t.pins.trg) = true := by decide

/-- V43, edge 2: the stamp at the row strobe, the column strobe already asserted. -/
theorem test_refrow_stamps :
    onNext (step (inPhase .rf0 ⟨.idle, .refrow, 3, 0, 0, 0, .fs⟩
      { rest with t := 2, pins := { rest.pins with cas := true } }))
      (fun t => t.chip.rowStamp == [0, 0, 0, 2] && t.pins.ras && t.pins.cas) = true := by decide

/-- V45: of two lines raised, the line sequencer's is granted. -/
theorem test_arbitration :
    onNext (step { rest with req := ⟨some 0xB0001000, some 0x95002003, none⟩ })
      (fun t => t.eng.op == .xfer && t.eng.owner == .ls && t.req.ls == none &&
        t.req.fs == some 0x95002003) = true := by decide

/-- R67: outside the array the model refuses. -/
theorem test_engine_refuses :
    (match exec (.write 4 0 0) rest with | .refused .addressOutsideArray => true | _ => false) =
    true := by decide

/-! ## Events and reset -/

/-- T1 at `t = 122` and `t = 131`: the transfer request and the first pulse. -/
theorem test_active_line :
    onNext (step { asking with
      line := { asking.line with framebufferRow := 0, hCount := 1, phase := .hsync, dwell := 1 }
      req := Requests.none })
      (fun t => t.req.ls == some 0xB0000000 && t.line.framebufferRow == 1 && !t.line.hsync) = true ∧
    onNext (step { streaming with
      line := { streaming.line with phase := .bp, se := false, sc := false }
      chip := { streaming.chip with samPtr := 0, sd := none } })
      (fun t => video t == some (some 0) && t.line.sc && t.chip.samPtr == 1) = true := by decide

/-- T1 at `t = 360`: the frame boundary. -/
theorem test_frame_boundary :
    onNext (step { running with line := { running.line with currentLine := 5, hCount := 59 } })
      (fun t => t.line.currentLine == 0 && t.line.frameCount == 1 && t.line.vsync &&
        t.frame.phase == .refresh && t.req.fs == some 0xC0000000) = true := by decide

/-- T2 at `t = 72` and V25 at `t = 45`: a tick is held, a second one lost. -/
theorem test_overrun :
    onNext (step { streaming with line := { streaming.line with hCount := 59 } })
      (fun t => t.line.tickPending && t.health.violation && t.line.currentLine == 2) = true ∧
    onNext (step { streaming with
      line := { streaming.line with hCount := 59, tickPending := true } })
      (fun t => t.line.tickPending && t.line.currentLine == 2) = true := by decide

/-- T1 at `t = 10`: the second pop. -/
theorem test_drain_pop :
    (drainDecision 2 { rest with
      host := { rest.host with ring := [⟨1, 0, 0xA⟩, ⟨3, 2, 5⟩, ⟨0, 0, 0⟩, ⟨0, 0, 0⟩] }
      frame := { rest.frame with phase := .drain, drained := 1, readIndex := 1 } }).req.fs =
    some 0x95002003 := by decide

/-- V82: a reset in mid-operation, and one with the engine idle. -/
theorem test_reset_edge :
    onNext (step { inPhase .wr2 ⟨.idle, .write, 2, 3, 5, 0, .fs⟩ running with
      inputs := [⟨true, false, 0⟩]
      chip := { rest.chip with cells := [(1, 0xA)] } })
      (fun t => cellAt t 0 1 == none && t.eng.phase == .idle && !t.host.running) = true ∧
    onNext (step { running with
      inputs := [⟨true, false, 0⟩]
      chip := { rest.chip with cells := [(1, 0xA)] } })
      (fun t => cellAt t 0 1 == some 0xA && t.line == LineCtx.reset) = true := by decide

/-- R95: the two words of a command are latched at two edges, and executed at the third. -/
theorem test_two_words :
    onNext (step { rest with inputs := [⟨false, true, 0x2F00A00A⟩] })
      (fun t => t.host.phase == .word2 && !t.host.pending) = true ∧
    onNext (step { rest with
      inputs := [⟨false, true, 0x00004004⟩]
      host := { rest.host with phase := .word2, cmd := 0x2F00A00A } })
      (fun t => t.host.phase == .idle && t.host.pending && t.host.arg == 0x00004004) = true := by
  decide

/-- The word placed is the one the next step runs. -/
theorem test_placed_word :
    onNext (step (rest.withFetchWord 32 0x1F001002))
      (fun t => ringAt t 0 == ⟨2, 1, 0xF⟩ && t.host.rspStatus == .ok) = true := by decide

/-- MEMREAD(2, 1) at its `done`, the word of a GETHEALTH held behind it. -/
def holding : State :=
  inPhase .rd5 ⟨.idle, .read, 2, 1, 0xF, 0, .hs⟩ { rest with
    host := { rest.host with phase := .memop, cmd := 0xA0002001, held := some 0x60000000 } }

/-- A word transferred at the edge CLEARFB begins is held, and latched at the edge an operation of the
host sequencer ends (log 6). -/
theorem test_word_held :
    onNext (step { latched (.clearfb 3) rest with inputs := [⟨false, true, 0x60000000⟩] })
      (fun t => t.host.held == some 0x60000000 && t.host.phase == .clear && !t.host.pending) = true ∧
    onNext (step holding)
      (fun t => t.host.rspValid && t.host.rspData == 0xF && t.host.held == none &&
        t.host.pending && t.host.cmd == 0x60000000) = true := by decide

/-- R9, U16, U4: an ill-formed geometry is refused, and so is a strobe-width constraint that fails. -/
theorem test_rejected_configurations :
    (match step { rest with cfg := { Config.cfgS with width := 5 } } with
      | .refused .illFormedGeometry => true
      | _ => false) = true ∧
    (match step { rest with cfg := { Config.cfgS with tRah := 3 } } with
      | .refused .protocolTimingDefect => true
      | _ => false) = true := by decide

/-- R241, R167: STOP accepted within the pulse of the vertical sync line leaves the registers to the line in
progress, both outputs being 0; the pulse ends in its time, and VSYNC falls with the answer. -/
theorem test_stop_in_sync_pulse :
    onNext (step (latched .stop { running with line := { running.line with
      currentLine := 0, hCount := 0, phase := .hsync, dwell := 2, hsync := true, vsync := true } }))
      (fun t => t.line.hsync && t.line.vsync && !hsyncOut t && !vsyncOut t) = true ∧
    onNext (step { rest with
      host := { rest.host with phase := .stopwait }
      line := { rest.line with phase := .hsync, dwell := 1, hsync := true, vsync := true } })
      (fun t => !t.line.hsync && t.line.vsync && t.line.phase == .idle && !t.host.rspValid) = true ∧
    onNext (step { rest with
      host := { rest.host with phase := .stopwait }
      line := { rest.line with vsync := true } })
      (fun t => !t.line.vsync && t.host.rspValid) = true := by decide

/-- R134: `DQ` carries the value to be written in WR2, the cell in RD2, and nothing is driven in WR4. -/
theorem test_data_bus :
    dqBus (inPhase .wr2 ⟨.idle, .write, 2, 3, 5, 0, .hs⟩ { rest with
      pins := ⟨true, true, true, false, false, 3, true, 5⟩ }) = some 5 ∧
    dqBus (inPhase .rd2 ⟨.idle, .read, 2, 3, 0, 0, .hs⟩ { rest with
      pins := ⟨true, true, false, true, false, 3, false, 0⟩
      chip := { rest.chip with cells := [(11, 7)] } }) = some 7 ∧
    dqBus (inPhase .wr4 ⟨.idle, .write, 2, 3, 5, 0, .hs⟩ rest) = none := by decide

/-! ## Witnesses: states and operands that meet the hypotheses of each statement, clause by clause -/

/-- A state meets the ring invariants when these checks pass. -/
theorem ringInv_of {s : State} (h : s.host.ring.length = s.cfg.ringSlots ∧
    s.host.writeIndex < s.cfg.ringSlots ∧ s.frame.readIndex < s.cfg.ringSlots)
    (hl : ∀ k, k < occupancy s.cfg s.host.writeIndex s.frame.readIndex →
      inBounds s.cfg (liveEntry s k).x.toNat (liveEntry s k).y.toNat = true) : RingInv s :=
  ⟨h.1, h.2.1, h.2.2, hl⟩

/-- T1 at `t = 0`, before START: two entries queued. -/
def queued : State :=
  { rest with host := { rest.host with
    ring := [⟨1, 0, 0xA⟩, ⟨3, 2, 5⟩, ⟨0, 0, 0⟩, ⟨0, 0, 0⟩], writeIndex := 2 } }

/-- T1 at `t = 10`: the drain of the second entry begins. -/
def draining : State :=
  { queued with
    t := 11
    host := { queued.host with running := true }
    line := { rest.line with hCount := 10, vsync := true }
    frame := { rest.frame with phase := .drain, drained := 2, readIndex := 2, entry := ⟨3, 2, 5⟩ }
    req := { rest.req with fs := some 0x95002003 } }

/-- MEMWRITE(2, 3, 5) waits for its engine operation, which is in WR2. -/
def writing : State :=
  { rest with
    host := { rest.host with phase := .memop, cmd := 0x95002003 }
    eng := ⟨.wr2, .write, 2, 3, 5, 1, .hs⟩
    pins := ⟨true, true, true, false, false, 3, true, 5⟩ }

theorem test_ring_rest : RingInv rest := ringInv_of (by decide) (by decide)

theorem test_ring_queued : RingInv queued := ringInv_of (by decide) (by decide)

theorem test_ring_draining : RingInv draining := ringInv_of (by decide) (by decide)

theorem test_safe_rest : SafeInv rest :=
  ⟨by decide, by decide, by decide, test_ring_rest, by decide, by decide, by decide, by decide, by decide⟩

theorem test_safe_draining : SafeInv draining :=
  ⟨by decide, by decide, by decide, test_ring_draining, by decide, by decide, by decide, by decide, by decide⟩

theorem test_safe_asking : SafeInv asking :=
  ⟨by decide, by decide, by decide, ringInv_of (by decide) (by decide), by decide, by decide, by decide,
    by decide, by decide⟩

theorem test_safe_writing : SafeInv writing :=
  ⟨by decide, by decide, by decide, ringInv_of (by decide) (by decide), by decide, by decide, by decide,
    by decide, by decide⟩

/-- A state meets the requesters' discipline when these checks pass. -/
theorem agentsInv_of {s : State}
    (h1 : inFlight s.req.ls .ls s = (decide (s.line.phase = .xfer)).toNat ∧
      inFlight s.req.fs .fs s = (decide (s.frame.phase ≠ .idle)).toNat ∧
      inFlight s.req.hs .hs s = (hostUsesEngine s).toNat)
    (h2 : (s.host.pending = true → s.host.phase = .idle) ∧
      (s.host.phase = .stopwait → s.host.running = false) ∧
      (hostUsesEngine s = true → s.host.running = false) ∧
      (s.host.running = false → s.host.phase ≠ .stopwait →
        s.line.phase = .idle ∧ s.frame.phase = .idle) ∧
      (s.host.held ≠ none → cmdReady false s = false))
    (h3 : (s.req.ls.all fun w => requestOp w = some .xfer) = true ∧
      (s.req.fs.all fun w => requestOp w = some .write ∨ requestOp w = some .refrow) = true)
    (h4 : (s.eng.phase ≠ .idle → phaseOp s.eng.phase = some s.eng.op) ∧
      (busyWith .ls s = true → s.eng.op = .xfer) ∧
      (busyWith .fs s = true → s.eng.op = .write ∨ s.eng.op = .refrow)) : AgentsInv s :=
  ⟨h1.1, h1.2.1, h1.2.2, h2.1, h2.2.1, h2.2.2.1, h2.2.2.2.1,
    fun w h => by simpa [h] using h3.1, fun w h => by simpa [h] using h3.2,
    h4.1, h4.2.1, h4.2.2, h2.2.2.2.2⟩

theorem test_agents_rest : AgentsInv rest :=
  agentsInv_of (by decide) (by decide) (by decide) (by decide)

theorem test_agents_draining : AgentsInv draining :=
  agentsInv_of (by decide) (by decide) (by decide) (by decide)

theorem test_agents_asking : AgentsInv asking :=
  agentsInv_of (by decide) (by decide) (by decide) (by decide)

theorem test_agents_writing : AgentsInv writing :=
  agentsInv_of (by decide) (by decide) (by decide) (by decide)

theorem test_line_asking : LineInv asking :=
  ⟨by decide, by decide, by decide, by decide, by decide, by decide, by decide, by decide, by decide,
    by decide, by decide, by decide⟩

theorem test_line_streaming : LineInv streaming :=
  ⟨by decide, by decide, by decide, by decide, by decide, by decide, by decide, by decide, by decide,
    by decide, by decide, by decide⟩

theorem test_line_draining : LineInv draining :=
  ⟨by decide, by decide, by decide, by decide, by decide, by decide, by decide, by decide, by decide,
    by decide, by decide, by decide⟩

theorem test_pins_writing : PinInv writing := ⟨by decide, by decide, by decide, by decide⟩

theorem test_stamps_rest (r : Nat) : stampAt rest r = 0 := by
  match r with
  | 0 | 1 | 2 | 3 => rfl
  | _ + 4 => rfl

theorem test_chip_writing : ChipInv writing :=
  ⟨by decide, by decide, by decide, by decide, by decide,
    fun r => Nat.le_of_eq (test_stamps_rest r), by decide⟩

/-- The frame sequencer's refresh of row 1: its REFROW is granted, the row strobe comes next. -/
def refreshing : State :=
  { draining with
    frame := { draining.frame with phase := .refresh, row := 2 }
    req := Requests.none
    eng := ⟨.rf0, .refrow, 1, 0, 0, 1, .fs⟩
    pins := { rest.pins with cas := true, addr := 1 } }

/-- START latched with two entries queued, its execution edge next. -/
def starting : State := latched (.start 0) queued

/-- A state is on time when these checks pass. -/
theorem onTime_of {s : State} (hs : SafeInv s) (ha : AgentsInv s) (hl : LineInv s)
    (h : s.cfg.WellFormed ∧ (s.eng.phase ≠ .idle → 1 ≤ s.eng.dwell) ∧
      (s.line.phase ≠ .idle → s.line.phase ≠ .xfer → 1 ≤ s.line.dwell))
    (hr : s.host.running = true → s.line.tickPending = false ∧
      lineRemaining s + s.line.hCount ≤ s.cfg.linePeriod ∧
      (s.frame.phase ≠ .idle → frameRemaining s + frameElapsed s ≤ frameRunTime s.cfg))
    (hf : s.frame.phase = .refresh → 1 ≤ s.frame.row ∧ s.frame.row ≤ s.cfg.dramRows ∧
      (s.req.fs.all fun w => w = refrowRequest (s.frame.row - 1)) = true ∧
      (busyWith .fs s = true → s.eng.op = .refrow ∧ s.eng.row = s.frame.row - 1)) : OnTime s :=
  ⟨h.1, hs, ha, hl, h.2.1, h.2.2, fun r => (hr r).1, fun r => (hr r).2.1, fun r => (hr r).2.2,
    fun f => ⟨(hf f).1, (hf f).2.1⟩, fun f w hw => by simpa [hw] using (hf f).2.2.1,
    fun f => (hf f).2.2.2⟩

theorem test_onTime_asking : OnTime asking :=
  onTime_of test_safe_asking test_agents_asking test_line_asking (by decide) (by decide) (by decide)

theorem test_onTime_draining : OnTime draining :=
  onTime_of test_safe_draining test_agents_draining test_line_draining (by decide) (by decide)
    (by decide)

theorem test_onTime_streaming : OnTime streaming :=
  onTime_of
    ⟨by decide, by decide, by decide, ringInv_of (by decide) (by decide), by decide, by decide, by decide,
      by decide, by decide⟩
    (agentsInv_of (by decide) (by decide) (by decide) (by decide))
    test_line_streaming (by decide) (by decide) (by decide)

theorem test_onTime_refreshing : OnTime refreshing :=
  onTime_of
    ⟨by decide, by decide, by decide, ringInv_of (by decide) (by decide), by decide, by decide, by decide,
      by decide, by decide⟩
    (agentsInv_of (by decide) (by decide) (by decide) (by decide))
    ⟨by decide, by decide, by decide, by decide, by decide, by decide, by decide, by decide,
      by decide, by decide, by decide, by decide⟩
    (by decide) (by decide) (by decide)

theorem test_onTime_starting : OnTime starting :=
  onTime_of
    ⟨by decide, by decide, by decide, ringInv_of (by decide) (by decide), by decide, by decide, by decide,
      by decide, by decide⟩
    (agentsInv_of (by decide) (by decide) (by decide) (by decide))
    ⟨by decide, by decide, by decide, by decide, by decide, by decide, by decide, by decide,
      by decide, by decide, by decide, by decide⟩
    (by decide) (by decide) (by decide)

theorem test_chip_draining : ChipInv draining :=
  ⟨by decide, by decide, by decide, by decide, by decide,
    fun r => (Nat.le_of_eq (test_stamps_rest r)).trans (Nat.zero_le _), by decide⟩

theorem test_chip_refreshing : ChipInv refreshing :=
  ⟨by decide, by decide, by decide, by decide, by decide,
    fun r => (Nat.le_of_eq (test_stamps_rest r)).trans (Nat.zero_le _), by decide⟩

theorem test_chip_starting : ChipInv starting :=
  ⟨by decide, by decide, by decide, by decide, by decide,
    fun r => Nat.le_of_eq (test_stamps_rest r), by decide⟩

/-- The last edge before the first active line: the frame sequencer may be busy until exactly then. -/
theorem test_onTime_at_the_limit :
    frameRemaining draining + frameElapsed draining ≤ frameRunTime Config.cfgS ∧
    frameRunTime Config.cfgS ≤ Config.cfgS.vBlankLines * Config.cfgS.linePeriod := by decide

theorem test_witness_DecodeOfEncode :
    (Instr.drawrect 4095 4095 4095 4095 0xF).encodable = true ∧ (Instr.start 0).encodable = true ∧
    (Instr.write 4095 4095 0xF).encodable = true := by decide

theorem test_witness_EncodeOfDecode :
    decode .host 0x2FFFFFFF 0x00FFFFFF = .ok (.drawrect 4095 4095 4095 4095 0xF) ∧
    hasSecondWord 0x2FFFFFFF = true ∧ decode .engine 0x9FFFFFFF 0 = .ok (.write 4095 4095 0xF) := by
  decide

theorem test_witness_ReservedOpcodeAnswersIllegal :
    (placeCommand 0 0 rest).cfg.Admitted ∧
    opField (placeCommand 0 0 rest).host.cmd = 0x0 ∧
    opField (placeCommand 0xE0000000 0 rest).host.cmd = 0xE ∧
    opField (placeCommand 0xFFFFFFFF 0 rest).host.cmd = 0xF ∧
    decode .host (placeCommand 0x30000001 0 rest).host.cmd
      (placeCommand 0x30000001 0 rest).host.arg = .error .mustBeZero := by decide

/-- The host sequencer idle, in `HS_WORD2`, at an execution edge that ends or begins a multi-cycle
command, and in a multi-cycle command with nothing and with a word held, at whose edge it ends or not. -/
theorem test_witness_CommandLength :
    rest.cfg.Admitted ∧
    ((PinIn.mk false true 0x80000000).cmdValid = true ∧ rest.host.pending = false ∧
      rest.host.held = none ∧ rest.host.phase = .idle) ∧
    (opField 0x80000000 = 0x8 ∧ opField 0x2F00A00A = 0x2 ∧
      ¬(opField 0x1F00A00A = 0x2 ∨ opField 0x1F00A00A = 0x8)) ∧
    { rest with host := { rest.host with phase := .word2 } }.host.phase = .word2 ∧
    ((latched (.clearfb 3) rest).host.pending = true ∧
      (latched (.clearfb 3) rest).host.phase = .idle ∧
      (latched (.clearfb 3) rest).host.held = none) ∧
    onNext (executeCommand (latched (.clearfb 3) rest)) (fun h => !cmdReady false h) = true ∧
    onNext (executeCommand (latched .gethealth rest)) (fun h => cmdReady false h) = true ∧
    (writing.host.pending = false ∧ cmdReady false writing = false ∧ writing.host.held = none ∧
      cmdReady false (hostPhaseStep writing) = false) ∧
    (holding.host.pending = false ∧ holding.host.held = some 0x60000000 ∧
      cmdReady false holding = false ∧ cmdReady false (hostPhaseStep holding) = true) := by decide

theorem test_witness_StepRunsLatchedCommand :
    (latched .stop rest).cfg.Admitted ∧
    (latched .stop rest).host.pending = true ∧ (pinsNow (latched .stop rest)).rst = false ∧
    decode .host (latched .stop rest).host.cmd (latched .stop rest).host.arg = .ok .stop ∧
    decodeTableWord 32 0x50000000 = some .stop := by decide

/-- From an idle engine, and at the edge an operation ends. -/
theorem test_witness_EngineRunsWinningRequest :
    asking.cfg.Admitted ∧
    (engineAdvance asking).eng.phase = .idle ∧ winningRequest asking.req = some 0xB0000000 ∧
    decode .engine 0xB0000000 0 = .ok (.xfer 0) ∧
    (engineAdvance (inPhase .wr6 ⟨.idle, .write, 2, 3, 5, 0, .fs⟩ asking)).eng.phase = .idle := by
  decide

theorem test_witness_RequestWords : 4095 < 4096 ∧ 0 < 4096 := by decide

/-- Out of bounds, full and stored, each at its boundary. -/
theorem test_witness_EnqueueEffect :
    rest.cfg.Admitted ∧
    ¬((4 : Coord).toNat < rest.cfg.width ∧ (2 : Coord).toNat < rest.cfg.height) ∧
    ((3 : Coord).toNat < rest.cfg.width ∧ (2 : Coord).toNat < rest.cfg.height) ∧
    0 = (if 3 + 1 = rest.cfg.ringSlots then 0 else 3 + 1) ∧ 0 = rest.frame.readIndex ∧
    1 = (if rest.host.writeIndex + 1 = rest.cfg.ringSlots then 0 else rest.host.writeIndex + 1) ∧
    1 ≠ rest.frame.readIndex := by decide

theorem test_witness_DrawrectEffect :
    rest.cfg.Admitted ∧
    (0 : Coord) = 0 ∧ (1 : Coord) ≠ 0 ∧ (4095 : Coord) ≠ 0 ∧ 0 < (1 : Coord).toNat * (1 : Coord).toNat ∧
    { rest with host := { rest.host with phase := .rect } }.host.phase = .rect ∧
    rest.host.pending = false ∧ rest.host.held = none := by decide

theorem test_witness_ClearfbEffect :
    rest.cfg.Admitted ∧
    running.host.running = true ∧ rest.host.running = false ∧ 1 ≤ rest.cfg.dramRows ∧
    1 ≤ rest.cfg.dramCols ∧ rest.cfg.dramRows ≤ 4096 ∧ rest.cfg.dramCols ≤ 4096 ∧
    15 < rest.cfg.dramRows * rest.cfg.dramCols ∧
    { rest with host := { rest.host with phase := .clear } }.host.phase = .clear ∧
    rest.host.pending = false ∧ rest.host.held = none := by decide

theorem test_witness_StartEffect :
    rest.cfg.Admitted ∧
    (1 : BitVec 28) ≠ 0 ∧ running.host.running = true ∧ rest.host.running = false := by decide

/-- STOP: stopped, running, the wait's two cases, and its own step. -/
theorem test_witness_StopEffect :
    (rest.cfg.Admitted ∧ rest.host.running = false ∧ running.host.running = true) ∧
    (∃ s : State, s.cfg.Admitted ∧ s.host.pending = false ∧ s.host.held = none ∧ s.host.phase = .stopwait ∧
      s.line.phase = .idle ∧ s.frame.phase = .idle ∧ s.eng.phase = .idle) ∧
    (∃ s : State, s.cfg.Admitted ∧ s.host.pending = false ∧ s.host.held = none ∧
      s.host.phase = .stopwait ∧ ¬(s.line.phase = .idle ∧ s.frame.phase = .idle ∧ s.eng.phase = .idle)) ∧
    (∃ s t : State, s.host.pending = true ∧ s.host.running = true ∧ (pinsNow s).rst = false ∧
      decode .host s.host.cmd s.host.arg = .ok .stop ∧ step s = .next t) ∧
    (∃ s t : State, LineInv s ∧ s.host.pending = false ∧ s.host.phase = .stopwait ∧
      s.host.running = false ∧ (pinsNow s).rst = false ∧ step s = .next t ∧
      t.host.rspValid = true) := by
  refine ⟨by decide, ⟨{ rest with host := { rest.host with phase := .stopwait } }, by decide⟩,
    ⟨{ asking with host := { rest.host with phase := .stopwait } }, by decide⟩,
    ⟨latched .stop running, _, rfl, rfl, rfl, by decide, rfl⟩,
    ⟨{ rest with host := { rest.host with phase := .stopwait } }, _, ?_, rfl, rfl, rfl, rfl, rfl,
      rfl⟩⟩
  exact ⟨by decide, by decide, by decide, by decide, by decide, by decide, by decide, by decide,
    by decide, by decide, by decide, by decide⟩

/-- The hypothesis of GETFRAMECOUNT, and of GETHEALTH's answer. -/
theorem test_witness_GetframecountEffect : running.cfg.Admitted := by decide

theorem test_witness_GethealthEffect :
    ∃ s t : State, s.host.pending = true ∧ (pinsNow s).rst = false ∧
      decode .host s.host.cmd s.host.arg = .ok .gethealth ∧ s.host.running = true ∧
      s.line.hCount + 1 = s.cfg.linePeriod ∧
      (lineAdvance (decide (doneOwner s = some .ls)) s).line.phase ≠ .idle ∧ step s = .next t :=
  ⟨latched .gethealth { streaming with line := { streaming.line with hCount := 59 } }, _, rfl, rfl,
    by decide, rfl, rfl, by decide, rfl⟩

/-- Not due at 499, due at 500. -/
theorem test_witness_RefreshifneededEffect :
    rest.cfg.Admitted ∧
    running.host.running = true ∧ rest.host.running = false ∧
    ((499 : Word).toNat + 2 ^ 32 - rest.host.lastRefreshTime.toNat) % 2 ^ 32 <
      rest.cfg.refreshInterval ∧
    rest.cfg.refreshInterval ≤
      ((500 : Word).toNat + 2 ^ 32 - rest.host.lastRefreshTime.toNat) % 2 ^ 32 ∧
    1 ≤ rest.cfg.dramRows ∧ rest.cfg.dramRows ≤ 4096 ∧ rest.host.pending = false ∧
    rest.host.held = none := by decide

theorem test_witness_MemrefallEffect :
    rest.cfg.Admitted ∧
    running.host.running = true ∧ rest.host.running = false ∧ 1 ≤ rest.cfg.dramRows ∧
    rest.cfg.dramRows ≤ 4096 ∧
    { rest with host := { rest.host with phase := .refall } }.host.phase = .refall ∧
    rest.host.pending = false ∧ rest.host.held = none := by decide

theorem test_witness_DirectCommandsEffect :
    rest.cfg.Admitted ∧
    rest.host.running = false ∧ (3 : Coord).toNat < rest.cfg.dramRows ∧
    (3 : Coord).toNat < rest.cfg.dramCols ∧
    (writing.host.pending = false ∧ writing.host.held = none ∧ writing.host.phase = .memop ∧
      writing.host.cmd = mkW1 0x9 5 2 3 ∧ doneOwner writing ≠ some .hs) ∧
    doneOwner (inPhase .wr6 ⟨.idle, .write, 2, 3, 5, 0, .hs⟩ writing) = some .hs := by decide

theorem test_atRest (w1 w2 : Word) :
    AtRest { rest with host := { rest.host with cmd := w1, arg := w2, pending := true } } :=
  ⟨rfl, rfl, rfl, rfl, rfl, rfl, rfl⟩

theorem test_witness_MemwriteRun :
    decode .host 0x9F003003 0 = .ok (.memwrite 3 3 0xF) ∧ (3 : Coord).toNat < rest.cfg.dramRows ∧
    (3 : Coord).toNat < rest.cfg.dramCols ∧ 1 ≤ rest.cfg.tWrite ∧ rest.cfg.Admitted ∧
    (3, 2) ≠ ((3 : Coord).toNat, (3 : Coord).toNat) := by decide

theorem test_witness_MemreadRun :
    decode .host 0xA0003003 0 = .ok (.memread 3 3) ∧ (3 : Coord).toNat < rest.cfg.dramRows ∧
    (3 : Coord).toNat < rest.cfg.dramCols ∧
    cellAt { rest with chip := { rest.chip with cells := [(15, 5)] } } 3 3 = some 5 ∧
    stampAt rest 3 ≤ rest.t ∧ rest.t + rest.cfg.tRead ≤ rest.cfg.retention + stampAt rest 3 ∧
    rest.cfg.Admitted := by decide

theorem test_witness_RangeCheckAnswersIllegal :
    rest.cfg.Admitted ∧
    rest.cfg.dramRows ≤ (4 : Coord).toNat ∧ rest.cfg.dramCols ≤ (4 : Coord).toNat := by decide

theorem test_witness_StateGate :
    (running.cfg.Admitted ∧ running.host.running = true ∧ (Instr.memwrite 3 3 0xF).wellFormed running.cfg = true) ∧
    (∃ t, rest.cfg.Admitted ∧ exec .gethealth rest = .next t ∧ t.host.rspValid = true) ∧
    (AgentsInv rest ∧ rest.host.running = false ∧ rest.host.phase = .idle) :=
  ⟨by decide, ⟨_, by decide, rfl, rfl⟩, test_agents_rest, rfl, rfl⟩

theorem test_witness_HostCommandFrame :
    ∃ t, rest.cfg.Admitted ∧ (Instr.clearfb 3).port = .host ∧ exec (.clearfb 3) rest = .next t ∧
      Instr.clearfb 3 ≠ .start 0 ∧ Instr.clearfb 3 ≠ .stop :=
  ⟨_, by decide, rfl, rfl, by decide, by decide⟩

theorem test_witness_EngineGrants :
    rest.cfg.Admitted ∧
    rest.eng.phase = .idle ∧ (3 : Coord).toNat < rest.cfg.dramRows ∧
    (3 : Coord).toNat < rest.cfg.dramCols ∧ 1 ≤ rest.cfg.tAsr ∧ 1 ≤ rest.cfg.tCsr := by decide

theorem test_witness_EngineRefusesOutsideArray :
    rest.cfg.dramRows ≤ (4 : Coord).toNat ∧ rest.cfg.dramCols ≤ (4 : Coord).toNat ∧
    rest.cfg.Admitted ∧ ¬{ rest with cfg := { Config.cfgS with width := 5 } }.cfg.GeometryOk ∧
    { rest with cfg := { Config.cfgS with tRah := 3 } }.cfg.GeometryOk ∧
    ¬{ rest with cfg := { Config.cfgS with tRah := 3 } }.cfg.StrobesOk := by decide

theorem test_witness_BusyEngineAcceptsNothing :
    writing.cfg.Admitted ∧
    writing.eng.phase ≠ .idle ∧ (3 : Coord).toNat < writing.cfg.dramRows ∧
    (3 : Coord).toNat < writing.cfg.dramCols ∧ (engineAdvance writing).eng.phase ≠ .idle := by decide

theorem test_witness_OperationDurations :
    writing.cfg.Admitted ∧
    writing.eng.phase ≠ .idle ∧ 1 ≤ writing.eng.dwell ∧ 4 + 1 < engineRemaining writing := by decide

/-- WRITE, READ, XFER and REFROW on an idle engine; a defined and an `UNDEF` cell for READ. -/
theorem test_witness_operations :
    rest.eng.phase = .idle ∧ (3 : Coord).toNat < rest.cfg.dramRows ∧
    (3 : Coord).toNat < rest.cfg.dramCols ∧ cellAt rest 3 3 = none ∧
    cellAt { rest with chip := { rest.chip with cells := [(15, 5)] } } 3 3 = some 5 ∧
    rest.cfg.Admitted := by decide

theorem test_witness_PinsFollowPhases :
    writing.cfg.Admitted ∧ PinInv writing ∧ ∃ t, step writing = .next t :=
  ⟨by decide, test_pins_writing, _, rfl⟩

theorem test_witness_LinePartition : Config.cfgS.Admitted ∧ Config.cfgS.LinesOk ∧ 5 < Config.cfgS.totalLines := by decide

/-- The branches of LINETICK: idle or busy, a tick held or not, wrapping or not, and the two lines. -/
theorem test_witness_LineTick :
    rest.cfg.Admitted ∧
    (rest.line.phase = .idle ∧ streaming.line.phase ≠ .idle) ∧ 59 + 1 = rest.cfg.linePeriod ∧
    ¬58 + 1 = rest.cfg.linePeriod ∧ rest.line.tickPending = false ∧
    { rest with line := { rest.line with tickPending := true } }.line.tickPending = true ∧
    (if 5 + 1 = rest.cfg.totalLines then 0 else 5 + 1) = 0 ∧
    (if 0 + 1 = rest.cfg.totalLines then 0 else 0 + 1) ≠ 0 := by decide

theorem test_witness_EnterLine :
    rest.cfg.Admitted ∧
    { rest with line := { rest.line with phase := .hsync, dwell := 2 } }.line.phase = .hsync ∧
    1 < 2 ∧ 1 ≤ 1 ∧ activeLine Config.cfgS 1 = false ∧ activeLine Config.cfgS 2 = true := by decide

theorem test_witness_FrameBoundary :
    rest.cfg.Admitted ∧
    rest.frame.phase = .idle ∧ draining.frame.phase ≠ .idle := by decide

theorem test_witness_ActiveLineBody :
    rest.cfg.Admitted ∧
    asking.line.phase = .xfer ∧ 1 ≤ asking.cfg.hBpClks ∧
    { Config.cfgS with hBpClks := 0 }.hBpClks = 0 ∧ activeLine Config.cfgS 4 = true ∧
    { rest with line := { rest.line with phase := .bp, dwell := 2 } }.line.phase = .bp := by decide

theorem test_witness_StreamShowsRow :
    rest.cfg.Admitted ∧
    1 ≤ rest.cfg.scHigh ∧ 1 ≤ rest.cfg.scLow ∧ 1 ≤ rest.cfg.visibleWidth ∧
    rest.cfg.visibleWidth ≤ rest.cfg.dramCols ∧ rest.chip.samPtr = 0 ∧
    3 < rest.cfg.visibleWidth ∧ 1 < rest.cfg.pixelClks := by decide

theorem test_witness_DrainDecision :
    rest.cfg.Admitted ∧
    (queued.frame.readIndex ≠ 2 ∧ queued.frame.drained < queued.cfg.drainBudget) ∧
    ¬(draining.frame.readIndex ≠ 2 ∧ draining.frame.drained < draining.cfg.drainBudget) := by decide

theorem test_witness_DrainOrder :
    ∃ s : State, s.cfg.Admitted ∧ s.cfg.RingOk ∧ RingInv s ∧ 1 ≤ s.cfg.dramRows ∧ s.frame.phase = .drain ∧
      s.frame.drained = 0 ∧
      1 < min (occupancy s.cfg s.host.writeIndex s.frame.readIndex) s.cfg.drainBudget :=
  ⟨{ queued with frame := { queued.frame with phase := .drain } }, by decide,
    by decide, ringInv_of (by decide) (by decide), by decide, rfl, rfl, by decide⟩

/-- Entries left over: a budget of one. -/
theorem test_witness_DrainOrder_left_over :
    min (occupancy Config.cfgS 2 0) { Config.cfgS with drainBudget := 1 }.drainBudget + 0 <
      occupancy Config.cfgS 2 0 := by decide

/-- Decisions of both phases, and edges at which none is taken, granted or waiting. -/
theorem test_witness_FrameRefresh :
    ({ rest with frame := { rest.frame with phase := .refresh, row := 3 } }.frame.phase = .refresh ∧
      rest.cfg.Admitted ∧ 3 < rest.cfg.dramRows ∧ ¬4 < rest.cfg.dramRows) ∧
    (∃ s t : State, AgentsInv s ∧ (pinsNow s).rst = false ∧ step s = .next t ∧
      s.frame.phase = .drain ∧ doneOwner s = some .fs) ∧
    (∃ s t : State, AgentsInv s ∧ (pinsNow s).rst = false ∧ step s = .next t ∧
      s.frame.phase = .refresh ∧ doneOwner s = some .fs) ∧
    (∃ t : State, AgentsInv draining ∧ (pinsNow draining).rst = false ∧ step draining = .next t ∧
      draining.frame.phase ≠ .idle ∧ doneOwner draining ≠ some .fs ∧ t.req.fs = none) ∧
    ∃ t : State, AgentsInv refreshing ∧ step refreshing = .next t ∧
      doneOwner refreshing ≠ some .fs ∧ t.req.fs = refreshing.req.fs :=
  ⟨by decide,
    ⟨inPhase .wr6 ⟨.idle, .write, 2, 3, 5, 0, .fs⟩ { draining with req := Requests.none }, _,
      agentsInv_of (by decide) (by decide) (by decide) (by decide), rfl, rfl, rfl, by decide⟩,
    ⟨inPhase .rf3 ⟨.idle, .refrow, 1, 0, 0, 0, .fs⟩ refreshing, _,
      agentsInv_of (by decide) (by decide) (by decide) (by decide), rfl, rfl, rfl, by decide⟩,
    ⟨_, test_agents_draining, rfl, rfl, by decide, by decide, rfl⟩,
    ⟨_, test_onTime_refreshing.agents, rfl, by decide, rfl⟩⟩

theorem test_witness_OverflowKeepsOldest :
    rest.cfg.Admitted ∧ rest.cfg.RingOk ∧ rest.host.writeIndex = rest.frame.readIndex ∧
    (∀ p ∈ [(0, 0, (0 : Nibble)), (1, 0, 1), (2, 0, 2), (3, 2, 3)],
      p.1 < rest.cfg.width ∧ p.2.1 < rest.cfg.height) ∧ rest.cfg.capacity < 4 := by decide

theorem test_witness_AddressMap :
    Config.cfgS.Admitted ∧ 3 < Config.cfgS.width ∧ 2 < Config.cfgS.height ∧
    mapPixel Config.cfgS 3 2 = mapPixel Config.cfgS 3 2 ∧
    cellAddr Config.cfgS 2 3 < Config.cfgS.width * Config.cfgS.height := by decide

theorem test_witness_SerialClock :
    rest.cfg.Admitted ∧
    streaming.line.se = true ∧ rest.line.se = false ∧
    (lineAdvance false { streaming with
      line := { streaming.line with phase := .bp } }).chip.samPtr ≠ streaming.chip.samPtr := by decide

/-- V7: not expired at 1100, expired at 1101. -/
theorem test_witness_DecayOnlyExpired :
    rest.cfg.Admitted ∧
    3 < rest.cfg.dramCols ∧ 1100 - 100 ≤ rest.cfg.retention ∧ rest.cfg.retention < 1101 - 100 := by
  decide

theorem test_witness_steps :
    (pinsNow rest).rst = false ∧ (∃ t, step rest = .next t) ∧
    (∃ t, step draining = .next t) ∧ notReadingHealth rest = true ∧ 3 < rest.cfg.dramCols :=
  ⟨rfl, ⟨_, rfl⟩, ⟨_, rfl⟩, rfl, by decide⟩

theorem test_witness_FlagsAreSticky :
    ∃ s t : State, (pinsNow s).rst = false ∧ notReadingHealth s = true ∧ step s = .next t ∧
      s.health.overflow = true ∧ s.health.violation = true :=
  ⟨{ rest with health := ⟨true, true⟩ }, _, rfl, rfl, rfl, rfl, rfl⟩

/-- Each register of the statement changes somewhere: a taken tick that wraps, an accepted START and
STOP, an ENQUEUE, and the last `done` of a REFRESHIFNEEDED's loop. -/
theorem test_witness_RegistersHaveOneWriter :
    onNext (step { running with line := { running.line with currentLine := 5, hCount := 59 } })
      (fun t => t.line.frameCount != 0 && t.line.currentLine != 5) = true ∧
    onNext (step starting) (fun t => t.host.running && t.frame.readIndex != 0) = true ∧
    onNext (step (latched .stop running)) (fun t => !t.host.running && t.line.hCount == 0) = true ∧
    onNext (step (latched (.enqueue 3 2 1) rest)) (fun t => t.host.writeIndex != 0) = true ∧
    onNext (step (inPhase .rf3 ⟨.idle, .refrow, 3, 0, 0, 0, .hs⟩ { rest with
      host := { rest.host with phase := .refall, cmd := 0x80000000, arg := 500, j := 3 } }))
      (fun t => t.host.lastRefreshTime == 500 && t.host.rspValid && t.host.rspData == 1) = true := by
  decide

/-- The same for its rows about the generator and the chip: a row fetched, a tick held, the end of XF2, a
pulse begun, and a row strobe; both at one edge where a load meets a pulse. -/
theorem test_witness_RegistersHaveOneWriter_chip :
    Config.cfgS.RangesOk ∧
    onNext (step { asking with
      line := { asking.line with framebufferRow := 0, hCount := 1, phase := .hsync, dwell := 1 }
      req := Requests.none }) (fun t => t.line.framebufferRow == 1 && t.line.hCount == 2) = true ∧
    onNext (step { streaming with line := { streaming.line with hCount := 59 } })
      (fun t => t.line.tickPending) = true ∧
    onNext (step (inPhase .xf2 ⟨.idle, .xfer, 1, 0, 0, 0, .hs⟩ { streaming with
      line := { streaming.line with phase := .bp, se := false, sc := false }
      chip := { streaming.chip with cells := [(4, 4)], samPtr := 3 } }))
      (fun t => t.chip.sam == [some 4, none, none, none] && t.chip.sd == some 4 &&
        t.chip.samPtr == 1) = true ∧
    onNext (step refreshing) (fun t => stampAt t 1 == refreshing.t && t.eng.phase == .rf1) = true := by
  decide

theorem test_witness_ResponseLastsOneCycle :
    onNext (step (latched .stop rest)) (fun t => t.host.rspValid && !t.host.pending) = true := by
  decide

/-- Reset with the engine idle and in mid-operation. -/
theorem test_witness_ResetEdge :
    rest.cfg.Admitted ∧ (pinsNow { rest with inputs := [⟨true, true, 0⟩] }).rst = true ∧ rest.eng.phase = .idle ∧
    writing.eng.phase ≠ .idle ∧ 3 < rest.cfg.dramCols := by decide

theorem test_witness_ResetState :
    Config.cfgS.Admitted ∧ State.reset = State.resetWith Config.cfgS := by decide

theorem test_witness_InvariantsHoldAtReset : Config.cfgS.WellFormed := by decide

theorem test_witness_SafetyIsKept : SafeInv draining ∧ SafeInv asking ∧ SafeInv writing :=
  ⟨test_safe_draining, test_safe_asking, test_safe_writing⟩

theorem test_witness_AgentsAreKept :
    SafeInv draining ∧ AgentsInv draining ∧ (∃ t, step draining = .next t) ∧
    SafeInv writing ∧ AgentsInv writing ∧ ∃ t, step writing = .next t :=
  ⟨test_safe_draining, test_agents_draining, ⟨_, rfl⟩, test_safe_writing, test_agents_writing, _, rfl⟩

theorem test_witness_LineRegistersAreKept :
    asking.cfg.LinesOk ∧ 1 ≤ asking.cfg.linePeriod ∧ AgentsInv asking ∧
    LineInv asking ∧ ∃ t, step asking = .next t :=
  ⟨by decide, by decide, test_agents_asking, test_line_asking, _, rfl⟩

theorem test_witness_ChipIsKept :
    ChipInv writing ∧ ∃ t, step writing = .next t :=
  ⟨test_chip_writing, _, rfl⟩

/-- A run of the frame sequencer, a stream, the row strobe of the first refresh of row 1, and START on
a chip whose rows last until their first refresh. -/
theorem test_witness_GeneratorStaysOnTime :
    (OnTime draining ∧ (∃ t, step draining = .next t ∧ t.host.running = true) ∧
      (pinsNow draining).rst = false ∧ draining.health.violation = false ∧ ChipInv draining ∧
      0 < draining.cfg.dramRows ∧ draining.host.running = true ∧ RowKept draining 0) ∧
    (OnTime streaming ∧ ∃ t, step streaming = .next t) ∧
    (OnTime refreshing ∧ ChipInv refreshing ∧ refreshing.host.running = true ∧
      refreshedThisRun refreshing 1 = false ∧
      ∃ t, step refreshing = .next t ∧ t.host.running = true ∧ refreshedThisRun t 1 = true) ∧
    (OnTime starting ∧ ChipInv starting ∧ starting.host.running = false ∧
      starting.t + 1 + frameRunTime starting.cfg ≤ stampAt starting 3 + starting.cfg.retention ∧
      ∃ t, step starting = .next t ∧ t.host.running = true) :=
  ⟨⟨test_onTime_draining, ⟨_, rfl, rfl⟩, rfl, rfl, test_chip_draining, by decide, rfl, by decide,
      by decide⟩,
    ⟨test_onTime_streaming, _, rfl⟩,
    ⟨test_onTime_refreshing, test_chip_refreshing, rfl, by decide, _, rfl, rfl, by decide⟩,
    ⟨test_onTime_starting, test_chip_starting, rfl, by decide, _, rfl, rfl⟩⟩

theorem test_witness_NoWriteWhileStreaming :
    OnTime asking ∧ asking.host.running = true ∧ asking.line.phase = .xfer ∧
    asking.req.ls = some 0xB0000000 ∧ OnTime streaming ∧ streaming.host.running = true ∧
    streaming.line.phase = .stream :=
  ⟨test_onTime_asking, rfl, rfl, rfl, test_onTime_streaming, rfl, rfl⟩

end Sys2Proof.Tests
end

section
/-! PROOFS. The invariants at reset (R9, R209, R291). Each is first shown of the reset registers beside any
chip and any model time, so that a reset edge can use it; the power-up state is a special case. -/

namespace Sys2Proof.Machine

/-! ## The reset registers -/

/-- The ring is empty, so no live entry can lie outside the framebuffer (R209). -/
theorem ringInv_resetRegisters {s : State} (hr : s.cfg.RingOk) : RingInv (resetRegisters s) where
  slots := List.length_replicate
  write_lt := Nat.zero_lt_of_lt hr
  read_lt := Nat.zero_lt_of_lt hr
  live_in_bounds k hk := by
    have h0 : 0 < s.cfg.ringSlots := Nat.zero_lt_of_lt hr
    have hempty : occupancy s.cfg 0 0 = 0 := (occupancy_eq_zero h0 h0).mpr rfl
    exact absurd (hempty ▸ hk) (Nat.not_lt_zero k)

theorem safeInv_resetRegisters {s : State} (hg : s.cfg.GeometryOk) (hs : s.cfg.StrobesOk)
    (hr : s.cfg.RingOk) : SafeInv (resetRegisters s) where
  geometry := hg
  strobes := hs
  ring_ok := hr
  ring := ringInv_resetRegisters hr
  row_lt := hg.2.1
  request_ls := rfl
  request_fs := rfl
  request_hs := rfl
  clear_row h := nomatch h

theorem agentsInv_resetRegisters (s : State) : AgentsInv (resetRegisters s) where
  line_ops := rfl
  frame_ops := rfl
  host_ops := rfl
  pending_idle h := nomatch h
  stopwait_stopped _ := rfl
  engine_use_stopped _ := rfl
  stopped_quiet _ _ := ⟨rfl, rfl⟩
  line_word _ h := nomatch h
  frame_word _ h := nomatch h
  phase_op h := absurd rfl h
  line_op h := nomatch h
  frame_op h := nomatch h
  held_busy h := absurd rfl h

/-- Line 0 is a blanking line: the active range begins at `v_blank_lines`, which R9 makes at least 1. -/
theorem activeLine_zero {c : Config} (h : c.LinesOk) : activeLine c 0 = false := by
  obtain ⟨hblank, -⟩ := h
  simp only [activeLine, Bool.and_eq_false_iff, decide_eq_false_iff_not]
  omega

theorem lineInv_resetRegisters {s : State} (hg : s.cfg.GeometryOk) (hl : s.cfg.LinesOk)
    (hp : 1 ≤ s.cfg.linePeriod) : LineInv (resetRegisters s) where
  line_lt := by
    obtain ⟨hblank, htotal, -⟩ := hl
    show 0 < s.cfg.totalLines
    omega
  row_lt := hg.2.1
  count_lt := hp
  stopped _ := ⟨rfl, rfl⟩
  vblank := congrArg Bool.not (activeLine_zero hl).symm
  hsync := rfl
  se := rfl
  sc := rfl
  after_stop _ _ := rfl
  vsync h := nomatch h
  pixels h := nomatch h
  pipeline h := absurd rfl h

theorem pinInv_resetRegisters (s : State) : PinInv (resetRegisters s) where
  strobes := rfl
  address h := absurd rfl h
  data h := nomatch h
  dwell h := absurd rfl h

/-- C_LINE leaves room for the horizontal sync pulse, which lasts at least one cycle (R8, R9). -/
theorem linePeriod_pos {c : Config} (h : c.WellFormed) : 1 ≤ c.linePeriod := by
  obtain ⟨-, -, -, hbudget, -, -, -, hsync, -⟩ := h
  simp only [Config.LineBudgetOk] at hbudget
  omega

/-- The generator is stopped and no operation is in progress, so nothing is due. -/
theorem onTime_resetRegisters {s : State} (hc : s.cfg.WellFormed) : OnTime (resetRegisters s) := by
  have ⟨hgeometry, hlines, hring, _, _, _, hstrobes, _⟩ := hc
  exact {
    config := hc
    safe := safeInv_resetRegisters hgeometry hstrobes hring
    agents := agentsInv_resetRegisters s
    line := lineInv_resetRegisters hgeometry hlines (linePeriod_pos hc)
    engine_dwells := fun h => absurd rfl h
    line_dwells := fun h => absurd rfl h
    not_held := fun h => nomatch h
    line_ends := fun h => nomatch h
    frame_ends := fun h => nomatch h
    refresh_row := fun h => nomatch h
    refresh_word := fun h => nomatch h
    refresh_op := fun h => nomatch h }

/-! ## The power-up state -/

/-- Every register is at its reset value already: only model time and the chip tell `resetWith` from a
reset edge (R39, R40, R291). -/
theorem resetRegisters_resetWith (c : Config) :
    resetRegisters (State.resetWith c) = State.resetWith c := rfl

theorem stampAt_resetWith (c : Config) (r : Nat) : stampAt (State.resetWith c) r = 0 :=
  List.getElem?_getD_replicate_default_eq 0 c.dramRows r

/-- The array holds no defined cell and every stamp is 0; `SAM` has an entry 0 to point at, a row being at
least as long as the frame is wide (R39, R9). -/
theorem chipInv_resetWith {c : Config} (hg : c.GeometryOk) : ChipInv (State.resetWith c) where
  canonical := List.Pairwise.nil
  addresses _ h := nomatch h
  rows := List.length_replicate
  cols := List.length_replicate
  ptr_lt := by
    obtain ⟨hwidth, -, -, -, -, -, -, hcols, -⟩ := hg
    exact Nat.lt_of_lt_of_le hwidth hcols
  stamps r := (stampAt_resetWith c r).le
  operands h := absurd rfl h

/-- Settles O54: the registers by the lemmas about `resetRegisters`, the chip by its power-up contents,
and CFG-S by checking the clauses of R9. -/
theorem invariantsHoldAtReset : Obligations.InvariantsHoldAtReset := by
  refine ⟨fun c hc => ?_, by decide⟩
  have hchip : ChipInv (State.resetWith c) := chipInv_resetWith hc.1
  rw [← resetRegisters_resetWith c] at hchip ⊢
  have hontime : OnTime (resetRegisters (State.resetWith c)) := onTime_resetRegisters hc
  exact ⟨hontime.safe, hontime.agents, hontime.line, pinInv_resetRegisters _, hchip, hontime⟩

end Sys2Proof.Machine
end

section
/-! PROOFS. What an edge leaves alone, group by group, and a step without reset in its parts (R268). -/

namespace Sys2Proof.Machine

/-! ## What an edge leaves alone -/

@[simp] theorem lineAdvance_cfg (d : Bool) (s : State) : (lineAdvance d s).cfg = s.cfg := by
  rw [lineAdvance_only]
@[simp] theorem lineAdvance_t (d : Bool) (s : State) : (lineAdvance d s).t = s.t := by
  rw [lineAdvance_only]
@[simp] theorem lineAdvance_host (d : Bool) (s : State) : (lineAdvance d s).host = s.host := by
  rw [lineAdvance_only]
@[simp] theorem lineAdvance_health (d : Bool) (s : State) : (lineAdvance d s).health = s.health := by
  rw [lineAdvance_only]
@[simp] theorem startFrameRun_line (w : Nat) (s : State) : (startFrameRun w s).line = s.line := by
  rw [startFrameRun_only]
@[simp] theorem startFrameRun_cfg (w : Nat) (s : State) : (startFrameRun w s).cfg = s.cfg := by
  rw [startFrameRun_only]
@[simp] theorem startFrameRun_host (w : Nat) (s : State) : (startFrameRun w s).host = s.host := by
  rw [startFrameRun_only]
@[simp] theorem startFrameRun_health (w : Nat) (s : State) :
    (startFrameRun w s).health = s.health := by rw [startFrameRun_only]
@[simp] theorem lineTick_cfg (w : Nat) (s : State) : (lineTick w s).cfg = s.cfg := by
  rw [lineTick_only]
@[simp] theorem lineTick_host (w : Nat) (s : State) : (lineTick w s).host = s.host := by
  rw [lineTick_only]
@[simp] theorem lineTick_chip (w : Nat) (s : State) : (lineTick w s).chip = s.chip := by
  rw [lineTick_only]
@[simp] theorem lineEdge_cfg (d : Bool) (w : Nat) (s : State) : (lineEdge d w s).cfg = s.cfg := by
  rw [lineEdge_only]
@[simp] theorem lineEdge_t (d : Bool) (w : Nat) (s : State) : (lineEdge d w s).t = s.t := by
  rw [lineEdge_only]
@[simp] theorem lineEdge_host (d : Bool) (w : Nat) (s : State) : (lineEdge d w s).host = s.host := by
  rw [lineEdge_only]
@[simp] theorem lineEdge_eng (d : Bool) (w : Nat) (s : State) : (lineEdge d w s).eng = s.eng := by
  rw [lineEdge_only]
@[simp] theorem lineEdge_overflow (d : Bool) (w : Nat) (s : State) :
    (lineEdge d w s).health.overflow = s.health.overflow := by rw [lineEdge_only]
@[simp] theorem lineEdge_chip (d : Bool) (w : Nat) (s : State) :
    (lineEdge d w s).chip = (lineAdvance d s).chip := by
  simp only [lineEdge]; split <;> simp
@[simp] theorem sequencersEdge_cfg (b s : State) : (sequencersEdge b s).cfg = s.cfg := by
  rw [sequencersEdge, frameAdvance_only, lineEdge_cfg]
@[simp] theorem sequencersEdge_t (b s : State) : (sequencersEdge b s).t = s.t := by
  rw [sequencersEdge, frameAdvance_only, lineEdge_t]
@[simp] theorem sequencersEdge_host (b s : State) : (sequencersEdge b s).host = s.host := by
  rw [sequencersEdge, frameAdvance_only, lineEdge_host]
@[simp] theorem sequencersEdge_eng (b s : State) : (sequencersEdge b s).eng = s.eng := by
  rw [sequencersEdge, frameAdvance_only, lineEdge_eng]
@[simp] theorem sequencersEdge_line (b s : State) : (sequencersEdge b s).line =
    (lineEdge (decide (doneOwner b = some .ls)) b.host.writeIndex s).line := by
  rw [sequencersEdge, frameAdvance_only]
@[simp] theorem sequencersEdge_health (b s : State) : (sequencersEdge b s).health =
    (lineEdge (decide (doneOwner b = some .ls)) b.host.writeIndex s).health := by
  rw [sequencersEdge, frameAdvance_only]
@[simp] theorem sequencersEdge_chip (b s : State) : (sequencersEdge b s).chip =
    (lineAdvance (decide (doneOwner b = some .ls)) s).chip := by
  rw [sequencersEdge, frameAdvance_only, lineEdge_chip]
@[simp] theorem latchPins_cfg (p : PinIn) (b s : State) : (latchPins p b s).cfg = s.cfg := by
  rw [latchPins_only]
@[simp] theorem latchPins_t (p : PinIn) (b s : State) : (latchPins p b s).t = s.t := by
  rw [latchPins_only]
@[simp] theorem latchPins_line (p : PinIn) (b s : State) : (latchPins p b s).line = s.line := by
  rw [latchPins_only]
@[simp] theorem latchPins_frame (p : PinIn) (b s : State) : (latchPins p b s).frame = s.frame := by
  rw [latchPins_only]
@[simp] theorem latchPins_health (p : PinIn) (b s : State) : (latchPins p b s).health = s.health := by
  rw [latchPins_only]
@[simp] theorem latchPins_running (p : PinIn) (b s : State) :
    (latchPins p b s).host.running = s.host.running := by rw [latchPins_only]
@[simp] theorem latchPins_ring (p : PinIn) (b s : State) :
    (latchPins p b s).host.ring = s.host.ring := by rw [latchPins_only]
@[simp] theorem latchPins_writeIndex (p : PinIn) (b s : State) :
    (latchPins p b s).host.writeIndex = s.host.writeIndex := by rw [latchPins_only]
@[simp] theorem latchPins_lastRefreshTime (p : PinIn) (b s : State) :
    (latchPins p b s).host.lastRefreshTime = s.host.lastRefreshTime := by rw [latchPins_only]
@[simp] theorem latchPins_rspValid (p : PinIn) (b s : State) :
    (latchPins p b s).host.rspValid = s.host.rspValid := by rw [latchPins_only]
@[simp] theorem latchPins_rspData (p : PinIn) (b s : State) :
    (latchPins p b s).host.rspData = s.host.rspData := by rw [latchPins_only]

/-- No word is latched in `HS_STOPWAIT`, and none leads there (R94, R241). -/
theorem latchPins_stopwait (p : PinIn) (b h0 : State) :
    (latchPins p b h0).host.phase = .stopwait ↔ h0.host.phase = .stopwait := by
  rcases latchPins_cases p b h0 with ⟨-, he⟩ | ⟨w, -, ⟨-, he⟩ | ⟨hr, hl⟩⟩
  · rw [he]
  · rw [he, holdWord_phase]
  · have hnot : h0.host.phase ≠ .stopwait := by
      rintro h; simp [cmdReady, h] at hr
    rcases hl with ⟨-, he⟩ | ⟨-, -, he⟩ | ⟨-, -, he⟩ <;> simp [he, hnot]

/-! ## The step in its parts -/

/-- A step without reset is a move of the host sequencer, the latching of a word and an engine edge, all
from the state the edge begins with, put together (R268). -/
theorem step_parts {s t : State} (hrst : (pinsNow s).rst = false) (h : step s = .next t) :
    ∃ h0 g, HostMove (beginEdge s) (hostReady (beginEdge s)) h0 ∧
      hostEdge (pinsNow s) (beginEdge s) = .next (latchPins (pinsNow s) (beginEdge s) h0) ∧
      engineEdge (beginEdge s) = .next g ∧
      t = advanceTime (blockEdge (beginEdge s) (latchPins (pinsNow s) (beginEdge s) h0) g) := by
  rcases step_cases h with ⟨hr, -⟩ | ⟨-, hh, g, h1, h2, rfl⟩
  · rw [hrst] at hr; cases hr
  · obtain ⟨h0, hm, he⟩ := hostEdge_cases (pinsNow s) (beginEdge s)
    obtain rfl : latchPins (pinsNow s) (beginEdge s) h0 = hh := by
      rw [he] at h1; cases h1; rfl
    exact ⟨h0, g, hm, he, h2, rfl⟩

@[simp] theorem beginEdge_cfg (s : State) : (beginEdge s).cfg = s.cfg := rfl
@[simp] theorem beginEdge_t (s : State) : (beginEdge s).t = s.t := rfl
@[simp] theorem beginEdge_line (s : State) : (beginEdge s).line = s.line := rfl
@[simp] theorem beginEdge_frame (s : State) : (beginEdge s).frame = s.frame := rfl
@[simp] theorem beginEdge_host (s : State) : (beginEdge s).host = s.host := rfl
@[simp] theorem beginEdge_health (s : State) : (beginEdge s).health = s.health := rfl

end Sys2Proof.Machine
end

section
/-! PROOFS. The flags stay raised (R25, R262): no part of an edge but GETHEALTH's move clears one. -/

namespace Sys2Proof.Machine

/-! ## The flags (R25, R262) -/

/-- Each flag that is 1 before is 1 after. -/
structure FlagsKept (f f' : HealthFlags) : Prop where
  overflow : f.overflow = true → f'.overflow = true
  violation : f.violation = true → f'.violation = true

theorem FlagsKept.rfl {f : HealthFlags} : FlagsKept f f := ⟨id, id⟩

theorem FlagsKept.trans {f f' f'' : HealthFlags} (h : FlagsKept f f') (h' : FlagsKept f' f'') :
    FlagsKept f f'' :=
  ⟨h'.overflow ∘ h.overflow, h'.violation ∘ h.violation⟩

theorem raiseOverflow_flagsKept (s : State) : FlagsKept s.health (raiseOverflow s).health :=
  ⟨fun _ => raiseOverflow_overflow s, id⟩

theorem raiseViolation_flagsKept (s : State) : FlagsKept s.health (raiseViolation s).health :=
  ⟨id, fun _ => raiseViolation_violation s⟩

theorem enqueuePixel_flagsKept (x y : Nat) (color : Nibble) (s : State) :
    FlagsKept s.health (enqueuePixel x y color s).1.health := by
  rcases enqueuePixel_cases x y color s with ⟨-, he⟩ | ⟨-, -, -, he⟩ | ⟨-, -, -, he⟩ <;> rw [he]
  · exact .rfl
  · exact raiseOverflow_flagsKept s
  · exact .rfl

@[simp] theorem rectNext_health (s : State) : (rectNext s).health = s.health := by
  simp only [rectNext]; repeat' split
  all_goals rfl

/-- Of the moves of the host sequencer, GETHEALTH alone clears a flag (R243, R262). -/
theorem hostMove_flagsKept {b h0 : State} (m : HostMove b (hostReady b) h0)
    (hn : notReadingHealth b = true) : FlagsKept b.health h0.health := by
  cases m
  case enqueue => exact enqueuePixel_flagsKept _ _ _ (hostReady b)
  case rect =>
    rw [rectStep, rectNext_health]
    exact enqueuePixel_flagsKept _ _ _ (hostReady b)
  case gethealth hp hd => simp [notReadingHealth, hp, hd] at hn
  case start =>
    rw [startRunning, respond_health, enterLine_health, startFrameRun_health]
    exact .rfl
  all_goals exact .rfl

theorem frameBoundary_flagsKept (w : Nat) (s : State) :
    FlagsKept s.health (frameBoundary w s).health := by
  simp only [frameBoundary]
  split
  · rw [startFrameRun_health]; exact .rfl
  · exact raiseViolation_flagsKept s

theorem takeTick_flagsKept (w : Nat) (s : State) : FlagsKept s.health (takeTick w s).health := by
  simp only [takeTick]
  split
  · exact frameBoundary_flagsKept w { s with line := { s.line with
      currentLine := nextLine s.cfg s.line.currentLine } }
  · exact .rfl

theorem violationWhen_flagsKept (c : Bool) (s : State) :
    FlagsKept s.health (violationWhen c s).health := by
  cases c
  · exact .rfl
  · exact raiseViolation_flagsKept s

theorem lineTick_flagsKept (w : Nat) (s : State) : FlagsKept s.health (lineTick w s).health := by
  simp only [lineTick]
  repeat' split
  · have hv := violationWhen_flagsKept (newTick s) (setTickPending (newTick s) (countCycle s))
    exact hv.trans (takeTick_flagsKept w _)
  · exact takeTick_flagsKept w (countCycle s)
  · exact .rfl
  · exact raiseViolation_flagsKept s
  · exact .rfl

theorem lineEdge_flagsKept (d : Bool) (w : Nat) (s : State) :
    FlagsKept s.health (lineEdge d w s).health := by
  have hadvance : (lineAdvance d s).health = s.health := lineAdvance_health d s
  simp only [lineEdge]
  split
  · rw [← hadvance]; exact lineTick_flagsKept w _
  · rw [hadvance]; exact .rfl

/-- After the host sequencer, an edge clears no flag. -/
theorem blockEdge_flagsKept (b h g : State) : FlagsKept h.health (blockEdge b h g).health := by
  simp only [blockEdge]
  split
  · exact .rfl
  · rw [sequencersEdge_health]
    exact lineEdge_flagsKept _ _ (joinEdges b h g)

/-- Settles O48: the host sequencer's move clears nothing but by GETHEALTH, and what follows it only
raises. -/
theorem flagsAreSticky : Obligations.FlagsAreSticky := by
  intro s t hrst hn hstep
  obtain ⟨h0, g, hmove, -, -, rfl⟩ := step_parts hrst hstep
  have hhost : FlagsKept (beginEdge s).health h0.health := hostMove_flagsKept hmove hn
  have hblock := blockEdge_flagsKept (beginEdge s) (latchPins (pinsNow s) (beginEdge s) h0) g
  rw [latchPins_health] at hblock
  have hkept := hhost.trans hblock
  exact ⟨hkept.overflow, hkept.violation⟩

end Sys2Proof.Machine
end

section
/-! PROOFS. The chip stays in range (R39, R71 to R77): each response of the chip, the engine's phases, the serial
clock and the reset keep it so. -/

namespace Sys2Proof.Machine

/-! ## The chip's registers in range (R39) -/

/-- The clauses of `ChipInv` about the chip alone. -/
structure ArrayInv (s : State) : Prop where
  canonical : Memory.wf s.chip.cells
  addresses : ∀ p, p ∈ s.chip.cells → p.1 < s.cfg.dramRows * s.cfg.dramCols
  rows : s.chip.rowStamp.length = s.cfg.dramRows
  cols : s.chip.sam.length = s.cfg.dramCols
  ptr_lt : s.chip.samPtr < s.cfg.dramCols
  stamps : ∀ r, stampAt s r ≤ s.t

theorem ChipInv.array {s : State} (h : ChipInv s) : ArrayInv s :=
  ⟨h.canonical, h.addresses, h.rows, h.cols, h.ptr_lt, h.stamps⟩

theorem ArrayInv.chipInv {s : State} (h : ArrayInv s)
    (ho : s.eng.phase ≠ .idle → inArray s.cfg s.eng.row s.eng.col = true) : ChipInv s :=
  ⟨h.canonical, h.addresses, h.rows, h.cols, h.ptr_lt, h.stamps, ho⟩

/-- The chip's clauses speak of the chip, the parameters and a time that may move on. -/
theorem ArrayInv.congr {s u : State} (h : ArrayInv s) (hcfg : u.cfg = s.cfg) (hchip : u.chip = s.chip)
    (ht : s.t ≤ u.t) : ArrayInv u where
  canonical := hchip ▸ h.canonical
  addresses := by rw [hchip, hcfg]; exact h.addresses
  rows := by rw [hchip, hcfg]; exact h.rows
  cols := by rw [hchip, hcfg]; exact h.cols
  ptr_lt := by rw [hchip, hcfg]; exact h.ptr_lt
  stamps r := by rw [stampAt, hchip]; exact (h.stamps r).trans ht

theorem inArray_iff {c : Config} {row col : Nat} :
    inArray c row col = true ↔ row < c.dramRows ∧ col < c.dramCols := by
  simp [inArray]

theorem setCell_arrayInv {s : State} {row col : Nat} (v : Nibble) (h : ArrayInv s)
    (hin : inArray s.cfg row col = true) : ArrayInv (setCell row col v s) where
  canonical := setCell_wf row col v h.canonical
  addresses p hp := by
    obtain ⟨hrow, hcol⟩ := inArray_iff.mp hin
    rcases mem_cellPut hp with rfl | hp
    · exact cellAddr_lt hrow hcol
    · exact h.addresses p hp
  rows := h.rows
  cols := h.cols
  ptr_lt := h.ptr_lt
  stamps := h.stamps

/-- What the row strobe does to the stamps: the strobed row's becomes the time of the edge (R75, R76). -/
theorem stampAt_restartRetention (row r : Nat) (s : State) :
    stampAt (restartRetention row s) r = stampAt s r ∨
      (stampAt (restartRetention row s) r = s.t ∧ r = row) := by
  simp only [stampAt, restartRetention_rowStamp, List.getD_eq_getElem?_getD, List.getElem?_set]
  by_cases hr : row = r
  · by_cases hlt : row < s.chip.rowStamp.length
    · exact .inr ⟨by simp [hr, hr ▸ hlt], hr.symm⟩
    · left; subst hr; simp [hlt]
  · left; simp [hr]

theorem restartRetention_arrayInv {s : State} (row : Nat) (h : ArrayInv s) :
    ArrayInv (restartRetention row s) where
  canonical := h.canonical
  addresses := h.addresses
  rows := by rw [restartRetention_rowStamp, List.length_set]; exact h.rows
  cols := h.cols
  ptr_lt := h.ptr_lt
  stamps r := by
    rcases stampAt_restartRetention row r s with hs | ⟨hs, -⟩
    · rw [hs]; exact h.stamps r
    · exact hs.le

theorem loadSam_arrayInv {s : State} (row : Nat) (h : ArrayInv s) : ArrayInv (loadSam row s) where
  canonical := h.canonical
  addresses := h.addresses
  rows := h.rows
  cols := by simp [loadSam]
  ptr_lt := Nat.zero_lt_of_lt h.ptr_lt
  stamps := h.stamps

theorem serialClock_arrayInv {s : State} (h : ArrayInv s) : ArrayInv (serialClock s) where
  canonical := h.canonical
  addresses := h.addresses
  rows := h.rows
  cols := h.cols
  ptr_lt := Nat.mod_lt _ (Nat.zero_lt_of_lt h.ptr_lt)
  stamps := h.stamps

theorem decay_arrayInv {s : State} (h : ArrayInv s) : ArrayInv (decay s) where
  canonical := decay_wf h.canonical
  addresses p hp := h.addresses p (List.mem_filter.mp hp).1
  rows := h.rows
  cols := h.cols
  ptr_lt := h.ptr_lt
  stamps := h.stamps

theorem scrambleChip_arrayInv {s : State} (h : ArrayInv s) : ArrayInv (scrambleChip s) where
  canonical := scrambleChip_wf s
  addresses _ hp := nomatch hp
  rows := h.rows
  cols := by simp
  ptr_lt := Nat.mod_lt _ (Nat.zero_lt_of_lt h.ptr_lt)
  stamps := h.stamps

/-! ## The engine and the chip -/

@[simp] theorem holdZero_chip (s : State) : (holdZero s).chip = s.chip := by
  simp only [holdZero]; split <;> rfl

/-- The entry of this phase restarts the retention of the row: REFROW's row strobe always, the others' when
an activation refreshes (R72 to R76). -/
def RestartsRow (c : Config) (p : EngPhase) : Prop :=
  p = .rf1 ∨ (c.activationRefreshes = true ∧ (p = .wr1 ∨ p = .rd1 ∨ p = .xf1))

/-- Entering a phase restarts the retention of the row in the phases of a row strobe, and does no more to
the chip. -/
theorem phaseEntry_chip (p : EngPhase) (s : State) :
    (RestartsRow s.cfg p ∧ (phaseEntry p s).chip = (restartRetention s.eng.row s).chip) ∨
    (¬RestartsRow s.cfg p ∧ (phaseEntry p s).chip = s.chip) := by
  cases p
  case wr1 | rd1 | xf1 =>
    simp only [RestartsRow, phaseEntry, holdZero_chip, activationRestart]
    split
    next h => left; exact ⟨by simpa using h, rfl⟩
    next h => right; exact ⟨by simpa using h, rfl⟩
  case rf1 => exact .inl ⟨.inl rfl, rfl⟩
  all_goals exact .inr ⟨by simp [RestartsRow], rfl⟩

/-- The end of a phase stores in WR2, loads the SAM in XF2, and does no more to the chip (R72, R74). -/
theorem phaseEnd_chip (p : EngPhase) (s : State) :
    (phaseEnd p s).chip =
      if p = .wr2 then (setCell s.eng.row s.eng.col s.eng.val s).chip
      else if p = .xf2 then (loadSam s.eng.row s).chip else s.chip := by
  cases p <;> rfl

theorem phaseEntry_arrayInv {s : State} (p : EngPhase) (h : ArrayInv s) :
    ArrayInv (phaseEntry p s) := by
  rcases phaseEntry_chip p s with ⟨-, hchip⟩ | ⟨-, hchip⟩
  · exact (restartRetention_arrayInv s.eng.row h).congr (by simp) hchip (by simp)
  · exact h.congr (by simp) hchip (by simp)

theorem phaseEnd_arrayInv {s : State} (p : EngPhase) (h : ArrayInv s)
    (hin : inArray s.cfg s.eng.row s.eng.col = true) : ArrayInv (phaseEnd p s) := by
  have hchip := phaseEnd_chip p s
  split at hchip
  · exact (setCell_arrayInv s.eng.val h hin).congr (by simp) hchip (by simp)
  · split at hchip
    · exact (loadSam_arrayInv s.eng.row h).congr (by simp) hchip (by simp)
    · exact h.congr (by simp) hchip (by simp)

/-- So it is however many phases are passed at one edge (R121). -/
theorem enterPhase_arrayInv {n : Nat} {p : EngPhase} {s : State} (h : ArrayInv s)
    (hin : inArray s.cfg s.eng.row s.eng.col = true) : ArrayInv (enterPhase n p s) := by
  induction n generalizing p s with
  | zero => exact h.congr rfl rfl le_rfl
  | succ n ih =>
    have hentry := phaseEntry_arrayInv p h
    simp only [enterPhase]
    split
    · exact ih (phaseEnd_arrayInv p hentry (by simpa using hin)) (by simpa using hin)
    · exact hentry.congr rfl rfl le_rfl

theorem engineAdvance_chipInv {s : State} (h : ChipInv s) : ChipInv (engineAdvance s) := by
  by_cases hidle : s.eng.phase = .idle
  · rw [engineAdvance_of_idle hidle]; exact h
  have hin := h.operands hidle
  have hmux : ArrayInv (addressMux s) := h.array.congr (by simp) (by simp) (by simp)
  refine ArrayInv.chipInv ?_ fun _ => by simpa using hin
  simp only [engineAdvance, if_neg hidle]
  split
  · exact enterPhase_arrayInv (phaseEnd_arrayInv _ hmux (by simpa using hin)) (by simpa using hin)
  · exact hmux.congr rfl rfl le_rfl

theorem grant_chipInv {s : State} {row col : Nat} (op : EngOp) (v : Nibble) (h : ArrayInv s)
    (hin : inArray s.cfg row col = true) : ChipInv (grant op row col v s) := by
  refine ArrayInv.chipInv ?_ fun _ => by simpa using hin
  exact enterPhase_arrayInv (h.congr rfl rfl le_rfl) hin

/-- The engine is granted only operands inside the array (R67), column 0 where a request has none. -/
theorem engineEdge_chipInv {s g : State} (h : ChipInv s) (he : engineEdge s = .next g) :
    ChipInv g := by
  have hadvance := engineAdvance_chipInv h
  rcases engineEdge_cases he with ⟨rfl, -⟩ | ⟨-, w, op, row, col, v, -, rfl, hrow, hcol, -⟩
  · exact hadvance
  · refine grant_chipInv op v hadvance.array (inArray_iff.mpr ?_)
    rw [engineAdvance_cfg]
    exact ⟨hrow, hcol.elim id fun h0 => h0 ▸ Nat.zero_lt_of_lt h.ptr_lt⟩

theorem engineEdge_cfg {s g : State} (he : engineEdge s = .next g) : g.cfg = s.cfg := by
  rcases engineEdge_cases he with ⟨rfl, -⟩ | ⟨-, w, op, row, col, v, -, rfl, -⟩ <;> simp

theorem engineEdge_t {s g : State} (he : engineEdge s = .next g) : g.t = s.t := by
  rcases engineEdge_cases he with ⟨rfl, -⟩ | ⟨-, w, op, row, col, v, -, rfl, -⟩ <;> simp

/-! ## The serial clock at an edge (R194, R77) -/

/-- The line sequencer begins a pixel pulse at this edge: as the transfer ends with no back porch, as the
back porch ends, or as a pulse that is not the last of its line ends (R193, R194). -/
def BeginsPulse (done : Bool) (s : State) : Prop :=
  (s.line.phase = .xfer ∧ done = true ∧ s.cfg.hBpClks = 0) ∨
  (s.line.phase = .bp ∧ s.line.dwell ≤ 1) ∨
  (s.line.phase = .stream ∧ s.line.dwell ≤ 1 ∧ s.line.scHalf = true ∧
    s.line.pixCount + 1 < s.cfg.visibleWidth)

/-- The line sequencer clocks the SAM exactly as it begins a pulse, and does no more to the chip. -/
theorem lineAdvance_chip (d : Bool) (s : State) :
    (BeginsPulse d s ∧ (lineAdvance d s).chip = (serialClock s).chip) ∨
    (¬BeginsPulse d s ∧ (lineAdvance d s).chip = s.chip) := by
  simp only [BeginsPulse, lineAdvance]
  split
  next h => right; simp [h]
  next h =>
    cases d
    · right; simp [h]
    · by_cases hb : s.cfg.hBpClks = 0
      · left; simp [h, hb, endTransfer, beginStream, beginPulse, serialClock, samAt]
      · right; simp [h, hb, endTransfer]
  next h1 h2 =>
    split
    next hd =>
      simp only [endLinePhase]
      split
      next h => exact absurd h h1
      next h =>
        right
        simp only [endHsync]
        split <;> simp [h, beginTransfer]
      next h => exact absurd h h2
      next h => left; simp [h, hd, beginStream, beginPulse, serialClock, samAt]
      next h =>
        split
        next hs =>
          simp only [endPulse]
          split
          next hw => right; simp [h]; omega
          next hw =>
            left
            simp [h, hd, hs, beginPulse, serialClock, samAt]; omega
        next hs => right; simp [h, hs, endHighHalf]
    next hd => right; simp [hd, lineWait, show s.line.phase ≠ .xfer from h2]

theorem lineAdvance_arrayInv {s : State} (d : Bool) (h : ArrayInv s) :
    ArrayInv (lineAdvance d s) := by
  rcases lineAdvance_chip d s with ⟨-, hchip⟩ | ⟨-, hchip⟩
  · exact (serialClock_arrayInv h).congr (by simp) hchip (by simp)
  · exact h.congr (by simp) hchip (by simp)

/-! ## The chip over a step -/

theorem resetEdge_chipInv {s : State} (h : ArrayInv s) : ChipInv (resetEdge s) := by
  refine ArrayInv.chipInv ?_ fun hbusy => absurd rfl hbusy
  simp only [resetEdge]
  split
  · exact h.congr rfl rfl le_rfl
  · exact (scrambleChip_arrayInv h).congr rfl rfl le_rfl

theorem advanceTime_chipInv {s : State} (h : ChipInv s) : ChipInv (advanceTime s) :=
  (h.array.congr (advanceTime_cfg s) (advanceTime_chip s) (Nat.le_succ s.t)).chipInv h.operands

/-- The chip of an edge is the engine's, clocked by the line sequencer. -/
theorem blockEdge_chipInv {b h g : State} (hg : ChipInv g) (hcfg : h.cfg = g.cfg) (ht : h.t = g.t) :
    ChipInv (blockEdge b h g) := by
  have hjoin : ArrayInv (joinEdges b h g) := hg.array.congr hcfg rfl ht.ge
  have hops : g.eng.phase ≠ .idle → inArray h.cfg g.eng.row g.eng.col = true := by
    rw [hcfg]; exact hg.operands
  simp only [blockEdge]
  split
  · exact hjoin.chipInv hops
  · refine ArrayInv.chipInv ?_ (by simpa using hops)
    exact (lineAdvance_arrayInv _ hjoin).congr (by simp) (sequencersEdge_chip b _) (by simp)

/-- Settles O58: decay, the engine's edge and the serial clock each keep the chip in range, and a reset
scrambles it within its range. -/
theorem chipIsKept : Obligations.ChipIsKept := by
  intro s t h hstep
  have hbegin : ChipInv (beginEdge s) := (decay_arrayInv (h.array.congr rfl rfl le_rfl :
    ArrayInv { s with inputs := s.inputs.tail })).chipInv h.operands
  rcases hrst : (pinsNow s).rst with _ | _
  · obtain ⟨h0, g, hmove, -, hengine, rfl⟩ := step_parts hrst hstep
    obtain ⟨hcfg, ht, -⟩ := hostMove_only hmove
    refine advanceTime_chipInv (blockEdge_chipInv (engineEdge_chipInv hbegin hengine) ?_ ?_)
    · rw [latchPins_cfg, hcfg, engineEdge_cfg hengine]
    · rw [latchPins_t, ht, engineEdge_t hengine]
  · rcases step_cases hstep with ⟨-, rfl⟩ | ⟨hr, -⟩
    · exact advanceTime_chipInv (resetEdge_chipInv hbegin.array)
    · rw [hrst] at hr; cases hr

end Sys2Proof.Machine
end

section
/-! PROOFS. The line context stays in range, its pins at their phases (R21 to R24, R31, R164, R193 to R199, R241). -/

namespace Sys2Proof.Machine

/-! ## The host sequencer and the line context -/

/-- An accepted START has its execution edge now (R240). -/
def AcceptsStart (s : State) : Prop :=
  s.host.pending = true ∧ decode .host s.host.cmd s.host.arg = .ok (.start 0) ∧
  s.host.running = false

/-- A STOP has its execution edge now (R241). -/
def LatchedStop (s : State) : Prop :=
  s.host.pending = true ∧ decode .host s.host.cmd s.host.arg = .ok .stop

/-- What a move of the host sequencer does to the line context and to `running`: nothing, or the end of
`HS_STOPWAIT`, or an accepted START or STOP (R240, R241, R273). -/
theorem hostMove_line {b h0 : State} (m : HostMove b (hostReady b) h0) :
    (h0.line = b.line ∧ h0.host.running = b.host.running ∧
      (b.host.pending = false → b.host.phase = .stopwait → h0.host.phase = .stopwait)) ∨
    (b.host.pending = false ∧ b.host.phase = .stopwait ∧ h0.line = { b.line with vsync := false } ∧
      h0.host.running = b.host.running) ∨
    (AcceptsStart b ∧ h0 = startRunning (hostReady b)) ∨
    (LatchedStop b ∧ b.host.running = true ∧ h0 = stopRunning (hostReady b)) := by
  cases m
  case quiet => exact .inl ⟨rfl, rfl, fun _ h => h⟩
  case stopEnd np ph _ => exact .inr (.inl ⟨np, ph, rfl, rfl⟩)
  case start hp hr hd => exact .inr (.inr (.inl ⟨⟨hp, hd, hr⟩, rfl⟩))
  case stop hp hr hd => exact .inr (.inr (.inr ⟨⟨hp, hd⟩, hr, rfl⟩))
  case enqueue hp _ =>
    left; rw [enqueuePixel_only]; exact ⟨rfl, rfl, fun np => by simp [hp] at np⟩
  case rect np ph =>
    left
    simp only [rectStep, rectNext]
    rw [enqueuePixel_only]
    repeat' split
    all_goals exact ⟨rfl, rfl, fun _ h => by simp [ph] at h⟩
  case next ph _ _ =>
    exact .inl ⟨rfl, rfl, fun _ h => by simp [h] at ph⟩
  case finish ph _ _ =>
    exact .inl ⟨rfl, rfl, fun _ h => by simp [h] at ph⟩
  case answer hp | beginRect hp | gethealth hp _ | request hp _ _ _ | noRows hp _ =>
    exact .inl ⟨rfl, rfl, fun np => by simp [hp] at np⟩

/-! ## LINETICK and the line context (R163) -/

/-- The tick of the line timer is taken: the line sequencer is idle and the timer wraps or a tick is held. -/
def TakesTick (s : State) : Prop :=
  s.line.phase = .idle ∧ (newTick s = true ∨ s.line.tickPending = true)

/-- A taken tick on the line context: the next line is entered, and the wrap begins a frame (R163 to R165). -/
theorem takeTick_line (w : Nat) (s : State) :
    (takeTick w s).line = { s.line with
      currentLine := nextLine s.cfg s.line.currentLine
      framebufferRow := if nextLine s.cfg s.line.currentLine = 0 then 0 else s.line.framebufferRow
      frameCount := if nextLine s.cfg s.line.currentLine = 0 then s.line.frameCount + 1
        else s.line.frameCount
      inVblank := !activeLine s.cfg (nextLine s.cfg s.line.currentLine)
      vsync := decide (lineClass s.cfg (nextLine s.cfg s.line.currentLine) = .syncPulse)
      hsync := true
      phase := .hsync
      dwell := s.cfg.hSyncClks } := by
  simp only [takeTick]
  split
  · rw [frameBoundary_only]; rfl
  · rfl

/-- LINETICK on the line context: the timer counts; a tick that is not taken is held, and of two that meet
on an idle sequencer one stays held (R31, R32, R163). -/
theorem lineTick_line (w : Nat) (s : State) :
    (TakesTick s ∧ (lineTick w s).line = { (takeTick w s).line with
      hCount := if newTick s then 0 else s.line.hCount + 1
      tickPending := newTick s && s.line.tickPending }) ∨
    (¬TakesTick s ∧ (lineTick w s).line = { s.line with
      hCount := if newTick s then 0 else s.line.hCount + 1
      tickPending := newTick s || s.line.tickPending }) := by
  have hphase : (countCycle s).line.phase = s.line.phase := rfl
  have hheld : (countCycle s).line.tickPending = s.line.tickPending := rfl
  simp only [TakesTick, lineTick, hphase, hheld]
  by_cases hi : s.line.phase = .idle
  · rw [if_pos hi]
    rcases hp : s.line.tickPending with _ | _
    · rcases ht : newTick s with _ | _
      · right; simp [hi, ht, hp, countCycle]
      · left; simp [hi, ht, hp, takeTick_line, countCycle]
    · left
      refine ⟨⟨hi, .inr rfl⟩, ?_⟩
      rw [if_pos rfl, takeTick_line, takeTick_line]
      rcases ht : newTick s with _ | _ <;> simp only [countCycle, ht] <;> rfl
  · rw [if_neg hi]
    right
    rcases ht : newTick s with _ | _ <;> simp [hi, ht, countCycle, setTickPending]

/-- The line sequencer's own advance leaves the line, the timer and `VSYNC` alone (R42). -/
theorem lineAdvance_line_only (d : Bool) (s : State) :
    (lineAdvance d s).line = { (lineAdvance d s).line with
      currentLine := s.line.currentLine
      frameCount := s.line.frameCount
      inVblank := s.line.inVblank
      hCount := s.line.hCount
      tickPending := s.line.tickPending
      vsync := s.line.vsync } := by
  simp only [lineAdvance, endLinePhase, endHsync, endTransfer, endPulse]
  repeat' split
  all_goals rfl

@[simp] theorem lineAdvance_currentLine (d : Bool) (s : State) :
    (lineAdvance d s).line.currentLine = s.line.currentLine := by rw [lineAdvance_line_only]
@[simp] theorem lineAdvance_frameCount (d : Bool) (s : State) :
    (lineAdvance d s).line.frameCount = s.line.frameCount := by rw [lineAdvance_line_only]
@[simp] theorem lineAdvance_inVblank (d : Bool) (s : State) :
    (lineAdvance d s).line.inVblank = s.line.inVblank := by rw [lineAdvance_line_only]
@[simp] theorem lineAdvance_hCount (d : Bool) (s : State) :
    (lineAdvance d s).line.hCount = s.line.hCount := by rw [lineAdvance_line_only]
@[simp] theorem lineAdvance_tickPending (d : Bool) (s : State) :
    (lineAdvance d s).line.tickPending = s.line.tickPending := by rw [lineAdvance_line_only]
@[simp] theorem lineAdvance_vsync (d : Bool) (s : State) :
    (lineAdvance d s).line.vsync = s.line.vsync := by rw [lineAdvance_line_only]

/-- The line sequencer asks for its transfer at this edge: the horizontal sync pulse of an active line ends
(R164, R191). -/
def Fetches (s : State) : Prop :=
  s.line.phase = .hsync ∧ s.line.dwell ≤ 1 ∧ activeLine s.cfg s.line.currentLine = true

/-- `framebuffer_row` moves on, with its wrap, exactly as an active line asks for its transfer (R191). -/
theorem lineAdvance_framebufferRow (d : Bool) (s : State) :
    (Fetches s ∧ (lineAdvance d s).line.phase = .xfer ∧ (lineAdvance d s).line.framebufferRow =
      nextFramebufferRow s.cfg s.line.framebufferRow) ∨
    (¬Fetches s ∧ (lineAdvance d s).line.framebufferRow = s.line.framebufferRow) := by
  by_cases hf : Fetches s
  · obtain ⟨hph, hd, ha⟩ := hf
    left
    simp [Fetches, lineAdvance, endLinePhase, endHsync, beginTransfer, hph, hd, ha]
  · refine .inr ⟨hf, ?_⟩
    simp only [lineAdvance]
    split
    · rfl
    · simp only [endTransfer]; repeat' split
      all_goals rfl
    · split
      next hd =>
        simp only [endLinePhase]
        split
        case h_2 hph =>
          have ha : ¬activeLine s.cfg s.line.currentLine = true := fun ha => hf ⟨hph, hd, ha⟩
          rw [endHsync, if_neg ha]
        case h_5 =>
          simp only [endPulse]
          repeat' split
          all_goals rfl
        all_goals rfl
      · rfl

/-! ## The pins at their phases -/

/-- The clauses of `LineInv` that tie the pins and the pixel count to the phase of the line sequencer. -/
structure PhasePins (c : Config) (l : LineCtx) : Prop where
  hsync : l.hsync = decide (l.phase = .hsync)
  se : l.se = decide (l.phase = .stream)
  sc : l.sc = decide (l.phase = .stream ∧ l.scHalf = false)
  pixels : l.phase = .stream → l.pixCount < c.visibleWidth
  pipeline : l.phase ≠ .idle → l.phase ≠ .hsync → activeLine c l.currentLine = true

theorem LineInv.phasePins {s : State} (h : LineInv s) : PhasePins s.cfg s.line :=
  ⟨h.hsync, h.se, h.sc, h.pixels, h.pipeline⟩

/-- In `LS_HSYNC` the pins are those of any idle line sequencer, with `HSYNC` raised (R164). -/
theorem PhasePins.enter {c : Config} {l l' : LineCtx} (h : PhasePins c l) (hi : l.phase = .idle)
    (hph : l'.phase = .hsync) (hhs : l'.hsync = true) (hse : l'.se = l.se) (hsc : l'.sc = l.sc) :
    PhasePins c l' where
  hsync := by simp [hph, hhs]
  se := by simp [hse, h.se, hph, hi]
  sc := by simp [hsc, h.sc, hph, hi]
  pixels := by simp [hph]
  pipeline := by simp [hph]

/-- The line sequencer's advance keeps its pins at its phase, phase by phase (R164, R191 to R195). -/
theorem lineAdvance_phasePins {s : State} (d : Bool) (hw : 1 ≤ s.cfg.visibleWidth)
    (h : PhasePins s.cfg s.line) : PhasePins s.cfg (lineAdvance d s).line := by
  obtain ⟨hhsync, hse, hsc, hpix, hact⟩ := h
  simp only [lineAdvance]
  split
  · exact ⟨hhsync, hse, hsc, hpix, hact⟩
  next hph =>
    have ha := hact (by simp [hph]) (by simp [hph])
    rw [hph] at hhsync hse hsc
    simp only [endTransfer]
    repeat' split
    · exact ⟨hhsync, rfl, rfl, fun _ => hw, fun _ _ => ha⟩
    · exact ⟨hhsync, hse, by simpa using hsc, by simp, fun _ _ => ha⟩
    · exact ⟨by simpa [hph] using hhsync, by simpa [hph] using hse, by simpa [hph] using hsc, hpix, hact⟩
  next hnidle hnxfer =>
    split
    · simp only [endLinePhase]
      split
      next hph => exact absurd hph hnidle
      next hph =>
        rw [hph] at hhsync hse hsc
        simp only [endHsync]
        split
        next ha => exact ⟨rfl, hse, hsc, fun h => (nomatch h), fun _ _ => ha⟩
        · exact ⟨rfl, hse, by simpa using hsc, by simp, by simp⟩
      next hph => exact absurd hph hnxfer
      next hph =>
        have ha := hact (by simp [hph]) (by simp [hph])
        rw [hph] at hhsync
        exact ⟨hhsync, rfl, rfl, fun _ => hw, fun _ _ => ha⟩
      next hph =>
        have ha := hact (by simp [hph]) (by simp [hph])
        split
        · simp only [endPulse]
          split
          · exact ⟨by simpa [hph] using hhsync, rfl, rfl, by simp, by simp⟩
          next hlast =>
            exact ⟨hhsync, hse, by simp [beginPulse, hph], fun _ => Nat.lt_of_not_le hlast,
              fun _ _ => ha⟩
        · exact ⟨hhsync, hse, by simp [endHighHalf], hpix, hact⟩
    · exact ⟨hhsync, hse, hsc, hpix, hact⟩

/-! ## The line context in range -/

/-- `LineInv` speaks of the parameters, the line context, `running` and whether STOP still waits. -/
theorem LineInv.congr {s u : State} (h : LineInv s) (hcfg : u.cfg = s.cfg) (hline : u.line = s.line)
    (hrun : u.host.running = s.host.running)
    (hwait : s.host.phase = .stopwait → u.host.phase = .stopwait) : LineInv u where
  line_lt := by rw [hline, hcfg]; exact h.line_lt
  row_lt := by rw [hline, hcfg]; exact h.row_lt
  count_lt := by rw [hline, hcfg]; exact h.count_lt
  stopped := by rw [hline, hrun]; exact h.stopped
  vblank := by rw [hline, hcfg]; exact h.vblank
  hsync := by rw [hline]; exact h.hsync
  se := by rw [hline]; exact h.se
  sc := by rw [hline]; exact h.sc
  after_stop hr hp := by
    rw [hline]; exact h.after_stop (hrun ▸ hr) (mt hwait hp)
  vsync := by rw [hline, hcfg]; exact h.vsync
  pixels := by rw [hline, hcfg]; exact h.pixels
  pipeline := by rw [hline, hcfg]; exact h.pipeline

theorem startRunning_running (s : State) : (startRunning s).host.running = true := by
  simp [startRunning]

theorem startRunning_line (s : State) : (startRunning s).line = { s.line with
    hCount := 0, tickPending := false, currentLine := 0, framebufferRow := 0
    inVblank := !activeLine s.cfg 0
    vsync := decide (lineClass s.cfg 0 = .syncPulse)
    hsync := true, phase := .hsync, dwell := s.cfg.hSyncClks } := by
  simp only [startRunning, respond_line]
  rw [startFrameRun_only]; rfl

/-- START enters line 0 from an idle line sequencer (R240). -/
theorem startRunning_lineInv {s : State} (hidle : s.line.phase = .idle) (h : LineInv s) :
    LineInv (startRunning s) := by
  have hline := startRunning_line s
  have hcfg : (startRunning s).cfg = s.cfg := by simp [startRunning]
  have hrun := startRunning_running s
  have hpins : PhasePins s.cfg (startRunning s).line :=
    h.phasePins.enter hidle (by rw [hline]) (by rw [hline]) (by rw [hline]) (by rw [hline])
  have hpixels := hpins.pixels
  have hpipeline := hpins.pipeline
  exact {
    line_lt := by rw [hline, hcfg]; exact Nat.zero_lt_of_lt h.line_lt
    row_lt := by rw [hline, hcfg]; exact Nat.zero_lt_of_lt h.row_lt
    count_lt := by rw [hline, hcfg]; exact Nat.zero_lt_of_lt h.count_lt
    stopped := by simp [hrun]
    vblank := by rw [hline, hcfg]
    hsync := hpins.hsync
    se := hpins.se
    sc := hpins.sc
    after_stop := by simp [hrun]
    vsync := by rw [hline, hcfg]; exact of_decide_eq_true
    pixels := by rw [hcfg]; exact hpixels
    pipeline := by rw [hcfg]; exact hpipeline }

/-- STOP stops the timer and leaves the line in progress (R241). -/
theorem stopRunning_lineInv {s : State} (h : LineInv s) : LineInv (stopRunning s) where
  line_lt := h.line_lt
  row_lt := h.row_lt
  count_lt := Nat.zero_lt_of_lt h.count_lt
  stopped _ := ⟨rfl, rfl⟩
  vblank := h.vblank
  hsync := h.hsync
  se := h.se
  sc := h.sc
  after_stop _ hp := absurd rfl hp
  vsync := h.vsync
  pixels := h.pixels
  pipeline := h.pipeline

/-- A move of the host sequencer keeps the line context in range: START finds the line sequencer idle, and
`HS_STOPWAIT` is left with `VSYNC` 0 (R240, R241). -/
theorem hostMove_lineInv {b h0 : State} (m : HostMove b (hostReady b) h0) (a : AgentsInv b)
    (h : LineInv b) : LineInv h0 := by
  have hcfg := (hostMove_only m).1
  rcases hostMove_line m with ⟨hline, hrun, hwait⟩ | ⟨-, hph, hline, hrun⟩ | ⟨⟨hp, -, hr⟩, rfl⟩ |
    ⟨-, -, rfl⟩
  · refine h.congr hcfg hline hrun fun hph => hwait ?_ hph
    by_contra hp
    simp [a.pending_idle (by simpa using hp)] at hph
  · have hcleared : LineInv { b with
        line := { b.line with vsync := false }, host := { b.host with phase := .idle } } :=
      { h with after_stop := fun _ _ => rfl, vsync := fun hv => nomatch hv }
    exact hcleared.congr hcfg hline hrun fun hi => nomatch hi
  · have hidle : b.line.phase = .idle :=
      (a.stopped_quiet hr (by rw [a.pending_idle hp]; simp)).1
    exact startRunning_lineInv hidle (h.congr rfl rfl rfl id)
  · exact stopRunning_lineInv (h.congr rfl rfl rfl id)

theorem nextLine_lt {c : Config} {L : Nat} (h : L < c.totalLines) : nextLine c L < c.totalLines := by
  simp only [nextLine]; split <;> omega

theorem nextFramebufferRow_lt {c : Config} {r : Nat} (h : r < c.visibleHeight) :
    nextFramebufferRow c r < c.visibleHeight := by
  simp only [nextFramebufferRow]; split <;> omega

theorem lineAdvance_lineInv {s : State} (d : Bool) (hw : 1 ≤ s.cfg.visibleWidth) (h : LineInv s) :
    LineInv (lineAdvance d s) := by
  obtain ⟨hhsync, hse, hsc, hpixels, hpipeline⟩ := lineAdvance_phasePins d hw h.phasePins
  exact {
    line_lt := by simpa using h.line_lt
    row_lt := by
      rcases lineAdvance_framebufferRow d s with ⟨-, -, hrow⟩ | ⟨-, hrow⟩
      · simpa only [hrow, lineAdvance_cfg] using nextFramebufferRow_lt h.row_lt
      · simpa only [hrow, lineAdvance_cfg] using h.row_lt
    count_lt := by simpa using h.count_lt
    stopped := by simpa using h.stopped
    vblank := by simpa using h.vblank
    hsync := hhsync
    se := hse
    sc := hsc
    after_stop := by simpa using h.after_stop
    vsync := by simpa using h.vsync
    pixels := by simpa using hpixels
    pipeline := by simpa using hpipeline }

theorem lineTick_lineInv {s : State} (w : Nat) (hp : 1 ≤ s.cfg.linePeriod)
    (hrun : s.host.running = true) (h : LineInv s) : LineInv (lineTick w s) := by
  have hcount : (if newTick s then 0 else s.line.hCount + 1) < s.cfg.linePeriod := by
    have hlt := h.count_lt
    split
    · omega
    next ht => simp [newTick] at ht; omega
  have hrow : (if nextLine s.cfg s.line.currentLine = 0 then 0 else s.line.framebufferRow) <
      s.cfg.visibleHeight := by
    have hlt := h.row_lt
    split <;> omega
  rcases lineTick_line w s with ⟨⟨hidle, -⟩, hline⟩ | ⟨-, hline⟩
  · rw [takeTick_line] at hline
    obtain ⟨hhsync, hse, hsc, hpixels, hpipeline⟩ : PhasePins s.cfg (lineTick w s).line :=
      h.phasePins.enter hidle (by rw [hline]) (by rw [hline]) (by rw [hline]) (by rw [hline])
    exact {
      line_lt := by rw [hline, lineTick_cfg]; exact nextLine_lt h.line_lt
      row_lt := by rw [hline, lineTick_cfg]; exact hrow
      count_lt := by rw [hline, lineTick_cfg]; exact hcount
      stopped := by simp [hrun]
      vblank := by rw [hline, lineTick_cfg]
      hsync := hhsync
      se := hse
      sc := hsc
      after_stop := by simp [hrun]
      vsync := by rw [hline, lineTick_cfg]; exact of_decide_eq_true
      pixels := by simpa using hpixels
      pipeline := by simpa using hpipeline }
  · have hcounted : LineInv { s with line := (lineTick w s).line } := by
      rw [hline]
      exact { h with
        count_lt := hcount
        stopped := fun hr => by rw [hrun] at hr; cases hr }
    exact hcounted.congr (lineTick_cfg w s) rfl (by simp) (by simp)

theorem lineEdge_lineInv {s : State} (d : Bool) (w : Nat) (hw : 1 ≤ s.cfg.visibleWidth)
    (hp : 1 ≤ s.cfg.linePeriod) (h : LineInv s) : LineInv (lineEdge d w s) := by
  have hadvance := lineAdvance_lineInv d hw h
  simp only [lineEdge]
  split
  next hrun => exact lineTick_lineInv w (by simpa using hp) hrun hadvance
  · exact hadvance

theorem blockEdge_lineInv {b h g : State} (hw : 1 ≤ h.cfg.visibleWidth) (hp : 1 ≤ h.cfg.linePeriod)
    (hh : LineInv h) : LineInv (blockEdge b h g) := by
  have hjoin : LineInv (joinEdges b h g) := hh.congr rfl rfl rfl id
  simp only [blockEdge]
  split
  · exact hjoin
  · exact (lineEdge_lineInv (s := joinEdges b h g) _ b.host.writeIndex hw hp hjoin).congr (by simp)
      (sequencersEdge_line b _) (by simp) (by simp)

/-- The beginning of an edge touches nothing the requesters' discipline speaks of. -/
theorem beginEdge_agentsInv {s : State} (a : AgentsInv s) : AgentsInv (beginEdge s) :=
  ⟨a.line_ops, a.frame_ops, a.host_ops, a.pending_idle, a.stopwait_stopped, a.engine_use_stopped,
    a.stopped_quiet, a.line_word, a.frame_word, a.phase_op, a.line_op, a.frame_op, a.held_busy⟩

/-- Settles O57: a reset leaves the reset registers; any other edge is a move of the host sequencer, the
line sequencer's advance and LINETICK, each of which keeps the line context in range. -/
theorem lineRegistersAreKept : Obligations.LineRegistersAreKept := by
  intro s t hlines hperiod hagents hline hstep
  have hgeometry : s.cfg.GeometryOk := (step_admitted hstep).1
  rcases hrst : (pinsNow s).rst with _ | _
  · obtain ⟨h0, g, hmove, -, -, rfl⟩ := step_parts hrst hstep
    have hbegin : LineInv (beginEdge s) := hline.congr rfl rfl rfl id
    have hhost : LineInv h0 := hostMove_lineInv hmove (beginEdge_agentsInv hagents) hbegin
    have hcfg : h0.cfg = s.cfg := (hostMove_only hmove).1
    have hlatch : LineInv (latchPins (pinsNow s) (beginEdge s) h0) :=
      hhost.congr (by simp) (by simp) (by simp) (latchPins_stopwait ..).mpr
    have hblock := blockEdge_lineInv (b := beginEdge s) (g := g)
      (by rw [latchPins_cfg, hcfg]; exact hgeometry.1) (by rw [latchPins_cfg, hcfg]; exact hperiod) hlatch
    exact hblock.congr rfl rfl rfl id
  · rcases step_cases hstep with ⟨-, rfl⟩ | ⟨hr, -⟩
    · have hreset : LineInv (resetEdge (beginEdge s)) := by
        simp only [resetEdge]
        split <;> exact lineInv_resetRegisters hgeometry hlines hperiod
      exact hreset.congr rfl rfl rfl id
    · rw [hrst] at hr; cases hr

end Sys2Proof.Machine
end

section
/-! PROOFS. What no host command changes at its execution edge (R42, R68, R207, R273). -/

namespace Sys2Proof.Machine

/-! ## What a host command does at its execution edge -/

/-- What the execution edge of a host command leaves, by what it touches: the host sequencer alone and its
request line, the ring, the flags, or the generator (R42, R231, R273). -/
inductive CommandEffect (i : Instr) (s : State) : State → Prop where
  /-- an answer, or the entry of a phase, with the host sequencer's request -/
  | hostOnly (h : HostCtx) (w : Option Word) (ring : h.ring = s.host.ring)
      (writeIndex : h.writeIndex = s.host.writeIndex) (running : h.running = s.host.running)
      (last : (∀ now, i ≠ .refreshifneeded now) → h.lastRefreshTime = s.host.lastRefreshTime) :
      CommandEffect i s { s with host := h, req := { s.req with hs := w } }
  | enqueue (x y : Coord) (c : Nibble) (st : Status) (hi : i = .enqueue x y c) :
      CommandEffect i s (respond st 0 (enqueuePixel x.toNat y.toNat c s).1)
  | clearFlags (d : Word) : CommandEffect i s (respond .ok d (clearFlags s))
  | start (hi : i = .start 0) : CommandEffect i s (startRunning s)
  | stop (hi : i = .stop) : CommandEffect i s (stopRunning s)

/-- An answer is one of these effects. -/
theorem CommandEffect.answer (i : Instr) (s : State) (st : Status) (d : Word) :
    CommandEffect i s (respond st d s) := .hostOnly _ s.req.hs rfl rfl rfl fun _ => rfl

/-- So is a gated command, when it is one while stopped (R232). -/
theorem CommandEffect.gated {i : Instr} {s : State} {f : State → State}
    (h : CommandEffect i s (f s)) : CommandEffect i s (gated s f) := by
  simp only [Machine.gated]
  split
  · exact .answer i s .refused 0
  · exact h

theorem directAccess_effect (i j : Instr) (s : State) : CommandEffect i s (directAccess j s) := by
  simp only [directAccess]
  split
  · exact .gated (.hostOnly _ _ rfl rfl rfl fun _ => rfl)
  · exact .answer i s .illegal 0

/-- With rows to refresh, the loop begins with a request and no answer (R151, R9). -/
theorem beginRefall_effect (i j : Instr) {s : State} (hrows : s.cfg.dramRows ≠ 0) :
    CommandEffect i s (beginRefall j s) := by
  simp only [beginRefall, if_neg hrows]
  exact .hostOnly _ _ rfl rfl rfl fun _ => rfl

/-- The execution edge of every host command is one of the effects. -/
theorem exec_host_effect {i : Instr} {s t : State} (hadm : s.cfg.Admitted) (hport : i.port = .host)
    (h : exec i s = .next t) : CommandEffect i s t := by
  have hrows : s.cfg.dramRows ≠ 0 := Nat.one_le_iff_ne_zero.mp (geometry_rows hadm.1).1
  cases i
  case enqueue x y c => cases h; exact .enqueue x y c _ rfl
  case drawrect x y w hh c =>
    simp only [exec, execDrawrect] at h
    split at h <;> cases h
    · exact .answer _ s .ok 0
    · exact .hostOnly _ s.req.hs rfl rfl rfl fun _ => rfl
  case clearfb c =>
    cases h
    refine .gated ?_
    split
    · exact .answer _ s .ok 0
    · exact .hostOnly _ _ rfl rfl rfl fun _ => rfl
  case start m =>
    simp only [exec, execStart] at h
    split at h <;> cases h
    next hm => subst hm; exact .gated (.start rfl)
    · exact .answer _ s .illegal 0
  case stop =>
    simp only [exec, execStop] at h
    split at h <;> cases h
    · exact .stop rfl
    · exact .answer _ s .ok 0
  case gethealth => cases h; exact .clearFlags _
  case getframecount => cases h; exact .answer _ s .ok _
  case refreshifneeded now =>
    cases h
    refine .gated ?_
    split
    · exact beginRefall_effect _ _ hrows
    · exact .answer _ s .ok 0
  case memrefall => cases h; exact .gated (beginRefall_effect _ _ hrows)
  case memwrite | memread | memxfer | memrefrow => cases h; exact directAccess_effect _ _ s
  case write | read | xfer | refrow => cases hport

/-- Settles O24: each effect of an execution edge keeps to the registers its command owns (R42). -/
theorem hostCommandFrame : Obligations.HostCommandFrame := by
  intro i s t hadm hport hexec
  cases exec_host_effect hadm hport hexec
  case hostOnly h w hring hwrite hrun hlast =>
    exact ⟨fun _ _ => rfl, rfl, rfl, rfl, rfl, rfl, rfl, rfl, id, fun _ => ⟨rfl, rfl⟩,
      fun _ _ => ⟨rfl, hrun⟩, fun _ => ⟨hring, hwrite⟩, hlast⟩
  case enqueue x y c st hi =>
    rw [enqueuePixel_only]
    exact ⟨fun _ _ => rfl, rfl, rfl, rfl, rfl, rfl, rfl, rfl, id, fun _ => ⟨rfl, rfl⟩,
      fun _ _ => ⟨rfl, rfl⟩, fun hne => absurd hi (hne x y c), fun _ => rfl⟩
  case clearFlags d =>
    exact ⟨fun _ _ => rfl, rfl, rfl, rfl, rfl, rfl, rfl, rfl, by simp,
      fun _ => ⟨rfl, rfl⟩, fun _ _ => ⟨rfl, rfl⟩, fun _ => ⟨rfl, rfl⟩, fun _ => rfl⟩
  case start hi =>
    simp only [startRunning]
    rw [startFrameRun_only]
    exact ⟨fun _ _ => rfl, rfl, rfl, rfl, rfl, rfl, rfl, rfl, id, fun hne => absurd hi hne,
      fun hne => absurd hi hne, fun _ => ⟨rfl, rfl⟩, fun _ => rfl⟩
  case stop hi =>
    exact ⟨fun _ _ => rfl, rfl, rfl, rfl, rfl, rfl, rfl, rfl, id, fun _ => ⟨rfl, rfl⟩,
      fun _ hne => absurd hi hne, fun _ => ⟨rfl, rfl⟩, fun _ => rfl⟩

end Sys2Proof.Machine
end

section
/-! PROOFS. Which operation may change which register (R42): what a step without reset does to the generator's
registers, the ring, the refresh time, `read_index` and the chip, and the table row by row. -/

namespace Sys2Proof.Machine

/-! ## `done` at an edge -/

theorem enterPhase_phase_congr {n : Nat} {p : EngPhase} {s u : State} (hcfg : u.cfg = s.cfg) :
    (enterPhase n p u).eng.phase = (enterPhase n p s).eng.phase := by
  induction n generalizing p s u with
  | zero => rfl
  | succ n ih =>
    simp only [enterPhase, hcfg]
    split
    · exact ih (by simpa using hcfg)
    · rfl

/-- Whether an operation ends at this edge is a matter of the engine's registers (R130). -/
theorem doneOwner_congr {s u : State} (hcfg : u.cfg = s.cfg) (heng : u.eng = s.eng) :
    doneOwner u = doneOwner s := by
  have hphase : (engineAdvance u).eng.phase = (engineAdvance s).eng.phase := by
    simp only [engineAdvance, heng]
    repeat' split
    · rw [heng]
    · exact enterPhase_phase_congr (by simpa using hcfg)
    · simp [heng]
  simp only [doneOwner, heng, hphase]

@[simp] theorem doneOwner_beginEdge (s : State) : doneOwner (beginEdge s) = doneOwner s :=
  doneOwner_congr rfl rfl

/-! ## What an edge leaves of the host sequencer's registers -/

@[simp] theorem blockEdge_cfg (b h g : State) : (blockEdge b h g).cfg = h.cfg := by
  simp only [blockEdge]; split <;> simp
@[simp] theorem blockEdge_t (b h g : State) : (blockEdge b h g).t = h.t := by
  simp only [blockEdge]; split <;> simp
@[simp] theorem blockEdge_host (b h g : State) : (blockEdge b h g).host = h.host := by
  simp only [blockEdge]; split <;> simp
@[simp] theorem blockEdge_eng (b h g : State) : (blockEdge b h g).eng = g.eng := by
  simp only [blockEdge]; split <;> simp
@[simp] theorem blockEdge_overflow (b h g : State) :
    (blockEdge b h g).health.overflow = h.health.overflow := by
  simp only [blockEdge]; split <;> simp

/-! ## `running`: START and STOP (R240, R241) -/

theorem hostEdge_start {b : State} (p : PinIn) (h : AcceptsStart b) :
    hostEdge p b = .next (latchPins p b (startRunning (hostReady b))) := by
  obtain ⟨hp, hd, hr⟩ := h
  simp [hostEdge, executeCommand, hp, hd, exec, execStart, gated, hr, andThen]

theorem hostEdge_stop {b : State} (p : PinIn) (h : LatchedStop b) (hr : b.host.running = true) :
    hostEdge p b = .next (latchPins p b (stopRunning (hostReady b))) := by
  obtain ⟨hp, hd⟩ := h
  simp [hostEdge, executeCommand, hp, hd, exec, execStop, hr, andThen]

/-- The host edge, as the generator sees it: an accepted START, an accepted STOP, or neither, which leaves
`running`, the frame context and, but for `VSYNC`, the line context as they are. -/
theorem hostEdge_generator {p : PinIn} {b h : State} (he : hostEdge p b = .next h) :
    (AcceptsStart b ∧ h = latchPins p b (startRunning (hostReady b))) ∨
    (¬AcceptsStart b ∧ LatchedStop b ∧ b.host.running = true ∧
      h = latchPins p b (stopRunning (hostReady b))) ∨
    (¬AcceptsStart b ∧ (b.host.running = true → ¬LatchedStop b) ∧
      h.host.running = b.host.running ∧ h.frame = b.frame ∧
      h.line = { b.line with vsync := h.line.vsync }) := by
  by_cases hstart : AcceptsStart b
  · rw [hostEdge_start p hstart] at he; cases he
    exact .inl ⟨hstart, rfl⟩
  by_cases hstop : LatchedStop b ∧ b.host.running = true
  · rw [hostEdge_stop p hstop.1 hstop.2] at he; cases he
    exact .inr (.inl ⟨hstart, hstop.1, hstop.2, rfl⟩)
  obtain ⟨h0, hmove, he0⟩ := hostEdge_cases p b
  rw [he0] at he; cases he
  have hneither : h0.host.running = b.host.running ∧ h0.line = { b.line with vsync := h0.line.vsync } := by
    rcases hostMove_line hmove with ⟨hl, hr, -⟩ | ⟨-, -, hl, hr⟩ | ⟨ha, -⟩ | ⟨hl, hr, -⟩
    · exact ⟨hr, by rw [hl]⟩
    · exact ⟨hr, by rw [hl]⟩
    · exact absurd ha hstart
    · exact absurd ⟨hl, hr⟩ hstop
  obtain ⟨hrun, hline⟩ := hneither
  have hframe : h0.frame = b.frame := by
    rcases hostMove_frame hmove with ⟨hf, -⟩ | ⟨hr0, hr1, -⟩
    · exact hf
    · rw [hrun, hr0] at hr1; cases hr1
  refine .inr (.inr ⟨hstart, fun hr hl => hstop ⟨hl, hr⟩, ?_, ?_, ?_⟩)
  · rw [latchPins_running, hrun]
  · rw [latchPins_frame, hframe]
  · rw [latchPins_line]; exact hline

/-- `running` is set by an accepted START and cleared by a STOP, and by nothing else (R29, R42). -/
theorem hostEdge_running {p : PinIn} {b h : State} (he : hostEdge p b = .next h) :
    h.host.running = true ↔ AcceptsStart b ∨ (b.host.running = true ∧ ¬LatchedStop b) := by
  rcases hostEdge_generator he with ⟨ha, rfl⟩ | ⟨hna, hl, hr, rfl⟩ | ⟨hna, hnl, hrun, -⟩
  · simp [startRunning_running, ha]
  · simp [stopRunning, hna, hl]
  · rw [hrun]; exact ⟨fun hr => .inr ⟨hr, hnl hr⟩, fun h => (h.resolve_left hna).1⟩

/-- START is executed at an edge exactly as it is accepted there. -/
theorem startsHere_iff {p : PinIn} {b h : State} (he : hostEdge p b = .next h) :
    startsHere b h = true ↔ AcceptsStart b := by
  simp only [startsHere, Bool.and_eq_true, Bool.not_eq_true', hostEdge_running he]
  constructor
  · rintro ⟨ha | ⟨hr, -⟩, hnr⟩
    · exact ha
    · rw [hr] at hnr; cases hnr
  · exact fun ha => ⟨.inl ha, ha.2.2⟩

/-! ## The line context over a step -/

/-- What the line sequencer's advance reads, alike in two states. -/
structure SameProgress (s u : State) : Prop where
  cfg : u.cfg = s.cfg
  phase : u.line.phase = s.line.phase
  dwell : u.line.dwell = s.line.dwell
  pixCount : u.line.pixCount = s.line.pixCount
  scHalf : u.line.scHalf = s.line.scHalf
  currentLine : u.line.currentLine = s.line.currentLine

theorem SameProgress.fetches {s u : State} (h : SameProgress s u) : Fetches u ↔ Fetches s := by
  simp only [Fetches, h.cfg, h.phase, h.dwell, h.currentLine]

theorem SameProgress.beginsPulse {s u : State} (h : SameProgress s u) (d : Bool) :
    BeginsPulse d u ↔ BeginsPulse d s := by
  simp only [BeginsPulse, h.cfg, h.phase, h.dwell, h.scHalf, h.pixCount]

theorem SameProgress.lineAdvance_phase {s u : State} (h : SameProgress s u) (d : Bool) :
    (lineAdvance d u).line.phase = (lineAdvance d s).line.phase := by
  obtain ⟨hcfg, hphase, hdwell, hpix, hhalf, hcur⟩ := h
  rcases hph : s.line.phase <;> rw [hph] at hphase
  case idle => simp [lineAdvance, hphase, hph]
  case hsync =>
    simp only [lineAdvance, endLinePhase, endHsync, hphase, hph, hdwell, hcfg, hcur]
    repeat' split
    · rfl
    · rfl
    · simp [lineWait, hphase, hph]
  case xfer =>
    simp only [lineAdvance, endTransfer, hphase, hph, hcfg]
    repeat' split
    · rfl
    · rfl
    · rw [hphase, hph]
  case bp =>
    simp only [lineAdvance, endLinePhase, hphase, hph, hdwell]
    split
    · rfl
    · simp [lineWait, hphase, hph]
  case stream =>
    simp only [lineAdvance, endLinePhase, endPulse, hphase, hph, hdwell, hhalf, hcfg, hpix]
    repeat' split
    · rfl
    · simp [beginPulse]
    · simp [endHighHalf, hphase, hph]
    · simp [lineWait, hphase, hph]

/-- The line sequencer is idle at this edge or its last phase ends at it (R163). -/
def LineIdle (s : State) : Prop :=
  (lineAdvance (decide (doneOwner s = some .ls)) s).line.phase = .idle

/-- A tick is taken at this edge (R163): the generator runs and is not being stopped, the line sequencer is
idle, and the timer wraps or a tick is held. -/
def Taken (s : State) : Prop :=
  s.host.running = true ∧ ¬LatchedStop s ∧ LineIdle s ∧
  (s.line.hCount + 1 = s.cfg.linePeriod ∨ s.line.tickPending = true)

/-- A taken tick wraps `current_line` (R163, R165). -/
def Wraps (s : State) : Prop := Taken s ∧ s.line.currentLine + 1 = s.cfg.totalLines

/-- `framebuffer_row` at an edge that neither starts nor wraps a frame (R191). -/
def RowAfter (s t : State) : Prop :=
  (Fetches s ∧ t.line.framebufferRow = nextFramebufferRow s.cfg s.line.framebufferRow) ∨
  (¬Fetches s ∧ t.line.framebufferRow = s.line.framebufferRow)

/-- What a step without reset does to `running` and to the line context (R42, R163, R191, R240, R241). -/
inductive GeneratorStep (s t : State) : Prop where
  /-- an accepted START -/
  | start (ha : AcceptsStart s) (running : t.host.running = true)
      (currentLine : t.line.currentLine = 0) (inVblank : t.line.inVblank = !activeLine s.cfg 0)
      (frameCount : t.line.frameCount = s.line.frameCount) (row : t.line.framebufferRow = 0)
      (hCount : t.line.hCount = 0) (tickPending : t.line.tickPending = false)
  /-- a stopped generator, or one that is stopped at this edge -/
  | halted (na : ¬AcceptsStart s) (hs : s.host.running = true → LatchedStop s)
      (running : t.host.running = false) (currentLine : t.line.currentLine = s.line.currentLine)
      (inVblank : t.line.inVblank = s.line.inVblank) (frameCount : t.line.frameCount = s.line.frameCount)
      (row : RowAfter s t) (hCount : t.line.hCount = if s.host.running then 0 else s.line.hCount)
      (tickPending : t.line.tickPending = (!s.host.running && s.line.tickPending))
  /-- a running generator between its ticks, or with one that has to be held -/
  | counting (hr : s.host.running = true) (hs : ¬LatchedStop s) (nt : ¬Taken s)
      (running : t.host.running = true) (currentLine : t.line.currentLine = s.line.currentLine)
      (inVblank : t.line.inVblank = s.line.inVblank) (frameCount : t.line.frameCount = s.line.frameCount)
      (row : RowAfter s t) (hCount : t.line.hCount = if newTick s then 0 else s.line.hCount + 1)
      (tickPending : t.line.tickPending = (newTick s || s.line.tickPending))
  /-- a taken tick -/
  | tick (ht : Taken s) (nf : ¬Fetches s) (running : t.host.running = true)
      (currentLine : t.line.currentLine = nextLine s.cfg s.line.currentLine)
      (inVblank : t.line.inVblank = !activeLine s.cfg (nextLine s.cfg s.line.currentLine))
      (frameCount : t.line.frameCount = if nextLine s.cfg s.line.currentLine = 0
        then s.line.frameCount + 1 else s.line.frameCount)
      (row : t.line.framebufferRow = if nextLine s.cfg s.line.currentLine = 0
        then 0 else s.line.framebufferRow)
      (hCount : t.line.hCount = if newTick s then 0 else s.line.hCount + 1)
      (tickPending : t.line.tickPending = (newTick s && s.line.tickPending))

/-- What the host sequencer leaves of the generator at an edge that executes no START: all as it was, but a
stopped timer where a STOP is accepted (R241) and a `VSYNC` that the end of one may clear. -/
structure NotStarted (s u : State) : Prop where
  start : ¬AcceptsStart s
  progress : SameProgress s u
  inVblank : u.line.inVblank = s.line.inVblank
  frameCount : u.line.frameCount = s.line.frameCount
  framebufferRow : u.line.framebufferRow = s.line.framebufferRow
  running : u.host.running = true ↔ s.host.running = true ∧ ¬LatchedStop s
  timer : u.host.running = s.host.running →
    u.line.hCount = s.line.hCount ∧ u.line.tickPending = s.line.tickPending
  stopped : u.host.running ≠ s.host.running → u.line.hCount = 0 ∧ u.line.tickPending = false

theorem hostEdge_notStarted {p : PinIn} {s h u : State} (he : hostEdge p (beginEdge s) = .next h)
    (hna : ¬AcceptsStart s) (hcfg : u.cfg = s.cfg) (hline : u.line = h.line)
    (hhost : u.host.running = h.host.running) : NotStarted s u := by
  have hrunning : u.host.running = true ↔ s.host.running = true ∧ ¬LatchedStop s := by
    rw [hhost, hostEdge_running he]; exact or_iff_right hna
  rcases hostEdge_generator he with ⟨ha, -⟩ | ⟨-, -, hr, rfl⟩ | ⟨-, -, hr, -, hl⟩
  · exact absurd ha hna
  · have hl : u.line = { s.line with hCount := 0, tickPending := false } := by
      rw [hline, latchPins_line]; rfl
    have hoff : u.host.running = false := by rw [hhost, latchPins_running]; rfl
    have hon : s.host.running = true := hr
    exact ⟨hna, ⟨hcfg, by rw [hl], by rw [hl], by rw [hl], by rw [hl], by rw [hl]⟩, by rw [hl],
      by rw [hl], by rw [hl], hrunning, by simp [hoff, hon], by simp [hl]⟩
  · have hl' : u.line = { s.line with vsync := h.line.vsync } := hline.trans hl
    have hsame : u.host.running = s.host.running := hhost.trans hr
    exact ⟨hna, ⟨hcfg, by rw [hl'], by rw [hl'], by rw [hl'], by rw [hl'], by rw [hl']⟩, by rw [hl'],
      by rw [hl'], by rw [hl'], hrunning, by simp [hl'], by simp [hsame]⟩

theorem NotStarted.rowAfter {s u : State} (h : NotStarted s u) (d : Bool) :
    (Fetches s ∧ (lineAdvance d u).line.phase = .xfer ∧ (lineAdvance d u).line.framebufferRow =
      nextFramebufferRow s.cfg s.line.framebufferRow) ∨
    (¬Fetches s ∧ (lineAdvance d u).line.framebufferRow = s.line.framebufferRow) := by
  have hrow := lineAdvance_framebufferRow d u
  rwa [h.progress.fetches, h.progress.cfg, h.framebufferRow] at hrow

/-- A generator that does not run has its line sequencer advanced and no more. -/
theorem NotStarted.halted {s u t : State} (h : NotStarted s u) (d : Bool)
    (hoff : u.host.running = false) (hline : t.line = (lineAdvance d u).line)
    (hrun : t.host.running = u.host.running) : GeneratorStep s t := by
  have hs : s.host.running = true → LatchedStop s := fun hr => by
    by_contra hn
    rw [h.running.mpr ⟨hr, hn⟩] at hoff; cases hoff
  have htimer : u.line.hCount = (if s.host.running then 0 else s.line.hCount) ∧
      u.line.tickPending = (!s.host.running && s.line.tickPending) := by
    rcases hon : s.host.running with _ | _
    · simpa using h.timer (by rw [hoff, hon])
    · simpa using h.stopped (by rw [hoff, hon]; simp)
  refine .halted h.start hs (hrun.trans hoff) ?_ ?_ ?_ ?_ ?_ ?_
  · rw [hline, lineAdvance_currentLine, h.progress.currentLine]
  · rw [hline, lineAdvance_inVblank, h.inVblank]
  · rw [hline, lineAdvance_frameCount, h.frameCount]
  · rw [RowAfter, hline]; exact (h.rowAfter d).imp_left fun hf => ⟨hf.1, hf.2.2⟩
  · rw [hline, lineAdvance_hCount, htimer.1]
  · rw [hline, lineAdvance_tickPending, htimer.2]

/-- A generator that runs has LINETICK after the advance (R163). -/
theorem NotStarted.ticking {s u t : State} (h : NotStarted s u) (w : Nat)
    (hon : u.host.running = true)
    (hline : t.line = (lineTick w (lineAdvance (decide (doneOwner s = some .ls)) u)).line)
    (hrun : t.host.running = u.host.running) : GeneratorStep s t := by
  obtain ⟨hr, hs⟩ := h.running.mp hon
  obtain ⟨hcount, hheld⟩ := h.timer (hon.trans hr.symm)
  have hphase := h.progress.lineAdvance_phase (decide (doneOwner s = some .ls))
  have hrow := h.rowAfter (decide (doneOwner s = some .ls))
  have htick : newTick (lineAdvance (decide (doneOwner s = some .ls)) u) = newTick s := by
    simp [newTick, hcount, h.progress.cfg]
  have htaken : TakesTick (lineAdvance (decide (doneOwner s = some .ls)) u) ↔ Taken s := by
    rw [TakesTick, Taken, LineIdle, hphase, htick]
    simp [hheld, hr, hs, newTick]
  rcases lineTick_line w (lineAdvance (decide (doneOwner s = some .ls)) u) with
    ⟨ht, hl⟩ | ⟨hnt, hl⟩ <;> rw [hl] at hline
  · rw [takeTick_line] at hline
    have hnf : ¬Fetches s := fun hf => by
      obtain ⟨-, hx, -⟩ | ⟨hn, -⟩ := hrow
      · rw [ht.1] at hx; cases hx
      · exact hn hf
    have hkept := (hrow.resolve_left fun hf => hnf hf.1).2
    refine .tick (htaken.mp ht) hnf (hrun.trans hon) ?_ ?_ ?_ ?_ ?_ ?_ <;> rw [hline] <;>
      simp [htick, h.progress.cfg, h.progress.currentLine, hcount, hheld, h.frameCount, hkept]
  · refine .counting hr hs (mt htaken.mpr hnt) (hrun.trans hon) ?_ ?_ ?_ ?_ ?_ ?_
    · rw [hline, ← h.progress.currentLine]; simp
    · rw [hline, ← h.inVblank]; simp
    · rw [hline, ← h.frameCount]; simp
    · rw [RowAfter, hline]; exact hrow.imp_left fun hf => ⟨hf.1, hf.2.2⟩
    · rw [hline, htick, ← hcount]; simp
    · rw [hline, htick, ← hheld]; simp

theorem step_generatorStep {s t : State} (hrst : (pinsNow s).rst = false) (hstep : step s = .next t) :
    GeneratorStep s t := by
  obtain ⟨h0, g, hmove, hhost, -, rfl⟩ := step_parts hrst hstep
  have hcfg : (latchPins (pinsNow s) (beginEdge s) h0).cfg = s.cfg := by
    rw [latchPins_cfg, (hostMove_only hmove).1]; rfl
  generalize latchPins (pinsNow s) (beginEdge s) h0 = h at hhost hcfg ⊢
  have hstarts := startsHere_iff hhost
  by_cases ha : AcceptsStart s
  · have hrun : h.host.running = true := (hostEdge_running hhost).mpr (.inl ha)
    have hline : (advanceTime (blockEdge (beginEdge s) h g)).line =
        (startRunning (hostReady (beginEdge s))).line := by
      rw [blockEdge, if_pos (hstarts.mpr ha), advanceTime_line, joinEdges_line]
      rw [hostEdge_start (b := beginEdge s) _ ha] at hhost; cases hhost
      exact latchPins_line ..
    rw [startRunning_line] at hline
    refine .start ha (by simpa using hrun) ?_ ?_ ?_ ?_ ?_ ?_ <;> rw [hline] <;> rfl
  · have hjoin : NotStarted s (joinEdges (beginEdge s) h g) :=
      hostEdge_notStarted hhost ha hcfg rfl rfl
    rw [blockEdge, if_neg (mt hstarts.mp ha)]
    rcases hrun : h.host.running with _ | _
    · exact hjoin.halted (decide (doneOwner s = some .ls)) hrun (by simp [lineEdge, hrun]) (by simp)
    · exact hjoin.ticking s.host.writeIndex hrun (by simp [lineEdge, hrun]) (by simp)

/-! ## The rows of R42 about the generator -/

theorem AcceptsStart.not_taken {s : State} (h : AcceptsStart s) : ¬Taken s := fun ht => by
  have hon := ht.1
  rw [h.2.2] at hon; cases hon

/-- No START is accepted by a generator that runs (R232). -/
theorem not_acceptsStart_of_running {s : State} (h : s.host.running = true) : ¬AcceptsStart s :=
  fun ha => by rw [ha.2.2] at h; cases h

theorem not_taken_of_stopped {s : State} (h : s.host.running = true → LatchedStop s) : ¬Taken s :=
  fun ht => ht.2.1 (h ht.1)

theorem nextLine_eq_zero {c : Config} {L : Nat} : nextLine c L = 0 ↔ L + 1 = c.totalLines := by
  simp only [nextLine]; split <;> simp_all

theorem newTick_iff {s : State} : newTick s = true ↔ s.line.hCount + 1 = s.cfg.linePeriod := by
  simp [newTick]

/-- `current_line` and `in_vblank` (R21, R24, R163, R164). -/
theorem GeneratorStep.currentLine_row {s t : State} (h : GeneratorStep s t) :
    (Taken s → t.line.currentLine =
      if s.line.currentLine + 1 = s.cfg.totalLines then 0 else s.line.currentLine + 1) ∧
    (AcceptsStart s → t.line.currentLine = 0) ∧
    (Taken s ∨ AcceptsStart s → t.line.inVblank = !activeLine s.cfg t.line.currentLine) ∧
    (¬Taken s → ¬AcceptsStart s → t.line.currentLine = s.line.currentLine ∧
      t.line.inVblank = s.line.inVblank) := by
  cases h
  case start ha _ hcur hvb _ _ _ _ => simp [hcur, hvb, ha, ha.not_taken]
  case halted na hs _ hcur hvb _ _ _ _ => simp [hcur, hvb, na, not_taken_of_stopped hs]
  case counting hr _ nt _ hcur hvb _ _ _ _ => simp [hcur, hvb, nt, not_acceptsStart_of_running hr]
  case tick ht _ _ hcur hvb _ _ _ _ =>
    simp [hcur, hvb, ht, not_acceptsStart_of_running ht.1, nextLine]

/-- `frame_count` (R23, R165). -/
theorem GeneratorStep.frameCount_row {s t : State} (h : GeneratorStep s t) :
    (Wraps s → t.line.frameCount = s.line.frameCount + 1) ∧
    (¬Wraps s → t.line.frameCount = s.line.frameCount) := by
  cases h
  case start ha _ _ _ hfc _ _ _ => simp [hfc, Wraps, ha.not_taken]
  case halted na hs _ _ _ hfc _ _ _ => simp [hfc, Wraps, not_taken_of_stopped hs]
  case counting nt _ _ _ hfc _ _ _ => simp [hfc, Wraps, nt]
  case tick ht _ _ _ _ hfc _ _ _ => simp [hfc, Wraps, ht, nextLine_eq_zero]

/-- `framebuffer_row` (R22, R165, R191). -/
theorem GeneratorStep.framebufferRow_row {s t : State} (h : GeneratorStep s t) :
    (AcceptsStart s ∨ Wraps s → t.line.framebufferRow = 0) ∧
    (Fetches s → ¬AcceptsStart s → t.line.framebufferRow =
      if s.line.framebufferRow + 1 = s.cfg.visibleHeight then 0 else s.line.framebufferRow + 1) ∧
    (¬AcceptsStart s → ¬Wraps s → ¬Fetches s → t.line.framebufferRow = s.line.framebufferRow) := by
  have hstays : ¬AcceptsStart s → ¬Wraps s → RowAfter s t →
      (AcceptsStart s ∨ Wraps s → t.line.framebufferRow = 0) ∧
      (Fetches s → ¬AcceptsStart s → t.line.framebufferRow =
        if s.line.framebufferRow + 1 = s.cfg.visibleHeight then 0 else s.line.framebufferRow + 1) ∧
      (¬AcceptsStart s → ¬Wraps s → ¬Fetches s →
        t.line.framebufferRow = s.line.framebufferRow) := by
    rintro na nw (⟨hf, hrow⟩ | ⟨nf, hrow⟩)
    · exact ⟨fun h => absurd h (not_or.mpr ⟨na, nw⟩), fun _ _ => hrow, fun _ _ nf => absurd hf nf⟩
    · exact ⟨fun h => absurd h (not_or.mpr ⟨na, nw⟩), fun hf => absurd hf nf, fun _ _ _ => hrow⟩
  cases h
  case start ha _ _ _ _ hrow _ _ => simp [hrow, ha]
  case halted na hs _ _ _ _ hrow _ _ => exact hstays na (fun hw => not_taken_of_stopped hs hw.1) hrow
  case counting hr _ nt _ _ _ _ hrow _ _ =>
    exact hstays (not_acceptsStart_of_running hr) (fun hw => nt hw.1) hrow
  case tick ht nf _ _ _ _ hrow _ _ =>
    simp only [nextLine_eq_zero] at hrow
    by_cases hwrap : s.line.currentLine + 1 = s.cfg.totalLines <;>
      simp [hrow, hwrap, ht, nf, Wraps, not_acceptsStart_of_running ht.1]

/-- `h_count` and `tick_pending` (R31, R32, R163, R240, R241). -/
theorem GeneratorStep.timer_row {s t : State} (h : GeneratorStep s t) :
    (AcceptsStart s ∨ (LatchedStop s ∧ s.host.running = true) →
      t.line.hCount = 0 ∧ t.line.tickPending = false) ∧
    (s.host.running = true → ¬LatchedStop s →
      t.line.hCount = (if s.line.hCount + 1 = s.cfg.linePeriod then 0 else s.line.hCount + 1) ∧
      (t.line.tickPending = true ↔
        (¬LineIdle s ∧ (s.line.hCount + 1 = s.cfg.linePeriod ∨ s.line.tickPending = true)) ∨
        (LineIdle s ∧ s.line.hCount + 1 = s.cfg.linePeriod ∧ s.line.tickPending = true))) ∧
    (s.host.running = false → ¬AcceptsStart s →
      t.line.hCount = s.line.hCount ∧ t.line.tickPending = s.line.tickPending) := by
  cases h
  case start ha _ _ _ _ _ hhc htp =>
    have hoff := ha.2.2
    simp [hhc, htp, ha, hoff]
  case halted na hs _ _ _ _ _ hhc htp =>
    rcases hr : s.host.running with _ | _
    · simp [hhc, htp, hr, na]
    · simp [hhc, htp, hr, na, hs hr]
  case counting hr hs nt _ _ _ _ _ hhc htp =>
    have hidle : LineIdle s → ¬(s.line.hCount + 1 = s.cfg.linePeriod ∨ s.line.tickPending = true) :=
      fun hi ht => nt ⟨hr, hs, hi, ht⟩
    simp only [hhc, htp, hr, hs, not_acceptsStart_of_running hr, newTick_iff, Bool.or_eq_true]
    simp
    tauto
  case tick ht nf _ _ _ _ _ hhc htp =>
    obtain ⟨hr, hs, hi, -⟩ := ht
    simp [hhc, htp, hr, hs, hi, not_acceptsStart_of_running hr, newTick_iff]

/-- `running` (R29, R240, R241). -/
theorem GeneratorStep.running_row {s t : State} (h : GeneratorStep s t) :
    t.host.running = true ↔ AcceptsStart s ∨ (s.host.running = true ∧ ¬LatchedStop s) := by
  cases h
  case start ha hrun _ _ _ _ _ _ => simp [hrun, ha]
  case halted na hs hrun _ _ _ _ _ _ => simpa [hrun, na] using hs
  case counting hr hs _ hrun _ _ _ _ _ _ => simp [hrun, hr, hs]
  case tick ht _ hrun _ _ _ _ _ _ => simp [hrun, ht.1, ht.2.1]

/-! ## The rows about the ring, the refresh time and the pop -/

/-- Of the moves of the host sequencer, only ENQUEUE and a step of DRAWRECT write the ring or raise
`overflow_detected` (R206, R218, R42). -/
theorem hostMove_ring_writer {b h0 : State} (m : HostMove b (hostReady b) h0)
    (hw : h0.host.ring ≠ b.host.ring ∨ h0.host.writeIndex ≠ b.host.writeIndex ∨
      (b.health.overflow = false ∧ h0.health.overflow = true)) :
    (b.host.pending = true ∧ ∃ x y c, decode .host b.host.cmd b.host.arg = .ok (.enqueue x y c)) ∨
    (b.host.pending = false ∧ b.host.phase = .rect) := by
  have hnone : h0.host.ring = b.host.ring → h0.host.writeIndex = b.host.writeIndex →
      (h0.health.overflow = true → b.health.overflow = true) → False := by
    intro h1 h2 h3
    rcases hw with h | h | ⟨hf, ht⟩
    · exact h h1
    · exact h h2
    · rw [h3 ht] at hf; cases hf
  cases m
  case enqueue hp hd => exact .inl ⟨hp, hd⟩
  case rect np ph => exact .inr ⟨np, ph⟩
  case gethealth => exact (hnone rfl rfl (by simp)).elim
  case start =>
    refine (hnone ?_ ?_ ?_).elim <;> simp [startRunning]
  all_goals exact (hnone rfl rfl id).elim

/-- Only the slot at `write_index` is written (R206). -/
theorem hostMove_ringAt {b h0 : State} (m : HostMove b (hostReady b) h0) {i : Nat}
    (hi : i ≠ b.host.writeIndex) : ringAt h0 i = ringAt b i := by
  have hbody : ∀ x y c, ringAt (enqueuePixel x y c (hostReady b)).1 i = ringAt b i := by
    intro x y c
    rcases enqueuePixel_cases x y c (hostReady b) with ⟨-, he⟩ | ⟨-, -, -, he⟩ | ⟨-, -, -, he⟩ <;>
      rw [he]
    · rfl
    · rfl
    · simp [ringAt, List.getElem?_set_ne (Ne.symm hi)]
  cases m
  case enqueue x y c _ _ => exact hbody x y c
  case rect =>
    have hnext : ∀ u : State, ringAt (rectNext u) i = ringAt u i := by
      intro u
      simp only [rectNext]
      repeat' split
      all_goals rfl
    rw [rectStep, hnext]
    exact hbody _ _ _
  case start => simp [ringAt, startRunning]
  all_goals rfl

theorem hostEdge_phase {p : PinIn} {b : State} (np : b.host.pending = false) :
    hostEdge p b = .next (latchPins p b (hostPhaseStep b)) := by
  simp [hostEdge, np, andThen]

/-- The loop's end records `now` for a REFRESHIFNEEDED alone, and answers 1 (R155). -/
theorem refallNext_lastRefreshTime {s : State}
    (h : (refallNext s).host.lastRefreshTime ≠ s.host.lastRefreshTime) :
    opField s.host.cmd = 0x8 ∧ (refallNext s).host.lastRefreshTime = s.host.arg ∧
    (refallNext s).host.rspValid = true ∧ (refallNext s).host.rspData = 1 := by
  simp only [refallNext, refallAnswer] at h ⊢
  split at h
  · exact absurd rfl h
  next hlast =>
    rw [if_neg hlast]
    split at h
    next hop => rw [if_pos hop]; exact ⟨hop, rfl, rfl, rfl⟩
    · exact absurd rfl h

/-- `last_refresh_time` changes only at the last `done` of a REFRESHIFNEEDED (R30, R155). -/
theorem hostEdge_lastRefreshTime {p : PinIn} {b h : State} (hg : b.cfg.GeometryOk)
    (he : hostEdge p b = .next h) (hne : h.host.lastRefreshTime ≠ b.host.lastRefreshTime) :
    b.host.pending = false ∧ b.host.phase = .refall ∧ opField b.host.cmd = 0x8 ∧
    doneOwner b = some .hs ∧ h.host.lastRefreshTime = b.host.arg ∧
    h.host.rspValid = true ∧ h.host.rspData = 1 := by
  obtain ⟨h0, hmove, he0⟩ := hostEdge_cases p b
  obtain rfl : latchPins p b h0 = h := by rw [he0] at he; cases he; rfl
  rw [latchPins_lastRefreshTime] at hne
  have hend : b.host.pending = false ∧ b.host.phase = .refall ∧ doneOwner b = some .hs := by
    cases hmove
    case finish np ph hd hl => exact ⟨np, hl hne, hd⟩
    case noRows h0 => exact absurd h0 (Nat.one_le_iff_ne_zero.mp (geometry_rows hg).1)
    case enqueue => rw [enqueuePixel_only] at hne; exact absurd rfl hne
    case rect =>
      simp only [rectStep, rectNext] at hne
      rw [enqueuePixel_only] at hne
      repeat' split at hne
      all_goals exact absurd rfl hne
    case start => simp [startRunning] at hne
    all_goals exact absurd rfl hne
  obtain ⟨np, ph, hd⟩ := hend
  have hloop : latchPins p b h0 = latchPins p b (refallNext (hostReady b)) := by
    rw [hostEdge_phase np] at he
    rw [← Host.Outcome.next.inj he]
    simp [hostPhaseStep, ph, hd]
  have hlast := congrArg (fun u => u.host.lastRefreshTime) hloop
  simp only [latchPins_lastRefreshTime] at hlast
  obtain ⟨hop, hnow, hvalid, hdata⟩ := refallNext_lastRefreshTime (s := hostReady b) (hlast ▸ hne)
  rw [hloop]
  exact ⟨np, ph, hop, hd, by simpa using hnow, by simpa using hvalid, by simpa using hdata⟩

/-- The frame context after a pop of the ring of `s` (R212). -/
def Popped (s : State) (f : FrameCtx) : Prop :=
  f.phase = .drain ∧ f.entry = ringAt s s.frame.readIndex ∧
  f.readIndex = nextIndex s.cfg s.frame.readIndex

/-- A decision pops, with the ring not empty, or keeps `read_index` (R212 to R214). -/
theorem frameDecision_readIndex (w : Nat) (s : State) :
    (frameDecision w s).frame.readIndex = s.frame.readIndex ∨
    (s.frame.readIndex ≠ w ∧ Popped s (frameDecision w s).frame) := by
  have hrefresh : ∀ u : State, (refreshDecision u).frame.readIndex = u.frame.readIndex := by
    intro u; simp only [refreshDecision]; split <;> rfl
  simp only [frameDecision]
  split
  · exact .inl rfl
  next hph =>
    simp only [drainDecision]
    split
    next hpop => exact .inr ⟨hpop.1, hph, rfl, rfl⟩
    · exact .inl (hrefresh _)
  · exact .inl (hrefresh s)

theorem startFrameRun_readIndex (w : Nat) (s : State) :
    (startFrameRun w s).frame.readIndex = s.frame.readIndex ∨
    (s.frame.readIndex ≠ w ∧ Popped s (startFrameRun w s).frame) :=
  frameDecision_readIndex w { s with frame := { s.frame with phase := .drain, drained := 0 } }

theorem takeTick_readIndex (w : Nat) (s : State) :
    (takeTick w s).frame.readIndex = s.frame.readIndex ∨
    (s.frame.readIndex ≠ w ∧ Popped s (takeTick w s).frame) := by
  simp only [takeTick, frameBoundary]
  repeat' split
  · exact startFrameRun_readIndex w { s with line := { s.line with
      currentLine := nextLine s.cfg s.line.currentLine
      frameCount := s.line.frameCount + 1, framebufferRow := 0 } }
  · exact .inl rfl
  · exact .inl rfl

theorem lineEdge_readIndex (d : Bool) (w : Nat) (s : State) :
    (lineEdge d w s).frame.readIndex = s.frame.readIndex ∨
    (s.frame.readIndex ≠ w ∧ Popped s (lineEdge d w s).frame) := by
  have htick : ∀ u : State, u.cfg = s.cfg → u.frame = s.frame → u.host = s.host →
      (takeTick w u).frame.readIndex = s.frame.readIndex ∨
      (s.frame.readIndex ≠ w ∧ Popped s (takeTick w u).frame) := by
    intro u hcfg hframe hhost
    have hpop := takeTick_readIndex w u
    simpa only [Popped, ringAt, hcfg, hframe, hhost] using hpop
  have hadvance := lineAdvance_only d s
  simp only [lineEdge]
  generalize lineAdvance d s = u at hadvance ⊢
  have hcfg : u.cfg = s.cfg := by rw [hadvance]
  have hframe : u.frame = s.frame := by rw [hadvance]
  have hhost : u.host = s.host := by rw [hadvance]
  split
  · simp only [lineTick, violationWhen]
    repeat' split
    · exact htick _ hcfg hframe hhost
    · exact htick _ hcfg hframe hhost
    · exact htick _ hcfg hframe hhost
    · exact .inl (by rw [← hframe]; rfl)
    · exact .inl (by rw [← hframe]; rfl)
    · exact .inl (by rw [← hframe]; rfl)
  · exact .inl (by rw [hframe])

/-- At most one decision falls on an edge: a run that begins at it has had its own (R165, R213). -/
theorem sequencersEdge_readIndex {b u : State} (hframe : u.frame = b.frame) :
    (sequencersEdge b u).frame.readIndex = b.frame.readIndex ∨
    (b.frame.readIndex ≠ b.host.writeIndex ∧ Popped u (sequencersEdge b u).frame) := by
  rw [← hframe]
  by_cases hidle : b.frame.phase = .idle
  · have hkeep : sequencersEdge b u =
        lineEdge (decide (doneOwner b = some .ls)) b.host.writeIndex u := by
      simp [sequencersEdge, frameAdvance, hidle]
    rw [hkeep]
    exact lineEdge_readIndex _ _ u
  · have hsame := lineEdge_frame (w := b.host.writeIndex) (decide (doneOwner b = some .ls))
      (hframe ▸ hidle)
    simp only [sequencersEdge, frameAdvance]
    split
    · have hpop := frameDecision_readIndex b.host.writeIndex
        (lineEdge (decide (doneOwner b = some .ls)) b.host.writeIndex u)
      simpa only [Popped, ringAt, hsame, lineEdge_host, lineEdge_cfg] using hpop
    · exact .inl (by rw [hsame])

/-- `read_index` changes only at a pop, with the popped entry latched, although an ENQUEUE may store at the
same edge (R28, R212, R81). -/
theorem step_readIndex {s t : State} (hrst : (pinsNow s).rst = false) (hstep : step s = .next t) :
    t.frame.readIndex = s.frame.readIndex ∨ Popped s t.frame := by
  obtain ⟨h0, g, hmove, hhost, -, rfl⟩ := step_parts hrst hstep
  have hcfg : h0.cfg = s.cfg := (hostMove_only hmove).1
  rcases hostEdge_generator hhost with ⟨ha, he⟩ | hna
  · rw [blockEdge, if_pos ((startsHere_iff hhost).mpr ha), advanceTime_frame, joinEdges_frame, he,
      latchPins_frame]
    exact (startFrameRun_readIndex s.host.writeIndex { hostReady (beginEdge s) with
      host := { (hostReady (beginEdge s)).host with running := true }
      line := { s.line with hCount := 0, tickPending := false, currentLine := 0, framebufferRow := 0 }
      }).imp_right And.right
  · have hframe : (latchPins (pinsNow s) (beginEdge s) h0).frame = s.frame := by
      rcases hna with ⟨-, -, -, he⟩ | ⟨-, -, -, hf, -⟩
      · rw [he, latchPins_frame]; rfl
      · exact hf
    have hns : ¬AcceptsStart s := by
      rcases hna with ⟨hn, -⟩ | ⟨hn, -⟩ <;> exact hn
    rw [blockEdge, if_neg (mt (startsHere_iff hhost).mp hns), advanceTime_frame]
    refine (sequencersEdge_readIndex (b := beginEdge s) (u := joinEdges _ _ g) hframe).imp_right ?_
    rintro ⟨hne, hphase, hentry, hread⟩
    refine ⟨hphase, hentry.trans ?_, hread.trans ?_⟩
    · rw [joinEdges_frame, hframe]
      refine Eq.trans ?_ (hostMove_ringAt hmove hne)
      simp [ringAt]
    · rw [joinEdges_frame, hframe, joinEdges_cfg, latchPins_cfg, hcfg]

/-! ## The rows about the chip, in the ranges of R8 -/

/-- The SAM is loaded at this edge: the dwell of XF2 ends (R74). -/
def LoadsSam (s : State) : Prop := s.eng.phase = .xf2 ∧ s.eng.dwell ≤ 1

/-- In the ranges of R8 every phase but an operation's first lasts at least one cycle. -/
theorem nextPhase_lasts {c : Config} (h : c.RangesOk) (p : EngPhase) :
    phaseDwell c (nextPhase p) ≠ 0 ∨ nextPhase p = .idle := by
  obtain ⟨-, -, -, -, hrcd, hds, hdh, hcac, hrp, hrtd, hxfer, hcsr, hras⟩ := h
  cases p <;> simp [nextPhase, phaseDwell] <;> omega

/-- A phase that lasts is the one the engine is in after entering it. -/
theorem enterPhase_of_lasts {n : Nat} {p : EngPhase} {s : State}
    (h : phaseDwell s.cfg p ≠ 0 ∨ p = .idle) :
    (enterPhase (n + 1) p s).eng.phase = p ∧
    (enterPhase (n + 1) p s).chip = (phaseEntry p s).chip := by
  rw [enterPhase, if_neg fun hz => h.elim (· hz.1) hz.2]
  exact ⟨rfl, rfl⟩

/-- The chip after the effect with which a phase that ends at this edge ends (R72, R74). -/
def endedChip (s : State) : Chip :=
  if s.eng.dwell ≤ 1 then (phaseEnd s.eng.phase s).chip else s.chip

theorem endedChip_of_loads {s : State} (h : LoadsSam s) :
    endedChip s = (loadSam s.eng.row s).chip := by
  rw [endedChip, if_pos h.2, h.1]; rfl

theorem endedChip_of_not_loads {s : State} (h : ¬LoadsSam s) :
    (endedChip s).sam = s.chip.sam ∧ (endedChip s).samPtr = s.chip.samPtr := by
  simp only [endedChip, phaseEnd_chip]
  repeat' split
  · exact ⟨rfl, rfl⟩
  next hd _ hph => exact absurd ⟨hph, hd⟩ h
  · exact ⟨rfl, rfl⟩
  · exact ⟨rfl, rfl⟩

theorem endedChip_sd (s : State) : (endedChip s).sd = s.chip.sd := by
  simp only [endedChip, phaseEnd_chip]; repeat' split
  all_goals rfl

theorem endedChip_rowStamp (s : State) : (endedChip s).rowStamp = s.chip.rowStamp := by
  simp only [endedChip, phaseEnd_chip]; repeat' split
  all_goals rfl

/-- The engine's edge on a chip `k`: nothing more, or a row strobe, after which the engine is in the
strobe's phase (R72 to R76). -/
def Strobed (k : Chip) (s g : State) : Prop :=
  g.chip = k ∨ (RestartsRow s.cfg g.eng.phase ∧
    g.chip = { k with rowStamp := k.rowStamp.set g.eng.row s.t })

theorem phaseEnd_addressMux_chip (s : State) :
    (phaseEnd s.eng.phase (addressMux s)).chip = (phaseEnd s.eng.phase s).chip := by
  simp only [phaseEnd_chip, setCell, loadSam, cellAt, addressMux_chip, addressMux_cfg, addressMux_eng]

theorem engineAdvance_strobed {s : State} (hr : s.cfg.RangesOk) :
    Strobed (endedChip s) s (engineAdvance s) := by
  by_cases hidle : s.eng.phase = .idle
  · left
    rw [engineAdvance_of_idle hidle, endedChip, hidle]
    split <;> rfl
  by_cases hd : s.eng.dwell ≤ 1
  · obtain ⟨hphase, hchip⟩ := enterPhase_of_lasts (n := 7) (p := nextPhase s.eng.phase)
      (s := phaseEnd s.eng.phase (addressMux s)) (by simpa using nextPhase_lasts hr s.eng.phase)
    have hadvance : engineAdvance s = enterPhase (7 + 1) (nextPhase s.eng.phase)
        (phaseEnd s.eng.phase (addressMux s)) := by
      rw [engineAdvance, if_neg hidle, if_pos hd]; rfl
    have hrow := engineAdvance_eng_row s
    rw [hadvance] at hrow ⊢
    rw [Strobed, hphase, hchip, hrow, endedChip, if_pos hd, ← phaseEnd_addressMux_chip]
    rcases phaseEntry_chip (nextPhase s.eng.phase) (phaseEnd s.eng.phase (addressMux s)) with
      ⟨hs, hc⟩ | ⟨-, hc⟩
    · exact .inr ⟨by simpa using hs, by rw [hc]; simp [restartRetention]⟩
    · exact .inl hc
  · left
    rw [engineAdvance, if_neg hidle, if_neg hd, endedChip, if_neg hd]
    exact addressMux_chip s

/-- Only an operation's first phase may last no cycle, and it has neither a strobe nor an effect. -/
theorem enterPhase_firstPhase_strobed {u : State} (hr : u.cfg.RangesOk) (op : EngOp) :
    Strobed u.chip u (enterPhase phaseFuel (firstPhase op) u) := by
  have hfirst : ∀ x : State, (phaseEntry (firstPhase op) x).chip = x.chip ∧
      phaseEnd (firstPhase op) x = x := by
    intro x; cases op <;> exact ⟨rfl, rfl⟩
  by_cases hz : phaseDwell u.cfg (firstPhase op) = 0
  · have hne : firstPhase op ≠ .idle := by cases op <;> simp [firstPhase]
    have hpass : enterPhase phaseFuel (firstPhase op) u =
        enterPhase (6 + 1) (nextPhase (firstPhase op)) (phaseEntry (firstPhase op) u) := by
      rw [phaseFuel, enterPhase, if_pos ⟨hz, hne⟩, (hfirst _).2]
    obtain ⟨hphase, hchip⟩ := enterPhase_of_lasts (n := 6) (p := nextPhase (firstPhase op))
      (s := phaseEntry (firstPhase op) u) (by simpa using nextPhase_lasts hr (firstPhase op))
    rw [Strobed, enterPhase_eng_row, hpass, hphase, hchip]
    rcases phaseEntry_chip (nextPhase (firstPhase op)) (phaseEntry (firstPhase op) u) with
      ⟨hs, hc⟩ | ⟨-, hc⟩
    · exact .inr ⟨by simpa using hs, by rw [hc]; simp [restartRetention, (hfirst u).1]⟩
    · exact .inl (by rw [hc, (hfirst u).1])
  · obtain ⟨-, hchip⟩ := enterPhase_of_lasts (n := 7) (p := firstPhase op) (s := u) (.inl hz)
    exact .inl (hchip.trans (hfirst u).1)

/-- The operands latched with a grant do not touch the chip (R130). -/
theorem grant_strobed {s : State} (hr : s.cfg.RangesOk) (op : EngOp) (row col : Nat) (v : Nibble) :
    Strobed s.chip s (grant op row col v s) :=
  enterPhase_firstPhase_strobed (u := { s with
    eng := { s.eng with op := op, row := row, col := col, val := v, owner := winner s.req }
    req := dropLine (winner s.req) s.req }) hr op

theorem engineEdge_strobed {s g : State} (hr : s.cfg.RangesOk) (he : engineEdge s = .next g) :
    Strobed (endedChip s) s g := by
  have hadvance := engineAdvance_strobed hr
  rcases engineEdge_cases he with ⟨rfl, -⟩ | ⟨hidle, w, op, row, col, v, -, rfl, -⟩
  · exact hadvance
  · have hended : (engineAdvance s).chip = endedChip s := by
      refine hadvance.resolve_right fun h => ?_
      have hrest := h.1
      simp [hidle, RestartsRow] at hrest
    have hgrant := grant_strobed (s := engineAdvance s) (by simpa using hr) op row col v
    simpa only [Strobed, hended, engineAdvance_cfg, engineAdvance_t] using hgrant

/-- What the engine leaves of the SAM and of the serial output (R74). -/
theorem Strobed.serial {k : Chip} {s g : State} (h : Strobed k s g) :
    g.chip.cells = k.cells ∧ g.chip.sam = k.sam ∧ g.chip.samPtr = k.samPtr ∧ g.chip.sd = k.sd := by
  rcases h with hc | ⟨-, hc⟩ <;> rw [hc] <;> exact ⟨rfl, rfl, rfl, rfl⟩

/-- A stamp moves only at a strobe of its own row, to the time of the edge (R75, R76). -/
theorem Strobed.stampAt {k : Chip} {s g : State} (h : Strobed k s g)
    (hk : k.rowStamp = s.chip.rowStamp) (row : Nat) :
    stampAt g row = stampAt s row ∨
    (stampAt g row = s.t ∧ row = g.eng.row ∧ RestartsRow s.cfg g.eng.phase) := by
  rcases h with hc | ⟨hs, hc⟩
  · left; simp only [Machine.stampAt, hc, hk]
  · have hset : Machine.stampAt g row = Machine.stampAt (restartRetention g.eng.row s) row := by
      simp only [Machine.stampAt, hc, hk, restartRetention_rowStamp]
    rw [hset]
    exact (stampAt_restartRetention g.eng.row row s).imp_right fun h => ⟨h.1, h.2, hs⟩

/-- The chip a step leaves, in the ranges of R8: the engine's, clocked once where the line sequencer begins
a pulse and no START is executed (R42, R77, R194). -/
theorem step_chip {s t : State} (hrst : (pinsNow s).rst = false) (hstep : step s = .next t) :
    ∃ g, (s.cfg.RangesOk → Strobed (endedChip (beginEdge s)) (beginEdge s) g) ∧ t.eng = g.eng ∧
      ((BeginsPulse (decide (doneOwner s = some .ls)) s ∧ ¬AcceptsStart s ∧
        t.chip = { g.chip with
          sd := samAt g g.chip.samPtr, samPtr := (g.chip.samPtr + 1) % s.cfg.dramCols }) ∨
      (¬(BeginsPulse (decide (doneOwner s = some .ls)) s ∧ ¬AcceptsStart s) ∧ t.chip = g.chip)) := by
  obtain ⟨h0, g, hmove, hhost, hengine, rfl⟩ := step_parts hrst hstep
  have hcfg : (latchPins (pinsNow s) (beginEdge s) h0).cfg = s.cfg := by
    rw [latchPins_cfg, (hostMove_only hmove).1]; rfl
  generalize latchPins (pinsNow s) (beginEdge s) h0 = h at hhost hcfg ⊢
  refine ⟨g, fun hr => engineEdge_strobed hr hengine, by simp, ?_⟩
  have hstarts := startsHere_iff hhost
  by_cases ha : AcceptsStart s
  · right
    rw [blockEdge, if_pos (hstarts.mpr ha)]
    exact ⟨fun hp => hp.2 ha, rfl⟩
  · have hjoin : NotStarted s (joinEdges (beginEdge s) h g) :=
      hostEdge_notStarted hhost ha hcfg rfl rfl
    have hpulse := hjoin.progress.beginsPulse (decide (doneOwner s = some .ls))
    rw [blockEdge, if_neg (mt hstarts.mp ha), advanceTime_chip, sequencersEdge_chip,
      doneOwner_beginEdge]
    rcases lineAdvance_chip (decide (doneOwner s = some .ls)) (joinEdges (beginEdge s) h g) with
      ⟨hp, hc⟩ | ⟨hp, hc⟩
    · refine .inl ⟨hpulse.mp hp, ha, ?_⟩
      rw [hc, ← hcfg]; rfl
    · exact .inr ⟨fun h => hp (hpulse.mpr h.1), hc⟩

/-- The SAM, `sam_ptr`, `SD` and the stamps (R74 to R77, R193, R194). -/
theorem step_chip_row {s t : State} (hrst : (pinsNow s).rst = false) (hstep : step s = .next t)
    (hcfg : t.cfg = s.cfg) (hr : s.cfg.RangesOk) :
    (¬LoadsSam s → t.chip.sam = s.chip.sam) ∧
    (LoadsSam s → ∀ i, i < s.cfg.dramCols → samAt t i = cellAt t s.eng.row i) ∧
    (∀ p, (LoadsSam s → p = 0) → (¬LoadsSam s → p = s.chip.samPtr) →
      (BeginsPulse (decide (doneOwner s = some .ls)) s → ¬AcceptsStart s →
        t.chip.sd = samAt t p ∧ t.chip.samPtr = (p + 1) % s.cfg.dramCols) ∧
      (¬(BeginsPulse (decide (doneOwner s = some .ls)) s ∧ ¬AcceptsStart s) →
        t.chip.sd = s.chip.sd ∧ t.chip.samPtr = p)) ∧
    (∀ row, stampAt t row = stampAt s row ∨
      (stampAt t row = s.t ∧ row = t.eng.row ∧ RestartsRow s.cfg t.eng.phase)) := by
  obtain ⟨g, hstrobed, heng, hclock⟩ := step_chip hrst hstep
  have hstrobed := hstrobed hr
  obtain ⟨hcells, hsam, hptr, hsd⟩ := hstrobed.serial
  have hunclocked : t.chip.cells = g.chip.cells ∧ t.chip.sam = g.chip.sam ∧
      t.chip.rowStamp = g.chip.rowStamp := by
    rcases hclock with ⟨-, -, hc⟩ | ⟨-, hc⟩ <;> rw [hc] <;> exact ⟨rfl, rfl, rfl⟩
  obtain ⟨htcells, htsam, htstamp⟩ := hunclocked
  have hkept : ¬LoadsSam s → g.chip.sam = s.chip.sam ∧ g.chip.samPtr = s.chip.samPtr := fun hn => by
    obtain ⟨h1, h2⟩ := endedChip_of_not_loads (s := beginEdge s) hn
    exact ⟨hsam.trans h1, hptr.trans h2⟩
  have hloaded : LoadsSam s → endedChip (beginEdge s) = (loadSam s.eng.row (beginEdge s)).chip :=
    fun hl => endedChip_of_loads (s := beginEdge s) hl
  refine ⟨fun hn => htsam.trans (hkept hn).1, fun hl i hi => ?_, fun p hp0 hps => ?_, fun row => ?_⟩
  · rw [samAt, htsam, hsam, cellAt, htcells, hcells, hcfg, hloaded hl]
    simp [loadSam, hi, cellAt]
  · have hgptr : g.chip.samPtr = p := by
      by_cases hl : LoadsSam s
      · rw [hp0 hl, hptr, hloaded hl]; rfl
      · rw [hps hl, (hkept hl).2]
    have hgsd : g.chip.sd = s.chip.sd := hsd.trans (endedChip_sd _)
    rcases hclock with ⟨hb, ha, hc⟩ | ⟨hn, hc⟩
    · refine ⟨fun _ _ => ?_, fun hn => absurd ⟨hb, ha⟩ hn⟩
      rw [samAt, htsam, hc, hgptr]; exact ⟨rfl, rfl⟩
    · refine ⟨fun hb ha => absurd ⟨hb, ha⟩ hn, fun _ => ?_⟩
      rw [hc]; exact ⟨hgsd, hgptr⟩
  · have hg := hstrobed.stampAt (endedChip_rowStamp _) row
    have ht : stampAt t row = stampAt g row := by simp only [stampAt, htstamp]
    rw [ht, heng]
    exact hg

/-! ## The table of R42 -/

/-- The host sequencer's rows: `last_refresh_time`, the ring, `write_index`, `overflow_detected`, and the
parameters and time (R26, R27, R30, R40, R42). -/
theorem step_host_rows {s t : State} (hrst : (pinsNow s).rst = false) (hstep : step s = .next t) :
    (t.host.lastRefreshTime ≠ s.host.lastRefreshTime →
      s.host.pending = false ∧ s.host.phase = .refall ∧ opField s.host.cmd = 0x8 ∧
      doneOwner s = some .hs ∧ t.host.lastRefreshTime = s.host.arg ∧
      t.host.rspValid = true ∧ t.host.rspData = 1) ∧
    ((t.host.ring ≠ s.host.ring ∨ t.host.writeIndex ≠ s.host.writeIndex ∨
        (s.health.overflow = false ∧ t.health.overflow = true)) →
      (s.host.pending = true ∧
        ∃ x y c, decode .host s.host.cmd s.host.arg = .ok (.enqueue x y c)) ∨
      (s.host.pending = false ∧ s.host.phase = .rect)) ∧
    t.cfg = s.cfg ∧ t.t = s.t + 1 := by
  have hgeometry : s.cfg.GeometryOk := (step_admitted hstep).1
  obtain ⟨h0, g, hmove, hhost, -, rfl⟩ := step_parts hrst hstep
  obtain ⟨hcfg, htime, -⟩ := hostMove_only hmove
  have hring := hostMove_ring_writer hmove
  have hlast := hostEdge_lastRefreshTime (b := beginEdge s) hgeometry hhost
  rw [doneOwner_beginEdge] at hlast
  refine ⟨by simpa using hlast, by simpa using hring, by simp [hcfg], by simp [htime]⟩

/-- Settles O50: row by row, from what a step does to the generator's registers, to the host sequencer's, to
`read_index` and to the chip. -/
theorem registersHaveOneWriter : Obligations.RegistersHaveOneWriter := by
  intro s t start stop taken wraps fetch load pulse idle tick held hrst hstep hstart hstop hidle htick
    hheld htaken hwraps hfetch hload hpulse
  obtain rfl : start = AcceptsStart s := propext hstart
  obtain rfl : stop = LatchedStop s := propext hstop
  obtain rfl : idle = LineIdle s := propext hidle
  obtain rfl : tick = (s.line.hCount + 1 = s.cfg.linePeriod) := propext htick
  obtain rfl : held = (s.line.tickPending = true) := propext hheld
  obtain rfl : taken = Taken s := propext htaken
  obtain rfl : wraps = Wraps s := propext hwraps
  obtain rfl : fetch = Fetches s := propext hfetch
  obtain rfl : load = LoadsSam s := propext hload
  obtain rfl : pulse = BeginsPulse (decide (doneOwner s = some .ls)) s :=
    propext (hpulse.trans (by rw [BeginsPulse, decide_eq_true_iff]))
  have hgenerator := step_generatorStep hrst hstep
  obtain ⟨hlast, hring, hcfg, htime⟩ := step_host_rows hrst hstep
  have hread : t.frame.readIndex ≠ s.frame.readIndex → Popped s t.frame :=
    (step_readIndex hrst hstep).resolve_left
  exact ⟨hgenerator.currentLine_row, hgenerator.frameCount_row, hgenerator.framebufferRow_row,
    hgenerator.timer_row, hgenerator.running_row, hlast, hring, hread,
    step_chip_row hrst hstep hcfg, hcfg, htime⟩

end Sys2Proof.Machine
end

section
/-! PROOFS. What the model refuses: an address outside the array, and a configuration it does not
accept (R9, R67, U4, U16). -/

namespace Sys2Proof.Machine

theorem inArray_eq_false {c : Config} {row col : Nat} (h : c.dramRows ≤ row ∨ c.dramCols ≤ col) :
    inArray c row col = false := by
  rw [← Bool.not_eq_true, inArray_iff]; omega

theorem inRows_eq_false {c : Config} {row : Nat} (h : c.dramRows ≤ row) : inRows c row = false :=
  decide_eq_false (Nat.not_lt_of_le h)

/-- A request outside the array is refused, whatever the engine does (R67). -/
theorem acceptRequest_outside (op : EngOp) (row col : Coord) (v : Nibble) (s : State) :
    acceptRequest false op row col v s = .refused .addressOutsideArray := rfl

theorem step_of_illFormedGeometry {s : State} (h : ¬s.cfg.GeometryOk) :
    step s = .refused .illFormedGeometry := if_neg h

theorem step_of_protocolDefect {s : State} (hg : s.cfg.GeometryOk) (hs : ¬s.cfg.StrobesOk) :
    step s = .refused .protocolTimingDefect := by
  rw [step, clockEdge, if_pos hg, if_neg hs]

/-- No step changes a parameter (R274, R293). -/
theorem step_cfg {s t : State} (hstep : step s = .next t) : t.cfg = s.cfg := by
  rcases hrst : (pinsNow s).rst with _ | _
  · obtain ⟨h0, g, hmove, -, -, rfl⟩ := step_parts hrst hstep
    simp [(hostMove_only hmove).1]
  · rcases step_cases hstep with ⟨-, rfl⟩ | ⟨hr, -⟩
    · simp only [advanceTime_cfg, resetEdge, resetRegisters_cfg]
      split <;> rfl
    · rw [hrst] at hr; cases hr

/-- Settles O26: the range check of each request, and the two checks a step begins with. -/
theorem engineRefusesOutsideArray : Obligations.EngineRefusesOutsideArray := by
  refine ⟨fun s row col v _ => ⟨fun hout => ?_, fun hrow => ?_⟩,
    fun s => ⟨step_of_illFormedGeometry, step_of_protocolDefect,
      fun t hstep => ⟨step_admitted hstep, step_cfg hstep⟩⟩⟩
  · have hin := inArray_eq_false hout
    simp only [exec, execWrite, execRead, hin, acceptRequest_outside, and_self]
  · have hin := inRows_eq_false hrow
    simp only [exec, execXfer, execRefrow, hin, acceptRequest_outside, and_self]

end Sys2Proof.Machine
end

section
/-! PROOFS. `Map` and its inverse (R61, R62). -/

namespace Sys2Proof.Machine

/-- `Map` and the linear cell address undo each other. -/
theorem cellAddr_mapPixel (c : Config) (x y : Nat) :
    cellAddr c (mapPixel c x y).1 (mapPixel c x y).2 = linearIndex c x y :=
  Nat.div_add_mod' _ _

theorem linearIndex_div {c : Config} {x y : Nat} (hx : x < c.width) :
    linearIndex c x y / c.width = y := by
  rw [linearIndex, Nat.mul_comm, Nat.mul_add_div (by omega), Nat.div_eq_of_lt hx, Nat.add_zero]

theorem linearIndex_mod {c : Config} {x y : Nat} (hx : x < c.width) :
    linearIndex c x y % c.width = x := by
  rw [linearIndex, Nat.mul_comm, Nat.mul_add_mod, Nat.mod_eq_of_lt hx]

/-- The 24 bits of R62: both sides of the framebuffer are at most 4096 long (R9). -/
theorem linearIndex_lt_two_pow {c : Config} {x y : Nat} (hg : c.GeometryOk) (hx : x < c.width)
    (hy : y < c.height) : linearIndex c x y < 2 ^ 24 := by
  obtain ⟨-, -, -, hwidth, hheight, -⟩ := hg
  have harea : c.width * c.height ≤ 4096 * 4096 := Nat.mul_le_mul hwidth hheight
  exact (linearIndex_lt hx hy).trans_le harea

/-- R62's inverse tells two pixels of the framebuffer apart. -/
theorem mapPixel_inj {c : Config} {x y x' y' : Nat} (hx : x < c.width) (hx' : x' < c.width)
    (h : mapPixel c x y = mapPixel c x' y') : x = x' ∧ y = y' := by
  have hlinear : linearIndex c x y = linearIndex c x' y' := by
    rw [← cellAddr_mapPixel, h, cellAddr_mapPixel]
  have hmod := linearIndex_mod (y := y) hx
  have hdiv := linearIndex_div (y := y) hx
  rw [hlinear] at hmod hdiv
  exact ⟨hmod.symm.trans (linearIndex_mod hx'), hdiv.symm.trans (linearIndex_div hx')⟩

/-- A cell whose linear address lies below `width * height` is the image of the pixel R62's inverse
gives. -/
theorem exists_mapPixel {c : Config} {row col : Nat} (hcol : col < c.dramCols)
    (h : cellAddr c row col < c.width * c.height) :
    ∃ x y, x < c.width ∧ y < c.height ∧ mapPixel c x y = (row, col) := by
  have hwidth : 0 < c.width := Nat.pos_of_mul_pos_right (Nat.zero_lt_of_lt h)
  refine ⟨cellAddr c row col % c.width, cellAddr c row col / c.width, Nat.mod_lt _ hwidth,
    Nat.div_lt_of_lt_mul h, ?_⟩
  have hlinear : linearIndex c (cellAddr c row col % c.width) (cellAddr c row col / c.width) =
      cellAddr c row col := Nat.div_add_mod' _ _
  rw [mapPixel, hlinear, cellAddr_div hcol, cellAddr_mod hcol]

/-- Settles O44: the cell address of `Map` is the linear index, which division by `width` undoes. -/
theorem addressMap : Obligations.AddressMap := by
  intro c hadm
  have hg : c.GeometryOk := hadm.1
  refine ⟨fun x y hx hy => ?_, fun x y x' y' hx _ hx' _ => mapPixel_inj hx hx',
    fun row col _ hcol => exists_mapPixel hcol⟩
  obtain ⟨hrow, hcol⟩ := mapPixel_lt hg hx hy
  rw [cellAddr_mapPixel]
  exact ⟨rfl, hrow, hcol, linearIndex_lt hx hy, linearIndex_div hx, linearIndex_mod hx,
    linearIndex_lt_two_pow hg hx hy⟩

end Sys2Proof.Machine
end

section
/-! PROOFS. The serial clock and the video output (R77, R78, R193, R194). -/

namespace Sys2Proof.Machine

theorem video_of_se {s : State} (h : s.line.se = true) : video s = some s.chip.sd := if_pos h

theorem video_of_not_se {s : State} (h : s.line.se = false) : video s = none := by simp [video, h]

/-- A pulse begins with `SC` raised (R194). -/
theorem lineAdvance_sc {d : Bool} {s : State} (h : BeginsPulse d s) :
    (lineAdvance d s).line.sc = true := by
  rcases h with ⟨hph, hd, hbp⟩ | ⟨hph, hdwell⟩ | ⟨hph, hdwell, hhalf, hpix⟩
  · simp [lineAdvance, endTransfer, beginStream, beginPulse, hph, hd, hbp]
  · simp [lineAdvance, endLinePhase, beginStream, beginPulse, hph, hdwell]
  · simp [lineAdvance, endLinePhase, endPulse, beginPulse, hph, hdwell, hhalf, Nat.not_le_of_lt hpix]

/-- A pulse begins outside the stream, or at the end of the low half of the pulse before it (R193,
R194). -/
theorem BeginsPulse.not_high {d : Bool} {s : State} (h : BeginsPulse d s) :
    s.line.phase ≠ .stream ∨ s.line.scHalf = true := by
  rcases h with ⟨hph, -⟩ | ⟨hph, -⟩ | ⟨-, -, hhalf, -⟩
  · left; simp [hph]
  · left; simp [hph]
  · exact .inr hhalf

/-- Settles O45 (`serialClock` is the chip's response itself): the response and the video output as
defined; an edge that begins no pulse leaves the serial output and its pointer alone. -/
theorem serialClock_and_video : Obligations.SerialClock := by
  refine ⟨fun _ _ => rfl, fun _ _ => ⟨video_of_se, video_of_not_se⟩, fun d s _ hchanged => ?_⟩
  rcases lineAdvance_chip d s with ⟨hpulse, -⟩ | ⟨-, hchip⟩
  · exact ⟨lineAdvance_sc hpulse, .inr hpulse.not_high⟩
  · simp [hchip] at hchanged

end Sys2Proof.Machine
end

section
/-! PROOFS. The array over a step (R72, R75, R80): the engine's edge stores at most once, for the
WRITE it is then still running, and nothing else but decay touches a cell. -/

namespace Sys2Proof.Machine

/-! ## Decay (R75) -/

/-- Decay spares the cell, or makes it `UNDEF` with its row expired. -/
theorem cellAt_decay_cases {s : State} {row col : Nat} (hcol : col < s.cfg.dramCols) :
    cellAt (decay s) row col = cellAt s row col ∨
    (cellAt (decay s) row col = none ∧ s.cfg.retention < s.t - stampAt s row) := by
  rw [cellAt_decay hcol]
  split
  next h => exact .inr ⟨rfl, of_decide_eq_true (Bool.and_eq_true_iff.mp h).1⟩
  · exact .inl rfl

theorem cellAt_decay_of_fresh {s : State} {row col : Nat} (hcol : col < s.cfg.dramCols)
    (hfresh : s.t - stampAt s row ≤ s.cfg.retention) :
    cellAt (decay s) row col = cellAt s row col :=
  (cellAt_decay_cases hcol).resolve_right fun h => Nat.not_lt_of_le hfresh h.2

/-- Settles O46: the two cases of a cell under decay, and the one field a decay step writes. -/
theorem decayOnlyExpired : Obligations.DecayOnlyExpired :=
  fun _ _ _ _ hcol => ⟨cellAt_decay_cases hcol, cellAt_decay_of_fresh hcol, rfl⟩

/-! ## The store of a WRITE (R72) -/

/-- The cells an engine leaves: as they were, or with the store of the WRITE it is then still
running, just past WR2. -/
def Stored (s g : State) : Prop :=
  g.chip.cells = s.chip.cells ∨
  ((g.eng.phase = .wr3 ∨ g.eng.phase = .wr4) ∧
    g.chip.cells = cellPut (cellAddr s.cfg g.eng.row g.eng.col) g.eng.val s.chip.cells)

theorem Stored.congr_left {s u g : State} (h : Stored u g) (hcfg : u.cfg = s.cfg)
    (hcells : u.chip.cells = s.chip.cells) : Stored s g := by
  simpa only [Stored, hcfg, hcells] using h

theorem phaseEntry_cells (p : EngPhase) (s : State) :
    (phaseEntry p s).chip.cells = s.chip.cells := by
  rcases phaseEntry_chip p s with ⟨-, hchip⟩ | ⟨-, hchip⟩ <;> rw [hchip]
  rfl

theorem phaseEnd_cells {p : EngPhase} (hp : p ≠ .wr2) (s : State) :
    (phaseEnd p s).chip.cells = s.chip.cells := by
  rw [phaseEnd_chip, if_neg hp]; split <;> rfl

/-- WR4 lasts one cycle in every configuration, so an edge that ends WR2 leaves the engine in WR3
or, where `T_DH` is 0, in WR4 (R121, R122). -/
theorem enterPhase_wr3 (n : Nat) (s : State) :
    ((enterPhase n .wr3 s).eng.phase = .wr3 ∨ (enterPhase n .wr3 s).eng.phase = .wr4) ∧
    (enterPhase n .wr3 s).chip = s.chip ∧ (enterPhase n .wr3 s).eng.val = s.eng.val := by
  have hwr4 : ∀ m, (enterPhase m .wr4 s).eng.phase = .wr4 ∧
      (enterPhase m .wr4 s).chip = s.chip ∧ (enterPhase m .wr4 s).eng.val = s.eng.val := by
    intro m; cases m <;> exact ⟨rfl, rfl, rfl⟩
  cases n with
  | zero => exact ⟨.inl rfl, rfl, rfl⟩
  | succ n =>
    rw [enterPhase]
    split
    · exact ⟨.inr (hwr4 n).1, (hwr4 n).2⟩
    · exact ⟨.inl rfl, rfl, rfl⟩

/-- The end of a phase and the entry of the next: WR2's end stores, and WR3 or WR4 is entered. -/
theorem endPhase_stored {n : Nat} {p : EngPhase} (s : State)
    (hnext : ∀ u, Stored u (enterPhase n (nextPhase p) u)) :
    Stored s (enterPhase n (nextPhase p) (phaseEnd p s)) := by
  by_cases hp : p = .wr2
  · subst hp
    obtain ⟨hphase, hchip, hval⟩ := enterPhase_wr3 n (phaseEnd .wr2 s)
    refine .inr ⟨hphase, ?_⟩
    rw [nextPhase, hchip, hval, enterPhase_eng_row, enterPhase_eng_col]
    rfl
  · exact (hnext _).congr_left (phaseEnd_cfg p s) (phaseEnd_cells hp s)

theorem enterPhase_stored (n : Nat) (p : EngPhase) (s : State) : Stored s (enterPhase n p s) := by
  induction n generalizing p s with
  | zero => exact .inl rfl
  | succ n ih =>
    rw [enterPhase]
    split
    · exact (endPhase_stored _ (ih (nextPhase p))).congr_left (phaseEntry_cfg p s)
        (phaseEntry_cells p s)
    · exact .inl (phaseEntry_cells p s)

theorem engineAdvance_stored (s : State) : Stored s (engineAdvance s) := by
  rw [engineAdvance]
  split
  · exact .inl rfl
  · split
    · exact (endPhase_stored _ (enterPhase_stored _ _)).congr_left (by simp) (by simp)
    · exact .inl (by simp)

/-- An operation that ends at this edge has stored at an earlier one, so the only store beside its
end is that of the operation granted at it (R130). -/
theorem engineEdge_stored {s g : State} (he : engineEdge s = .next g) : Stored s g := by
  have hadvance := engineAdvance_stored s
  rcases engineEdge_cases he with ⟨rfl, -⟩ | ⟨hidle, w, op, row, col, v, -, rfl, -⟩
  · exact hadvance
  · have hcells : (engineAdvance s).chip.cells = s.chip.cells :=
      hadvance.resolve_right fun h => by simp [hidle] at h
    exact (enterPhase_stored _ _ _).congr_left (engineAdvance_cfg s) hcells

/-! ## The cells over a step -/

theorem lineAdvance_cells (d : Bool) (s : State) :
    (lineAdvance d s).chip.cells = s.chip.cells := by rw [lineAdvance_only]

theorem blockEdge_cells (b h g : State) : (blockEdge b h g).chip.cells = g.chip.cells := by
  rw [blockEdge]
  split
  · rfl
  · rw [sequencersEdge_chip, lineAdvance_cells]; rfl

/-- A step's cells are the engine's, on the cells its decay leaves (R42, R75). -/
theorem step_stored {s t : State} (hrst : (pinsNow s).rst = false) (hstep : step s = .next t) :
    Stored (beginEdge s) t := by
  obtain ⟨h0, g, -, -, hengine, rfl⟩ := step_parts hrst hstep
  simpa only [Stored, advanceTime_chip, advanceTime_eng, blockEdge_cells, blockEdge_eng] using
    engineEdge_stored hengine

/-- An edge begins with decay, whatever pins it samples. -/
theorem cellAt_beginEdge {s : State} {row col : Nat} (hcol : col < s.cfg.dramCols) :
    cellAt (beginEdge s) row col = cellAt s row col ∨
    (cellAt (beginEdge s) row col = none ∧ s.cfg.retention < s.t - stampAt s row) :=
  cellAt_decay_cases (s := { s with inputs := s.inputs.tail }) hcol

/-- Settles O47: decay at the beginning of the edge, then at most one store, which reaches the cell
only under its own address. -/
theorem cellsChangeOnlyByWriteOrDecay : Obligations.CellsChangeOnlyByWriteOrDecay := by
  intro s t row col hrst hstep hcol
  have hbegin := cellAt_beginEdge (row := row) hcol
  have hlook : cellAt t row col = cellLook (cellAddr s.cfg row col) t.chip.cells := by
    rw [cellAt, step_cfg hstep]
  rcases step_stored hrst hstep with hcells | ⟨hphase, hcells⟩ <;> rw [hcells] at hlook
  · rw [hlook, ← or_assoc]
    exact .inl hbegin
  · by_cases haddr : cellAddr s.cfg row col = cellAddr s.cfg t.eng.row t.eng.col
    · refine .inr (.inr ⟨haddr, ?_, hphase⟩)
      rw [hlook, haddr]
      exact cellLook_cellPut_same ..
    · rw [hlook, beginEdge_cfg, cellLook_cellPut_other _ _ haddr, ← or_assoc]
      exact .inl hbegin

end Sys2Proof.Machine
end

section
/-! PROOFS. No WRITE or REFROW beside a stream (R84, R170): on time, the frame sequencer's run ends
with the blanking interval, so an active line finds the engine to itself. -/

namespace Sys2Proof.Machine

/-! ## Operations in flight -/

/-- A requester with nothing in flight has no line raised and does not keep the engine busy. -/
theorem inFlight_eq_zero {line : Option Word} {o : Owner} {s : State} :
    inFlight line o s = 0 ↔ line = none ∧ busyWith o s = false := by
  cases line <;> simp [inFlight]

theorem busyWith_iff {o : Owner} {s : State} :
    busyWith o s = true ↔ s.eng.phase ≠ .idle ∧ s.eng.owner = o := by simp [busyWith]

/-- Every request takes time (R136). -/
theorem requestTime_pos {c : Config} {w : Word} {op : EngOp} (h : requestOp w = some op) :
    0 < requestTime c w := by
  simp only [requestOp] at h
  simp only [requestTime]
  split at h
  case h_5 => cases h
  all_goals simp only [Config.tWrite, Config.tRead, Config.tXferOp, Config.tRefrow]; omega

/-- A requester with an operation in flight waits at least one cycle for its `done`. -/
theorem operationRemaining_pos {line : Option Word} {o : Owner} {s : State}
    (hflight : inFlight line o s ≠ 0) (hword : ∀ w, line = some w → requestOp w ≠ none)
    (hdwell : s.eng.phase ≠ .idle → 1 ≤ s.eng.dwell) : 0 < operationRemaining line s := by
  cases line with
  | some w =>
    obtain ⟨op, hop⟩ := Option.ne_none_iff_exists'.mp (hword w rfl)
    exact requestTime_pos hop
  | none =>
    have hbusy : busyWith o s = true := by
      by_contra hnot
      exact hflight (inFlight_eq_zero.mpr ⟨rfl, by simpa using hnot⟩)
    have hphase := (busyWith_iff.mp hbusy).1
    have := hdwell hphase
    simp only [operationRemaining, engineRemaining, if_neg hphase]
    omega

/-! ## The frame sequencer's run and the active lines -/

/-- A run in progress is never over yet: a drain has the refresh before it, a refresh an operation
in flight. -/
theorem frameRemaining_pos {s : State} (h : OnTime s) (hbusy : s.frame.phase ≠ .idle) :
    0 < frameRemaining s := by
  rcases hph : s.frame.phase with _ | _ | _
  case idle => exact absurd hph hbusy
  case drain =>
    have hrefresh : 0 < s.cfg.dramRows * s.cfg.tRefrow :=
      Nat.mul_pos (geometry_rows h.safe.geometry).1 (by simp only [Config.tRefrow]; omega)
    simp only [frameRemaining, hph]
    omega
  case refresh =>
    have hflight : inFlight s.req.fs .fs s ≠ 0 := by simp [h.agents.frame_ops, hbusy]
    have hop := operationRemaining_pos hflight
      (fun w hw => by rcases h.agents.frame_word w hw with ho | ho <;> simp [ho]) h.engine_dwells
    simp only [frameRemaining, hph]
    omega

/-- C_VBLANK ends the run before the first active line (R9, R84, R170). -/
theorem frame_idle_of_active {s : State} (h : OnTime s) (hrun : s.host.running = true)
    (hactive : activeLine s.cfg s.line.currentLine = true) : s.frame.phase = .idle := by
  by_contra hbusy
  have hpos := frameRemaining_pos h hbusy
  have hends := h.frame_ends hrun hbusy
  have hbudget : frameRunTime s.cfg ≤ s.cfg.vBlankLines * s.cfg.linePeriod := h.config.2.2.2.2.1
  have hblank : s.cfg.vBlankLines ≤ s.line.currentLine := by
    simp only [activeLine, Bool.and_eq_true, decide_eq_true_eq] at hactive
    exact hactive.1
  have helapsed := Nat.mul_le_mul_right s.cfg.linePeriod hblank
  simp only [frameElapsed] at hends
  omega

/-- Settles O60: an active line finds the frame sequencer idle, a running generator the host
sequencer off the engine; what is left is the line sequencer's. -/
theorem noWriteWhileStreaming : Obligations.NoWriteWhileStreaming := by
  intro s h hrun hphase
  have hactive : activeLine s.cfg s.line.currentLine = true := by
    rcases hphase with hph | hph | hph <;> exact h.line.pipeline (by simp [hph]) (by simp [hph])
  have hframe := frame_idle_of_active h hrun hactive
  obtain ⟨hfs, hfsBusy⟩ := inFlight_eq_zero.mp (h.agents.frame_ops.trans (by simp [hframe]))
  have huses : hostUsesEngine s = false := by
    by_contra hu
    have hstopped := h.agents.engine_use_stopped (by simpa using hu)
    rw [hrun] at hstopped; cases hstopped
  obtain ⟨hhs, hhsBusy⟩ := inFlight_eq_zero.mp (h.agents.host_ops.trans (by simp [huses]))
  refine ⟨hframe, hfs, hhs, h.agents.line_word, or_iff_not_imp_left.mpr fun hbusy => ?_⟩
  have howner : s.eng.owner = .ls := by
    rcases ho : s.eng.owner with _ | _ | _
    case ls => rfl
    case fs => rw [busyWith_iff.mpr ⟨hbusy, ho⟩] at hfsBusy; cases hfsBusy
    case hs => rw [busyWith_iff.mpr ⟨hbusy, ho⟩] at hhsBusy; cases hhsBusy
  have hop := h.agents.line_op (busyWith_iff.mpr ⟨hbusy, howner⟩)
  exact ⟨howner, hop, hop ▸ h.agents.phase_op hbusy⟩

end Sys2Proof.Machine
end

section
/-! PROOFS. The discipline of the three requesters (R86, R130, R132, R192, R213, R232, R273): what
the engine's edge, the host sequencer and the two other sequencers each do to the operations in
flight. -/

namespace Sys2Proof.Machine

/-! ## The words a sequencer raises (R100) -/

@[simp] theorem requestOp_writeRequest (row col : Nat) (v : Nibble) :
    requestOp (writeRequest row col v) = some .write := by
  simp [requestOp, decode, decodeEngine, writeRequest]

@[simp] theorem requestOp_xferRequest (row : Nat) : requestOp (xferRequest row) = some .xfer := by
  simp [requestOp, decode, decodeEngine, xferRequest, whenZero]

@[simp] theorem requestOp_refrowRequest (row : Nat) :
    requestOp (refrowRequest row) = some .refrow := by
  simp [requestOp, decode, decodeEngine, refrowRequest, whenZero]

/-- The line sequencer keeps its line or asks for an XFER (R191). -/
theorem lineAdvance_ls (d : Bool) (s : State) :
    (lineAdvance d s).req.ls = s.req.ls ∨
    (lineAdvance d s).req.ls = some (xferRequest s.line.framebufferRow) := by
  simp only [lineAdvance]
  split
  · exact .inl rfl
  · left
    simp only [endTransfer]; repeat' split
    all_goals rfl
  · split
    · simp only [endLinePhase]
      split
      case h_2 =>
        rw [endHsync]
        split
        · exact .inr rfl
        · exact .inl rfl
      case h_5 =>
        left
        simp only [endPulse]; repeat' split
        all_goals rfl
      all_goals exact .inl rfl
    · exact .inl rfl

/-- A decision of the frame sequencer keeps its line or asks for a WRITE or a REFROW (R213, R154).
-/
theorem frameDecision_fs (w : Nat) (s : State) :
    (frameDecision w s).req.fs = s.req.fs ∨
    ∃ v, (frameDecision w s).req.fs = some v ∧
      (requestOp v = some .write ∨ requestOp v = some .refrow) := by
  have hrefresh : ∀ u : State, (refreshDecision u).req.fs = u.req.fs ∨
      ∃ v, (refreshDecision u).req.fs = some v ∧
        (requestOp v = some .write ∨ requestOp v = some .refrow) := by
    intro u
    rw [refreshDecision]
    split
    · exact .inr ⟨_, rfl, .inr (requestOp_refrowRequest _)⟩
    · exact .inl rfl
  rw [frameDecision]
  split
  · exact .inl rfl
  · rw [drainDecision]
    split
    · exact .inr ⟨_, rfl, .inl (requestOp_writeRequest _ _ _)⟩
    · exact hrefresh _
  · exact hrefresh s

/-! ## The engine's edge (R130) -/

theorem inFlight_congr {line line' : Option Word} {o : Owner} {s u : State} (hline : line' = line)
    (heng : u.eng = s.eng) : inFlight line' o u = inFlight line o s := by
  simp only [inFlight, busyWith, hline, heng]

/-- The word the engine is handed is the winner's (R132). -/
theorem lineOf_winner {r : Requests} {w : Word} (h : winningRequest r = some w) :
    lineOf (winner r) r = some w := by
  obtain ⟨ls, fs, hs⟩ := r
  cases ls <;> cases fs <;> simpa [winningRequest, winner, lineOf] using h

theorem lineOf_dropLine (x o : Owner) (r : Requests) :
    lineOf o (dropLine x r) = if x = o then none else lineOf o r := by
  cases x <;> cases o <;> rfl

/-- The engine only drops lines (R130). -/
theorem engineEdge_line_some {s g : State} (he : engineEdge s = .next g) {o : Owner} {w : Word}
    (h : lineOf o g.req = some w) : lineOf o s.req = some w := by
  rcases engineEdge_req he with hreq | ⟨-, hreq⟩ <;> rw [hreq] at h
  · exact h
  · rw [lineOf_dropLine] at h
    split at h
    · cases h
    · exact h

/-- What is so of the operation a requester asks for and of the one it has in progress is so after
the edge. -/
theorem engineEdge_op {s g : State} (he : engineEdge s = .next g) {o : Owner} {P : EngOp → Prop}
    (hline : ∀ w, lineOf o s.req = some w → ∀ op, requestOp w = some op → P op)
    (hbusy : busyWith o s = true → P s.eng.op) (hg : busyWith o g = true) : P g.eng.op := by
  rcases engineEdge_cases he with ⟨rfl, -⟩ | ⟨-, w, op, row, col, v, hw, rfl, -, -, -, hop⟩
  · obtain ⟨hphase, howner⟩ := busyWith_iff.mp hg
    rw [engineAdvance_eng_op]
    refine hbusy (busyWith_iff.mpr ⟨fun hidle => hphase ?_, by simpa using howner⟩)
    rw [engineAdvance_of_idle hidle, hidle]
  · obtain ⟨-, howner⟩ := busyWith_iff.mp hg
    rw [grant_eng_owner, engineAdvance_req] at howner
    rw [grant_eng_op]
    exact hline w (howner ▸ lineOf_winner hw) op hop

/-- The engine's phase stays in the table of its operation (R122 to R128). -/
theorem engineEdge_phase_op {s g : State} (he : engineEdge s = .next g)
    (h : s.eng.phase ≠ .idle → phaseOp s.eng.phase = some s.eng.op) (hg : g.eng.phase ≠ .idle) :
    phaseOp g.eng.phase = some g.eng.op := by
  rcases engineEdge_cases he with ⟨rfl, -⟩ | ⟨-, w, op, row, col, v, -, rfl, -⟩
  · rw [engineAdvance_phaseOp hg, engineAdvance_eng_op]
    refine h fun hidle => hg ?_
    rw [engineAdvance_of_idle hidle, hidle]
  · rw [grant_phaseOp hg, grant_eng_op]

/-! ## The latching of a word (R94) -/

@[simp] theorem latchPins_req (p : PinIn) (b s : State) : (latchPins p b s).req = s.req := by
  rw [latchPins_only]

theorem cmdReady_iff {s : State} :
    cmdReady false s = true ↔ s.host.phase = .idle ∨ s.host.phase = .word2 := by simp [cmdReady]

/-- A word is latched by an idle host sequencer only. -/
theorem latchPins_usesEngine (p : PinIn) (b h0 : State) :
    hostUsesEngine (latchPins p b h0) = hostUsesEngine h0 := by
  rcases latchPins_cases p b h0 with ⟨-, he⟩ | ⟨w, -, ⟨-, he⟩ | ⟨hr, hl⟩⟩
  · rw [he]
  · rw [he]; rfl
  · have hnot : hostUsesEngine h0 = false := by
      rcases cmdReady_iff.mp hr with hph | hph <;> simp [hostUsesEngine, hph]
    rw [hnot]
    rcases hl with ⟨-, he⟩ | ⟨-, -, he⟩ | ⟨-, -, he⟩ <;> rw [he]
    · rfl
    · rfl
    · exact hnot

/-- A command that waits for its execution edge waits in `HS_IDLE` (R231). -/
theorem latchPins_pending_idle {p : PinIn} {b h0 : State} (hpending : h0.host.pending = false)
    (hword2 : h0.host.phase = .word2 → b.host.phase = .word2)
    (h : (latchPins p b h0).host.pending = true) : (latchPins p b h0).host.phase = .idle := by
  rcases latchPins_cases p b h0 with
    ⟨-, he⟩ | ⟨w, -, ⟨-, he⟩ | ⟨hr, ⟨-, he⟩ | ⟨-, -, he⟩ | ⟨h2, -, he⟩⟩⟩ <;> rw [he] at h ⊢
  · rw [hpending] at h; cases h
  · rw [holdWord_pending, hpending] at h; cases h
  · exact absurd (hpending.symm.trans h) nofun
  · exact (cmdReady_iff.mp hr).resolve_right fun hph => h2 (hword2 hph)

/-- A word is held behind a multi-cycle command only (log 6). -/
theorem latchPins_held_busy {p : PinIn} {b h0 : State} (hheld : h0.host.held = b.host.held)
    (h : (latchPins p b h0).host.held ≠ none) : cmdReady false (latchPins p b h0) = false := by
  rcases latchPins_cases p b h0 with
    ⟨hnone, he⟩ | ⟨w, -, ⟨hr, he⟩ | ⟨-, ⟨-, he⟩ | ⟨-, -, he⟩ | ⟨-, -, he⟩⟩⟩ <;> rw [he] at h ⊢
  · rw [hheld] at h
    obtain ⟨v, hv⟩ := Option.ne_none_iff_exists'.mp h
    simp [incomingWord, hv] at hnone
  · exact hr
  all_goals exact absurd rfl h

/-! ## The two edges put together -/

/-- A line its requester leaves alone is as the engine leaves it, for the engine raises none. -/
theorem mergeLine_engine {before requester engine : Option Word} (hr : requester = before)
    (he : before = none → engine = none) : mergeLine before requester engine = engine := by
  cases before with
  | none => exact hr.trans (he rfl).symm
  | some w => rfl

/-- A requester with nothing in flight, or whose operation ends at this edge, has its line down and
leaves the edge with nothing in flight. -/
theorem engineEdge_frees {s g : State} (he : engineEdge s = .next g) {o : Owner}
    (hle : inFlight (lineOf o s.req) o s ≤ 1)
    (hfree : inFlight (lineOf o s.req) o s = 0 ∨ doneOwner s = some o) :
    lineOf o s.req = none ∧ inFlight (lineOf o g.req) o g = 0 := by
  have hflow := engine_inFlight he o
  rcases hfree with hzero | hdone
  · exact ⟨(inFlight_eq_zero.mp hzero).1, by omega⟩
  · obtain ⟨hph, -, ho⟩ := doneOwner_eq_some.mp hdone
    have hbusy : busyWith o s = true := busyWith_iff.mpr ⟨hph, ho⟩
    simp only [hdone, decide_true, Bool.toNat_true] at hflow
    simp only [inFlight, hbusy, Bool.toNat_true] at hle hflow ⊢
    cases hline : lineOf o s.req with
    | none => simp only [hline, Option.isSome_none, Bool.toNat_false] at hflow; exact ⟨rfl, by omega⟩
    | some w => simp [hline] at hle

/-- The host sequencer has an operation in flight exactly in a phase that uses the engine (R232). -/
theorem joinEdges_host_ops {b h0 g : State} (p : PinIn) (a : AgentsInv b)
    (he : engineEdge b = .next g) (flow : HostFlow b h0) :
    inFlight (joinEdges b (latchPins p b h0) g).req.hs .hs (joinEdges b (latchPins p b h0) g) =
      (hostUsesEngine h0).toNat := by
  have hflow : inFlight g.req.hs .hs g + (decide (doneOwner b = some .hs)).toNat =
      (hostUsesEngine b).toNat := (engine_inFlight he .hs).trans a.host_ops
  have hnone : b.req.hs = none → g.req.hs = none := engine_line_none he .hs
  have hjoin : inFlight (joinEdges b (latchPins p b h0) g).req.hs .hs
      (joinEdges b (latchPins p b h0) g) = inFlight (mergeLine b.req.hs h0.req.hs g.req.hs) .hs g :=
    inFlight_congr (by rw [← latchPins_req p b h0]; rfl) rfl
  rw [hjoin]
  rcases flow.hs with ⟨hreq, huse, hdone⟩ | ⟨hreq, huse, -, hdone⟩ | ⟨hreq, huse, hdone⟩
  · rw [mergeLine_engine hreq hnone, huse]
    rcases hub : hostUsesEngine b with _ | _ <;> rw [hub] at hflow
    · simp only [Bool.toNat_false] at hflow ⊢; omega
    · simpa [hdone hub] using hflow
  · have hfree : inFlight b.req.hs .hs b = 0 ∨ doneOwner b = some .hs := by
      rw [a.host_ops]
      rcases hub : hostUsesEngine b with _ | _
      · exact .inl rfl
      · exact .inr (hdone hub)
    obtain ⟨hline, hzero⟩ :=
      engineEdge_frees (o := .hs) he (a.host_ops.trans_le (Bool.toNat_le _)) hfree
    have hline : b.req.hs = none := hline
    have hidle := (inFlight_eq_zero.mp hzero).2
    simp [hline, mergeLine, inFlight, hreq, hidle, huse]
  · rw [mergeLine_engine hreq hnone, huse]
    have hle := Bool.toNat_le (hostUsesEngine b)
    simp only [hdone, decide_true, Bool.toNat_true, Bool.toNat_false] at hflow ⊢
    omega

/-! ## The line sequencer (R164, R190 to R195) -/

@[simp] theorem lineTick_req_ls (w : Nat) (s : State) : (lineTick w s).req.ls = s.req.ls := by
  rw [lineTick_only]
@[simp] theorem lineTick_eng (w : Nat) (s : State) : (lineTick w s).eng = s.eng := by
  rw [lineTick_only]
@[simp] theorem lineAdvance_eng (d : Bool) (s : State) : (lineAdvance d s).eng = s.eng := by
  rw [lineAdvance_only]
@[simp] theorem lineAdvance_frame (d : Bool) (s : State) : (lineAdvance d s).frame = s.frame := by
  rw [lineAdvance_only]
@[simp] theorem lineAdvance_fs (d : Bool) (s : State) : (lineAdvance d s).req.fs = s.req.fs := by
  rw [lineAdvance_only]
@[simp] theorem lineEdge_req_ls (d : Bool) (w : Nat) (s : State) :
    (lineEdge d w s).req.ls = (lineAdvance d s).req.ls := by
  rw [lineEdge]; split <;> simp
@[simp] theorem sequencersEdge_req_ls (b s : State) : (sequencersEdge b s).req.ls =
    (lineAdvance (decide (doneOwner b = some .ls)) s).req.ls := by
  rw [sequencersEdge, frameAdvance_only, lineEdge_req_ls]
@[simp] theorem sequencersEdge_req_hs (b s : State) : (sequencersEdge b s).req.hs = s.req.hs := by
  rw [sequencersEdge, frameAdvance_only, lineEdge_only]

theorem lineAdvance_of_idle {d : Bool} {s : State} (h : s.line.phase = .idle) :
    lineAdvance d s = s := by simp [lineAdvance, h]

/-- A stopped generator takes no tick (R163, R241). -/
theorem lineEdge_of_stopped {d : Bool} {w : Nat} {s : State} (h : s.host.running = false) :
    lineEdge d w s = lineAdvance d s := by simp [lineEdge, h]

/-- LINETICK neither begins nor ends a wait for a transfer (R163). -/
theorem lineEdge_xfer_iff (d : Bool) (w : Nat) (s : State) :
    (lineEdge d w s).line.phase = .xfer ↔ (lineAdvance d s).line.phase = .xfer := by
  rw [lineEdge]
  split
  · rcases lineTick_phase w (lineAdvance d s) with ⟨hph, -⟩ | ⟨hidle, hph, -⟩
    · rw [hph]
    · rw [hph, hidle]; exact iff_of_false nofun nofun
  · rfl

/-- The line sequencer has an operation in flight exactly while it waits for its transfer (R191,
R192): `s` is the state after the engine's edge, at which `d` says that the transfer ended. -/
theorem lineAdvance_line_ops {d : Bool} {s : State}
    (h : inFlight s.req.ls .ls s + d.toNat = (decide (s.line.phase = .xfer)).toNat) :
    inFlight (lineAdvance d s).req.ls .ls s =
      (decide ((lineAdvance d s).line.phase = .xfer)).toNat := by
  have hfree : s.line.phase ≠ .xfer → inFlight s.req.ls .ls s = 0 := fun hph =>
    Nat.eq_zero_of_add_eq_zero_right (h.trans (by simp [hph]))
  rcases lineAdvance_phase d s with ⟨hph, he⟩ | ⟨hph, hd, he⟩ | ⟨hph, hd, hnot, -, hreq⟩ |
    ⟨hph, hxfer, hsome⟩ | ⟨hph, -, hnot, hreq⟩
  · rw [he, hfree (by simp [hph])]; simp [hph]
  · rw [he]; simpa [hd] using h
  · subst hd
    rw [hreq]; simpa [hph, hnot] using h
  · have hidle := (inFlight_eq_zero.mp (hfree (by simp [hph]))).2
    simp [inFlight, hsome, hidle, hxfer]
  · rw [hreq, hfree hph]; simp [hnot]

/-! ## The frame sequencer (R165, R213, R154) -/

/-- A decision with no request waiting leaves one waiting exactly if the run goes on. -/
theorem frameDecision_ops {s : State} {w : Nat} (hp : s.frame.phase ≠ .idle) (hq : s.req.fs = none) :
    (frameDecision w s).req.fs.isSome = decide ((frameDecision w s).frame.phase ≠ .idle) := by
  rcases frameDecision_request (w := w) hp hq with ⟨hph, hsome⟩ | ⟨hph, hnone⟩
  · simp [hph, hsome]
  · simp [hph, hnone]

/-- The frame context of `t` is a decision's, taken in a run and with the request line of `s`. -/
def Decided (s t : State) : Prop :=
  ∃ w v, v.req.fs = s.req.fs ∧ v.frame.phase ≠ .idle ∧
    t.frame = (frameDecision w v).frame ∧ t.req.fs = (frameDecision w v).req.fs

theorem startFrameRun_decided (w : Nat) (s : State) : Decided s (startFrameRun w s) :=
  ⟨w, { s with frame := { s.frame with phase := .drain, drained := 0 } }, rfl, nofun, rfl, rfl⟩

theorem startRunning_decided (s : State) : Decided s (startRunning s) := by
  simp only [Decided, startRunning, respond_frame, respond_req, enterLine_frame, enterLine_req]
  exact startFrameRun_decided s.host.writeIndex { s with
    host := { s.host with running := true }
    line := { s.line with hCount := 0, tickPending := false, currentLine := 0, framebufferRow := 0 } }

/-- The line context leaves the frame sequencer alone, or begins a run where there is none (R165,
R176). -/
theorem lineEdge_frame_cases (d : Bool) (w : Nat) (s : State) :
    ((lineEdge d w s).frame = s.frame ∧ (lineEdge d w s).req.fs = s.req.fs) ∨
    (s.frame.phase = .idle ∧ s.host.running = true ∧ Decided s (lineEdge d w s)) := by
  rw [lineEdge]
  split
  next hrun =>
    rcases lineTick_phase w (lineAdvance d s) with ⟨-, hf, hq⟩ | ⟨-, -, -, ⟨hf, hq⟩ | hstart⟩
    · exact .inl ⟨by simp [hf], by simp [hq]⟩
    · exact .inl ⟨by simp [hf], by simp [hq]⟩
    · obtain ⟨hidle, u, -, hreq, hf, hq⟩ := hstart
      obtain ⟨w', v, hv, hne, hf', hq'⟩ := startFrameRun_decided w u
      exact .inr ⟨by simpa using hidle, by simpa using hrun, w', v, by simp [hv, hreq], hne,
        hf.trans hf', hq.trans hq'⟩
  · exact .inl ⟨by simp, by simp⟩

/-- At most one decision falls on an edge: at the `done` of the run in progress, or as a run begins.
-/
theorem sequencersEdge_frame_cases {b s : State} (hframe : s.frame = b.frame) :
    ((sequencersEdge b s).frame = b.frame ∧ (sequencersEdge b s).req.fs = s.req.fs ∧
      (b.frame.phase ≠ .idle → doneOwner b ≠ some .fs)) ∨
    ((b.frame.phase = .idle ∧ s.host.running = true ∨
        b.frame.phase ≠ .idle ∧ doneOwner b = some .fs) ∧ Decided s (sequencersEdge b s)) := by
  rw [sequencersEdge, frameAdvance]
  rcases lineEdge_frame_cases (decide (doneOwner b = some .ls)) b.host.writeIndex s with
    ⟨hf, hq⟩ | ⟨hidle, hrun, hdecided⟩
  · split
    next hd =>
      simp only [Bool.and_eq_true, Bool.not_eq_true', decide_eq_true_eq,
        decide_eq_false_iff_not] at hd
      refine .inr ⟨.inr hd.symm, b.host.writeIndex, _, hq, ?_, rfl, rfl⟩
      rw [hf, hframe]; exact hd.2
    next hd => exact .inl ⟨hf.trans hframe, hq, fun hn hdone => hd (by simp [hdone, hn])⟩
  · rw [hframe] at hidle
    rw [if_neg (by simp [hidle])]
    exact .inr ⟨.inl ⟨hidle, hrun⟩, hdecided⟩

/-! ## The discipline over an edge -/

/-- START finds the line and the frame sequencer idle; any other move leaves the frame sequencer and
the line sequencer's phase alone (R232, R240, R273). -/
theorem hostMove_start {b h0 : State} (p : PinIn) (a : AgentsInv b)
    (m : HostMove b (hostReady b) h0) :
    (startsHere b (latchPins p b h0) = true ∧ h0 = startRunning (hostReady b) ∧
      b.line.phase = .idle ∧ b.frame.phase = .idle) ∨
    (startsHere b (latchPins p b h0) = false ∧ h0.frame = b.frame ∧ h0.req.fs = b.req.fs ∧
      h0.line.phase = b.line.phase) := by
  rcases hostMove_frame m with ⟨hframe, hreq, hnot⟩ | ⟨hoff, hon, he⟩
  · refine .inr ⟨?_, hframe, hreq, ?_⟩
    · simpa [startsHere] using hnot
    · exact (hostFlow m a).linePhase.resolve_right fun h => hnot ⟨h.2.1, h.1⟩
  · left
    have hpending : b.host.pending = true := by
      rcases hostMove_line m with ⟨-, hr, -⟩ | ⟨-, -, -, hr⟩ | ⟨ha, -⟩ | ⟨hl, -⟩
      · rw [hr, hoff] at hon; cases hon
      · rw [hr, hoff] at hon; cases hon
      · exact ha.1
      · exact hl.1
    have hquiet := a.stopped_quiet hoff (by simp [a.pending_idle hpending])
    exact ⟨by simp [startsHere, hoff, hon], he, hquiet⟩

section
variable {b h0 g : State} (p : PinIn) (a : AgentsInv b) (m : HostMove b (hostReady b) h0)
  (he : engineEdge b = .next g)
include a m he

omit a in
theorem joinEdges_ls :
    (joinEdges b (latchPins p b h0) g).req.ls = g.req.ls := by
  obtain ⟨-, -, -, -, -, -, -, hls, -⟩ := hostMove_only m
  exact mergeLine_engine (by rw [latchPins_req, hls]) (engine_line_none he .ls)

theorem blockEdge_line_ops : inFlight (blockEdge b (latchPins p b h0) g).req.ls .ls g =
    (decide ((blockEdge b (latchPins p b h0) g).line.phase = .xfer)).toNat := by
  have hflow : inFlight g.req.ls .ls g + (decide (doneOwner b = some .ls)).toNat =
      (decide (b.line.phase = .xfer)).toNat := (engine_inFlight he .ls).trans a.line_ops
  have hjoin := joinEdges_ls p m he
  rw [blockEdge]
  rcases hostMove_start p a m with ⟨hs, hstart, hidle, -⟩ | ⟨hs, -, -, hphase⟩
  · have hline : (joinEdges b (latchPins p b h0) g).line.phase = .hsync := by
      rw [joinEdges_line, latchPins_line, hstart, startRunning_line]
    rw [if_pos hs, hjoin, hline]
    simp only [hidle, reduceCtorEq, decide_false, Bool.toNat_false] at hflow ⊢
    omega
  · rw [if_neg (by simp [hs]), sequencersEdge_req_ls, sequencersEdge_line]
    simp only [lineEdge_xfer_iff]
    refine lineAdvance_line_ops (s := joinEdges b (latchPins p b h0) g) ?_
    rw [inFlight_congr hjoin (u := joinEdges b (latchPins p b h0) g) (s := g) rfl, hflow,
      joinEdges_line, latchPins_line, hphase]

theorem blockEdge_line_word (w : Word) (hw : (blockEdge b (latchPins p b h0) g).req.ls = some w) :
    requestOp w = some .xfer := by
  have hkept : g.req.ls = some w → requestOp w = some .xfer := fun h =>
    a.line_word w (engineEdge_line_some (o := .ls) he h)
  have hjoin := joinEdges_ls p m he
  rw [blockEdge] at hw
  split at hw
  · exact hkept (hjoin ▸ hw)
  · rw [sequencersEdge_req_ls] at hw
    rcases lineAdvance_ls (decide (doneOwner b = some .ls)) (joinEdges b (latchPins p b h0) g) with
      hls | hls <;> rw [hls] at hw
    · exact hkept (hjoin ▸ hw)
    · cases hw; exact requestOp_xferRequest _

/-- The frame sequencer over an edge: left alone, or one decision on the request line the engine
leaves. -/
theorem blockEdge_frame_cases :
    ((blockEdge b (latchPins p b h0) g).frame = b.frame ∧
      (blockEdge b (latchPins p b h0) g).req.fs = g.req.fs ∧
      (b.frame.phase ≠ .idle → doneOwner b ≠ some .fs)) ∨
    ((b.frame.phase = .idle ∧ h0.host.running = true ∨
        b.frame.phase ≠ .idle ∧ doneOwner b = some .fs) ∧
      Decided g (blockEdge b (latchPins p b h0) g)) := by
  have hnone : b.req.fs = none → g.req.fs = none := engine_line_none he .fs
  rw [blockEdge]
  rcases hostMove_start p a m with ⟨hs, hstart, -, hidle⟩ | ⟨hs, hframe, hreq, -⟩
  · have hline : b.req.fs = none :=
      (inFlight_eq_zero.mp (a.frame_ops.trans (by simp [hidle]))).1
    rw [if_pos hs]
    obtain ⟨w, v, hv, hne, hf, hq⟩ := startRunning_decided (hostReady b)
    refine .inr ⟨.inl ⟨hidle, by rw [hstart]; exact startRunning_running _⟩, w, v, ?_, hne, ?_, ?_⟩
    · rw [hv, hnone hline]; exact hline
    · rw [joinEdges_frame, latchPins_frame, hstart, hf]
    · rw [← hq, ← hstart]
      simp [joinEdges, hline, mergeLine]
  · rw [if_neg (by simp [hs])]
    have hjoin : (joinEdges b (latchPins p b h0) g).req.fs = g.req.fs :=
      mergeLine_engine (by rw [latchPins_req, hreq]) hnone
    have hcases := sequencersEdge_frame_cases (b := b) (s := joinEdges b (latchPins p b h0) g)
      (by rw [joinEdges_frame, latchPins_frame, hframe])
    simpa only [Decided, hjoin, joinEdges_host, latchPins_running] using hcases

theorem blockEdge_frame_ops : inFlight (blockEdge b (latchPins p b h0) g).req.fs .fs g =
    (decide ((blockEdge b (latchPins p b h0) g).frame.phase ≠ .idle)).toNat := by
  have hflow : inFlight g.req.fs .fs g + (decide (doneOwner b = some .fs)).toNat =
      (decide (b.frame.phase ≠ .idle)).toNat := (engine_inFlight he .fs).trans a.frame_ops
  rcases blockEdge_frame_cases p a m he with ⟨hframe, hreq, hdone⟩ | ⟨hwhen, w, v, hv, hne, hf, hq⟩
  · rw [hframe, hreq]
    by_cases hidle : b.frame.phase = .idle
    · simp only [hidle, ne_eq, not_true_eq_false, decide_false, Bool.toNat_false] at hflow ⊢
      omega
    · simpa [hdone hidle] using hflow
  · have hfree : inFlight b.req.fs .fs b = 0 ∨ doneOwner b = some .fs :=
      hwhen.imp (fun h => a.frame_ops.trans (by simp [h.1])) And.right
    obtain ⟨hline, hidle⟩ := inFlight_eq_zero.mp
      (engineEdge_frees (o := .fs) he (a.frame_ops.trans_le (Bool.toNat_le _)) hfree).2
    have hops := frameDecision_ops (w := w) hne (hv.trans hline)
    simp only [inFlight, hq, hf, hops, hidle, Bool.toNat_false, Nat.add_zero]

theorem blockEdge_frame_word (w : Word) (hw : (blockEdge b (latchPins p b h0) g).req.fs = some w) :
    requestOp w = some .write ∨ requestOp w = some .refrow := by
  have hkept : g.req.fs = some w → requestOp w = some .write ∨ requestOp w = some .refrow := fun h =>
    a.frame_word w (engineEdge_line_some (o := .fs) he h)
  rcases blockEdge_frame_cases p a m he with ⟨-, hreq, -⟩ | ⟨-, i, v, hv, -, -, hq⟩
  · exact hkept (hreq ▸ hw)
  · rw [hq] at hw
    rcases frameDecision_fs i v with hsame | ⟨x, hx, hop⟩
    · exact hkept (by rw [← hv, ← hsame, hw])
    · rw [hx] at hw; cases hw; exact hop

/-- A block that is stopped outside `HS_STOPWAIT` was so before, or everything was idle (R241); its
line sequencer stays idle, for no tick is taken. -/
theorem blockEdge_stopped_quiet (hoff : h0.host.running = false) (hwait : h0.host.phase ≠ .stopwait) :
    (blockEdge b (latchPins p b h0) g).line.phase = .idle ∧
    (blockEdge b (latchPins p b h0) g).frame.phase = .idle := by
  have hquiet : b.line.phase = .idle ∧ b.frame.phase = .idle := by
    rcases (hostFlow m a).stopped hoff hwait with ⟨hr, hp⟩ | hall
    · exact a.stopped_quiet hr hp
    · simp only [allIdle, decide_eq_true_eq] at hall
      exact ⟨hall.1, hall.2.1⟩
  constructor
  · rw [blockEdge]
    rcases hostMove_start p a m with ⟨-, hstart, -⟩ | ⟨hs, -, -, hphase⟩
    · rw [hstart, startRunning_running] at hoff; cases hoff
    · have hidle : (joinEdges b (latchPins p b h0) g).line.phase = .idle := by
        rw [joinEdges_line, latchPins_line, hphase, hquiet.1]
      have hstopped : (joinEdges b (latchPins p b h0) g).host.running = false := by
        rw [joinEdges_host, latchPins_running, hoff]
      rw [if_neg (by simp [hs]), sequencersEdge_line, lineEdge_of_stopped hstopped,
        lineAdvance_of_idle hidle, hidle]
  · rcases blockEdge_frame_cases p a m he with ⟨hframe, -⟩ | ⟨⟨-, hr⟩ | ⟨hbusy, -⟩, -⟩
    · rw [hframe, hquiet.2]
    · rw [hoff] at hr; cases hr
    · exact absurd hquiet.2 hbusy

theorem blockEdge_host_ops : inFlight (blockEdge b (latchPins p b h0) g).req.hs .hs g =
    (hostUsesEngine h0).toNat := by
  have hjoin := joinEdges_host_ops p a he (hostFlow m a)
  rw [blockEdge]
  split
  · exact hjoin
  · rw [sequencersEdge_req_hs]; exact hjoin

theorem blockEdge_agentsInv : AgentsInv (blockEdge b (latchPins p b h0) g) := by
  have flow := hostFlow m a
  obtain ⟨-, -, -, -, -, -, -, -, hpending, hheld⟩ := hostMove_only m
  have hhost := blockEdge_host b (latchPins p b h0) g
  have heng := blockEdge_eng b (latchPins p b h0) g
  have huse : hostUsesEngine (blockEdge b (latchPins p b h0) g) = hostUsesEngine h0 := by
    rw [← latchPins_usesEngine p b h0]; simp only [hostUsesEngine, hhost]
  have hbusy : ∀ o, busyWith o (blockEdge b (latchPins p b h0) g) = busyWith o g := fun o => by
    simp only [busyWith, heng]
  exact {
    line_ops := (inFlight_congr rfl heng).trans (blockEdge_line_ops p a m he)
    frame_ops := (inFlight_congr rfl heng).trans (blockEdge_frame_ops p a m he)
    host_ops := by
      rw [huse]
      exact (inFlight_congr rfl heng).trans (blockEdge_host_ops p a m he)
    pending_idle := by rw [hhost]; exact latchPins_pending_idle hpending flow.word2
    stopwait_stopped := by
      rw [hhost, latchPins_stopwait, latchPins_running]; exact flow.stop
    engine_use_stopped := by rw [huse, hhost, latchPins_running]; exact flow.use
    stopped_quiet := by
      rw [hhost, latchPins_running, Ne, latchPins_stopwait]
      exact blockEdge_stopped_quiet p a m he
    line_word := blockEdge_line_word p a m he
    frame_word := blockEdge_frame_word p a m he
    phase_op := by rw [heng]; exact engineEdge_phase_op he a.phase_op
    line_op := by
      rw [hbusy, heng]
      refine engineEdge_op (P := (· = .xfer)) he (fun w hw op hop => ?_) a.line_op
      rw [a.line_word w hw] at hop; cases hop; rfl
    frame_op := by
      rw [hbusy, heng]
      refine engineEdge_op (P := fun op => op = .write ∨ op = .refrow) he (fun w hw op hop => ?_)
        a.frame_op
      rcases a.frame_word w hw with h | h <;> rw [h] at hop <;> cases hop
      · exact .inl rfl
      · exact .inr rfl
    held_busy := by
      have hready : cmdReady false (blockEdge b (latchPins p b h0) g) =
          cmdReady false (latchPins p b h0) := by simp only [cmdReady, hhost]
      rw [hready, hhost]
      exact latchPins_held_busy hheld }

end

/-- The discipline does not speak of model time or of the draws. -/
theorem advanceTime_agentsInv {s : State} (a : AgentsInv s) : AgentsInv (advanceTime s) :=
  ⟨a.line_ops, a.frame_ops, a.host_ops, a.pending_idle, a.stopwait_stopped, a.engine_use_stopped,
    a.stopped_quiet, a.line_word, a.frame_word, a.phase_op, a.line_op, a.frame_op, a.held_busy⟩

/-- Settles O56: a reset leaves the reset registers; any other edge is a host move, an engine edge
and the two sequencers, which keep the discipline clause by clause. -/
theorem agentsAreKept : Obligations.AgentsAreKept := by
  intro s t _ a hstep
  rcases hrst : (pinsNow s).rst with _ | _
  · obtain ⟨h0, g, hmove, -, hengine, rfl⟩ := step_parts hrst hstep
    exact advanceTime_agentsInv (blockEdge_agentsInv _ (beginEdge_agentsInv a) hmove hengine)
  · rcases step_cases hstep with ⟨-, rfl⟩ | ⟨hr, -⟩
    · exact advanceTime_agentsInv (agentsInv_resetRegisters _)
    · rw [hrst] at hr; cases hr

end Sys2Proof.Machine
end

section
/-! PROOFS. Encoder and decoder are inverse to each other, on both ports (R91 to R100), and which words the
host's decoder turns away (R98, R99). -/

namespace Sys2Proof

/-! ## Decoding an encoding -/

/-- Settles O2: the fields of an encoded word are the operands and the must-be-zero fields are zero; of
START's `MODE` that is the hypothesis. -/
theorem decodeOfEncode : Obligations.DecodeOfEncode := by
  intro i hi
  cases i
  case enqueue | memwrite | write => simp [Instr.port, encode, decode, decodeHost, decodeEngine]
  case start mode =>
    obtain rfl : mode = 0 := by simpa [Instr.encodable] using hi
    rfl
  case drawrect | clearfb | memread | memxfer | memrefrow =>
    simp [Instr.port, encode, decode, decodeHost, whenZero]
  case stop | gethealth | getframecount | refreshifneeded | memrefall =>
    simp [Instr.port, encode, decode, decodeHost, whenZero]
  case read | xfer | refrow => simp [Instr.port, encode, decode, decodeEngine, whenZero]

/-- Settles O1: the fields and the encodings are computed, and the words decode to the calls because they
are their encodings. -/
theorem workedEncodings : Obligations.WorkedEncodings := by
  exact ⟨by decide, rfl, decodeOfEncode (.enqueue 10 10 0xF) rfl,
    rfl, decodeOfEncode (.drawrect 10 10 4 4 0xF) rfl,
    rfl, decodeOfEncode (.clearfb 0) rfl, rfl, decodeOfEncode (.start 0) rfl,
    rfl, decodeOfEncode .stop rfl, rfl, decodeOfEncode .gethealth rfl,
    rfl, decodeOfEncode .getframecount rfl, rfl, decodeOfEncode (.refreshifneeded 1000) rfl,
    rfl, decodeOfEncode (.memwrite 6 138 0xF) rfl, rfl, decodeOfEncode (.memread 6 138) rfl,
    rfl, decodeOfEncode (.memxfer 3) rfl, rfl, decodeOfEncode (.memrefrow 511) rfl,
    rfl, decodeOfEncode .memrefall rfl⟩

theorem toNat_ofNat_of_lt {n : Nat} (h : n < 4096) : (BitVec.ofNat 12 n).toNat = n :=
  (BitVec.toNat_ofNat n 12).trans (Nat.mod_eq_of_lt h)

/-- Settles O9: a sequencer's request word is the encoding of the operation, so it decodes to it. -/
theorem requestWords : Obligations.RequestWords :=
  ⟨fun _ _ _ => ⟨rfl, rfl, rfl, rfl⟩, fun row col value hrow hcol =>
    ⟨decodeOfEncode (.write (BitVec.ofNat 12 row) (BitVec.ofNat 12 col) value) rfl, rfl,
      decodeOfEncode (.xfer (BitVec.ofNat 12 row)) rfl, rfl,
      decodeOfEncode (.refrow (BitVec.ofNat 12 row)) rfl, rfl,
      toNat_ofNat_of_lt hrow, toNat_ofNat_of_lt hcol⟩⟩

/-! ## Encoding what a word decodes to -/

/-- A first word is spelled by its four fields; the opcode is given as the number the decoder matches. -/
theorem mkW1_eq_of_fields {w : Word} {op : BitVec 4} {c : Nibble} {y x : Coord}
    (hop : (opField w).toNat = op.toNat) (hc : cField w = c) (hy : yField w = y) (hx : xField w = x) :
    mkW1 op c y x = w := by
  subst hc hy hx
  rw [← BitVec.eq_of_toNat_eq hop, mkW1_fields]

theorem mkW1_eq_of_modeField {w : Word} {op : BitVec 4} (hop : (opField w).toNat = op.toNat)
    (hmode : modeField w = 0) : mkW1 op 0 0 0 = w := by
  obtain ⟨hc, hy, hx⟩ := (modeField_eq_zero w).mp hmode
  exact mkW1_eq_of_fields hop hc hy hx

theorem start_eq_of_opField {w : Word} (hop : (opField w).toNat = (0x4 : BitVec 4).toNat) :
    (0x4 : BitVec 4) ++ modeField w = w := by
  rw [← BitVec.eq_of_toNat_eq hop, start_fields]

theorem hasSecondWord_iff {w : Word} :
    hasSecondWord w = true ↔ opField w = 0x2 ∨ opField w = 0x8 := by simp [hasSecondWord]

/-- Whether a second word follows, by the number the decoder matches (R95). -/
theorem hasSecondWord_iff_toNat {w : Word} :
    hasSecondWord w = true ↔ (opField w).toNat = 2 ∨ (opField w).toNat = 8 := by
  simp [hasSecondWord, ← BitVec.toNat_inj]

/-- What the host decoder accepts is the encoding of what it answers. -/
theorem encode_of_decodeHost {w1 w2 : Word} {i : Instr} (h : decodeHost w1 w2 = .ok i) :
    i.encodable = true ∧ (encode i).1 = w1 ∧ (hasSecondWord w1 = true → (encode i).2 = w2) := by
  rw [hasSecondWord_iff_toNat]
  simp only [decodeHost] at h
  split at h <;> simp only [whenZero_ok, Except.ok.injEq, Bool.and_eq_true, beq_iff_eq, reduceCtorEq] at h
  case h_1 hop => subst h; exact ⟨rfl, mkW1_eq_of_fields hop rfl rfl rfl, by simp [hop]⟩
  case h_2 hop =>
    obtain ⟨htop, rfl⟩ := h
    exact ⟨rfl, mkW1_eq_of_fields hop rfl rfl rfl, fun _ => mkW2R_fields htop⟩
  case h_3 hop =>
    obtain ⟨⟨hy, hx⟩, rfl⟩ := h
    exact ⟨rfl, mkW1_eq_of_fields hop rfl hy hx, by simp [hop]⟩
  case h_4 hop =>
    obtain ⟨hmode, rfl⟩ := h
    exact ⟨by simp [Instr.encodable, hmode], start_eq_of_opField hop, by simp [hop]⟩
  case h_5 hop | h_6 hop | h_7 hop | h_13 hop =>
    obtain ⟨hmode, rfl⟩ := h
    exact ⟨rfl, mkW1_eq_of_modeField hop hmode, by simp [hop]⟩
  case h_8 hop =>
    obtain ⟨hmode, rfl⟩ := h
    exact ⟨rfl, mkW1_eq_of_modeField hop hmode, fun _ => rfl⟩
  case h_9 hop => subst h; exact ⟨rfl, mkW1_eq_of_fields hop rfl rfl rfl, by simp [hop]⟩
  case h_10 hop =>
    obtain ⟨hc, rfl⟩ := h
    exact ⟨rfl, mkW1_eq_of_fields hop hc rfl rfl, by simp [hop]⟩
  case h_11 hop | h_12 hop =>
    obtain ⟨⟨hc, hx⟩, rfl⟩ := h
    exact ⟨rfl, mkW1_eq_of_fields hop hc rfl hx, by simp [hop]⟩

/-- What the engine's decoder accepts is the encoding of the engine request it answers. -/
theorem encode_of_decodeEngine {w : Word} {i : Instr} (h : decodeEngine w = .ok i) :
    i.encodable = true ∧ i.port = .engine ∧ (encode i).1 = w := by
  simp only [decodeEngine] at h
  split at h <;> simp only [whenZero_ok, Except.ok.injEq, Bool.and_eq_true, beq_iff_eq, reduceCtorEq] at h
  case h_1 hop => subst h; exact ⟨rfl, rfl, mkW1_eq_of_fields hop rfl rfl rfl⟩
  case h_2 hop =>
    obtain ⟨hc, rfl⟩ := h
    exact ⟨rfl, rfl, mkW1_eq_of_fields hop hc rfl rfl⟩
  case h_3 hop | h_4 hop =>
    obtain ⟨⟨hc, hx⟩, rfl⟩ := h
    exact ⟨rfl, rfl, mkW1_eq_of_fields hop hc rfl hx⟩

/-- Settles O3: port by port, every field of an accepted word is an operand or zero. -/
theorem encodeOfDecode : Obligations.EncodeOfDecode := by
  intro p w1 w2 i h
  cases p
  case host =>
    obtain ⟨henc, hfirst, hsecond⟩ := encode_of_decodeHost h
    exact ⟨henc, Machine.decodeHost_port h, hfirst, fun _ => hsecond⟩
  case engine =>
    obtain ⟨henc, hport, hfirst⟩ := encode_of_decodeEngine h
    exact ⟨henc, hport, hfirst, nofun⟩

/-! ## The host words that are turned away -/

/-- Check (1) of R99 (R98). -/
theorem decodeHost_reserved_iff {w1 w2 : Word} : decodeHost w1 w2 = .error .reservedOpcode ↔
    opField w1 = 0x0 ∨ opField w1 = 0xE ∨ opField w1 = 0xF := by
  rcases op_cases (opField w1) with
    h | h | h | h | h | h | h | h | h | h | h | h | h | h | h | h <;>
    simp [decodeHost, h, whenZero_reserved]

/-- Settles O4: opcode by opcode, the decoder's check is the one check (2) of R99 lists for it. -/
theorem hostWordsRejected : Obligations.HostWordsRejected := by
  refine fun w1 w2 => ⟨decodeHost_reserved_iff, ?_⟩
  rcases op_cases (opField w1) with
    h | h | h | h | h | h | h | h | h | h | h | h | h | h | h | h <;>
    simp [decode, decodeHost, h, whenZero_mustBeZero, imp_iff_not_or]

end Sys2Proof
end

section
/-! PROOFS. The host port's handshake (R94, R95, R231, R96): which words are transferred and where they are
latched, how long a response lasts, and the answer to a word that spells no command (R98, R263). -/

namespace Sys2Proof.Machine

/-! ## A word that spells no command -/

/-- Settles O5: the decoder's error is answered at the execution edge, and a reserved opcode is one. -/
theorem reservedOpcodeAnswersIllegal : Obligations.ReservedOpcodeAnswersIllegal := by
  refine ⟨fun s t _ ht => ?_, by decide, by decide⟩
  have hanswer : ∀ e, decode .host s.host.cmd s.host.arg = .error e → executeCommand s = .next t := by
    intro e he
    rw [executeCommand, he, ht]
    rfl
  exact ⟨hanswer, fun hop => hanswer _ (decodeHost_reserved_iff.mpr hop)⟩

/-! ## The word an edge takes (R94) -/

theorem cmdReady_eq_false_iff {s : State} :
    cmdReady false s = false ↔ s.host.phase ≠ .idle ∧ s.host.phase ≠ .word2 := by simp [cmdReady]

theorem incomingWord_of_held {p : PinIn} {s : State} {w : Word} (h : s.host.held = some w) :
    incomingWord p s = some w := by simp [incomingWord, h]

/-- A word is transferred when it is valid and the host sequencer ready. -/
theorem incomingWord_of_ready {p : PinIn} {s : State} (hheld : s.host.held = none)
    (hvalid : p.cmdValid = true) (hready : cmdReady false s = true) :
    incomingWord p s = some p.cmdWord := by simp [incomingWord, hheld, hvalid, hready]

theorem incomingWord_of_not_ready {p : PinIn} {s : State} (hheld : s.host.held = none)
    (hready : cmdReady false s = false) : incomingWord p s = none := by
  simp [incomingWord, hheld, hready]

/-! ## Where it is latched (R95) -/

theorem latchWord_of_word2 {w : Word} {b s : State} (hb : b.host.phase = .word2) :
    latchWord w b s =
      { s with host := { s.host with phase := .idle, arg := w, pending := true, held := none } } := by
  rw [latchWord, if_pos hb]

theorem latchWord_of_two_words {w : Word} {b s : State} (hb : b.host.phase ≠ .word2)
    (hop : opField w = 0x2 ∨ opField w = 0x8) :
    latchWord w b s = { s with host := { s.host with phase := .word2, cmd := w, held := none } } := by
  rw [latchWord, if_neg hb, if_pos (hasSecondWord_iff.mpr hop)]

theorem latchWord_of_one_word {w : Word} {b s : State} (hb : b.host.phase ≠ .word2)
    (hop : ¬(opField w = 0x2 ∨ opField w = 0x8)) :
    latchWord w b s = { s with host := { s.host with cmd := w, pending := true, held := none } } := by
  rw [latchWord, if_neg hb, if_neg (hasSecondWord_iff.not.mpr hop)]

/-- A function that latches a first word as R95 says is the model's own. -/
theorem latchWord_eq_of_spec {first : Word → State → State}
    (hfirst : ∀ w h, ((opField w = 0x2 ∨ opField w = 0x8) →
        first w h = { h with host := { h.host with phase := .word2, cmd := w, held := none } }) ∧
      (¬(opField w = 0x2 ∨ opField w = 0x8) →
        first w h = { h with host := { h.host with cmd := w, pending := true, held := none } }))
    {w : Word} {b h : State} (hb : b.host.phase ≠ .word2) : latchWord w b h = first w h := by
  obtain ⟨htwo, hone⟩ := hfirst w h
  by_cases hop : opField w = 0x2 ∨ opField w = 0x8
  · rw [htwo hop, latchWord_of_two_words hb hop]
  · rw [hone hop, latchWord_of_one_word hb hop]

theorem latchPins_of_none {p : PinIn} {b h : State} (hw : incomingWord p b = none) :
    latchPins p b h = h := by simp [latchPins, hw]

theorem latchPins_of_ready {p : PinIn} {b h : State} {w : Word} (hw : incomingWord p b = some w)
    (hready : cmdReady false h = true) : latchPins p b h = latchWord w b h := by
  simp [latchPins, hw, hready]

theorem latchPins_of_not_ready {p : PinIn} {b h : State} {w : Word} (hw : incomingWord p b = some w)
    (hready : cmdReady false h = false) : latchPins p b h = holdWord w h := by
  simp [latchPins, hw, hready]

/-! ## The host edge by the latch flag (R231) -/

theorem hostEdge_of_pending {p : PinIn} {s h : State} (hp : s.host.pending = true)
    (he : executeCommand s = .next h) : hostEdge p s = .next (latchPins p s h) := by
  simp [hostEdge, hp, he, andThen]

theorem hostEdge_of_not_pending {p : PinIn} {s : State} (hp : s.host.pending = false) :
    hostEdge p s = .next (latchPins p s (hostPhaseStep s)) := by
  simp [hostEdge, hp, andThen]

/-- Where words are awaited an edge withdraws the response and does nothing else. -/
theorem hostPhaseStep_of_ready {s : State} (hready : cmdReady false s = true) :
    hostPhaseStep s = hostReady s := by
  rcases cmdReady_iff.mp hready with h | h <;> simp [hostPhaseStep, h]

/-- With nothing latched, a word presented to a ready host sequencer is latched at the edge. -/
theorem hostEdge_of_transfer {p : PinIn} {s : State} (hp : s.host.pending = false)
    (hheld : s.host.held = none) (hvalid : p.cmdValid = true) (hready : cmdReady false s = true) :
    hostEdge p s = .next (latchWord p.cmdWord s (hostReady s)) := by
  have hafter : cmdReady false (hostReady s) = true := hready
  rw [hostEdge_of_not_pending hp, hostPhaseStep_of_ready hready,
    latchPins_of_ready (incomingWord_of_ready hheld hvalid hready) hafter]

/-- Settles O6: the word an edge takes is the one presented to a ready host sequencer or the one held, and
it is latched when the command or phase before it leaves the host sequencer ready. -/
theorem commandLength : Obligations.CommandLength := by
  intro p s first _ hfirst
  refine ⟨fun hvalid hp hheld => ?_, fun hvalid hp hidle hheld h he => ?_, fun hp hbusy h hh => ?_⟩
  · have htransfer := hostEdge_of_transfer hp hheld hvalid
    refine ⟨fun hidle hop => ?_, fun hidle hop => ?_, fun hword2 => ?_⟩
    · rw [htransfer (cmdReady_iff.mpr (.inl hidle)), latchWord_of_two_words (by simp [hidle]) hop]
      simp [hostReady, hp, hheld]
    · rw [htransfer (cmdReady_iff.mpr (.inl hidle)), latchWord_of_one_word (by simp [hidle]) hop]
      simp [hostReady, hheld]
    · rw [htransfer (cmdReady_iff.mpr (.inr hword2)), latchWord_of_word2 hword2]
      simp [hostReady, hheld]
  · have hword := incomingWord_of_ready hheld hvalid (cmdReady_iff.mpr (.inl hidle))
    rw [hostEdge_of_pending hp he]
    refine ⟨fun hready => ?_, fun hwait => ?_⟩
    · rw [latchPins_of_ready hword hready, latchWord_eq_of_spec hfirst (by simp [hidle])]
    · rw [latchPins_of_not_ready hword hwait, holdWord]
  · rw [hostEdge_of_not_pending hp, ← hh]
    refine ⟨fun hheld => ?_, fun w hheld => ?_⟩
    · rw [latchPins_of_none (incomingWord_of_not_ready hheld hbusy)]
    · have hword : incomingWord p s = some w := incomingWord_of_held hheld
      obtain ⟨-, hword2⟩ := cmdReady_eq_false_iff.mp hbusy
      refine ⟨fun hready => ?_, fun hwait => ?_⟩
      · rw [latchPins_of_ready hword hready, latchWord_eq_of_spec hfirst hword2]
      · rw [latchPins_of_not_ready hword hwait, holdWord]

/-! ## How long a response lasts (R94, R96) -/

/-- Of the outcomes of a step of `HS_RECT` only the answer gives a response (R218). -/
theorem rectNext_response {s : State} (hr : s.host.rspValid = false)
    (h : (rectNext s).host.rspValid = true) : (rectNext s).host.phase = .idle := by
  simp only [rectNext] at h ⊢
  split_ifs at h ⊢
  · rw [setCounters_rspValid, hr] at h; cases h
  · rw [setCounters_rspValid, hr] at h; cases h
  · rfl

/-- A response is given by the end of a command, which leaves the host sequencer in `HS_IDLE`. -/
theorem hostMove_response {b h0 : State} (m : HostMove b (hostReady b) h0)
    (h : h0.host.rspValid = true) : h0.host.phase = .idle := by
  cases m
  case rect =>
    rw [rectStep] at h ⊢
    refine rectNext_response ?_ h
    rw [enqueuePixel_only]; rfl
  case quiet | beginRect | stop | request | next => cases h
  all_goals rfl

/-- It ends a command latched before the edge, or one that was in its phase. -/
theorem hostMove_response_source {b h0 : State} (m : HostMove b (hostReady b) h0)
    (h : h0.host.rspValid = true) :
    b.host.pending = true ∨ (b.host.phase ≠ .idle ∧ b.host.phase ≠ .word2) := by
  cases m
  case quiet | next => cases h
  case rect np ph => exact .inr (by simp [ph])
  case stopEnd np ph hi => exact .inr (by simp [ph])
  case finish d l np ph hd hl => rcases ph with ph | ph | ph <;> exact .inr (by simp [ph])
  all_goals exact .inl ‹_›

/-- A word latched in `HS_IDLE` leaves the host sequencer there or in `HS_WORD2` (R95). -/
theorem latchPins_phase_of_idle {p : PinIn} {b h0 : State} (h : h0.host.phase = .idle) :
    (latchPins p b h0).host.phase = .idle ∨ (latchPins p b h0).host.phase = .word2 := by
  rcases latchPins_cases p b h0 with
    ⟨-, he⟩ | ⟨w, -, ⟨-, he⟩ | ⟨-, ⟨-, he⟩ | ⟨-, -, he⟩ | ⟨-, -, he⟩⟩⟩ <;> rw [he]
  · exact .inl h
  · exact .inl h
  · exact .inl rfl
  · exact .inr rfl
  · exact .inl h

/-- Settles O51: a response is the end of a command, after which at most one word is latched; neither the
engine nor the sequencers touch the host context. -/
theorem responseLastsOneCycle : Obligations.ResponseLastsOneCycle := by
  intro s t hrst hstep
  obtain ⟨h0, g, hmove, -, -, rfl⟩ := step_parts hrst hstep
  refine ⟨fun hrsp => ?_, fun hrsp => ?_, cmdReady_iff, rfl⟩
  all_goals rw [advanceTime_host, blockEdge_host, latchPins_rspValid] at hrsp
  · exact hostMove_response_source (b := beginEdge s) hmove hrsp
  · rw [advanceTime_host, blockEdge_host]
    exact latchPins_phase_of_idle (hostMove_response hmove hrsp)

end Sys2Proof.Machine
end

section
/-! PROOFS. What the engine does with a request (R130 to R132): an idle engine grants the winning one, a busy
engine lets it wait and advances its own operation as if there were none. -/

namespace Sys2Proof.Machine

/-! ## A request inside the array (R67, R130, R131) -/

theorem acceptRequest_of_idle {s : State} (h : s.eng.phase = .idle) (op : EngOp) (row col : Coord)
    (v : Nibble) :
    acceptRequest true op row col v s = .next (grant op row.toNat col.toNat v s) := by
  simp [acceptRequest, h]

theorem acceptRequest_of_busy {s : State} (h : s.eng.phase ≠ .idle) (op : EngOp) (row col : Coord)
    (v : Nibble) : acceptRequest true op row col v s = .next s := by
  simp [acceptRequest, h]

section
variable {s : State} {row col : Coord}

theorem exec_write_inside (v : Nibble) (hrow : row.toNat < s.cfg.dramRows)
    (hcol : col.toNat < s.cfg.dramCols) :
    exec (.write row col v) s = acceptRequest true .write row col v s := by
  rw [exec, execWrite, inArray_iff.mpr ⟨hrow, hcol⟩]

theorem exec_read_inside (hrow : row.toNat < s.cfg.dramRows) (hcol : col.toNat < s.cfg.dramCols) :
    exec (.read row col) s = acceptRequest true .read row col 0 s := by
  rw [exec, execRead, inArray_iff.mpr ⟨hrow, hcol⟩]

theorem exec_xfer_inside (hrow : row.toNat < s.cfg.dramRows) :
    exec (.xfer row) s = acceptRequest true .xfer row 0 0 s := by
  rw [exec, execXfer, inRows, decide_eq_true hrow]

theorem exec_refrow_inside (hrow : row.toNat < s.cfg.dramRows) :
    exec (.refrow row) s = acceptRequest true .refrow row 0 0 s := by
  rw [exec, execRefrow, inRows, decide_eq_true hrow]

end

/-! ## The operation in progress does not see the lines (R131) -/

theorem activationRestart_withReq (row : Nat) (s : State) (r : Requests) :
    activationRestart row { s with req := r } = { activationRestart row s with req := r } := by
  simp only [activationRestart]
  split <;> rfl

theorem holdZero_withReq (s : State) (r : Requests) :
    holdZero { s with req := r } = { holdZero s with req := r } := by
  simp only [holdZero]
  split <;> rfl

theorem phaseEntry_withReq (p : EngPhase) (s : State) (r : Requests) :
    phaseEntry p { s with req := r } = { phaseEntry p s with req := r } := by
  cases p
  case wr1 | rd1 =>
    exact (congrArg holdZero (activationRestart_withReq _ (setRas true s) r)).trans
      (holdZero_withReq _ r)
  case xf1 => exact activationRestart_withReq _ (setRas true s) r
  all_goals rfl

theorem phaseEnd_withReq (p : EngPhase) (s : State) (r : Requests) :
    phaseEnd p { s with req := r } = { phaseEnd p s with req := r } := by
  cases p <;> rfl

theorem enterPhase_withReq (n : Nat) (p : EngPhase) (s : State) (r : Requests) :
    enterPhase n p { s with req := r } = { enterPhase n p s with req := r } := by
  induction n generalizing p s with
  | zero => rfl
  | succ n ih =>
    simp only [enterPhase, phaseEntry_withReq, phaseEnd_withReq, ih]
    split <;> rfl

theorem addressMux_withReq (s : State) (r : Requests) :
    addressMux { s with req := r } = { addressMux s with req := r } := by
  simp only [addressMux]
  split <;> rfl

theorem engineAdvance_withReq (s : State) (r : Requests) :
    engineAdvance { s with req := r } = { engineAdvance s with req := r } := by
  simp only [engineAdvance, addressMux_withReq, phaseEnd_withReq, enterPhase_withReq]
  split
  · rfl
  · split <;> rfl

/-- Settles O27: a busy engine leaves a request where it is, and grants none at an edge at which its
operation goes on. -/
theorem busyEngineAcceptsNothing : Obligations.BusyEngineAcceptsNothing := by
  refine ⟨fun s row col v _ hbusy hrow => ⟨fun hcol => ⟨?_, ?_⟩, ?_, ?_⟩, fun s _ hbusy => ?_⟩
  · rw [exec_write_inside v hrow hcol, acceptRequest_of_busy hbusy]
  · rw [exec_read_inside hrow hcol, acceptRequest_of_busy hbusy]
  · rw [exec_xfer_inside hrow, acceptRequest_of_busy hbusy]
  · rw [exec_refrow_inside hrow, acceptRequest_of_busy hbusy]
  · refine ⟨?_, engineAdvance_req s, engineAdvance_eng_op s, engineAdvance_eng_row s,
      engineAdvance_eng_col s, engineAdvance_eng_owner s, engineAdvance_withReq s⟩
    rw [engineEdge, engineGrant, if_neg hbusy]

/-! ## The winning request (R132) -/

/-- Settles O8: a free engine decodes the winner's word and runs it; the winner is the first raised line
in the order line, frame, host. -/
theorem engineRunsWinningRequest : Obligations.EngineRunsWinningRequest := by
  refine ⟨fun s w i _ hfree hwin hdec => ?_, fun ls fs hs w => ?_⟩
  · have hline : winningRequest (engineAdvance s).req = some w := by rw [engineAdvance_req, hwin]
    simp only [engineEdge, engineGrant, if_pos hfree, hline, hdec]
  · exact ⟨rfl, rfl, rfl, rfl, rfl, rfl, rfl, rfl, rfl⟩

end Sys2Proof.Machine
end

section
/-! PROOFS. An operation in progress (R122 to R136): how long it lasts, and what it has done to the chip
in each of its phases, from its grant to its `done`. -/

namespace Sys2Proof.Machine

/-! ## The time an operation takes (R130, R136) -/

/-- The engine's edges touch the engine, its pins and the chip, and model time moves on with each. -/
theorem engineEdges_only (n : Nat) (s : State) :
    engineEdges n s = { s with
      t := s.t + n
      draws := s.draws + n
      eng := { s.eng with
        phase := (engineEdges n s).eng.phase
        dwell := (engineEdges n s).eng.dwell
        val := (engineEdges n s).eng.val }
      pins := (engineEdges n s).pins
      chip := (engineEdges n s).chip } := by
  induction n with
  | zero => rfl
  | succ n ih => rw [engineEdges_succ, engineAdvance_only, ih]; rfl

/-- An operation in progress keeps the engine busy until the edge that takes its last cycle. -/
theorem engineEdges_busy {s : State} (hbusy : s.eng.phase ≠ .idle) (hdwell : 1 ≤ s.eng.dwell) {k : Nat}
    (hk : k < engineRemaining s) :
    (engineEdges k s).eng.phase ≠ .idle ∧ 1 ≤ (engineEdges k s).eng.dwell ∧
      engineRemaining (engineEdges k s) + k = engineRemaining s := by
  induction k with
  | zero => exact ⟨hbusy, hdwell, rfl⟩
  | succ k ih =>
    obtain ⟨hb, hd, hrem⟩ := ih (by omega)
    have hafter : (engineAdvance (engineEdges k s)).eng.phase ≠ .idle := by
      rw [Ne, engineAdvance_idle_iff hb hd]; omega
    have hstep := engineAdvance_remaining hb hd
    rw [engineEdges_succ]
    refine ⟨hafter, engineAdvance_dwell hafter, ?_⟩
    change engineRemaining (engineAdvance (engineEdges k s)) + (k + 1) = _
    omega

theorem engineRemaining_pos {s : State} (hbusy : s.eng.phase ≠ .idle) (hdwell : 1 ≤ s.eng.dwell) :
    0 < engineRemaining s := by
  rw [engineRemaining, if_neg hbusy]; omega

/-- The edge before the last leaves one cycle. -/
theorem engineEdges_last {s : State} (hbusy : s.eng.phase ≠ .idle) (hdwell : 1 ≤ s.eng.dwell) :
    (engineEdges (engineRemaining s - 1) s).eng.phase ≠ .idle ∧
      (engineAdvance (engineEdges (engineRemaining s - 1) s)).eng.phase = .idle := by
  have hpos := engineRemaining_pos hbusy hdwell
  obtain ⟨hb, hd, hrem⟩ := engineEdges_busy hbusy hdwell (Nat.sub_one_lt_of_lt hpos)
  exact ⟨hb, (engineAdvance_idle_iff hb hd).mpr (by omega)⟩

theorem engineEdges_idle {s : State} (hbusy : s.eng.phase ≠ .idle) (hdwell : 1 ≤ s.eng.dwell) :
    (engineEdges (engineRemaining s) s).eng.phase = .idle := by
  rw [← Nat.sub_add_cancel (engineRemaining_pos hbusy hdwell), engineEdges_succ]
  exact (engineEdges_last hbusy hdwell).2

/-- Settles O28: every edge takes one cycle off the operation, and `done` falls on the edge that takes the
last. -/
theorem operationDurations : Obligations.OperationDurations := by
  intro s _ hbusy hdwell
  refine ⟨fun k hk => ?_, engineEdges_idle hbusy hdwell, fun k hk => ?_, ?_⟩
  · obtain ⟨hb, -, hrem⟩ := engineEdges_busy hbusy hdwell hk
    exact ⟨by omega, hb⟩
  · obtain ⟨hb, -⟩ := engineEdges_busy hbusy hdwell hk
    rw [engineEdges_succ] at hb
    exact if_neg fun hdone => hb hdone.2
  · obtain ⟨hb, hidle⟩ := engineEdges_last hbusy hdwell
    rw [doneOwner_eq_some]
    exact ⟨hb, hidle, by rw [engineEdges_only]⟩

/-! ## From phase to phase (R121) -/

/-- What holds as a phase is entered holds of the phase the engine comes to rest in, however many phases
last no cycle, if the end of a phase that lasts none hands it to the next. `stop` is the edge of `done`. -/
theorem enterPhase_induct {P : EngPhase → State → Prop} {stop : Nat}
    (hset : ∀ p u d, P p u → P p { u with eng := { u.eng with phase := p, dwell := d } })
    (hnext : ∀ p u, p ≠ .idle → phaseDwell u.cfg p = 0 → u.t + dwellsAfter u.cfg p = stop → P p u →
      P (nextPhase p) (phaseEntry (nextPhase p) (phaseEnd p u)))
    {n : Nat} {p : EngPhase} {s : State} (hrank : phaseRank p < n)
    (hstop : s.t + phaseDwell s.cfg p + dwellsAfter s.cfg p = stop) (h : P p (phaseEntry p s)) :
    P (enterPhase n p s).eng.phase (enterPhase n p s) := by
  induction n generalizing p s with
  | zero => omega
  | succ n ih =>
    rw [enterPhase]
    split
    next hp =>
      have hrest : s.t + dwellsAfter s.cfg p = stop := by omega
      refine ih (by rw [phaseRank_next hp.2] at hrank; omega) ?_
        (hnext p _ hp.2 (by simpa using hp.1) (by simpa using hrest) h)
      rw [dwellsAfter_next _ hp.2] at hrest
      simp only [phaseEnd_t, phaseEnd_cfg, phaseEntry_t, phaseEntry_cfg]
      omega
    next => exact hset p _ _ h

/-! ## What an operation has done in each phase (R122 to R128) -/

/-- The row strobe has been given. -/
def rowStrobed : EngPhase → Bool
  | .wr0 | .rd0 | .xf0 | .rf0 => false
  | _ => true

/-- The phase at whose end the operation moves its data is over: WR2 stores, RD2 samples, XF2 loads. -/
def dataMoved : EngPhase → Bool
  | .wr0 | .wr1 | .wr2 | .rd0 | .rd1 | .rd2 | .xf0 | .xf1 | .xf2 => false
  | _ => true

/-- What the operation's move of data does to the chip (R72 to R74, R76). -/
def moveData (op : EngOp) (row col : Nat) (v : Nibble) (s : State) : State :=
  match op with
  | .write => setCell row col v s
  | .read => s
  | .xfer => loadSam row s
  | .refrow => s

/-- The stamps after the row strobe, which comes one first phase after the grant (R72, R75, R76). -/
def strobedStamps (op : EngOp) (row : Nat) (s : State) : List Nat :=
  if op = .refrow ∨ s.cfg.activationRefreshes = true then
    s.chip.rowStamp.set row (s.t + phaseDwell s.cfg (firstPhase op))
  else s.chip.rowStamp

/-- The chip in a phase of an operation granted in state `s`. -/
def operationChip (op : EngOp) (row col : Nat) (v : Nibble) (s : State) (p : EngPhase) : Chip :=
  { (if dataMoved p then moveData op row col v s else s).chip with
    rowStamp := if rowStrobed p then strobedStamps op row s else s.chip.rowStamp }

/-- A draw answers for a cell that is `UNDEF` (R71). -/
def SampleOf (cell : Option Nibble) (v : Nibble) : Prop := ∃ d, v = cell.getD (Config.any4 d)

/-- State `u` is in phase `p` of an operation granted in state `s`. -/
structure Runs (op : EngOp) (row col : Nat) (v : Nibble) (s : State) (p : EngPhase) (u : State) :
    Prop where
  cfg_eq : u.cfg = s.cfg
  phase_op : p ≠ .idle → phaseOp p = some op
  row_eq : u.eng.row = row
  col_eq : u.eng.col = col
  chip_eq : u.chip = operationChip op row col v s p
  latched : op ≠ .read ∨ dataMoved p = false → u.eng.val = v
  sampled : op = .read → dataMoved p = true → SampleOf (cellAt s row col) u.eng.val

/-- The edge of `done` of an operation granted in state `s`, in model time. -/
def doneTime (op : EngOp) (s : State) : Nat :=
  s.t + phaseDwell s.cfg (firstPhase op) + dwellsAfter s.cfg (firstPhase op)

section
variable {op : EngOp} {row col : Nat} {v : Nibble} {s u : State} {p : EngPhase}

theorem Runs.congr {u' : State} (h : Runs op row col v s p u) (hcfg : u'.cfg = u.cfg)
    (hrow : u'.eng.row = u.eng.row) (hcol : u'.eng.col = u.eng.col) (hval : u'.eng.val = u.eng.val)
    (hchip : u'.chip = u.chip) : Runs op row col v s p u' where
  cfg_eq := hcfg.trans h.cfg_eq
  phase_op := h.phase_op
  row_eq := hrow.trans h.row_eq
  col_eq := hcol.trans h.col_eq
  chip_eq := hchip.trans h.chip_eq
  latched hn := hval.trans (h.latched hn)
  sampled ho hm := hval ▸ h.sampled ho hm

/-- The end of a phase moves the data, where it is the phase that moves it, and leaves the stamps. -/
theorem Runs.phaseEnd_chip (h : Runs op row col v s p u) (hop : phaseOp p = some op) :
    (phaseEnd p u).chip =
      { operationChip op row col v s (nextPhase p) with
        rowStamp := (operationChip op row col v s p).rowStamp } := by
  cases p <;> cases hop
  case wr2 =>
    simp [phaseEnd, operationChip, dataMoved, nextPhase, moveData, setCell, h.cfg_eq, h.row_eq,
      h.col_eq, h.chip_eq, h.latched]
  case xf2 =>
    simp [phaseEnd, operationChip, dataMoved, nextPhase, moveData, loadSam, cellAt, h.cfg_eq, h.row_eq,
      h.chip_eq]
  all_goals exact h.chip_eq

/-- The phase after the first one is entered with the row strobe, which restarts retention as R72 to R76
say; no other entry touches the chip. -/
theorem phaseEntry_next_chip (hop : phaseOp p = some op) (u : State) :
    (phaseEntry (nextPhase p) u).chip =
      { u.chip with rowStamp :=
          if p = firstPhase op ∧ (op = .refrow ∨ u.cfg.activationRefreshes = true) then
            u.chip.rowStamp.set u.eng.row u.t
          else u.chip.rowStamp } := by
  cases p <;> cases hop
  case wr0 | rd0 | xf0 =>
    simp only [nextPhase, phaseEntry, holdZero_chip, activationRestart]
    split <;> simp_all [restartRetention, firstPhase]
  all_goals rfl

theorem rowStrobed_iff (hop : phaseOp p = some op) : rowStrobed p = true ↔ p ≠ firstPhase op := by
  cases p <;> cases hop <;> decide

theorem rowStrobed_next (p : EngPhase) : rowStrobed (nextPhase p) = true := by cases p <;> rfl

theorem Runs.next_chip (h : Runs op row col v s p u) (hop : phaseOp p = some op)
    (hstop : u.t + dwellsAfter u.cfg p = doneTime op s) :
    (phaseEntry (nextPhase p) (phaseEnd p u)).chip = operationChip op row col v s (nextPhase p) := by
  rw [phaseEntry_next_chip hop, h.phaseEnd_chip hop]
  simp only [operationChip, rowStrobed_next, phaseEnd_cfg, phaseEnd_t, phaseEnd_eng_row, h.cfg_eq,
    h.row_eq, Chip.mk.injEq, true_and, and_true, if_true]
  by_cases hfirst : p = firstPhase op
  · have hstrobe : u.t = s.t + phaseDwell s.cfg (firstPhase op) := by
      rw [hfirst, h.cfg_eq, doneTime] at hstop; omega
    have hbefore : rowStrobed p = false := by
      rw [← Bool.not_eq_true, rowStrobed_iff hop]; exact fun hn => hn hfirst
    simp [hfirst ▸ hbefore, strobedStamps, hstrobe, hfirst]
  · simp [hfirst, (rowStrobed_iff hop).mpr hfirst]

theorem phaseEnd_val (hp : p ≠ .rd2) (u : State) : (phaseEnd p u).eng.val = u.eng.val := by
  cases p
  case rd2 => exact absurd rfl hp
  all_goals rfl

theorem dataMoved_next (hwr2 : p ≠ .wr2) (hrd2 : p ≠ .rd2) (hxf2 : p ≠ .xf2) :
    dataMoved (nextPhase p) = dataMoved p := by
  cases p
  case wr2 | rd2 | xf2 => contradiction
  all_goals rfl

theorem dataMoved_of_next (h : dataMoved (nextPhase p) = false) : dataMoved p = false := by
  cases p
  case wr0 | wr1 | wr2 | rd0 | rd1 | rd2 | xf0 | xf1 | xf2 => rfl
  all_goals cases h

/-- RD2's end samples the cell (R73). -/
theorem Runs.sample (h : Runs .read row col v s .rd2 u) :
    SampleOf (cellAt s row col) (phaseEnd .rd2 u).eng.val := by
  refine ⟨u.draws, ?_⟩
  simp only [phaseEnd, sampleCell, readCell, cellAt, h.cfg_eq, h.row_eq, h.col_eq, h.chip_eq]
  rfl

/-- A phase hands the operation to the next. -/
theorem Runs.next (h : Runs op row col v s p u) (hp : p ≠ .idle)
    (hstop : u.t + dwellsAfter u.cfg p = doneTime op s) :
    Runs op row col v s (nextPhase p) (phaseEntry (nextPhase p) (phaseEnd p u)) := by
  have hop := h.phase_op hp
  refine ⟨by simpa using h.cfg_eq, fun hn => (phaseOp_next hn).trans hop, by simpa using h.row_eq,
    by simpa using h.col_eq, h.next_chip hop hstop, fun hn => ?_, fun hr hm => ?_⟩
  all_goals rw [phaseEntry_eng]
  · have hrd2 : p ≠ .rd2 := by
      rintro rfl
      cases hop
      simp [nextPhase, dataMoved] at hn
    rw [phaseEnd_val hrd2]
    exact h.latched (hn.imp_right dataMoved_of_next)
  · subst hr
    by_cases hrd2 : p = .rd2
    · subst hrd2; exact h.sample
    · rw [phaseEnd_val hrd2]
      refine h.sampled rfl ?_
      rwa [dataMoved_next (by rintro rfl; cases hop) hrd2 (by rintro rfl; cases hop)] at hm

/-- Entering a phase leaves the operation in the phase the engine comes to rest in. -/
theorem enterPhase_runs (hstop : u.t + phaseDwell u.cfg p + dwellsAfter u.cfg p = doneTime op s)
    (h : Runs op row col v s p (phaseEntry p u)) :
    Runs op row col v s (enterPhase phaseFuel p u).eng.phase (enterPhase phaseFuel p u) :=
  enterPhase_induct (P := Runs op row col v s)
    (fun _ _ _ hr => hr.congr rfl rfl rfl rfl rfl) (fun _ _ hp _ hend hr => hr.next hp hend)
    (phaseRank_lt_fuel p) hstop h

theorem grant_runs (op : EngOp) (row col : Nat) (v : Nibble) (s : State) :
    Runs op row col v s (grant op row col v s).eng.phase (grant op row col v s) := by
  refine enterPhase_runs rfl ?_
  cases op
  all_goals exact ⟨rfl, fun _ => rfl, rfl, rfl, rfl, fun _ => rfl, nofun⟩

theorem engineAdvance_runs (hdwell : 1 ≤ u.eng.dwell)
    (hstop : u.t + engineRemaining u = doneTime op s + 1) (h : Runs op row col v s u.eng.phase u) :
    Runs op row col v s (engineAdvance u).eng.phase (engineAdvance u) := by
  rw [engineAdvance]
  have hmux : Runs op row col v s u.eng.phase (addressMux u) := by
    refine h.congr ?_ ?_ ?_ ?_ ?_ <;> simp
  split
  · exact h
  next hbusy =>
    rw [engineRemaining, if_neg hbusy] at hstop
    split
    · have hend : u.t + dwellsAfter u.cfg u.eng.phase = doneTime op s := by omega
      refine enterPhase_runs ?_ (hmux.next hbusy (by simpa using hend))
      rw [dwellsAfter_next _ hbusy] at hend
      simp only [phaseEnd_t, phaseEnd_cfg, addressMux_t, addressMux_cfg]
      omega
    · have hphase : (addressMux u).eng.phase = u.eng.phase := by rw [addressMux_eng]
      exact hphase ▸ hmux.congr rfl rfl rfl rfl rfl

/-- Every edge after the grant finds the operation where its phase says. -/
theorem engineEdges_runs (op : EngOp) (row col : Nat) (v : Nibble) (s : State) {k : Nat}
    (hk : k ≤ engineRemaining (grant op row col v s)) :
    Runs op row col v s (engineEdges k (advanceTime (grant op row col v s))).eng.phase
      (engineEdges k (advanceTime (grant op row col v s))) := by
  induction k with
  | zero => exact (grant_runs op row col v s).congr rfl rfl rfl rfl rfl
  | succ k ih =>
    obtain ⟨hbusy, hdwell, hrem⟩ := engineEdges_busy (s := advanceTime (grant op row col v s))
      (grant_busy op row col v) (grant_dwell op row col v) hk
    rw [engineEdges_succ]
    refine (engineAdvance_runs hdwell ?_ (ih (by omega))).congr rfl rfl rfl rfl rfl
    have hgrant : engineRemaining (advanceTime (grant op row col v s)) =
        phaseDwell s.cfg (firstPhase op) + dwellsAfter s.cfg (firstPhase op) :=
      grant_remaining op row col v
    have ht : (engineEdges k (advanceTime (grant op row col v s))).t = s.t + 1 + k := by
      rw [engineEdges_only]
      exact congrArg (· + 1 + k) (grant_t op row col v s)
    simp only [doneTime]
    omega

end

end Sys2Proof.Machine
end

section
/-! PROOFS. The four operations from grant to `done` (R122 to R128, R136): the state a grant leaves, and what
WRITE, READ, XFER and REFROW have done by the end. -/

namespace Sys2Proof.Machine

/-! ## The grant (R130, R136) -/

/-- The duration of an operation, from the edge of its request to the edge of its `done` (R136). -/
def operationTime (c : Config) : EngOp → Nat
  | .write => c.tWrite
  | .read => c.tRead
  | .xfer => c.tXferOp
  | .refrow => c.tRefrow

/-- It is the sum of the dwells of the operation's table, after the request cycle (R136). -/
theorem operationTime_eq (c : Config) (op : EngOp) :
    operationTime c op = phaseDwell c (firstPhase op) + dwellsAfter c (firstPhase op) + 1 := by
  cases op <;>
    simp only [operationTime, firstPhase, phaseDwell, dwellsAfter, Config.tWrite, Config.tRead,
      Config.tXferOp, Config.tRefrow] <;>
    omega

section
variable (op : EngOp) (row col : Nat) (v : Nibble) (s : State)

theorem grant_granted : Granted op row col (operationTime s.cfg op) s (grant op row col v s) where
  op_eq := grant_eng_op ..
  row_eq := grant_eng_row ..
  col_eq := grant_eng_col ..
  owner_eq := grant_eng_owner ..
  line_dropped := grant_req ..
  busy := grant_busy op row col v
  remaining := by rw [grant_remaining, operationTime_eq]
  outside := by rw [grant_only]

/-- A first phase that lasts is where the grant leaves the engine. -/
theorem grant_of_dwell (h : 1 ≤ phaseDwell s.cfg (firstPhase op)) :
    grant op row col v s = { s with
      eng := ⟨firstPhase op, op, row, col, v, phaseDwell s.cfg (firstPhase op), winner s.req⟩
      req := dropLine (winner s.req) s.req
      pins := { s.pins with addr := row, cas := decide (op = .refrow) || s.pins.cas } } := by
  rw [grant, phaseFuel, enterPhase, if_neg fun hzero => Nat.not_lt_of_le (Nat.le_of_eq hzero.1) h]
  cases op <;> rfl

end

/-- Settles O25: inside the array each request is a grant, which enters the first phase of its table. -/
theorem engineGrants : Obligations.EngineGrants := by
  intro s row col v _ hidle hrow
  have hxfer := (exec_xfer_inside hrow).trans (acceptRequest_of_idle hidle .xfer row 0 0)
  have hrefrow := (exec_refrow_inside hrow).trans (acceptRequest_of_idle hidle .refrow row 0 0)
  refine ⟨fun hcol => ?_, ⟨_, hxfer, grant_granted ..⟩, ⟨_, hrefrow, grant_granted ..⟩,
    fun hasr => ?_, fun hcsr => ?_⟩
  · have hwrite := (exec_write_inside v hrow hcol).trans (acceptRequest_of_idle hidle .write row col v)
    have hread := (exec_read_inside hrow hcol).trans (acceptRequest_of_idle hidle .read row col 0)
    refine ⟨⟨_, hwrite, grant_granted .., ?_⟩, ⟨_, hread, grant_granted ..⟩, fun hasr => ⟨?_, ?_⟩⟩
    · exact (grant_runs .write row.toNat col.toNat v s).latched (.inl (by decide))
    · exact hwrite.trans (congrArg _ (grant_of_dwell .write _ _ v s hasr))
    · exact hread.trans (congrArg _ (grant_of_dwell .read _ _ 0 s hasr))
  · exact hxfer.trans (congrArg _ (grant_of_dwell .xfer _ _ 0 s hasr))
  · exact hrefrow.trans (congrArg _ (grant_of_dwell .refrow _ _ 0 s hcsr))

/-! ## The end of an operation (R136) -/

/-- An operation granted in state `s` is over in state `u`, its duration after its request. -/
structure Completed (op : EngOp) (row col : Nat) (v : Nibble) (s u : State) : Prop where
  idle : u.eng.phase = .idle
  time_eq : u.t = s.t + operationTime s.cfg op
  runs : Runs op row col v s .idle u
  outside : u.host = s.host ∧ u.line = s.line ∧ u.frame = s.frame ∧ u.health = s.health

theorem operation_completes (op : EngOp) (row col : Nat) (v : Nibble) (s : State) :
    Completed op row col v s
      (engineEdges (operationTime s.cfg op - 1) (advanceTime (grant op row col v s))) := by
  have hrem : operationTime s.cfg op - 1 = engineRemaining (grant op row col v s) := by
    rw [← (grant_granted op row col v s).remaining, Nat.add_sub_cancel]
  have hidle := engineEdges_idle (s := advanceTime (grant op row col v s))
    (grant_busy op row col v) (grant_dwell op row col v)
  have hruns := engineEdges_runs op row col v s le_rfl
  refine ⟨hrem ▸ hidle, ?_, ?_, ?_⟩
  · rw [engineEdges_only, operationTime_eq]
    simp [advanceTime]; omega
  · rw [hrem]
    exact hidle ▸ hruns
  · rw [engineEdges_only]
    simp

section
variable {op : EngOp} {row col : Nat} {v : Nibble} {s u : State}

/-- The cells at the end are those the operation's move of data leaves (R72). -/
theorem Completed.cellAt_eq (h : Completed op row col v s u) (r c : Nat) :
    cellAt u r c = cellAt (moveData op row col v s) r c := by
  have hcfg : (moveData op row col v s).cfg = s.cfg := by cases op <;> rfl
  simp only [cellAt, h.runs.cfg_eq, hcfg, h.runs.chip_eq]
  rfl

theorem Completed.rowStamp_eq (h : Completed op row col v s u) :
    u.chip.rowStamp = strobedStamps op row s := by rw [h.runs.chip_eq]; rfl

/-- An access restarts retention where accesses do (R72, R75). -/
theorem Completed.rowStamp_of_access (h : Completed op row col v s u) (hop : op ≠ .refrow) :
    u.chip.rowStamp =
      if s.cfg.activationRefreshes then s.chip.rowStamp.set row (s.t + s.cfg.tAsr)
      else s.chip.rowStamp := by
  rw [h.rowStamp_eq, strobedStamps]
  cases op
  case refrow => exact absurd rfl hop
  all_goals simp [firstPhase, phaseDwell]

theorem Completed.sam_eq (h : Completed op row col v s u) :
    u.chip.sam = (moveData op row col v s).chip.sam := by rw [h.runs.chip_eq]; rfl

theorem Completed.samPtr_eq (h : Completed op row col v s u) :
    u.chip.samPtr = (moveData op row col v s).chip.samPtr := by rw [h.runs.chip_eq]; rfl

theorem Completed.sd_eq (h : Completed op row col v s u) : u.chip.sd = s.chip.sd := by
  rw [h.runs.chip_eq]; cases op <;> rfl

end

theorem samAt_loadSam {row i : Nat} {s : State} (hi : i < s.cfg.dramCols) :
    samAt (loadSam row s) i = cellAt s row i := by
  simp [samAt, loadSam, hi]

/-- Settles O29: WR1's strobe sets the stamp and WR2's end stores the cell. -/
theorem writeOperation : Obligations.WriteOperation := by
  intro s row col v _ hidle hrow hcol
  have hexec := (exec_write_inside v hrow hcol).trans (acceptRequest_of_idle hidle .write row col v)
  have hdone := operation_completes .write row.toNat col.toNat v s
  refine ⟨_, _, hexec, rfl, hdone.idle, hdone.time_eq, ?_, fun r c hc hne => ?_, hdone.sam_eq,
    hdone.samPtr_eq, hdone.sd_eq, hdone.rowStamp_of_access (by decide), hdone.outside⟩
  · exact (hdone.cellAt_eq _ _).trans (cellAt_setCell_same ..)
  · exact (hdone.cellAt_eq _ _).trans (cellAt_setCell_other v s hc hcol hne)

/-- Settles O30: RD1's strobe sets the stamp and RD2's end samples the cell, which nothing has changed. -/
theorem readOperation : Obligations.ReadOperation := by
  intro s row col _ hidle hrow hcol
  have hexec := (exec_read_inside hrow hcol).trans (acceptRequest_of_idle hidle .read row col 0)
  have hdone := operation_completes .read row.toNat col.toNat 0 s
  obtain ⟨d, hval⟩ := hdone.runs.sampled rfl rfl
  refine ⟨_, _, hexec, rfl, hdone.idle, hdone.time_eq, fun v hcell => ?_, fun hcell => ⟨d, ?_⟩,
    hdone.cellAt_eq, hdone.sam_eq, hdone.samPtr_eq, hdone.sd_eq,
    hdone.rowStamp_of_access (by decide), hdone.outside⟩
  · exact hval.trans (by rw [hcell]; rfl)
  · exact hval.trans (by rw [hcell]; rfl)

/-- Settles O31: XF1's strobe sets the stamp and XF2's end loads the SAM. -/
theorem xferOperation : Obligations.XferOperation := by
  intro s row _ hidle hrow
  have hexec := (exec_xfer_inside hrow).trans (acceptRequest_of_idle hidle .xfer row 0 0)
  have hdone := operation_completes .xfer row.toNat 0 0 s
  refine ⟨_, _, hexec, rfl, hdone.idle, hdone.time_eq, fun i hi => ?_, ?_, hdone.samPtr_eq,
    hdone.sd_eq, hdone.cellAt_eq, hdone.rowStamp_of_access (by decide), hdone.outside⟩
  · exact (congrArg (·.getD i none) hdone.sam_eq).trans (samAt_loadSam hi)
  · exact (congrArg List.length hdone.sam_eq).trans (by simp [moveData, loadSam])

/-- Settles O32: RF1's strobe sets the stamp, and the operation moves no data. -/
theorem refrowOperation : Obligations.RefrowOperation := by
  intro s row _ hidle hrow
  have hexec := (exec_refrow_inside hrow).trans (acceptRequest_of_idle hidle .refrow row 0 0)
  have hdone := operation_completes .refrow row.toNat 0 0 s
  exact ⟨_, _, hexec, rfl, hdone.idle, hdone.time_eq, hdone.rowStamp_eq, hdone.cellAt_eq, hdone.sam_eq,
    hdone.samPtr_eq, hdone.sd_eq, hdone.outside⟩

end Sys2Proof.Machine
end

section
/-! PROOFS. The engine's pins follow the phase tables (R121 to R134): the strobes by the laws of the
engine, the address and the data by what each phase drives as it is entered and as it ends. -/

namespace Sys2Proof.Machine

/-! ## Address and data (R122, R124, R133) -/

/-- `ADDR` is what phase `p` calls for with `d` cycles left in it, and `DQ` what it is to write. -/
structure DrivenAt (p : EngPhase) (d : Nat) (u : State) : Prop where
  address : p ≠ .idle → u.pins.addr = addrOf u.cfg { u.eng with phase := p, dwell := d }
  data : p = .wr2 ∨ p = .wr3 → u.pins.dq = u.eng.val

theorem activationRestart_only (row : Nat) (s : State) :
    activationRestart row s = { s with chip := (activationRestart row s).chip } := by
  simp only [activationRestart]; split <;> rfl

theorem holdZero_addr (s : State) :
    (holdZero s).pins.addr = if s.cfg.tRah = 0 then s.eng.col else s.pins.addr := by
  simp only [holdZero]; split <;> rfl

section
variable {p : EngPhase} {s u : State}

theorem muxPhase_iff : muxPhase p = true ↔ p = .wr1 ∨ p = .rd1 := by simp [muxPhase]

/-- The row strobe of WRITE and READ changes `ADDR` only where the hold is zero (R133). -/
theorem phaseEntry_addr_of_mux (hp : muxPhase p = true) :
    (phaseEntry p s).pins.addr = if s.cfg.tRah = 0 then s.eng.col else s.pins.addr := by
  rcases muxPhase_iff.mp hp with rfl | rfl
  all_goals exact (holdZero_addr _).trans (by rw [activationRestart_only]; rfl)

/-- What is on `ADDR` in a phase of the multiplexer (R133). -/
theorem addrOf_of_mux {c : Config} {e : EngCtx} (hp : muxPhase e.phase = true) :
    addrOf c e = if c.tRcd - e.dwell < c.tRah then e.row else e.col := by
  rcases muxPhase_iff.mp hp with hp | hp <;> simp only [addrOf, hp]

/-- In every other phase `ADDR` does not depend on the cycles left. -/
theorem addrOf_of_not_mux {c : Config} {e : EngCtx} (hp : muxPhase e.phase = false) (d : Nat) :
    addrOf c { e with dwell := d } = addrOf c e := by
  obtain ⟨p, op, row, col, val, dwell, owner⟩ := e
  cases p
  case wr1 | rd1 => cases hp
  all_goals rfl

/-- A phase of which no cycle is left hands `ADDR` and `DQ` to the next: by the end of WR1 and RD1 the
address is the column's, for R9 asks for `T_RAH <= T_RCD`. -/
theorem DrivenAt.next (h : DrivenAt p 0 u) (hp : p ≠ .idle) (hrah : u.cfg.tRah ≤ u.cfg.tRcd) :
    DrivenAt (nextPhase p) (phaseDwell u.cfg (nextPhase p))
      (phaseEntry (nextPhase p) (phaseEnd p u)) := by
  have haddr := h.address hp
  constructor
  · intro hn
    rw [phaseEntry_eng, phaseEntry_cfg]
    cases p
    case wr0 | rd0 =>
      have hrow : u.pins.addr = u.eng.row := haddr
      have hhold : (if u.cfg.tRah = 0 then u.eng.col else u.eng.row) =
          if u.cfg.tRcd - u.cfg.tRcd < u.cfg.tRah then u.eng.row else u.eng.col := by
        split_ifs <;> omega
      exact (phaseEntry_addr_of_mux rfl).trans (hrow ▸ hhold)
    case wr1 | rd1 => exact haddr.trans (if_neg (Nat.not_lt_of_le hrah))
    case xf0 => rw [nextPhase, phaseEntry, activationRestart_only]; exact haddr
    case idle | wr6 | rd5 | xf4 | rf3 => exact absurd rfl hn
    all_goals exact haddr
  · intro hn
    cases p
    case wr1 => rfl
    case wr2 => exact h.data (.inl rfl)
    all_goals simp [nextPhase] at hn

theorem firstPhase_driven (op : EngOp) (s : State) :
    DrivenAt (firstPhase op) (phaseDwell s.cfg (firstPhase op)) (phaseEntry (firstPhase op) s) := by
  cases op
  all_goals exact ⟨fun _ => rfl, fun h => by simp [firstPhase] at h⟩

/-- The edge at which the phase has lasted `T_RAH` cycles puts the column on `ADDR` (R133). -/
theorem addressMux_addr (s : State) :
    (addressMux s).pins.addr =
      if muxPhase s.eng.phase = true ∧
          phaseDwell s.cfg s.eng.phase - s.eng.dwell + 1 = s.cfg.tRah then s.eng.col
      else s.pins.addr := by
  simp only [addressMux, Bool.and_eq_true, decide_eq_true_eq]
  split_ifs <;> rfl

/-- So an edge inside a phase leaves `ADDR` at what the phase calls for with one cycle less. -/
theorem addressMux_driven (h : DrivenAt s.eng.phase s.eng.dwell s) (hbusy : s.eng.phase ≠ .idle)
    (hdwell : 1 ≤ s.eng.dwell ∧ s.eng.dwell ≤ phaseDwell s.cfg s.eng.phase) :
    DrivenAt s.eng.phase (s.eng.dwell - 1) (addressMux s) := by
  have haddr : s.pins.addr = addrOf s.cfg s.eng := h.address hbusy
  constructor
  · intro _
    rw [addressMux_cfg, addressMux_eng]
    by_cases hmux : muxPhase s.eng.phase = true
    · rw [addrOf_of_mux hmux] at haddr
      have hrcd : phaseDwell s.cfg s.eng.phase = s.cfg.tRcd := by
        rcases muxPhase_iff.mp hmux with hp | hp <;> rw [hp] <;> rfl
      rw [hrcd] at hdwell
      refine Eq.trans ?_ (addrOf_of_mux (e := { s.eng with dwell := s.eng.dwell - 1 }) hmux).symm
      simp only [addressMux_addr, hmux, hrcd, true_and, haddr]
      split_ifs <;> omega
    · have hnot : muxPhase s.eng.phase = false := by simpa using hmux
      rw [addrOf_of_not_mux hnot, addressMux_addr, if_neg fun h => hmux h.1]
      exact haddr
  · intro hw
    rw [addressMux_only]
    exact h.data hw

theorem enterPhase_dwell_eq (n : Nat) (p : EngPhase) (s : State) :
    (enterPhase n p s).eng.dwell = phaseDwell s.cfg (enterPhase n p s).eng.phase := by
  induction n generalizing p s with
  | zero => rfl
  | succ n ih =>
    rw [enterPhase]
    split
    · rw [ih, phaseEnd_cfg, phaseEntry_cfg]
    · rfl

end

/-! ## The pins over an edge of the engine -/

section
variable {s u : State}

/-- However many phases last no cycle, the pins are those of the phase the engine comes to rest in. -/
theorem enterPhase_driven {p : EngPhase} (hrah : u.cfg.tRah ≤ u.cfg.tRcd)
    (h : DrivenAt p (phaseDwell u.cfg p) (phaseEntry p u)) :
    DrivenAt (enterPhase phaseFuel p u).eng.phase (enterPhase phaseFuel p u).eng.dwell
      (enterPhase phaseFuel p u) := by
  have hrest := enterPhase_induct (s := u)
    (P := fun p u => u.cfg.tRah ≤ u.cfg.tRcd ∧ DrivenAt p (phaseDwell u.cfg p) u)
    (fun p u d hp => ⟨hp.1, hp.2.address, hp.2.data⟩)
    (fun p u hp hzero _ hu => ⟨by simpa using hu.1, by simpa using (hzero ▸ hu.2).next hp hu.1⟩)
    (phaseRank_lt_fuel p) rfl ⟨by simpa using hrah, by simpa using h⟩
  rw [enterPhase_dwell_eq, ← enterPhase_cfg]
  exact hrest.2

/-! ## The strobes of a phase (R121 to R128, R134) -/

theorem phasePins_drive (p : EngPhase) :
    (phasePins p).2.2.2.2.2 = true ↔ p = .wr2 ∨ p = .wr3 := by cases p <;> decide

theorem phasePins_oe (p : EngPhase) : (phasePins p).2.2.2.1 = true ↔ p = .rd2 := by
  cases p <;> decide

theorem phasePins_trg (p : EngPhase) : (phasePins p).2.2.2.2.1 = true ↔ p = .xf2 := by
  cases p <;> decide

theorem dqDrive_iff (h : strobes s = phasePins s.eng.phase) :
    s.pins.dqDrive = true ↔ s.eng.phase = .wr2 ∨ s.eng.phase = .wr3 := by
  rw [← phasePins_drive, ← h]; rfl

theorem oe_iff (h : strobes s = phasePins s.eng.phase) :
    s.pins.oe = true ↔ s.eng.phase = .rd2 := by
  rw [← phasePins_oe, ← h]; rfl

theorem trg_iff (h : strobes s = phasePins s.eng.phase) :
    s.pins.trg = true ↔ s.eng.phase = .xf2 := by
  rw [← phasePins_trg, ← h]; rfl

/-! ## The pins over a step -/

theorem PinInv.driven (h : PinInv s) : DrivenAt s.eng.phase s.eng.dwell s :=
  ⟨h.address, fun hw => h.data ((dqDrive_iff h.strobes).mpr hw)⟩

theorem DrivenAt.pinInv (h : DrivenAt s.eng.phase s.eng.dwell s)
    (hstrobes : strobes s = phasePins s.eng.phase)
    (hdwell : s.eng.phase ≠ .idle → 1 ≤ s.eng.dwell ∧ s.eng.dwell ≤ phaseDwell s.cfg s.eng.phase) :
    PinInv s :=
  ⟨hstrobes, h.address, fun hd => h.data ((dqDrive_iff hstrobes).mp hd), hdwell⟩

/-- The pins' clauses speak of the engine, its pins and the parameters. -/
theorem PinInv.congr (h : PinInv s) (hcfg : u.cfg = s.cfg) (heng : u.eng = s.eng)
    (hpins : u.pins = s.pins) : PinInv u where
  strobes := by rw [heng, ← h.strobes]; simp only [Machine.strobes, hpins]
  address := by rw [hcfg, heng, hpins]; exact h.address
  data := by rw [heng, hpins]; exact h.data
  dwell := by rw [hcfg, heng]; exact h.dwell

theorem engineAdvance_pinInv (hrah : s.cfg.tRah ≤ s.cfg.tRcd) (h : PinInv s) :
    PinInv (engineAdvance s) := by
  by_cases hidle : s.eng.phase = .idle
  · rw [engineAdvance_of_idle hidle]; exact h
  have hdwell := h.dwell hidle
  have hmux := addressMux_driven h.driven hidle hdwell
  refine DrivenAt.pinInv ?_ (strobes_engineAdvance h.strobes) fun hbusy =>
    ⟨engineAdvance_dwell hbusy, ?_⟩
  all_goals simp only [engineAdvance, if_neg hidle]
  · split
    next hlast =>
      rw [Nat.sub_eq_zero_of_le hlast] at hmux
      refine enterPhase_driven (by simpa using hrah) ?_
      simpa using hmux.next hidle (by simpa using hrah)
    · rw [← addressMux_eng s] at hmux
      exact ⟨hmux.address, hmux.data⟩
  · split
    · rw [enterPhase_dwell_eq, enterPhase_cfg]
    · simp only [addressMux_eng, addressMux_cfg]; omega

theorem grant_pinInv (hrah : s.cfg.tRah ≤ s.cfg.tRcd) (hidle : s.eng.phase = .idle) (h : PinInv s)
    (op : EngOp) (row col : Nat) (v : Nibble) : PinInv (grant op row col v s) := by
  refine DrivenAt.pinInv (enterPhase_driven hrah (firstPhase_driven op _))
    (strobes_grant op row col v (hidle ▸ h.strobes)) fun _ => ⟨grant_dwell op row col v, ?_⟩
  rw [grant, enterPhase_dwell_eq, enterPhase_cfg]

theorem engineEdge_pinInv {g : State} (hrah : s.cfg.tRah ≤ s.cfg.tRcd) (h : PinInv s)
    (he : engineEdge s = .next g) : PinInv g := by
  have hadvance := engineAdvance_pinInv hrah h
  rcases engineEdge_cases he with ⟨rfl, -⟩ | ⟨hidle, w, op, row, col, v, -, rfl, -⟩
  · exact hadvance
  · exact grant_pinInv (by simpa using hrah) hidle hadvance op row col v

theorem blockEdge_pins (b h g : State) : (blockEdge b h g).pins = g.pins := by
  rw [blockEdge]
  split
  · rfl
  · rw [sequencersEdge, frameAdvance_only, lineEdge_only]; rfl

theorem step_pinInv {t : State} (h : PinInv s) (hstep : step s = .next t) : PinInv t := by
  obtain ⟨-, -, -, -, -, -, -, hrah⟩ := (step_admitted hstep).2
  rcases hrst : (pinsNow s).rst with _ | _
  · obtain ⟨h0, g, hmove, -, hengine, rfl⟩ := step_parts hrst hstep
    have hbegin : PinInv (beginEdge s) := h.congr rfl rfl rfl
    refine (engineEdge_pinInv (s := beginEdge s) hrah hbegin hengine).congr ?_
      (blockEdge_eng ..) (blockEdge_pins ..)
    simp [(hostMove_only hmove).1, engineEdge_cfg hengine]
  · rcases step_cases hstep with ⟨-, rfl⟩ | ⟨hr, -⟩
    · exact (pinInv_resetRegisters _).congr rfl rfl rfl
    · rw [hrst] at hr; cases hr

/-! ## Who drives the data bus (R134) -/

theorem dqBus_of_driven (h : s.pins.dqDrive = true) : dqBus s = some s.pins.dq := if_pos h

theorem dqBus_of_read (hdrive : ¬s.pins.dqDrive = true) (h : s.pins.oe = true) :
    dqBus s = some (readCell s s.eng.row s.eng.col) := by rw [dqBus, if_neg hdrive, if_pos h]

theorem dqBus_of_undriven (hdrive : ¬s.pins.dqDrive = true) (h : ¬s.pins.oe = true) :
    dqBus s = none := by rw [dqBus, if_neg hdrive, if_neg h]

end

/-- Settles O33: the engine keeps its pins at the phase tables, nothing else touches them, and the
strobes say who drives the bus. -/
theorem pinsFollowPhases : Obligations.PinsFollowPhases := by
  refine ⟨fun s t h hstep => step_pinInv h hstep, fun s _ h => ?_⟩
  have hdrive := dqDrive_iff h.strobes
  have hoe := oe_iff h.strobes
  refine ⟨fun hidle => ?_, hdrive, hoe, trg_iff h.strobes, fun hw => ?_, fun hrd2 => ?_,
    fun hwr2 hwr3 hrd2 => ?_⟩
  · have hs := h.strobes
    rw [hidle] at hs
    simpa only [strobes, phasePins, Prod.mk.injEq] using hs
  · have hdata := h.data (hdrive.mpr hw)
    exact ⟨hdata, by rw [dqBus_of_driven (hdrive.mpr hw), hdata]⟩
  · exact dqBus_of_read (by simp [hdrive, hrd2]) (hoe.mpr hrd2)
  · exact dqBus_of_undriven (by simp [hdrive, hwr2, hwr3]) (by simp [hoe, hrd2])

end Sys2Proof.Machine
end

section
/-! PROOFS. The refresh commands of the host: the loop `RefreshAll` row by row (R151), and the two commands
that run it, MEMREFALL (R152) and REFRESHIFNEEDED (R155). -/

namespace Sys2Proof.Machine

/-! ## The loop `RefreshAll`, row by row (R151) -/

/-- The loop waits for the REFROW of row `k`: the row counted in `hs_j`, its request raised. -/
def refreshingRow (k : Nat) (s : State) : State :=
  hostRequest (refrowRequest k) (setCounters s.host.i (BitVec.ofNat 12 k) s)

theorem refreshingRow_row {k : Nat} (s : State) (hk : k < 4096) :
    (refreshingRow k s).host.j.toNat = k :=
  BitVec.toNat_ofNat k 12 ▸ Nat.mod_eq_of_lt hk

section
variable {s : State} {k : Nat}

/-- With rows to refresh, the loop begins at row 0. -/
theorem beginRefall_eq (i : Instr) (hpos : 1 ≤ s.cfg.dramRows) :
    beginRefall i s = refreshingRow 0 (enterHostPhase .refall i s) :=
  if_neg (Nat.one_le_iff_ne_zero.mp hpos)

/-- The `done` of a row that is not the last asks for the row after it. -/
theorem refallNext_refreshingRow (hrows : s.cfg.dramRows ≤ 4096) (hk : k + 1 < s.cfg.dramRows) :
    refallNext (refreshingRow k s) = refreshingRow (k + 1) s := by
  have hrow := refreshingRow_row s (k := k) (by omega)
  have hnext : (refreshingRow k s).host.j + 1 = (refreshingRow (k + 1) s).host.j :=
    (BitVec.ofNat_add k 1).symm
  rw [refallNext, if_pos (hrow.symm ▸ hk), hnext, refallRequest, setCounters_j,
    refreshingRow_row s (by omega)]
  rfl

/-- The `done` of the last row answers. -/
theorem refallNext_lastRow (hrows : s.cfg.dramRows ≤ 4096) (hk : k + 1 = s.cfg.dramRows) :
    refallNext (refreshingRow k s) = refallAnswer (refreshingRow k s) := by
  have hrow := refreshingRow_row s (k := k) (by omega)
  exact if_neg (by rw [hrow, hk]; exact Nat.lt_irrefl _)

/-- After `k` completions the loop that began at row 0 waits for row `k`. -/
theorem refallSteps_refreshingRow (hrows : s.cfg.dramRows ≤ 4096) (hk : k < s.cfg.dramRows) :
    refallSteps k (refreshingRow 0 s) = refreshingRow k s := by
  induction k with
  | zero => rfl
  | succ k ih => rw [refallSteps_succ, ih (Nat.lt_of_succ_lt hk), refallNext_refreshingRow hrows hk]

/-- The whole loop, for both commands: it waits for each row in turn, and the `done` of the last one
answers, the command still in the latches. -/
theorem beginRefall_loop {i : Instr} {t : State} (hpos : 1 ≤ s.cfg.dramRows)
    (hrows : s.cfg.dramRows ≤ 4096) (ht : t = refreshingRow 0 (enterHostPhase .refall i s)) :
    beginRefall i s = t ∧ (∀ k, k < s.cfg.dramRows → refallSteps k t = refreshingRow k t) ∧
    ∃ u, refallSteps (s.cfg.dramRows - 1) t = u ∧ refallNext u = refallAnswer u ∧
      u.host.cmd = (encode i).1 ∧ u.host.arg = (encode i).2 := by
  have hsteps : ∀ k, k < s.cfg.dramRows → refallSteps k t = refreshingRow k t := by
    subst ht
    exact fun k => refallSteps_refreshingRow (s := enterHostPhase .refall i s) hrows
  refine ⟨(beginRefall_eq i hpos).trans ht.symm, hsteps, _, hsteps _ (Nat.sub_one_lt_of_lt hpos), ?_⟩
  rw [ht]
  exact ⟨refallNext_lastRow hrows (Nat.sub_add_cancel hpos), rfl, rfl⟩

/-- In the loop an edge waits for the `done` of the host sequencer's own operation (R151, R94). -/
theorem hostEdge_refall (p : PinIn) (hp : s.host.pending = false) (hheld : s.host.held = none)
    (hphase : s.host.phase = .refall) :
    hostEdge p s =
      .next (if doneOwner s = some .hs then refallNext (hostReady s) else hostReady s) := by
  have hbusy : cmdReady false s = false := cmdReady_eq_false_iff.mpr (by simp [hphase])
  rw [hostEdge_of_not_pending hp, latchPins_of_none (incomingWord_of_not_ready hheld hbusy)]
  simp [hostPhaseStep, hphase]

end

/-! ## The two commands (R152, R155) -/

theorem gated_of_running {s : State} (f : State → State) (h : s.host.running = true) :
    gated s f = answerRefused s := if_pos h

theorem gated_of_stopped {s : State} (f : State → State) (h : s.host.running = false) :
    gated s f = f s := if_neg (by simp [h])

/-- The time since the last refresh is a difference modulo `2 ^ 32` (R155). -/
theorem elapsedTime_eq (now last : Word) :
    elapsedTime now last = (now.toNat + 2 ^ 32 - last.toNat) % 2 ^ 32 := by
  rw [elapsedTime, BitVec.toNat_sub]
  omega

/-- Settles O18: MEMREFALL is the gate and the loop, whose answer is 0 by the latched word. -/
theorem memrefallEffect : Obligations.MemrefallEffect := by
  intro s _
  refine ⟨fun hrun => ?_, fun hstop hpos hrows t ht => ?_, fun p => hostEdge_refall p⟩
  · exact congrArg Host.Outcome.next (gated_of_running _ hrun)
  · obtain ⟨hbegin, hrow, u, hlast, hanswer, hcmd, -⟩ :=
      beginRefall_loop (i := .memrefall) hpos hrows ht
    have hop : opField u.host.cmd ≠ 0x8#4 := by rw [hcmd]; decide
    refine ⟨?_, hrow, u, hlast, ?_⟩
    · rw [exec, execMemrefall, gated_of_stopped _ hstop, hbegin]
    · exact hanswer.trans (if_neg hop)

/-- Settles O17: REFRESHIFNEEDED is the gate, the comparison and the loop, whose answer records `now` and
is 1 by the latched word. -/
theorem refreshifneededEffect : Obligations.RefreshifneededEffect := by
  intro s now _
  rw [← elapsedTime_eq]
  refine ⟨rfl, fun hrun => ?_, fun hstop hlt => ?_, fun hstop hpos hrows hdue t ht => ?_,
    fun p => hostEdge_refall p⟩
  · exact congrArg Host.Outcome.next (gated_of_running _ hrun)
  · rw [exec, execRefreshifneeded, gated_of_stopped _ hstop, if_neg (Nat.not_le.mpr hlt), respond]
  · obtain ⟨hbegin, hrow, u, hlast, hanswer, hcmd, harg⟩ :=
      beginRefall_loop (i := .refreshifneeded now) hpos hrows ht
    have hop : opField u.host.cmd = 0x8#4 := by rw [hcmd]; exact opField_mkW1 ..
    refine ⟨?_, hrow, u, hlast, ?_⟩
    · rw [exec, execRefreshifneeded, gated_of_stopped _ hstop, if_pos hdue, hbegin]
    · rw [hanswer, refallAnswer, if_pos hop, harg]
      rfl

end Sys2Proof.Machine
end

section
/-! PROOFS. When the frame sequencer decides (R154, R213, R214, R268): a decision depends on the frame context,
its request line and the slot it pops, which no other part of the edge changes. -/

namespace Sys2Proof.Machine

/-! ## A decision by its phase (R214, R154) -/

theorem frameDecision_of_drain {w : Nat} {s : State} (h : s.frame.phase = .drain) :
    frameDecision w s = drainDecision w s := by rw [frameDecision, h]

theorem frameDecision_of_refresh {w : Nat} {s : State} (h : s.frame.phase = .refresh) :
    frameDecision w s = refreshDecision s := by rw [frameDecision, h]

/-! ## What a decision depends on -/

theorem refreshDecision_congr {s u : State} (hcfg : u.cfg = s.cfg) (hframe : u.frame = s.frame)
    (hfs : u.req.fs = s.req.fs) :
    (refreshDecision u).frame = (refreshDecision s).frame ∧
    (refreshDecision u).req.fs = (refreshDecision s).req.fs := by
  simp only [refreshDecision, hcfg, hframe]
  split
  · exact ⟨rfl, rfl⟩
  · exact ⟨rfl, hfs⟩

/-- A pop reads the oldest slot of the ring, and only of a ring that is not empty (R212). -/
theorem drainDecision_congr {w : Nat} {s u : State} (hcfg : u.cfg = s.cfg)
    (hframe : u.frame = s.frame) (hfs : u.req.fs = s.req.fs)
    (hslot : s.frame.readIndex ≠ w → ringAt u s.frame.readIndex = ringAt s s.frame.readIndex) :
    (drainDecision w u).frame = (drainDecision w s).frame ∧
    (drainDecision w u).req.fs = (drainDecision w s).req.fs := by
  simp only [drainDecision, hcfg, hframe]
  split
  next hpop =>
    have hpopped : (drainPop u).frame = (drainPop s).frame := by
      simp only [drainPop, hcfg, hframe, hslot hpop.1]
    exact ⟨hpopped, by simp only [drainWrite, frameRequest, hpopped, drainPop_cfg, hcfg]⟩
  · exact refreshDecision_congr hcfg (by simp only [hframe]) hfs

theorem frameDecision_congr {w : Nat} {s u : State} (hcfg : u.cfg = s.cfg)
    (hframe : u.frame = s.frame) (hfs : u.req.fs = s.req.fs)
    (hslot : s.frame.readIndex ≠ w → ringAt u s.frame.readIndex = ringAt s s.frame.readIndex) :
    (frameDecision w u).frame = (frameDecision w s).frame ∧
    (frameDecision w u).req.fs = (frameDecision w s).req.fs := by
  simp only [frameDecision, hframe]
  split
  · exact ⟨hframe, hfs⟩
  · exact drainDecision_congr hcfg hframe hfs hslot
  · exact refreshDecision_congr hcfg hframe hfs

/-! ## A run over an edge -/

/-- A requester's line over the engine's edge: as it was, or dropped because it was granted (R130). -/
theorem engineEdge_line {s g : State} (he : engineEdge s = .next g) (o : Owner) :
    lineOf o g.req = lineOf o s.req ∨
    (lineOf o g.req = none ∧ g.eng.phase ≠ .idle ∧ g.eng.owner = o) := by
  rcases engineEdge_cases he with ⟨rfl, -⟩ | ⟨-, w, op, row, col, v, -, rfl, -⟩
  · exact .inl (by rw [engineAdvance_req])
  · rw [grant_req, engineAdvance_req, lineOf_dropLine]
    split
    next hwinner => exact .inr ⟨rfl, grant_busy op row col v, by simpa using hwinner⟩
    · exact .inl rfl

/-- Only a run has an operation that can be done (R213, R154). -/
theorem AgentsInv.frame_busy_of_done {s : State} (a : AgentsInv s) (h : doneOwner s = some .fs) :
    s.frame.phase ≠ .idle := by
  intro hidle
  obtain ⟨hphase, -, howner⟩ := doneOwner_eq_some.mp h
  have hfree := (inFlight_eq_zero.mp (a.frame_ops.trans (by simp [hidle]))).2
  rw [busyWith_iff.mpr ⟨hphase, howner⟩] at hfree
  cases hfree

/-- The line context leaves a run's request line alone (R176). -/
theorem lineEdge_fs {d : Bool} {w : Nat} {s : State} (h : s.frame.phase ≠ .idle) :
    (lineEdge d w s).req.fs = s.req.fs := by
  rcases lineEdge_frame_cases d w s with ⟨-, hfs⟩ | ⟨hidle, -⟩
  · exact hfs
  · exact absurd hidle h

section
variable {b h0 g : State} (p : PinIn) (a : AgentsInv b) (m : HostMove b (hostReady b) h0)
  (he : engineEdge b = .next g)
include a m he

/-- At its `done` the run decides as it would in the state before the edge: the host sequencer may store
in the ring at this edge, but not in the slot that is popped (R81, R268). -/
theorem blockEdge_frame_of_done (hdone : doneOwner b = some .fs) :
    (blockEdge b (latchPins p b h0) g).frame = (frameDecision b.host.writeIndex b).frame ∧
    (blockEdge b (latchPins p b h0) g).req.fs = (frameDecision b.host.writeIndex b).req.fs := by
  have hbusy := a.frame_busy_of_done hdone
  rcases hostMove_start p a m with ⟨-, -, -, hidle⟩ | ⟨hs, hframe, hreq, -⟩
  · exact absurd hidle hbusy
  have hjoinFrame : (joinEdges b (latchPins p b h0) g).frame = b.frame := by
    rw [joinEdges_frame, latchPins_frame, hframe]
  have hjoinBusy : (joinEdges b (latchPins p b h0) g).frame.phase ≠ .idle := hjoinFrame ▸ hbusy
  have hline : b.req.fs = none :=
    (engineEdge_frees (o := .fs) he (a.frame_ops.trans_le (Bool.toNat_le _)) (.inr hdone)).1
  have hjoinLine : (joinEdges b (latchPins p b h0) g).req.fs = b.req.fs := by
    simp only [joinEdges, latchPins_req, hreq, hline, mergeLine]
  rw [blockEdge, if_neg (by simp [hs]), sequencersEdge, frameAdvance, if_pos (by simp [hdone, hbusy])]
  refine frameDecision_congr ?_ ((lineEdge_frame _ hjoinBusy).trans hjoinFrame)
    ((lineEdge_fs hjoinBusy).trans hjoinLine) fun hne => ?_
  · rw [lineEdge_cfg, joinEdges_cfg, latchPins_cfg, (hostMove_only m).1]
  · rw [← hostMove_ringAt m hne]
    simp only [ringAt, lineEdge_host, joinEdges_host, latchPins_ring]

/-- At any other edge a run in progress is left alone (R213, R154). -/
theorem blockEdge_frame_of_wait (hbusy : b.frame.phase ≠ .idle) (hwait : doneOwner b ≠ some .fs) :
    (blockEdge b (latchPins p b h0) g).frame = b.frame ∧
    (blockEdge b (latchPins p b h0) g).req.fs = g.req.fs := by
  rcases blockEdge_frame_cases p a m he with ⟨hframe, hfs, -⟩ | ⟨⟨hidle, -⟩ | ⟨-, hdone⟩, -⟩
  · exact ⟨hframe, hfs⟩
  · exact absurd hidle hbusy
  · exact absurd hdone hwait

end

/-- Settles O42: the decision at the `done` is taken on what the state before the edge holds; at any other
edge only the engine touches the run's request line. -/
theorem frameRefresh : Obligations.FrameRefresh := by
  refine ⟨fun w s _ => ⟨frameDecision_of_drain, fun hphase hrow => ?_, fun hphase hrow => ?_⟩,
    fun s t a hrst hstep => ?_⟩
  · rw [frameDecision_of_refresh hphase, refreshDecision, if_pos hrow, frameRequest]
  · rw [frameDecision_of_refresh hphase, refreshDecision, if_neg hrow]
  · obtain ⟨h0, g, hmove, -, hengine, rfl⟩ := step_parts hrst hstep
    have hbegin := beginEdge_agentsInv a
    refine ⟨fun hdone => ⟨a.frame_busy_of_done hdone, ?_⟩, fun hbusy hwait => ?_⟩
    · obtain ⟨hframe, hfs⟩ := blockEdge_frame_of_done (pinsNow s) hbegin hmove hengine
        (by rwa [doneOwner_beginEdge])
      have hsame := frameDecision_congr (s := s) (u := beginEdge s) (w := s.host.writeIndex) rfl rfl rfl
        fun _ => rfl
      exact ⟨hframe.trans hsame.1, hfs.trans hsame.2⟩
    · obtain ⟨hframe, hfs⟩ := blockEdge_frame_of_wait (pinsNow s) hbegin hmove hengine hbusy
        (by rwa [doneOwner_beginEdge])
      refine ⟨hframe, (engineEdge_line hengine .fs).imp hfs.trans fun hgrant => ?_⟩
      rw [advanceTime_eng, blockEdge_eng]
      exact ⟨hfs.trans hgrant.1, hgrant.2⟩

end Sys2Proof.Machine
end

section
/-! PROOFS. The timing generator (R161 to R165): the classes of lines, LINETICK, FRAMEBOUNDARY and ENTERLINE,
and exactly when an edge raises `timing_violation_detected` (R163, R165, R171, R172, R176). -/

namespace Sys2Proof.Machine

/-! ## Lines (R161, R162) -/

theorem activeLine_iff {c : Config} {L : Nat} :
    activeLine c L = true ↔ c.vBlankLines ≤ L ∧ L < c.vBlankLines + c.visibleHeight := by
  simp [activeLine]

/-- The active lines are an interval of the frame, so counting them is counting up to its ends. -/
theorem length_filter_activeLine (c : Config) (n : Nat) :
    ((List.range n).filter (activeLine c)).length =
      min n (c.vBlankLines + c.visibleHeight) - min n c.vBlankLines := by
  induction n with
  | zero => simp
  | succ n ih =>
    rw [List.range_succ, List.filter_append, List.length_append, ih]
    by_cases ha : activeLine c n = true
    · have hn := activeLine_iff.mp ha
      simp only [List.filter_singleton, ha, Bool.cond_true, List.length_singleton]
      omega
    · have hn := mt activeLine_iff.mpr ha
      simp only [List.filter_singleton, Bool.eq_false_iff.mpr ha, Bool.cond_false, List.length_nil]
      omega

/-- Settles O34: the class of a line is read off the bounds of its range, in the order R162 tests them. -/
theorem linePartition : Obligations.LinePartition := by
  intro c _ ⟨_, htotal, hblank⟩ L hL
  have hcount := length_filter_activeLine c c.totalLines
  refine ⟨activeLine_iff, ?_, ?_, ?_, ?_, by omega⟩
  all_goals
    simp only [lineClass, activeLine_iff]
    split_ifs <;> simp only [false_iff, true_iff] <;> omega

/-! ## LINETICK (R163) -/

/-- A taken tick that does not wrap `current_line`. -/
theorem takeTick_of_not_wrap {w : Nat} {s : State} (h : nextLine s.cfg s.line.currentLine ≠ 0) :
    takeTick w s = enterLine (nextLine s.cfg s.line.currentLine)
      { s with line := { s.line with currentLine := nextLine s.cfg s.line.currentLine } } :=
  congrArg (enterLine _) (if_neg h)

/-- A taken tick that does is a frame boundary, before line 0 is entered. -/
theorem takeTick_of_wrap {w : Nat} {s : State} (h : nextLine s.cfg s.line.currentLine = 0) :
    takeTick w s =
      enterLine 0 (frameBoundary w { s with line := { s.line with
        currentLine := nextLine s.cfg s.line.currentLine } }) :=
  (congrArg (enterLine _) (if_pos h)).trans (congrArg (enterLine · _) h)

section
variable {w : Nat} {s : State}

theorem lineTick_of_held (hidle : s.line.phase = .idle) (hheld : s.line.tickPending = true) :
    lineTick w s =
      takeTick w (violationWhen (newTick s) (setTickPending (newTick s) (countCycle s))) :=
  (if_pos hidle).trans (if_pos hheld)

theorem lineTick_of_new (hidle : s.line.phase = .idle) (hheld : s.line.tickPending = false)
    (hnew : newTick s = true) : lineTick w s = takeTick w (countCycle s) :=
  (if_pos hidle).trans ((if_neg (hheld ▸ Bool.false_ne_true)).trans (if_pos hnew))

theorem lineTick_of_busy (hbusy : s.line.phase ≠ .idle) (hnew : newTick s = true) :
    lineTick w s = raiseViolation (setTickPending true (countCycle s)) :=
  (if_neg hbusy).trans (if_pos hnew)

theorem lineTick_of_quiet (hnew : newTick s = false)
    (h : s.line.phase ≠ .idle ∨ s.line.tickPending = false) : lineTick w s = countCycle s := by
  have hphase : (countCycle s).line.phase = s.line.phase := rfl
  have hpending : (countCycle s).line.tickPending = s.line.tickPending := rfl
  simp only [lineTick, hphase, hpending, hnew]
  rcases h with h | h <;> simp [h]

end

/-- A tick that is held already stays held. -/
theorem setTickPending_of_eq {b : Bool} {s : State} (h : s.line.tickPending = b) :
    setTickPending b (countCycle s) = countCycle s := by subst h; rfl

theorem countCycle_eq (s : State) : countCycle s = { s with line := { s.line with
    hCount := if s.line.hCount + 1 = s.cfg.linePeriod then 0 else s.line.hCount + 1 } } := by
  simp only [countCycle, newTick_iff]

/-- Settles O35: the branches of LINETICK one by one, and the taken tick on the line counter. -/
theorem lineTick_spec : Obligations.LineTick := by
  rintro w s c wraps _ hwraps rfl
  rw [← newTick_iff] at hwraps
  rw [hwraps, Bool.not_eq_true, ← countCycle_eq]
  refine ⟨fun hidle hheld hold => ?_, fun hidle hheld hnew => ?_, lineTick_of_new, lineTick_of_busy,
    fun hold h => lineTick_of_quiet hold h, by rw [takeTick_line]; rfl, ?_⟩
  · rw [lineTick_of_held hidle hheld, hold]; rfl
  · rw [lineTick_of_held hidle hheld, hnew, setTickPending_of_eq hheld]; rfl
  · rintro n rfl
    exact ⟨takeTick_of_not_wrap, takeTick_of_wrap⟩

/-! ## FRAMEBOUNDARY (R165) -/

/-- Settles O37: a run begins with a decision of the drain where there is none, and the boundary is the tick
that wraps `current_line`. -/
theorem frameBoundary_spec : Obligations.FrameBoundary := by
  rintro w s n _ rfl
  refine ⟨fun hidle => if_pos hidle, fun hbusy => if_neg hbusy, fun hlast => ?_, fun hnot => ?_⟩
  · have hzero := nextLine_eq_zero.mpr hlast
    rw [takeTick_of_wrap hzero, hzero]
  · rw [takeTick_of_not_wrap (mt nextLine_eq_zero.mp hnot)]
    exact ⟨rfl, rfl⟩

/-! ## ENTERLINE (R164) -/

theorem lineAdvance_of_hsync {d : Bool} {s : State} (h : s.line.phase = .hsync) :
    lineAdvance d s = if s.line.dwell ≤ 1 then endHsync s else lineWait s := by
  simp only [lineAdvance, endLinePhase, h]

/-- Settles O36: ENTERLINE is what R164 writes, and the pulse it begins counts down to its end. -/
theorem enterLine_spec : Obligations.EnterLine := by
  refine ⟨fun _ _ _ => rfl, fun d s _ hphase => ?_⟩
  rw [lineAdvance_of_hsync hphase]
  refine ⟨fun hlong => if_neg (Nat.not_le_of_lt hlong), fun hlast hblank => ?_,
    fun hlast hactive => ?_⟩
  · rw [if_pos hlast, endHsync, if_neg (by simp [hblank])]
  · rw [if_pos hlast, endHsync, if_pos hactive]
    exact ⟨rfl, rfl⟩

/-! ## The violation flag (R25, R163, R165, R171, R172, R176) -/

theorem frameBoundary_violation (w : Nat) (s : State) :
    (frameBoundary w s).health.violation = true ↔
      s.health.violation = true ∨ s.frame.phase ≠ .idle := by
  simp only [frameBoundary]
  split
  next hidle => simp [show s.frame.phase = .idle from hidle]
  next hbusy => simp [show s.frame.phase ≠ .idle from hbusy]

theorem takeTick_violation (w : Nat) (s : State) :
    (takeTick w s).health.violation = true ↔ s.health.violation = true ∨
      (s.line.currentLine + 1 = s.cfg.totalLines ∧ s.frame.phase ≠ .idle) := by
  rw [← nextLine_eq_zero]
  by_cases hwrap : nextLine s.cfg s.line.currentLine = 0
  · rw [takeTick_of_wrap hwrap, enterLine_health, frameBoundary_violation]
    simp [hwrap]
  · rw [takeTick_of_not_wrap hwrap]
    simp [hwrap]

theorem violationWhen_violation (b : Bool) (s : State) :
    (violationWhen b s).health.violation = true ↔ s.health.violation = true ∨ b = true := by
  cases b <;> simp [violationWhen]

theorem violationWhen_only (b : Bool) (s : State) :
    violationWhen b s = { s with health := (violationWhen b s).health } := by
  cases b <;> rfl

/-- LINETICK raises the flag when the timer wraps on a busy line sequencer or on a held tick, and when the
tick it takes is a frame boundary that finds a run in progress (R163, R165). -/
theorem lineTick_violation (w : Nat) (s : State) :
    (lineTick w s).health.violation = true ↔ s.health.violation = true ∨
      (newTick s = true ∧ (s.line.phase ≠ .idle ∨ s.line.tickPending = true)) ∨
      (TakesTick s ∧ s.line.currentLine + 1 = s.cfg.totalLines ∧ s.frame.phase ≠ .idle) := by
  by_cases hidle : s.line.phase = .idle
  · rcases hheld : s.line.tickPending with _ | _
    · rcases hnew : newTick s with _ | _
      · rw [lineTick_of_quiet hnew (.inr hheld)]
        simp [TakesTick, hheld, hnew]
      · rw [lineTick_of_new hidle hheld hnew, takeTick_violation]
        simp [TakesTick, hidle, hnew, countCycle]
    · rw [lineTick_of_held hidle hheld, takeTick_violation, violationWhen_violation,
        violationWhen_only]
      simp [TakesTick, hidle, hheld, countCycle, setTickPending, or_assoc]
  · rcases hnew : newTick s with _ | _
    · rw [lineTick_of_quiet hnew (.inl hidle)]
      simp [TakesTick, hidle]
    · rw [lineTick_of_busy hidle hnew]
      simp [hidle]

/-- A move that is not GETHEALTH's leaves the flag (R243, R262). -/
theorem hostMove_violation {b h0 : State} (m : HostMove b (hostReady b) h0)
    (hn : notReadingHealth b = true) : h0.health.violation = b.health.violation := by
  cases m
  case enqueue => rw [enqueuePixel_only]; rfl
  case rect => rw [rectStep, rectNext_health, enqueuePixel_only]; rfl
  case gethealth hp hd => simp [notReadingHealth, hp, hd] at hn
  case start => rw [startRunning, respond_health, enterLine_health, startFrameRun_health]; rfl
  all_goals rfl

/-- The host sequencer raises no violation, and clears one at GETHEALTH's execution edge (R25, R243). -/
theorem hostEdge_violation {p : PinIn} {b h : State} (he : hostEdge p b = .next h) :
    h.health.violation = true ↔ b.health.violation = true ∧ notReadingHealth b = true := by
  rcases hn : notReadingHealth b with _ | _
  · obtain ⟨hp, hd⟩ : b.host.pending = true ∧
        decode .host b.host.cmd b.host.arg = .ok .gethealth := by
      simpa [notReadingHealth] using hn
    have hclear : hostEdge p b = .next (latchPins p b
        (respond .ok (healthWord b.health) (clearFlags (hostReady b)))) := by
      simp [hostEdge, executeCommand, hp, hd, exec, execGethealth, andThen]
    rw [hclear] at he; cases he
    simp
  · obtain ⟨h0, hmove, he0⟩ := hostEdge_cases p b
    rw [he0] at he; cases he
    rw [latchPins_health, hostMove_violation hmove hn]
    simp

/-- The running generator finds its line work or its frame work late at this edge (R163, R165). -/
def FindsLate (s : State) : Prop :=
  s.host.running = true ∧ ¬LatchedStop s ∧
  ((s.line.hCount + 1 = s.cfg.linePeriod ∧ (¬LineIdle s ∨ s.line.tickPending = true)) ∨
    (LineIdle s ∧ (s.line.hCount + 1 = s.cfg.linePeriod ∨ s.line.tickPending = true) ∧
      s.line.currentLine + 1 = s.cfg.totalLines ∧ s.frame.phase ≠ .idle))

/-- At an edge that executes no START, LINETICK after the advance finds what the state before the edge
holds. -/
theorem NotStarted.ticking_violation {s u : State} (h : NotStarted s u) (w : Nat)
    (hon : u.host.running = true) (hframe : u.frame = s.frame) :
    (Machine.lineTick w (lineAdvance (decide (doneOwner s = some .ls)) u)).health.violation = true ↔
      u.health.violation = true ∨ FindsLate s := by
  obtain ⟨hr, hs⟩ := h.running.mp hon
  obtain ⟨hcount, hheld⟩ := h.timer (hon.trans hr.symm)
  rw [lineTick_violation]
  simp only [TakesTick, newTick_iff, FindsLate, LineIdle, h.progress.lineAdvance_phase,
    lineAdvance_health, lineAdvance_hCount, lineAdvance_cfg, lineAdvance_tickPending,
    lineAdvance_currentLine, lineAdvance_frame, hcount, hheld, hframe, h.progress.cfg,
    h.progress.currentLine, hr, hs, not_false_eq_true, true_and, ne_eq, and_assoc]

theorem step_violation {s t : State} (hrst : (pinsNow s).rst = false) (hstep : step s = .next t) :
    t.health.violation = true ↔
      (s.health.violation = true ∧ notReadingHealth s = true) ∨ FindsLate s := by
  obtain ⟨h0, g, hmove, hhost, -, rfl⟩ := step_parts hrst hstep
  have hcfg : (latchPins (pinsNow s) (beginEdge s) h0).cfg = s.cfg := by
    rw [latchPins_cfg, (hostMove_only hmove).1]; rfl
  generalize latchPins (pinsNow s) (beginEdge s) h0 = h at hhost hcfg ⊢
  have hclear : h.health.violation = true ↔
      s.health.violation = true ∧ notReadingHealth s = true :=
    hostEdge_violation (b := beginEdge s) hhost
  rw [← hclear, advanceTime_health, blockEdge]
  by_cases ha : AcceptsStart s
  · have hnot : ¬FindsLate s := fun hl => not_acceptsStart_of_running hl.1 ha
    rw [if_pos ((startsHere_iff hhost).mpr ha), joinEdges_health, or_iff_left hnot]
  · have hjoin : NotStarted s (joinEdges (beginEdge s) h g) :=
      hostEdge_notStarted hhost ha hcfg rfl rfl
    rw [if_neg (mt (startsHere_iff hhost).mp ha), sequencersEdge_health, doneOwner_beginEdge]
    rcases hrun : h.host.running with _ | _
    · have hnot : ¬FindsLate s := fun hl => by
        have hon : h.host.running = true := hjoin.running.mpr ⟨hl.1, hl.2.1⟩
        rw [hrun] at hon; cases hon
      rw [lineEdge_of_stopped (s := joinEdges _ h g) hrun, lineAdvance_health, joinEdges_health,
        or_iff_left hnot]
    · have hframe : h.frame = s.frame := by
        rcases hostEdge_generator hhost with ⟨hs, -⟩ | ⟨-, hl, hr, -⟩ | ⟨-, -, -, hf, -⟩
        · exact absurd hs ha
        · exact absurd hl (hjoin.running.mp hrun).2
        · exact hf
      rw [lineEdge, if_pos (by simpa using hrun)]
      exact hjoin.ticking_violation _ hrun hframe

/-- Settles O49: the host sequencer clears the flag at GETHEALTH only, and LINETICK raises it exactly when it
finds the line or the frame work late. -/
theorem violationRaisedExactly : Obligations.ViolationRaisedExactly := by
  intro s t idle wraps held hrst hstep hidle hwraps hheld
  rw [hidle, hwraps, hheld]
  exact step_violation hrst hstep

end Sys2Proof.Machine
end

section
/-! PROOFS. The safety invariant over a step (R67, R209, R260): each part of an edge keeps its share of it, and a
step that goes on leaves it in force. -/

namespace Sys2Proof.Machine

/-- Latching a word leads into no phase that uses the engine (R94). -/
theorem latchPins_clear {p : PinIn} {b h0 : State} (h : (latchPins p b h0).host.phase = .clear) :
    h0.host.phase = .clear := by
  rcases latchPins_cases p b h0 with
    ⟨-, he⟩ | ⟨w, -, ⟨-, he⟩ | ⟨-, ⟨-, he⟩ | ⟨-, -, he⟩ | ⟨-, -, he⟩⟩⟩ <;> rw [he] at h
  · exact h
  · exact h
  · cases h
  · cases h
  · exact h

theorem beginEdge_safeInv {s : State} (h : SafeInv s) : SafeInv (beginEdge s) :=
  ⟨h.geometry, h.strobes, h.ring_ok, h.ring.congr rfl rfl rfl rfl, h.row_lt, h.request_ls,
    h.request_fs, h.request_hs, h.clear_row⟩

theorem advanceTime_safeInv {s : State} (h : SafeInv s) : SafeInv (advanceTime s) :=
  ⟨h.geometry, h.strobes, h.ring_ok, h.ring.congr rfl rfl rfl rfl, h.row_lt, h.request_ls,
    h.request_fs, h.request_hs, h.clear_row⟩

section
variable {b h0 g : State} (p : PinIn) (h : SafeInv b) (m : HostMove b (hostReady b) h0)
  (he : engineEdge b = .next g)
include h m he

/-- The host sequencer's part and the engine's put together are safe: each line carries its requester's word
or what the engine leaves of it. -/
theorem joinEdges_safeInv : SafeInv (joinEdges b (latchPins p b h0) g) := by
  obtain ⟨hring, hfs, hhs, hrow, hclear⟩ := hostMove_safe m h
  obtain ⟨hcfg, -, -, -, -, -, -, hls, -⟩ := hostMove_only m
  have hengine : requestOk b.cfg g.req.ls = true ∧ requestOk b.cfg g.req.fs = true ∧
      requestOk b.cfg g.req.hs = true := by
    have hlines := And.intro h.request_ls (And.intro h.request_fs h.request_hs)
    rcases engineEdge_req he with hreq | ⟨-, hreq⟩ <;> rw [hreq]
    · exact hlines
    · exact requestOk_dropLine hlines
  have hjoin : (joinEdges b (latchPins p b h0) g).cfg = b.cfg := by
    rw [joinEdges_cfg, latchPins_cfg, hcfg]
  exact {
    geometry := by rw [hjoin]; exact h.geometry
    strobes := by rw [hjoin]; exact h.strobes
    ring_ok := by rw [hjoin]; exact h.ring_ok
    ring := hring.congr (by simp) (by simp) (by simp) (by simp)
    row_lt := by rw [hjoin, joinEdges_line, latchPins_line]; exact hrow
    request_ls := by
      rw [hjoin]; exact mergeLine_ok (by rw [latchPins_req, hls]; exact h.request_ls) hengine.1
    request_fs := by
      rw [hjoin]; exact mergeLine_ok (by rw [latchPins_req]; exact hfs) hengine.2.1
    request_hs := by
      rw [hjoin]; exact mergeLine_ok (by rw [latchPins_req]; exact hhs) hengine.2.2
    clear_row := by
      intro hph
      rw [hjoin, joinEdges_host, latchPins_only]
      exact hclear (latchPins_clear hph) }

/-- The sequencers' part keeps it so: a drain finds in the ring what the state before the edge holds. -/
theorem sequencersEdge_safeInv (hframe : h0.frame = b.frame) :
    SafeInv (sequencersEdge b (joinEdges b (latchPins p b h0) g)) := by
  have hj := joinEdges_safeInv p h m he
  have hfresh : b.frame.readIndex ≠ b.host.writeIndex →
      b.frame.readIndex ≠ (joinEdges b (latchPins p b h0) g).host.writeIndex := fun hne => by
    rw [joinEdges_host, latchPins_writeIndex]; exact hostMove_fresh m hne
  have hjframe : (joinEdges b (latchPins p b h0) g).frame = b.frame := by
    rw [joinEdges_frame, latchPins_frame, hframe]
  rw [sequencersEdge]
  generalize joinEdges b (latchPins p b h0) g = u at hj hfresh hjframe ⊢
  obtain ⟨hring, hfs, hls, hrow⟩ := lineEdge_safe (w := b.host.writeIndex)
    (decide (doneOwner b = some .ls)) hj.geometry hj.ring (by rw [hjframe]; exact hfresh)
    hj.request_fs hj.request_ls hj.row_lt
  have hline : SafeInv (lineEdge (decide (doneOwner b = some .ls)) b.host.writeIndex u) := {
    geometry := by rw [lineEdge_cfg]; exact hj.geometry
    strobes := by rw [lineEdge_cfg]; exact hj.strobes
    ring_ok := by rw [lineEdge_cfg]; exact hj.ring_ok
    ring := hring
    row_lt := by rw [lineEdge_cfg]; exact hrow
    request_ls := by rw [lineEdge_cfg]; exact hls
    request_fs := by rw [lineEdge_cfg]; exact hfs
    request_hs := by rw [lineEdge_cfg, lineEdge_only]; exact hj.request_hs
    clear_row := by rw [lineEdge_cfg, lineEdge_host]; exact hj.clear_row }
  rw [frameAdvance]
  split
  next hdecides =>
    have hbusy : u.frame.phase ≠ .idle := by
      simpa [hjframe] using (Bool.and_eq_true_iff.mp hdecides).2
    have hkept := lineEdge_frame (w := b.host.writeIndex) (decide (doneOwner b = some .ls)) hbusy
    obtain ⟨hring', hfs'⟩ := frameDecision_safe (w := b.host.writeIndex) hline.geometry hline.ring
      (fun _ hne => by rw [hkept, hjframe] at hne ⊢; rw [lineEdge_host]; exact hfresh hne) hline.request_fs
    rw [frameDecision_only] at hring' hfs' ⊢
    exact { hline with ring := hring', request_fs := hfs' }
  · exact hline

theorem blockEdge_safeInv : SafeInv (blockEdge b (latchPins p b h0) g) := by
  rw [blockEdge]
  split
  · exact joinEdges_safeInv p h m he
  next hs =>
    refine sequencersEdge_safeInv p h m he ?_
    rcases hostMove_frame m with ⟨hframe, -⟩ | ⟨hoff, hon, -⟩
    · exact hframe
    · exact absurd (by simp [startsHere, hoff, hon]) hs

end

theorem step_safeInv {s t : State} (h : SafeInv s) (hstep : step s = .next t) : SafeInv t := by
  rcases hrst : (pinsNow s).rst with _ | _
  · obtain ⟨h0, g, hmove, -, hengine, rfl⟩ := step_parts hrst hstep
    exact advanceTime_safeInv (blockEdge_safeInv _ (beginEdge_safeInv h) hmove hengine)
  · rcases step_cases hstep with ⟨-, rfl⟩ | ⟨hr, -⟩
    · have hcfg : (resetEdge (beginEdge s)).cfg = s.cfg := by
        simp only [resetEdge]; split <;> rfl
      refine advanceTime_safeInv (safeInv_resetRegisters ?_ ?_ ?_)
      all_goals rw [← resetRegisters_cfg, ← resetEdge, hcfg]
      exacts [h.geometry, h.strobes, h.ring_ok]
    · rw [hrst] at hr; cases hr

end Sys2Proof.Machine
end

section
/-! PROOFS. The remaining work of the line and the frame sequencer (R84, R136, R163, R168, R169): each edge takes
one cycle off it, for a requester that has the engine to itself. -/

namespace Sys2Proof.Machine

/-! ## An operation with the engine to itself (R130, R136) -/

theorem lineOf_of_no_winner {r : Requests} (h : winningRequest r = none) (o : Owner) :
    lineOf o r = none := by
  obtain ⟨ls, fs, hs⟩ := r
  cases ls <;> cases fs <;> simp_all [winningRequest]
  cases o <;> rfl

/-- No other requester has an operation waiting or in progress. -/
def Alone (o : Owner) (s : State) : Prop := ∀ o', o' ≠ o → inFlight (lineOf o' s.req) o' s = 0

section
variable {o : Owner} {s g : State}

/-- A request that waits with the engine to itself is granted at once. -/
theorem Alone.granted (halone : Alone o s) {w : Word} (hline : lineOf o s.req = some w)
    (hflight : inFlight (lineOf o s.req) o s = 1) (he : engineEdge s = .next g) :
    s.eng.phase = .idle ∧ lineOf o g.req = none ∧ engineRemaining g + 1 = requestTime s.cfg w := by
  have hidle : s.eng.phase = .idle := by
    by_contra hbusy
    have hown : busyWith s.eng.owner s = true := busyWith_iff.mpr ⟨hbusy, rfl⟩
    by_cases hme : s.eng.owner = o
    · rw [hme] at hown
      simp [inFlight, hline, hown] at hflight
    · rw [(inFlight_eq_zero.mp (halone _ hme)).2] at hown; cases hown
  rcases engineEdge_cases he with ⟨-, hbusy | hnone⟩ | ⟨-, w', op, row, col, v, hw, rfl, -, -, hrem, -⟩
  · rw [engineAdvance_of_idle hidle] at hbusy; exact absurd hidle hbusy
  · rw [lineOf_of_no_winner hnone] at hline; cases hline
  · have hwinner : winner s.req = o := by
      by_contra hother
      have hnone := (inFlight_eq_zero.mp (halone _ hother)).1
      rw [lineOf_winner hw] at hnone; cases hnone
    have hword : w' = w := by
      have hwin := lineOf_winner hw
      rw [hwinner, hline] at hwin; cases hwin; rfl
    refine ⟨hidle, ?_, hword ▸ hrem⟩
    rw [grant_req, engineAdvance_req, hwinner, lineOf_dropLine, if_pos rfl]

/-- An operation in flight with the engine to itself is done at this edge, with one cycle left, or has one
cycle less after it. -/
theorem Alone.progress (halone : Alone o s) (hflight : inFlight (lineOf o s.req) o s = 1)
    (hdwell : s.eng.phase ≠ .idle → 1 ≤ s.eng.dwell) (he : engineEdge s = .next g) :
    (doneOwner s = some o ∧ operationRemaining (lineOf o s.req) s = 1) ∨
    (doneOwner s ≠ some o ∧
      operationRemaining (lineOf o g.req) g + 1 = operationRemaining (lineOf o s.req) s) := by
  cases hline : lineOf o s.req with
  | some w =>
    obtain ⟨hidle, hdropped, hrem⟩ := halone.granted hline hflight he
    refine .inr ⟨by rw [doneOwner_of_idle hidle]; simp, ?_⟩
    rw [hdropped]; exact hrem
  | none =>
    have hbusy : s.eng.phase ≠ .idle ∧ s.eng.owner = o := by
      rw [hline] at hflight
      exact busyWith_iff.mp (by simpa [inFlight] using hflight)
    by_cases hlast : (engineAdvance s).eng.phase = .idle
    · exact .inl ⟨doneOwner_eq_some.mpr ⟨hbusy.1, hlast, hbusy.2⟩,
        (engineAdvance_idle_iff hbusy.1 (hdwell hbusy.1)).mp hlast⟩
    · refine .inr ⟨fun hdone => hlast (doneOwner_eq_some.mp hdone).2.1, ?_⟩
      rcases engineEdge_cases he with ⟨rfl, -⟩ | ⟨hidle, -⟩
      · rw [engineAdvance_req, hline]
        exact engineAdvance_remaining hbusy.1 (hdwell hbusy.1)
      · exact absurd hidle hlast

end

theorem engineEdge_dwell {s g : State} (he : engineEdge s = .next g) (hbusy : g.eng.phase ≠ .idle) :
    1 ≤ g.eng.dwell := by
  rcases engineEdge_cases he with ⟨rfl, -⟩ | ⟨-, w, op, row, col, v, -, rfl, -⟩
  · exact engineAdvance_dwell hbusy
  · exact grant_dwell op row col v

/-! ## The line sequencer's work (R168) -/

@[simp] theorem requestTime_xferRequest (c : Config) (row : Nat) :
    requestTime c (xferRequest row) = c.tXferOp := by
  simp [requestTime, decode, decodeEngine, xferRequest, whenZero]

/-- The first of the rest, and the others. -/
theorem sub_mul_of_lt {n k : Nat} (h : k < n) (m : Nat) : m + (n - (k + 1)) * m = (n - k) * m := by
  rw [show n - k = n - (k + 1) + 1 by omega, Nat.succ_mul, Nat.add_comm]

/-- The first of the pulses that are left, and the rest of them (R194). -/
theorem pulse_time {c : Config} {k : Nat} (hk : k < c.visibleWidth) :
    c.scHigh + c.scLow + (c.visibleWidth - (k + 1)) * c.pixelClks =
      (c.visibleWidth - k) * c.pixelClks := sub_mul_of_lt hk c.pixelClks

/-- The line sequencer's remaining work depends on its own registers, its request line and the engine. -/
theorem SameProgress.lineRemaining {s u : State} (h : SameProgress s u) (hls : u.req.ls = s.req.ls)
    (heng : u.eng = s.eng) : lineRemaining u = lineRemaining s := by
  obtain ⟨hcfg, hphase, hdwell, hpix, hhalf, hcur⟩ := h
  simp only [Machine.lineRemaining, operationRemaining, engineRemaining, hcfg, hphase, hdwell, hpix,
    hhalf, hcur, hls, heng]

section
variable {s : State}

theorem lineRemaining_of_idle (h : s.line.phase = .idle) : lineRemaining s = 0 := by
  simp only [lineRemaining, h]

theorem lineRemaining_of_hsync (h : s.line.phase = .hsync) :
    lineRemaining s = s.line.dwell + (if activeLine s.cfg s.line.currentLine then
      s.cfg.tXferOp + s.cfg.hBpClks + streamTime s.cfg else 0) := by
  simp only [lineRemaining, h]

theorem lineRemaining_of_xfer (h : s.line.phase = .xfer) :
    lineRemaining s = operationRemaining s.req.ls s + s.cfg.hBpClks + streamTime s.cfg := by
  simp only [lineRemaining, h]

theorem lineRemaining_of_bp (h : s.line.phase = .bp) :
    lineRemaining s = s.line.dwell + streamTime s.cfg := by
  simp only [lineRemaining, h]

theorem lineRemaining_of_stream (h : s.line.phase = .stream) :
    lineRemaining s = s.line.dwell + (if s.line.scHalf then 0 else s.cfg.scLow) +
      (s.cfg.visibleWidth - (s.line.pixCount + 1)) * s.cfg.pixelClks := by
  simp only [lineRemaining, h]

theorem lineRemaining_beginPulse (hph : s.line.phase = .stream)
    (hk : s.line.pixCount < s.cfg.visibleWidth) :
    lineRemaining (beginPulse s) = (s.cfg.visibleWidth - s.line.pixCount) * s.cfg.pixelClks :=
  (lineRemaining_of_stream (s := beginPulse s) hph).trans (pulse_time hk)

theorem lineRemaining_beginStream (hw : 1 ≤ s.cfg.visibleWidth) :
    lineRemaining (beginStream s) = streamTime s.cfg :=
  lineRemaining_beginPulse (s := { s with line := { s.line with
    phase := .stream, pixCount := 0, se := true } }) rfl hw

theorem lineRemaining_beginTransfer :
    lineRemaining (beginTransfer s) = s.cfg.tXferOp + s.cfg.hBpClks + streamTime s.cfg :=
  (lineRemaining_of_xfer rfl).trans (by rw [← requestTime_xferRequest]; rfl)

theorem lineRemaining_endTransfer (hw : 1 ≤ s.cfg.visibleWidth) :
    lineRemaining (endTransfer s) = s.cfg.hBpClks + streamTime s.cfg := by
  rw [endTransfer]
  split
  next hzero => rw [lineRemaining_beginStream hw, hzero, Nat.zero_add]
  · exact lineRemaining_of_bp rfl

/-- What is left of a line after the end of its pulse (R194, R195). -/
theorem lineRemaining_endPulse (hph : s.line.phase = .stream) :
    lineRemaining (endPulse s) =
      (s.cfg.visibleWidth - (s.line.pixCount + 1)) * s.cfg.pixelClks := by
  rw [endPulse]
  split
  next hlast =>
    rw [lineRemaining_of_idle rfl, Nat.sub_eq_zero_of_le hlast, Nat.zero_mul]
  next hmore =>
    exact lineRemaining_beginPulse (s := { s with line := { s.line with
      pixCount := s.line.pixCount + 1 } }) hph (Nat.lt_of_not_le hmore)

/-- A phase of which more than a cycle is left goes on (R164, R193, R194). -/
theorem lineRemaining_lineWait (hidle : s.line.phase ≠ .idle) (hxfer : s.line.phase ≠ .xfer)
    (hd : 1 ≤ s.line.dwell) : lineRemaining (lineWait s) + 1 = lineRemaining s := by
  have hless : ∀ x y, s.line.dwell - 1 + x + y + 1 = s.line.dwell + x + y := by omega
  rcases hph : s.line.phase
  case idle => exact absurd hph hidle
  case xfer => exact absurd hph hxfer
  case hsync =>
    rw [lineRemaining_of_hsync hph, lineRemaining_of_hsync (s := lineWait s) hph]
    exact hless _ 0
  case bp =>
    rw [lineRemaining_of_bp hph, lineRemaining_of_bp (s := lineWait s) hph]
    exact hless _ 0
  case stream =>
    rw [lineRemaining_of_stream hph, lineRemaining_of_stream (s := lineWait s) hph]
    exact hless _ _

/-- A phase in its last cycle hands on to the next, which ends one cycle sooner (R164, R193 to R195). -/
theorem lineRemaining_endLinePhase (hw : 1 ≤ s.cfg.visibleWidth) (hidle : s.line.phase ≠ .idle)
    (hxfer : s.line.phase ≠ .xfer) (hd : s.line.dwell = 1) :
    lineRemaining (endLinePhase s) + 1 = lineRemaining s := by
  rcases hph : s.line.phase
  case idle => exact absurd hph hidle
  case xfer => exact absurd hph hxfer
  case hsync =>
    rw [lineRemaining_of_hsync hph, hd]
    simp only [endLinePhase, hph, endHsync]
    split
    · rw [lineRemaining_beginTransfer]; omega
    · rw [lineRemaining_of_idle rfl]
  case bp =>
    rw [lineRemaining_of_bp hph, hd]
    simp only [endLinePhase, hph]
    rw [lineRemaining_beginStream hw]; omega
  case stream =>
    rw [lineRemaining_of_stream hph, hd]
    simp only [endLinePhase, hph]
    split
    · rw [lineRemaining_endPulse hph]; omega
    · rw [lineRemaining_of_stream (s := endHighHalf s) hph]
      simp only [endHighHalf, if_true]; omega

/-- Each edge takes one cycle off the line sequencer's work (R168): `s` is the state before the edge and `u` the
one after the engine's, which says by `d` whether the transfer is done. -/
theorem lineAdvance_remaining {d : Bool} {u : State} (h : SameProgress s u)
    (hw : 1 ≤ s.cfg.visibleWidth) (hbusy : s.line.phase ≠ .idle)
    (hdwell : s.line.phase ≠ .xfer → 1 ≤ s.line.dwell)
    (hop : s.line.phase = .xfer →
      (d = true ∧ operationRemaining s.req.ls s = 1) ∨
      (d = false ∧ operationRemaining u.req.ls u + 1 = operationRemaining s.req.ls s)) :
    lineRemaining (lineAdvance d u) + 1 = lineRemaining s := by
  have hcfg := h.cfg
  have hphase := h.phase
  by_cases hx : s.line.phase = .xfer
  · rw [hx] at hphase
    rw [lineRemaining_of_xfer hx]
    rcases hop hx with ⟨rfl, hone⟩ | ⟨rfl, hless⟩
    · have hend : lineAdvance true u = endTransfer u := by simp [lineAdvance, hphase]
      rw [hend, lineRemaining_endTransfer (hcfg ▸ hw), hone, hcfg]; omega
    · have hwait : lineAdvance false u = u := by simp [lineAdvance, hphase]
      rw [hwait, lineRemaining_of_xfer hphase, hcfg]; omega
  · have hd := hdwell hx
    have hsame : lineRemaining u = lineRemaining s := by
      obtain ⟨-, hphase, hdwell, hpix, hhalf, hcur⟩ := h
      rcases hph : s.line.phase
      case xfer => exact absurd hph hx
      all_goals simp only [lineRemaining, hcfg, hphase, hdwell, hpix, hhalf, hcur, hph]
    have hui : u.line.phase ≠ .idle := hphase ▸ hbusy
    have hux : u.line.phase ≠ .xfer := hphase ▸ hx
    have hud : 1 ≤ u.line.dwell := h.dwell ▸ hd
    rw [← hsame]
    have hadvance : lineAdvance d u = if u.line.dwell ≤ 1 then endLinePhase u else lineWait u := by
      simp only [lineAdvance]
    rw [hadvance]
    split
    · exact lineRemaining_endLinePhase (hcfg ▸ hw) hui hux (by omega)
    · exact lineRemaining_lineWait hui hux hud

end

/-- A phase of the line sequencer that is timed has a cycle left (R121, R193). -/
def LineDwells (s : State) : Prop :=
  s.line.phase ≠ .idle → s.line.phase ≠ .xfer → 1 ≤ s.line.dwell

/-- In the ranges of R8 every phase is entered with a cycle to dwell; a back porch of none is passed over. -/
theorem lineAdvance_dwells {s : State} (d : Bool) (hr : s.cfg.RangesOk) (h : LineDwells s) :
    LineDwells (lineAdvance d s) := by
  obtain ⟨-, hhigh, hlow, -⟩ := hr
  have hpulse : ∀ u : State, u.cfg = s.cfg → LineDwells (beginPulse u) := fun u hu _ _ => by
    show 1 ≤ u.cfg.scHigh; rw [hu]; exact hhigh
  simp only [lineAdvance]
  split
  · exact h
  · split
    · rw [endTransfer]
      split
      · exact hpulse _ rfl
      next hporch => exact fun _ _ => Nat.one_le_iff_ne_zero.mpr hporch
    · exact h
  · split
    · simp only [endLinePhase]
      split
      · exact h
      · rw [endHsync]
        split
        · exact fun _ hx => absurd rfl hx
        · exact fun hi => absurd rfl hi
      · exact h
      · exact hpulse _ rfl
      · split
        · rw [endPulse]
          split
          · exact fun hi => absurd rfl hi
          · exact hpulse _ rfl
        · exact fun _ _ => hlow
    next hmore => exact fun _ _ => Nat.le_sub_one_of_lt (Nat.lt_of_not_le hmore)

/-- A line in progress is never over yet: a timed phase has a cycle left, and the transfer has the stream after
it. -/
theorem lineRemaining_pos {s : State} (hstream : 1 ≤ streamTime s.cfg) (h : LineDwells s)
    (hbusy : s.line.phase ≠ .idle) : 1 ≤ lineRemaining s := by
  rcases hph : s.line.phase
  case idle => exact absurd hph hbusy
  case xfer => rw [lineRemaining_of_xfer hph]; omega
  case hsync => have hd := h hbusy (by simp [hph]); rw [lineRemaining_of_hsync hph]; omega
  case bp => rw [lineRemaining_of_bp hph]; omega
  case stream => have hd := h hbusy (by simp [hph]); rw [lineRemaining_of_stream hph]; omega

theorem streamTime_pos {c : Config} (hg : c.GeometryOk) (hr : c.RangesOk) : 1 ≤ streamTime c := by
  obtain ⟨-, hhigh, -⟩ := hr
  exact Nat.mul_pos hg.1 (Nat.add_pos_left hhigh _)

/-! ## LINETICK on time (R163, R169) -/

/-- C_LINE leaves room for every line, active or not (R9). -/
theorem lineBudget_hsync {c : Config} (h : c.LineBudgetOk) (b : Bool) :
    c.hSyncClks + (if b then c.tXferOp + c.hBpClks + streamTime c else 0) ≤ c.linePeriod := by
  simp only [Config.LineBudgetOk] at h
  simp only [streamTime]
  split <;> omega

/-- The line work fits before the next tick, and no tick is held (R163, R168). -/
def LineOnTime (s : State) : Prop :=
  s.line.tickPending = false ∧ lineRemaining s + s.line.hCount ≤ s.cfg.linePeriod

/-- A line that is entered as the timer begins its period fits into it (R163, R240). -/
theorem LineOnTime.of_entered {s : State} (hbudget : s.cfg.LineBudgetOk) (hph : s.line.phase = .hsync)
    (hd : s.line.dwell = s.cfg.hSyncClks) (hcount : s.line.hCount = 0)
    (hheld : s.line.tickPending = false) : LineOnTime s := by
  refine ⟨hheld, ?_⟩
  rw [lineRemaining_of_hsync hph, hd, hcount]
  exact lineBudget_hsync hbudget _

/-- A line sequencer that is idle when the timer wraps takes the tick, and C_LINE fits the line it enters; at
any other edge the timer and the work left move towards each other (R163, R169). -/
theorem lineTick_onTime {s : State} (w : Nat) (hbudget : s.cfg.LineBudgetOk)
    (hcount : s.line.hCount < s.cfg.linePeriod) (hheld : s.line.tickPending = false)
    (hidle : newTick s = true → s.line.phase = .idle)
    (hends : s.line.phase ≠ .idle → lineRemaining s + 1 + s.line.hCount ≤ s.cfg.linePeriod) :
    LineOnTime (lineTick w s) := by
  rcases lineTick_line w s with ⟨⟨-, htick⟩, hline⟩ | ⟨hnot, hline⟩
  · have hnew : newTick s = true := htick.resolve_right (by simp [hheld])
    rw [takeTick_line, hnew, hheld] at hline
    refine .of_entered ?_ ?_ ?_ ?_ ?_ <;> simp [hline, hbudget]
  · have hold : newTick s = false := by
      by_contra hnew
      have hnew : newTick s = true := by simpa using hnew
      exact hnot ⟨hidle hnew, .inl hnew⟩
    rw [hold, hheld] at hline
    have hsame : lineRemaining (lineTick w s) = lineRemaining s :=
      SameProgress.lineRemaining ⟨by simp, by rw [hline], by rw [hline], by rw [hline],
        by rw [hline], by rw [hline]⟩ (by simp) (by simp)
    refine ⟨by rw [hline]; rfl, ?_⟩
    rw [hsame, hline, lineTick_cfg]
    show lineRemaining s + (s.line.hCount + 1) ≤ s.cfg.linePeriod
    by_cases hph : s.line.phase = .idle
    · rw [lineRemaining_of_idle hph]; omega
    · have := hends hph; omega

/-- A tick is taken by entering a line, so a line in progress has a cycle left after it. -/
theorem lineTick_dwells {s : State} (w : Nat) (hr : s.cfg.RangesOk) (h : LineDwells s) :
    LineDwells (lineTick w s) := by
  rcases lineTick_line w s with ⟨-, hline⟩ | ⟨-, hline⟩
  · rw [takeTick_line] at hline
    intro _ _
    rw [hline]; exact hr.1
  · rw [LineDwells, hline]; exact h

end Sys2Proof.Machine
end

section
/-! PROOFS. The frame sequencer over an edge (R154, R165, R213, R214): a run begins with a frame, decides at its own
`done`, and is otherwise left alone; its longest time and the rows it has asked for. -/

namespace Sys2Proof.Machine

/-! ## The beginning of a run (R165, R240) -/

/-- The frame context of `t` is that of a run that begins, with its first decision (R165, R240). -/
def BeginsRun (s t : State) : Prop :=
  ∃ w v, v.cfg = s.cfg ∧ v.frame.phase = .drain ∧ v.frame.drained = 0 ∧
    t.frame = (frameDecision w v).frame ∧ t.req.fs = (frameDecision w v).req.fs

theorem startFrameRun_beginsRun (w : Nat) (s : State) : BeginsRun s (startFrameRun w s) :=
  ⟨w, { s with frame := { s.frame with phase := .drain, drained := 0 } }, rfl, rfl, rfl, rfl, rfl⟩

/-- A run begins at the wrap of `current_line`, where there is none, and a run in progress is left alone (R165,
R176). -/
theorem takeTick_frame (w : Nat) (s : State) :
    (s.frame.phase = .idle ∧ s.line.currentLine + 1 = s.cfg.totalLines ∧ BeginsRun s (takeTick w s)) ∨
    (¬(s.frame.phase = .idle ∧ s.line.currentLine + 1 = s.cfg.totalLines) ∧
      (takeTick w s).frame = s.frame ∧ (takeTick w s).req = s.req) := by
  by_cases hwrap : nextLine s.cfg s.line.currentLine = 0
  · have hlast := nextLine_eq_zero.mp hwrap
    rw [takeTick_of_wrap hwrap]
    by_cases hidle : s.frame.phase = .idle
    · refine .inl ⟨hidle, hlast, ?_⟩
      have hbegin := startFrameRun_beginsRun w { s with line := { s.line with
        currentLine := nextLine s.cfg s.line.currentLine
        frameCount := s.line.frameCount + 1, framebufferRow := 0 } }
      rw [frameBoundary, if_pos hidle]
      exact hbegin
    · refine .inr ⟨fun h => hidle h.1, ?_⟩
      rw [frameBoundary, if_neg hidle]
      exact ⟨rfl, rfl⟩
  · rw [takeTick_of_not_wrap hwrap]
    exact .inr ⟨fun h => hwrap (nextLine_eq_zero.mpr h.2), rfl, rfl⟩

/-- LINETICK takes its tick on a state that differs in the timer and the flag alone. -/
theorem lineTick_of_takes {w : Nat} {s : State} (h : TakesTick s) :
    ∃ u, lineTick w s = takeTick w u ∧ u.cfg = s.cfg ∧ u.frame = s.frame ∧ u.req = s.req ∧
      u.line.currentLine = s.line.currentLine := by
  obtain ⟨hidle, htick⟩ := h
  rcases hheld : s.line.tickPending with _ | _
  · exact ⟨_, lineTick_of_new hidle hheld (htick.resolve_right (by simp [hheld])), rfl, rfl, rfl, rfl⟩
  · refine ⟨_, lineTick_of_held hidle hheld, ?_⟩
    rw [violationWhen_only]
    exact ⟨rfl, rfl, rfl, rfl⟩

theorem lineTick_of_not_takes {w : Nat} {s : State} (h : ¬TakesTick s) :
    (lineTick w s).frame = s.frame ∧ (lineTick w s).req = s.req := by
  rcases hnew : newTick s with _ | _
  · have hquiet : s.line.phase ≠ .idle ∨ s.line.tickPending = false := by
      by_contra hn
      simp only [not_or, not_not, Bool.not_eq_false] at hn
      exact h ⟨hn.1, .inr hn.2⟩
    rw [lineTick_of_quiet hnew hquiet]
    exact ⟨rfl, rfl⟩
  · rw [lineTick_of_busy (fun hidle => h ⟨hidle, .inl hnew⟩) hnew]
    exact ⟨rfl, rfl⟩

/-- So LINETICK begins a run exactly at a taken tick that wraps `current_line` and finds none. -/
theorem lineTick_frame (w : Nat) (s : State) :
    (s.frame.phase = .idle ∧ TakesTick s ∧ s.line.currentLine + 1 = s.cfg.totalLines ∧
      BeginsRun s (lineTick w s)) ∨
    (¬(s.frame.phase = .idle ∧ TakesTick s ∧ s.line.currentLine + 1 = s.cfg.totalLines) ∧
      (lineTick w s).frame = s.frame ∧ (lineTick w s).req.fs = s.req.fs) := by
  by_cases ht : TakesTick s
  · obtain ⟨u, he, hcfg, hframe, hreq, hcur⟩ := lineTick_of_takes (w := w) ht
    have htake := takeTick_frame w u
    rw [← he, hcfg, hframe, hreq, hcur] at htake
    rcases htake with ⟨hidle, hlast, hbegin⟩ | ⟨hnot, hf, hr⟩
    · rw [BeginsRun, hcfg] at hbegin
      exact .inl ⟨hidle, ht, hlast, hbegin⟩
    · exact .inr ⟨fun h => hnot ⟨h.1, h.2.2⟩, hf, by rw [hr]⟩
  · obtain ⟨hf, hr⟩ := lineTick_of_not_takes (w := w) ht
    exact .inr ⟨fun h => ht h.2.1, hf, by rw [hr]⟩

/-! ## The frame sequencer over an edge -/

/-- What an edge at which the engine goes on to `g` does to the frame sequencer's registers and its request
line (R154, R165, R213, R214, R240). -/
inductive FrameEdge (s g u : State) : Prop where
  /-- a frame begins, and a run with it -/
  | begins (idle : s.frame.phase = .idle) (when : AcceptsStart s ∨ Wraps s) (run : BeginsRun s u)
  /-- the run in progress decides at its own `done` -/
  | decides (busy : s.frame.phase ≠ .idle) (done : doneOwner s = some .fs) (w : Nat) (v : State)
      (cfg : v.cfg = s.cfg) (same : v.frame = s.frame)
      (frame : u.frame = (frameDecision w v).frame) (fs : u.req.fs = (frameDecision w v).req.fs)
  /-- a run waits, or there is none and no frame begins -/
  | keeps (wait : doneOwner s ≠ some .fs)
      (when : s.frame.phase = .idle → ¬AcceptsStart s ∧ ¬Wraps s)
      (frame : u.frame = s.frame) (fs : u.req.fs = g.req.fs)

/-- A tick is taken after the advance exactly where the state before the edge takes one. -/
theorem NotStarted.takesTick_iff {s u : State} (h : NotStarted s u) (hon : u.host.running = true) :
    TakesTick (lineAdvance (decide (doneOwner s = some .ls)) u) ↔ Taken s := by
  obtain ⟨hr, hs⟩ := h.running.mp hon
  obtain ⟨hcount, hheld⟩ := h.timer (hon.trans hr.symm)
  simp only [TakesTick, Taken, LineIdle, newTick_iff, h.progress.lineAdvance_phase,
    lineAdvance_hCount, lineAdvance_cfg, lineAdvance_tickPending, hcount, hheld, h.progress.cfg, hr,
    hs, not_false_eq_true, true_and]

theorem startRunning_beginsRun (s : State) : BeginsRun s (startRunning s) := by
  simp only [startRunning, BeginsRun, respond_frame, respond_req, enterLine_frame, enterLine_req]
  exact startFrameRun_beginsRun s.host.writeIndex { s with
    host := { s.host with running := true }
    line := { s.line with hCount := 0, tickPending := false, currentLine := 0, framebufferRow := 0 } }

/-- With no run in progress the line context begins one exactly as it takes a tick that wraps `current_line`. -/
theorem NotStarted.lineEdge_frameEdge {s u g : State} (h : NotStarted s u) (w : Nat)
    (hidle : s.frame.phase = .idle) (hwait : doneOwner s ≠ some .fs) (hframe : u.frame = s.frame)
    (hfs : u.req.fs = g.req.fs) :
    FrameEdge s g (lineEdge (decide (doneOwner s = some .ls)) w u) := by
  rcases hrun : u.host.running with _ | _
  · rw [lineEdge_of_stopped hrun]
    refine .keeps hwait (fun _ => ⟨h.start, fun hw => ?_⟩) (by simp [hframe]) (by simp [hfs])
    have hon := h.running.mpr ⟨hw.1.1, hw.1.2.1⟩
    rw [hrun] at hon; cases hon
  · have htick := lineTick_frame w (lineAdvance (decide (doneOwner s = some .ls)) u)
    rw [h.takesTick_iff hrun, lineAdvance_currentLine, lineAdvance_cfg, lineAdvance_frame,
      lineAdvance_fs, h.progress.cfg, h.progress.currentLine, hframe, hfs] at htick
    rw [lineEdge, if_pos (by simpa using hrun)]
    rcases htick with ⟨-, ht, hlast, hbegin⟩ | ⟨hnot, hf, hq⟩
    · rw [BeginsRun, lineAdvance_cfg, h.progress.cfg] at hbegin
      exact .begins hidle (.inr ⟨ht, hlast⟩) hbegin
    · exact .keeps hwait (fun _ => ⟨h.start, fun hw => hnot ⟨hidle, hw.1, hw.2⟩⟩) hf hq

section
variable {s h0 g : State} (p : PinIn) (a : AgentsInv s)
  (m : HostMove (beginEdge s) (hostReady (beginEdge s)) h0)
  (hh : hostEdge p (beginEdge s) = .next (latchPins p (beginEdge s) h0))
  (he : engineEdge (beginEdge s) = .next g)
include a m hh he

/-- Where there is no run, the host sequencer's START or LINETICK begins one, or none begins. -/
theorem blockEdge_frameEdge_of_idle (hidle : s.frame.phase = .idle)
    (hwait : doneOwner s ≠ some .fs) :
    FrameEdge s g (blockEdge (beginEdge s) (latchPins p (beginEdge s) h0) g) := by
  have hline : s.req.fs = none := (inFlight_eq_zero.mp (a.frame_ops.trans (by simp [hidle]))).1
  rcases hostMove_start p (beginEdge_agentsInv a) m with ⟨hs, hstart, -, -⟩ | ⟨hs, hframe, hreq, -⟩
  · obtain ⟨w, v, hcfg, hph, hd, hf, hq⟩ := startRunning_beginsRun (hostReady (beginEdge s))
    refine .begins hidle (.inl ((startsHere_iff hh).mp hs)) ⟨w, v, hcfg, hph, hd, ?_, ?_⟩
    · rw [blockEdge, if_pos hs, joinEdges_frame, latchPins_frame, hstart, hf]
    · have hraised : (blockEdge (beginEdge s) (latchPins p (beginEdge s) h0) g).req.fs =
          mergeLine s.req.fs (latchPins p (beginEdge s) h0).req.fs g.req.fs := by
        rw [blockEdge, if_pos hs]; rfl
      rw [hraised, hline, latchPins_req, hstart]; exact hq
  · have hna : ¬AcceptsStart s := fun ha => by
      rw [(startsHere_iff hh).mpr ha] at hs; cases hs
    have hjoin : NotStarted s (joinEdges (beginEdge s) (latchPins p (beginEdge s) h0) g) :=
      hostEdge_notStarted hh hna (by rw [joinEdges_cfg, latchPins_cfg, (hostMove_only m).1]; rfl)
        rfl rfl
    have hedge : blockEdge (beginEdge s) (latchPins p (beginEdge s) h0) g =
        lineEdge (decide (doneOwner s = some .ls)) s.host.writeIndex
          (joinEdges (beginEdge s) (latchPins p (beginEdge s) h0) g) := by
      simp [blockEdge, hs, sequencersEdge, frameAdvance, hidle]
    rw [hedge]
    refine hjoin.lineEdge_frameEdge _ hidle hwait ?_ ?_
    · rw [joinEdges_frame, latchPins_frame, hframe]; rfl
    · exact mergeLine_engine (by rw [latchPins_req, hreq]) fun _ => engine_line_none he .fs hline

theorem blockEdge_frameEdge :
    FrameEdge s g (blockEdge (beginEdge s) (latchPins p (beginEdge s) h0) g) := by
  have hb := beginEdge_agentsInv a
  by_cases hdone : doneOwner s = some .fs
  · obtain ⟨hframe, hfs⟩ := blockEdge_frame_of_done p hb m he (by rwa [doneOwner_beginEdge])
    exact .decides (a.frame_busy_of_done hdone) hdone _ (beginEdge s) rfl rfl hframe hfs
  by_cases hidle : s.frame.phase = .idle
  · exact blockEdge_frameEdge_of_idle p a m hh he hidle hdone
  · obtain ⟨hframe, hfs⟩ := blockEdge_frame_of_wait p hb m he hidle (by rwa [doneOwner_beginEdge])
    exact .keeps hdone (fun h => absurd h hidle) hframe hfs

end

/-! ## A decision, and the work it leaves (R212 to R214, R151, R154) -/

/-- The row a decision of a run comes to, if it does not pop (R154, R214). -/
def refreshFrom (s : State) : Nat := if s.frame.phase = .refresh then s.frame.row else 0

theorem refreshDecision_cases (s : State) :
    (s.frame.row < s.cfg.dramRows ∧ (refreshDecision s).frame.phase = s.frame.phase ∧
      (refreshDecision s).frame.row = s.frame.row + 1 ∧
      (refreshDecision s).req.fs = some (refrowRequest s.frame.row)) ∨
    (s.cfg.dramRows ≤ s.frame.row ∧ (refreshDecision s).frame.phase = .idle) := by
  rw [refreshDecision]
  split
  next hrow => exact .inl ⟨hrow, rfl, rfl, rfl⟩
  next hrow => exact .inr ⟨Nat.le_of_not_lt hrow, rfl⟩

/-- A decision of a run pops an entry and writes it, or refreshes the next row, or ends the run. -/
theorem frameDecision_cases {w : Nat} {s : State} (hbusy : s.frame.phase ≠ .idle) :
    (s.frame.phase = .drain ∧ s.frame.drained < s.cfg.drainBudget ∧
      (frameDecision w s).frame.phase = .drain ∧
      (frameDecision w s).frame.drained = s.frame.drained + 1 ∧
      ∃ row col v, (frameDecision w s).req.fs = some (writeRequest row col v)) ∨
    (refreshFrom s < s.cfg.dramRows ∧ (frameDecision w s).frame.phase = .refresh ∧
      (frameDecision w s).frame.row = refreshFrom s + 1 ∧
      (frameDecision w s).req.fs = some (refrowRequest (refreshFrom s))) ∨
    (s.cfg.dramRows ≤ refreshFrom s ∧ (frameDecision w s).frame.phase = .idle) := by
  rcases hph : s.frame.phase
  case idle => exact absurd hph hbusy
  case drain =>
    have hfrom : refreshFrom s = 0 := if_neg (by simp [hph])
    rw [frameDecision_of_drain hph, drainDecision, hfrom]
    split
    next hpop => exact .inl ⟨rfl, hpop.2, hph, rfl, _, _, _, rfl⟩
    · exact .inr (refreshDecision_cases { s with frame := { s.frame with phase := .refresh, row := 0 } })
  case refresh =>
    rw [frameDecision_of_refresh hph, refreshFrom, if_pos hph, ← hph]
    exact .inr (refreshDecision_cases s)

@[simp] theorem requestTime_writeRequest (c : Config) (row col : Nat) (v : Nibble) :
    requestTime c (writeRequest row col v) = c.tWrite := by
  simp [requestTime, decode, decodeEngine, writeRequest]

@[simp] theorem requestTime_refrowRequest (c : Config) (row : Nat) :
    requestTime c (refrowRequest row) = c.tRefrow := by
  simp [requestTime, decode, decodeEngine, refrowRequest, whenZero]

/-- The longest time of a run after its operation in progress (R214, R154, R312). -/
def workAfter (s : State) : Nat :=
  match s.frame.phase with
  | .idle => 0
  | .drain => (s.cfg.drainBudget - s.frame.drained) * s.cfg.tWrite + s.cfg.dramRows * s.cfg.tRefrow
  | .refresh => (s.cfg.dramRows - s.frame.row) * s.cfg.tRefrow

theorem workAfter_congr {s u : State} (hcfg : u.cfg = s.cfg) (hframe : u.frame = s.frame) :
    workAfter u = workAfter s := by simp only [workAfter, hcfg, hframe]

theorem frameRemaining_of_busy {s : State} (h : s.frame.phase ≠ .idle) :
    frameRemaining s = operationRemaining s.req.fs s + workAfter s := by
  rcases hph : s.frame.phase
  case idle => exact absurd hph h
  case drain => simp only [frameRemaining, workAfter, hph, Nat.add_assoc]
  case refresh => simp only [frameRemaining, workAfter, hph]

/-- A run that begins has its whole longest time before it. -/
theorem workAfter_of_begins {s : State} (hph : s.frame.phase = .drain) (hd : s.frame.drained = 0) :
    workAfter s = frameRunTime s.cfg := by
  simp only [workAfter, hph, hd, Nat.sub_zero, frameRunTime]

/-- What a decision asks for, and what is left after it, is no more than was left before. -/
theorem frameDecision_work {w : Nat} {s u : State} (hbusy : s.frame.phase ≠ .idle)
    (hcfg : u.cfg = s.cfg) (hframe : u.frame = (frameDecision w s).frame)
    (hfs : u.req.fs = (frameDecision w s).req.fs) (hon : u.frame.phase ≠ .idle) :
    frameRemaining u ≤ workAfter s := by
  rw [frameRemaining_of_busy hon]
  rcases frameDecision_cases (w := w) hbusy with
    ⟨hph, hlt, hph', hd', row, col, v, hq⟩ | ⟨hlt, hph', hrow', hq⟩ | ⟨-, hend⟩
  · have hpop := sub_mul_of_lt hlt s.cfg.tWrite
    simp only [hfs, hq, operationRemaining, requestTime_writeRequest, workAfter, hframe, hph', hd', hph,
      hcfg]
    omega
  · have hrow := sub_mul_of_lt hlt s.cfg.tRefrow
    simp only [hfs, hq, operationRemaining, requestTime_refrowRequest, workAfter, hframe, hph', hrow',
      hcfg, refreshFrom] at hrow ⊢
    rcases hph : s.frame.phase
    case idle => exact absurd hph hbusy
    case drain => simp [hph] at hrow ⊢; omega
    case refresh => simp [hph] at hrow ⊢; omega
  · rw [hframe] at hon; exact absurd hend hon

end Sys2Proof.Machine
end

section
/-! PROOFS. A generator on time stays on time (R84, R163, R168, R169): the line work ends by each tick, a run of the
frame sequencer ends in its longest time and so before its frame's end, and a refresh has asked for exactly the
rows below `fs_row`. -/

namespace Sys2Proof.Machine

section
variable {s : State} (h : OnTime s)
include h

/-! ## Who has the engine (R84, R170, R232) -/

/-- The blanking interval ends no earlier than the longest run (R9), so at the last line of a frame its run is
over. -/
theorem OnTime.frame_idle_of_lastLine (hrun : s.host.running = true)
    (hlast : s.line.currentLine + 1 = s.cfg.totalLines) : s.frame.phase = .idle := by
  by_contra hbusy
  have hpos := frameRemaining_pos h hbusy
  have hends := h.frame_ends hrun hbusy
  obtain ⟨⟨-, hheight, -⟩, ⟨-, htotal, -⟩, -, -, hbudget, -⟩ := h.config
  have hblank : s.cfg.vBlankLines ≤ s.line.currentLine := by
    simp only [Config.visibleHeight] at htotal; omega
  have helapsed := Nat.mul_le_mul_right s.cfg.linePeriod hblank
  simp only [Config.BlankBudgetOk] at hbudget
  simp only [frameElapsed, frameRunTime] at hends
  omega

theorem OnTime.host_off_engine (hrun : s.host.running = true) : inFlight s.req.hs .hs s = 0 := by
  have huses : hostUsesEngine s = false := by
    by_contra hu
    have hstopped := h.agents.engine_use_stopped (by simpa using hu)
    rw [hrun] at hstopped; cases hstopped
  rw [h.agents.host_ops, huses]; rfl

/-- A transfer belongs to an active line, which finds no run in progress. -/
theorem OnTime.frame_idle_of_xfer (hrun : s.host.running = true) (hx : s.line.phase = .xfer) :
    s.frame.phase = .idle :=
  frame_idle_of_active h hrun (h.line.pipeline (by simp [hx]) (by simp [hx]))

theorem OnTime.alone_line (hrun : s.host.running = true) (hx : s.line.phase = .xfer) :
    Alone .ls s := by
  intro o ho
  cases o
  case ls => exact absurd rfl ho
  case fs => exact h.agents.frame_ops.trans (by simp [h.frame_idle_of_xfer hrun hx])
  case hs => exact h.host_off_engine hrun

theorem OnTime.alone_frame (hrun : s.host.running = true) (hbusy : s.frame.phase ≠ .idle) :
    Alone .fs s := by
  intro o ho
  cases o
  case ls =>
    have hx : s.line.phase ≠ .xfer := fun hx => hbusy (h.frame_idle_of_xfer hrun hx)
    exact h.agents.line_ops.trans (by simp [hx])
  case fs => exact absurd rfl ho
  case hs => exact h.host_off_engine hrun

/-! ## The line work over an edge -/

theorem OnTime.wellTimed : s.cfg.GeometryOk ∧ s.cfg.LineBudgetOk ∧ s.cfg.RangesOk := by
  obtain ⟨hg, -, -, hbudget, -, -, -, hranges⟩ := h.config
  exact ⟨hg, hbudget, hranges⟩

variable {g : State} (he : engineEdge (beginEdge s) = .next g)
include he

/-- The line sequencer's advance, with the engine's edge `g` before it, takes one cycle off a line in progress;
what is still in progress then has a cycle left. -/
theorem OnTime.lineAdvance_progress {u : State} (hrun : s.host.running = true) (hsame : SameProgress s u)
    (hls : u.req.ls = g.req.ls) (heng : u.eng = g.eng) (hgcfg : u.cfg = g.cfg)
    (hon : (lineAdvance (decide (doneOwner s = some .ls)) u).line.phase ≠ .idle) :
    1 ≤ lineRemaining (lineAdvance (decide (doneOwner s = some .ls)) u) ∧
    lineRemaining (lineAdvance (decide (doneOwner s = some .ls)) u) + 1 = lineRemaining s := by
  obtain ⟨hg, -, hr⟩ := h.wellTimed
  have hbusy : s.line.phase ≠ .idle := fun hidle => by
    have hui : u.line.phase = .idle := hsame.phase.trans hidle
    rw [lineAdvance_of_idle hui] at hon; exact hon hui
  constructor
  · refine lineRemaining_pos ?_ (lineAdvance_dwells _ (hsame.cfg ▸ hr) ?_) hon
    · rw [lineAdvance_cfg, hsame.cfg]; exact streamTime_pos hg hr
    · rw [LineDwells, hsame.phase, hsame.dwell]; exact h.line_dwells
  · refine lineAdvance_remaining hsame hg.1 hbusy (h.line_dwells hbusy) fun hx => ?_
    have hflight : inFlight s.req.ls .ls s = 1 := h.agents.line_ops.trans (by simp [hx])
    have hprogress := Alone.progress (o := .ls) (s := beginEdge s) (h.alone_line hrun hx) hflight
      h.engine_dwells he
    rw [doneOwner_beginEdge] at hprogress
    have hug : operationRemaining u.req.ls u = operationRemaining g.req.ls g := by
      simp only [operationRemaining, engineRemaining, hls, heng, hgcfg]
    rw [hug]
    exact hprogress.imp (fun hd => ⟨by simp [hd.1], hd.2⟩) fun hd => ⟨by simp [hd.1], hd.2⟩

/-- On time, the timer wraps only on a line sequencer that is idle or becomes so (R163). -/
theorem OnTime.lineIdle_of_wrap (hrun : s.host.running = true)
    (hwrap : s.line.hCount + 1 = s.cfg.linePeriod) : LineIdle s := by
  have hsame : SameProgress s { s with eng := g.eng, req := g.req } := ⟨rfl, rfl, rfl, rfl, rfl, rfl⟩
  rw [LineIdle, ← hsame.lineAdvance_phase]
  by_contra hon
  obtain ⟨hpos, hless⟩ := h.lineAdvance_progress he hrun hsame rfl rfl (engineEdge_cfg he).symm hon
  have hends := h.line_ends hrun
  omega

/-- So a running generator that is not stopped at this edge takes every tick as it comes. -/
theorem OnTime.taken_iff (hrun : s.host.running = true) :
    Taken s ↔ ¬LatchedStop s ∧ s.line.hCount + 1 = s.cfg.linePeriod := by
  have hheld := h.not_held hrun
  constructor
  · rintro ⟨-, hs, -, hnew⟩
    exact ⟨hs, hnew.resolve_right (by simp [hheld])⟩
  · rintro ⟨hs, hnew⟩
    exact ⟨hrun, hs, h.lineIdle_of_wrap he hrun hnew, .inl hnew⟩

/-- On time, no violation is found (R163, R165, R171, R172, R176). -/
theorem OnTime.not_findsLate : ¬FindsLate s := by
  rintro ⟨hrun, -, ⟨hwrap, hlate⟩ | ⟨-, -, hlast, hbusy⟩⟩
  · rcases hlate with hbusy | hheld
    · exact hbusy (h.lineIdle_of_wrap he hrun hwrap)
    · rw [h.not_held hrun] at hheld; cases hheld
  · exact hbusy (h.frame_idle_of_lastLine hrun hlast)

/-- A frame's cycles are counted without a gap, and its last one ends with the frame (R160, R163). -/
theorem OnTime.frameElapsed_step {t : State} (hgen : GeneratorStep s t) (hcfg : t.cfg = s.cfg)
    (hrun : s.host.running = true) (hrun' : t.host.running = true) :
    (Wraps s ∧ frameElapsed t = 0 ∧ frameElapsed s + 1 = s.cfg.totalLines * s.cfg.linePeriod) ∨
    (¬Wraps s ∧ frameElapsed t = frameElapsed s + 1) := by
  simp only [frameElapsed, hcfg]
  cases hgen
  case start ha _ _ _ _ _ _ _ => exact absurd ha (not_acceptsStart_of_running hrun)
  case halted hoff _ _ _ _ _ _ => rw [hrun'] at hoff; cases hoff
  case counting hs nt _ hcur _ _ _ hhc _ =>
    have hold : newTick s = false := by
      by_contra hnew
      exact nt ((h.taken_iff he hrun).mpr ⟨hs, newTick_iff.mp (by simpa using hnew)⟩)
    refine .inr ⟨fun hw => nt hw.1, ?_⟩
    rw [hcur, hhc, hold]; rfl
  case tick ht _ _ hcur _ _ _ hhc _ =>
    have hnew := ((h.taken_iff he hrun).mp ht).2
    rw [if_pos (newTick_iff.mpr hnew)] at hhc
    have hline : s.line.currentLine * s.cfg.linePeriod + s.line.hCount + 1 =
        (s.line.currentLine + 1) * s.cfg.linePeriod := by rw [Nat.succ_mul]; omega
    rw [hcur, hhc, nextLine, hline]
    by_cases hlast : s.line.currentLine + 1 = s.cfg.totalLines
    · exact .inl ⟨⟨ht, hlast⟩, by simp [hlast], by rw [hlast]⟩
    · exact .inr ⟨fun hw => hlast hw.2, by simp [hlast]⟩

end

/-! ## The line context over an edge -/

section
variable {s u g : State} (h : OnTime s) (hn : NotStarted s u) (w : Nat)
include h hn

/-- At an edge that executes no START, LINETICK after the advance finds the generator on time. -/
theorem OnTime.lineEdge_lineOnTime (he : engineEdge (beginEdge s) = .next g)
    (hls : u.req.ls = g.req.ls) (heng : u.eng = g.eng) (hon : u.host.running = true) :
    LineOnTime (lineEdge (decide (doneOwner s = some .ls)) w u) := by
  obtain ⟨-, hbudget, -⟩ := h.wellTimed
  obtain ⟨hrun, -⟩ := hn.running.mp hon
  obtain ⟨hcount, hheld⟩ := hn.timer (hon.trans hrun.symm)
  have hends := h.line_ends hrun
  have hprogress := h.lineAdvance_progress he hrun hn.progress hls heng
    (hn.progress.cfg.trans (engineEdge_cfg he).symm)
  have hcfg := hn.progress.cfg
  rw [lineEdge, if_pos (by simpa using hon)]
  generalize hL : lineAdvance (decide (doneOwner s = some .ls)) u = L at hprogress ⊢
  have hLcfg : L.cfg = s.cfg := by rw [← hL, lineAdvance_cfg, hcfg]
  have hLcount : L.line.hCount = s.line.hCount := by rw [← hL, lineAdvance_hCount, hcount]
  refine lineTick_onTime w (by rw [hLcfg]; exact hbudget)
    (by rw [hLcount, hLcfg]; exact h.line.count_lt)
    (by rw [← hL, lineAdvance_tickPending, hheld, h.not_held hrun]) (fun hnew => ?_) fun hbusy => ?_
  · rw [newTick_iff, hLcount, hLcfg] at hnew
    by_contra hbusy
    have := hprogress hbusy
    omega
  · have := hprogress hbusy
    rw [hLcount, hLcfg]; omega

theorem OnTime.lineEdge_dwells (d : Bool) : LineDwells (lineEdge d w u) := by
  obtain ⟨-, -, hr⟩ := h.wellTimed
  have hdwells : LineDwells u := by
    rw [LineDwells, hn.progress.phase, hn.progress.dwell]; exact h.line_dwells
  have hadvance := lineAdvance_dwells d (hn.progress.cfg ▸ hr) hdwells
  rw [lineEdge]
  split
  · exact lineTick_dwells w (by rw [lineAdvance_cfg, hn.progress.cfg]; exact hr) hadvance
  · exact hadvance

end

section
variable {s h0 g : State} (p : PinIn)
  (m : HostMove (beginEdge s) (hostReady (beginEdge s)) h0)
  (hh : hostEdge p (beginEdge s) = .next (latchPins p (beginEdge s) h0))
include m hh

/-- An edge that executes a START leaves the line context as START writes it (R240); at any other the sequencers
work on what the host sequencer leaves of it. -/
theorem blockEdge_line_cases (g : State) :
    (AcceptsStart s ∧ (blockEdge (beginEdge s) (latchPins p (beginEdge s) h0) g).line =
      (startRunning (hostReady (beginEdge s))).line) ∨
    ∃ u, NotStarted s u ∧ u.eng = g.eng ∧ u.host = (latchPins p (beginEdge s) h0).host ∧
      (engineEdge (beginEdge s) = .next g → u.req.ls = g.req.ls) ∧
      blockEdge (beginEdge s) (latchPins p (beginEdge s) h0) g =
        frameAdvance (decide (s.frame.phase = .idle)) (decide (doneOwner s = some .fs))
          s.host.writeIndex (lineEdge (decide (doneOwner s = some .ls)) s.host.writeIndex u) := by
  by_cases ha : AcceptsStart s
  · refine .inl ⟨ha, ?_⟩
    rw [blockEdge, if_pos ((startsHere_iff hh).mpr ha), joinEdges_line]
    rw [hostEdge_start (b := beginEdge s) _ ha] at hh
    rw [← Host.Outcome.next.inj hh, latchPins_line]
  · refine .inr ⟨joinEdges (beginEdge s) (latchPins p (beginEdge s) h0) g,
      hostEdge_notStarted hh ha ?_ rfl rfl, rfl, rfl, joinEdges_ls p m, ?_⟩
    · rw [joinEdges_cfg, latchPins_cfg, (hostMove_only m).1]; rfl
    · rw [blockEdge, if_neg (mt (startsHere_iff hh).mp ha), sequencersEdge, doneOwner_beginEdge]
      rfl

variable (h : OnTime s) (he : engineEdge (beginEdge s) = .next g)
include h

theorem blockEdge_dwells : LineDwells (blockEdge (beginEdge s) (latchPins p (beginEdge s) h0) g) := by
  rcases blockEdge_line_cases p m hh g with ⟨-, hline⟩ | ⟨u, hn, -, -, -, hedge⟩
  · rw [LineDwells, hline, startRunning_line]
    exact fun _ _ => h.wellTimed.2.2.1
  · rw [LineDwells, hedge, frameAdvance_only]
    exact h.lineEdge_dwells hn _ _

include he

theorem blockEdge_lineOnTime
    (hon : (blockEdge (beginEdge s) (latchPins p (beginEdge s) h0) g).host.running = true) :
    LineOnTime (blockEdge (beginEdge s) (latchPins p (beginEdge s) h0) g) := by
  have hcfg : (blockEdge (beginEdge s) (latchPins p (beginEdge s) h0) g).cfg = s.cfg := by
    rw [blockEdge_cfg, latchPins_cfg, (hostMove_only m).1]; rfl
  rcases blockEdge_line_cases p m hh g with ⟨-, hline⟩ | ⟨u, hn, heng, hhost, hls, hedge⟩
  · rw [startRunning_line] at hline
    exact .of_entered (hcfg ▸ h.wellTimed.2.1) (by rw [hline]) (by rw [hline, hcfg]; rfl)
      (by rw [hline]) (by rw [hline])
  · rw [blockEdge_host, ← hhost] at hon
    have hline := h.lineEdge_lineOnTime hn s.host.writeIndex he (hls he) heng hon
    rw [hedge, frameAdvance_only]
    exact hline

end

/-! ## The frame sequencer's run over an edge -/

section
variable {s g u : State} (h : OnTime s) (hf : FrameEdge s g u) (hcfg : u.cfg = s.cfg)
  (heng : u.eng = g.eng) (he : engineEdge (beginEdge s) = .next g)
include h hf hcfg heng he

/-- A run that begins has its longest time before it, a decision asks for no more than is left, and at any other
edge of a run its operation takes one cycle off (R169). -/
theorem FrameEdge.ends (hrun : s.frame.phase ≠ .idle → s.host.running = true)
    (hon : u.frame.phase ≠ .idle) :
    (s.frame.phase = .idle ∧ (AcceptsStart s ∨ Wraps s) ∧ frameRemaining u ≤ frameRunTime s.cfg) ∨
    (s.frame.phase ≠ .idle ∧ frameRemaining u + 1 ≤ frameRemaining s) := by
  have hprogress := fun hbusy : s.frame.phase ≠ .idle =>
    Alone.progress (o := .fs) (s := beginEdge s) (h.alone_frame (hrun hbusy) hbusy)
      (h.agents.frame_ops.trans (by simp [hbusy])) h.engine_dwells he
  simp only [doneOwner_beginEdge] at hprogress
  cases hf
  case begins hidle hwhen hbegin =>
    obtain ⟨w, v, hv, hph, hd, hframe, hfs⟩ := hbegin
    refine .inl ⟨hidle, hwhen, ?_⟩
    rw [← hv, ← workAfter_of_begins hph hd]
    exact frameDecision_work (by simp [hph]) (hcfg.trans hv.symm) hframe hfs hon
  case decides hbusy hdone w v hv hsame hframe hfs =>
    have hwork := frameDecision_work (hsame ▸ hbusy) (hcfg.trans hv.symm) hframe hfs hon
    rw [workAfter_congr hv hsame] at hwork
    refine .inr ⟨hbusy, ?_⟩
    rw [frameRemaining_of_busy hbusy]
    rcases hprogress hbusy with ⟨-, hone⟩ | ⟨hnot, -⟩
    · have hone : operationRemaining s.req.fs s = 1 := hone
      omega
    · exact absurd hdone hnot
  case keeps hwait _ hframe hfs =>
    have hbusy : s.frame.phase ≠ .idle := hframe ▸ hon
    refine .inr ⟨hbusy, ?_⟩
    rw [frameRemaining_of_busy hbusy, frameRemaining_of_busy hon, workAfter_congr hcfg hframe]
    rcases hprogress hbusy with ⟨hdone, -⟩ | ⟨-, hless⟩
    · exact absurd hdone hwait
    · have hless : operationRemaining g.req.fs g + 1 = operationRemaining s.req.fs s := hless
      have hug : operationRemaining u.req.fs u = operationRemaining g.req.fs g := by
        simp only [operationRemaining, engineRemaining, hfs, heng, hcfg.trans (engineEdge_cfg he).symm]
      omega

end

/-! ## The rows a refresh has asked for (R154) -/

/-- The grant of a REFROW's request latches its row (R130, R100). -/
theorem engineEdge_refrow {s g : State} {r : Nat} (he : engineEdge s = .next g)
    (hfree : (engineAdvance s).eng.phase = .idle)
    (hw : winningRequest s.req = some (refrowRequest r)) (hr : r < 4096) :
    g = grant .refrow r 0 0 (engineAdvance s) := by
  have hdec : decode .engine (refrowRequest r) 0 = .ok (.refrow (BitVec.ofNat 12 r)) :=
    decodeOfEncode (.refrow (BitVec.ofNat 12 r)) rfl
  rw [engineEdge, engineGrant, if_pos hfree, engineAdvance_req, hw] at he
  simp only [hdec, exec, execRefrow, acceptRequest, toNat_ofNat_of_lt hr, if_pos hfree] at he
  split at he
  · exact (Host.Outcome.next.inj he).symm
  · cases he

/-- What the registers say of a refresh run: which row it has asked for last, and what of it is still on the line
or in the engine (R154). -/
structure RefreshAt (s : State) : Prop where
  row_range : 1 ≤ s.frame.row ∧ s.frame.row ≤ s.cfg.dramRows
  word : ∀ w, s.req.fs = some w → w = refrowRequest (s.frame.row - 1)
  op : busyWith .fs s = true → s.eng.op = .refrow ∧ s.eng.row = s.frame.row - 1

theorem OnTime.refreshAt {s : State} (h : OnTime s) (hph : s.frame.phase = .refresh) : RefreshAt s :=
  ⟨h.refresh_row hph, h.refresh_word hph, h.refresh_op hph⟩

/-- A decision that asks for a row leaves the registers so. -/
theorem refreshAt_of_decided {w : Nat} {v u : State} (hbusy : v.frame.phase ≠ .idle)
    (hcfg : u.cfg = v.cfg) (hframe : u.frame = (frameDecision w v).frame)
    (hfs : u.req.fs = (frameDecision w v).req.fs) (hfree : busyWith .fs u = false)
    (hph : u.frame.phase = .refresh) : RefreshAt u := by
  rcases frameDecision_cases (w := w) hbusy with
    ⟨-, -, hdrain, -⟩ | ⟨hlt, -, hrow, hq⟩ | ⟨-, hend⟩
  · rw [hframe, hdrain] at hph; cases hph
  · rw [← hframe] at hrow
    rw [← hfs] at hq
    refine ⟨by rw [hrow, hcfg]; omega, fun x hx => ?_, fun hb => ?_⟩
    · rw [hq] at hx; cases hx; rw [hrow]; rfl
    · rw [hfree] at hb; cases hb
  · rw [hframe, hend] at hph; cases hph

/-- The engine's edge carries the row asked for last from the line into the engine. -/
theorem engineEdge_refresh_op {s g : State} (h : RefreshAt s) (hrows : s.cfg.dramRows ≤ 4096)
    (he : engineEdge s = .next g) (hg : busyWith .fs g = true) :
    g.eng.op = .refrow ∧ g.eng.row = s.frame.row - 1 := by
  obtain ⟨hphase, howner⟩ := busyWith_iff.mp hg
  have hrow := h.row_range
  rcases engineEdge_cases he with ⟨rfl, -⟩ | ⟨hfree, w, op, row, col, v, hw, hgrant, -⟩
  · rw [engineAdvance_eng_op, engineAdvance_eng_row]
    refine h.op (busyWith_iff.mpr ⟨fun hidle => hphase ?_, by simpa using howner⟩)
    rw [engineAdvance_of_idle hidle, hidle]
  · have hwinner : winner s.req = .fs := by simpa [hgrant] using howner
    have hline : lineOf .fs s.req = some w := hwinner ▸ lineOf_winner hw
    have hword := h.word w hline
    rw [engineEdge_refrow he hfree (hword ▸ hw) (by omega)]
    simp

/-- The engine's operations over an edge find a freed run's place empty. -/
theorem engineEdge_fs_free {s g : State} (a : AgentsInv s) (he : engineEdge (beginEdge s) = .next g)
    (hd : s.frame.phase = .idle ∨ doneOwner s = some .fs) : busyWith .fs g = false := by
  have hfree : inFlight s.req.fs .fs s = 0 ∨ doneOwner (beginEdge s) = some .fs := by
    rw [doneOwner_beginEdge]
    exact hd.imp_left fun hidle => a.frame_ops.trans (by simp [hidle])
  exact (inFlight_eq_zero.mp (engineEdge_frees (o := .fs) he
    ((beginEdge_agentsInv a).frame_ops.trans_le (Bool.toNat_le _)) hfree).2).2

theorem busyWith_congr {o : Owner} {s u : State} (heng : u.eng = s.eng) :
    busyWith o u = busyWith o s := by simp only [busyWith, heng]

/-- A refresh keeps the registers so, from decision to decision. -/
theorem FrameEdge.refreshAt {s g u : State} (a : AgentsInv s) (hf : FrameEdge s g u)
    (hcfg : u.cfg = s.cfg) (heng : u.eng = g.eng) (he : engineEdge (beginEdge s) = .next g)
    (hrows : s.cfg.dramRows ≤ 4096) (hs : s.frame.phase = .refresh → RefreshAt s)
    (hph : u.frame.phase = .refresh) : RefreshAt u := by
  have hbusyEq := busyWith_congr (o := .fs) heng
  cases hf
  case begins hidle _ hbegin =>
    obtain ⟨w, v, hv, hdrain, -, hframe, hfs⟩ := hbegin
    exact refreshAt_of_decided (by simp [hdrain]) (hcfg.trans hv.symm) hframe hfs
      (hbusyEq.trans (engineEdge_fs_free a he (.inl hidle))) hph
  case decides hbusy hdone w v hv hsame hframe hfs =>
    exact refreshAt_of_decided (hsame ▸ hbusy) (hcfg.trans hv.symm) hframe hfs
      (hbusyEq.trans (engineEdge_fs_free a he (.inr hdone))) hph
  case keeps hwait _ hframe hfs =>
    have hr := hs (hframe ▸ hph)
    rw [hframe] at hph
    refine ⟨by rw [hframe, hcfg]; exact hr.row_range, fun w hw => ?_, fun hb => ?_⟩
    · rw [hframe]
      exact hr.word w (engineEdge_line_some (o := .fs) he (hfs.symm.trans hw))
    · rw [hframe, heng]
      exact engineEdge_refresh_op (s := beginEdge s) ⟨hr.row_range, hr.word, hr.op⟩ hrows he
        (hbusyEq ▸ hb)

/-! ## On time from step to step -/

/-- The longest run begins with its frame, and every edge takes one cycle off both (R169). -/
theorem FrameEdge.frame_ends {s g u : State} (h : OnTime s) (hf : FrameEdge s g u)
    (hgen : GeneratorStep s u) (hcfg : u.cfg = s.cfg) (heng : u.eng = g.eng)
    (he : engineEdge (beginEdge s) = .next g) (hrun : u.host.running = true)
    (hon : u.frame.phase ≠ .idle) : frameRemaining u + frameElapsed u ≤ frameRunTime u.cfg := by
  have hwas := hgen.running_row.mp hrun
  have hquiet : AcceptsStart s → s.frame.phase = .idle := fun ha =>
    (h.agents.stopped_quiet ha.2.2 (by simp [h.agents.pending_idle ha.1])).2
  have hsrun : ¬AcceptsStart s → s.host.running = true := fun hna => (hwas.resolve_left hna).1
  rw [hcfg]
  rcases hf.ends h hcfg heng he (fun hbusy => hsrun fun ha => hbusy (hquiet ha)) hon with
    ⟨-, hwhen, hlong⟩ | ⟨hbusy, hless⟩
  · have hzero : frameElapsed u = 0 := by
      rcases hwhen with ha | hw
      · have hcur := hgen.currentLine_row.2.1 ha
        have hcount := (hgen.timer_row.1 (.inl ha)).1
        rw [frameElapsed, hcur, hcount, Nat.zero_mul]
      · rcases h.frameElapsed_step he hgen hcfg hw.1.1 hrun with ⟨-, hz, -⟩ | ⟨hn, -⟩
        · exact hz
        · exact absurd hw hn
    omega
  · have hr := hsrun fun ha => hbusy (hquiet ha)
    have hends := h.frame_ends hr hbusy
    rcases h.frameElapsed_step he hgen hcfg hr hrun with ⟨hw, -⟩ | ⟨-, hnext⟩
    · exact absurd (h.frame_idle_of_lastLine hr hw.2) hbusy
    · omega

theorem FrameEdge.advanceTime {s g u : State} (h : FrameEdge s g u) :
    FrameEdge s g (advanceTime u) := by
  cases h
  case begins hidle hwhen hrun => exact .begins hidle hwhen hrun
  case decides hbusy hdone w v hv hs hframe hfs => exact .decides hbusy hdone w v hv hs hframe hfs
  case keeps hwait hwhen hframe hfs => exact .keeps hwait hwhen hframe hfs

theorem blockEdge_rowStamp (b h g : State) : (blockEdge b h g).chip.rowStamp = g.chip.rowStamp := by
  rw [blockEdge]
  split
  · rfl
  · rw [sequencersEdge_chip, lineAdvance_only]; rfl

/-- A step without reset of a block on time, in what its timing and the rows' retention depend on. -/
structure TimedStep (s g t : State) : Prop where
  engine : engineEdge (beginEdge s) = .next g
  eng_eq : t.eng = g.eng
  rowStamp_eq : t.chip.rowStamp = g.chip.rowStamp
  generator : GeneratorStep s t
  frame : FrameEdge s g t
  dwells : LineDwells t
  line : t.host.running = true → LineOnTime t

theorem step_timedStep {s t : State} (h : OnTime s) (hrst : (pinsNow s).rst = false)
    (hstep : step s = .next t) : ∃ g, TimedStep s g t := by
  have hgen := step_generatorStep hrst hstep
  obtain ⟨h0, g, hmove, hhost, hengine, rfl⟩ := step_parts hrst hstep
  have hframe := blockEdge_frameEdge _ h.agents hmove hhost hengine
  have hline := blockEdge_lineOnTime _ hmove hhost h hengine
  exact ⟨g, hengine, blockEdge_eng .., blockEdge_rowStamp .., hgen, hframe.advanceTime,
    blockEdge_dwells _ hmove hhost h, hline⟩

/-- Being on time does not speak of model time or of the draws. -/
theorem advanceTime_onTime {s : State} (h : OnTime s) : OnTime (advanceTime s) where
  config := h.config
  safe := advanceTime_safeInv h.safe
  agents := advanceTime_agentsInv h.agents
  line := h.line.congr rfl rfl rfl id
  engine_dwells := h.engine_dwells
  line_dwells := h.line_dwells
  not_held := h.not_held
  line_ends := h.line_ends
  frame_ends := h.frame_ends
  refresh_row := h.refresh_row
  refresh_word := h.refresh_word
  refresh_op := h.refresh_op

theorem step_onTime {s t : State} (h : OnTime s) (hstep : step s = .next t) : OnTime t := by
  have hcfg := step_cfg hstep
  rcases hrst : (pinsNow s).rst with _ | _
  · obtain ⟨g, ht⟩ := step_timedStep h hrst hstep
    have hrefresh := ht.frame.refreshAt h.agents hcfg ht.eng_eq ht.engine
      h.safe.geometry.2.2.2.2.2.1 h.refreshAt
    exact {
      config := hcfg ▸ h.config
      safe := step_safeInv h.safe hstep
      agents := agentsAreKept s t h.safe h.agents hstep
      line := lineRegistersAreKept s t h.config.2.1 (linePeriod_pos h.config) h.agents h.line hstep
      engine_dwells := by rw [ht.eng_eq]; exact engineEdge_dwell ht.engine
      line_dwells := ht.dwells
      not_held := fun hrun => (ht.line hrun).1
      line_ends := fun hrun => (ht.line hrun).2
      frame_ends := ht.frame.frame_ends h ht.generator hcfg ht.eng_eq ht.engine
      refresh_row := fun hph => (hrefresh hph).row_range
      refresh_word := fun hph => (hrefresh hph).word
      refresh_op := fun hph => (hrefresh hph).op }
  · rcases step_cases hstep with ⟨-, rfl⟩ | ⟨hr, -⟩
    · have hreset : (resetEdge (beginEdge s)).cfg.WellFormed := by
        have hsame : (resetEdge (beginEdge s)).cfg = s.cfg := hcfg
        rw [hsame]; exact h.config
      exact advanceTime_onTime (onTime_resetRegisters hreset)
    · rw [hrst] at hr; cases hr

end Sys2Proof.Machine
end

section
/-! PROOFS. The retention of the rows while the generator runs (R75, R154, R156, R302, R310): which rows this frame's
refresh has restarted, and that none of them is due before the next frame's refresh comes to it. -/

namespace Sys2Proof.Machine

/-! ## The row strobe of a REFROW (R76, R128) -/

/-- In the ranges of R8 an edge leaves the engine in its phase or in the next one. -/
theorem engineAdvance_phase {s : State} (hr : s.cfg.RangesOk) (hbusy : s.eng.phase ≠ .idle) :
    (engineAdvance s).eng.phase =
      if s.eng.dwell ≤ 1 then nextPhase s.eng.phase else s.eng.phase := by
  rw [engineAdvance, if_neg hbusy]
  split
  · exact (enterPhase_of_lasts (n := 7) (by simpa using nextPhase_lasts hr s.eng.phase)).1
  · simp

theorem rowStrobed_iff_of_refrow {p : EngPhase} (h : phaseOp p = some .refrow) :
    rowStrobed p = true ↔ p = .rf1 ∨ p = .rf2 ∨ p = .rf3 := by
  cases p <;> cases h <;> simp [rowStrobed]

/-- The frame sequencer's REFROW has given its row strobe. -/
def FrameStrobed (s : State) : Prop :=
  busyWith .fs s = true ∧ phaseOp s.eng.phase = some .refrow ∧ rowStrobed s.eng.phase = true

theorem frameStrobed_iff {s : State} : FrameStrobed s ↔
    busyWith .fs s = true ∧ (s.eng.phase = .rf1 ∨ s.eng.phase = .rf2 ∨ s.eng.phase = .rf3) := by
  refine and_congr_right fun _ => ⟨fun ⟨hop, hs⟩ => (rowStrobed_iff_of_refrow hop).mp hs, fun hp => ?_⟩
  have hop : phaseOp s.eng.phase = some .refrow := by rcases hp with hp | hp | hp <;> rw [hp] <;> rfl
  exact ⟨hop, (rowStrobed_iff_of_refrow hop).mpr hp⟩

section
variable {s g : State} (hr : s.cfg.RangesOk) (he : engineEdge s = .next g)
include hr he

/-- The strobe is given once, and stays given until the operation is done. -/
theorem FrameStrobed.kept (h : FrameStrobed s) (hwait : doneOwner s ≠ some .fs) : FrameStrobed g := by
  obtain ⟨hown, hop, hstrobed⟩ := h
  obtain ⟨hbusy, howner⟩ := busyWith_iff.mp hown
  have hgoes : (engineAdvance s).eng.phase ≠ .idle := fun hlast =>
    hwait (doneOwner_eq_some.mpr ⟨hbusy, hlast, howner⟩)
  rcases engineEdge_cases he with ⟨rfl, -⟩ | ⟨hlast, -⟩
  · refine ⟨busyWith_iff.mpr ⟨hgoes, by simpa using howner⟩,
      (engineAdvance_phaseOp hgoes).trans hop, ?_⟩
    rw [engineAdvance_phase hr hbusy]
    split
    · exact rowStrobed_next _
    · exact hstrobed
  · exact absurd hlast hgoes

/-- The edge at which it is given restarts the retention of the operation's row. -/
theorem FrameStrobed.restarts (hg : FrameStrobed g) (hs : ¬FrameStrobed s) :
    g.chip.rowStamp = s.chip.rowStamp.set g.eng.row s.t := by
  obtain ⟨hown, hop, hstrobed⟩ := hg
  obtain ⟨hgbusy, hgowner⟩ := busyWith_iff.mp hown
  rcases engineEdge_cases he with ⟨rfl, -⟩ | ⟨-, w, op, row, col, v, -, rfl, -⟩
  · have hbusy : s.eng.phase ≠ .idle := fun hidle => by
      rw [engineAdvance_of_idle hidle] at hgbusy; exact hgbusy hidle
    have hsown : busyWith .fs s = true := busyWith_iff.mpr ⟨hbusy, by simpa using hgowner⟩
    have hsop : phaseOp s.eng.phase = some .refrow := (engineAdvance_phaseOp hgbusy).symm.trans hop
    have hbefore : ¬rowStrobed s.eng.phase = true := fun h => hs ⟨hsown, hsop, h⟩
    have hfirst : s.eng.phase = .rf0 := by
      by_contra hn
      exact hbefore ((rowStrobed_iff hsop).mpr hn)
    have hlast : s.eng.dwell ≤ 1 := by
      by_contra hmore
      rw [engineAdvance_phase hr hbusy, if_neg hmore] at hstrobed
      exact hbefore hstrobed
    have hadvance : engineAdvance s = enterPhase (7 + 1) .rf1 (addressMux s) := by
      rw [engineAdvance, if_neg hbusy, if_pos hlast, hfirst]; rfl
    rw [engineAdvance_eng_row, hadvance,
      (enterPhase_of_lasts (by rw [addressMux_cfg]; exact nextPhase_lasts hr .rf0)).2]
    simp [phaseEntry, setRas]
  · rw [grant_phaseOp hgbusy] at hop
    cases hop
    have hdwell : 1 ≤ phaseDwell (engineAdvance s).cfg (firstPhase .refrow) := by
      obtain ⟨-, -, -, -, -, -, -, -, -, -, -, hcsr, -⟩ := hr
      rw [engineAdvance_cfg]; exact hcsr
    rw [grant_of_dwell _ _ _ _ _ hdwell] at hstrobed
    cases hstrobed

end

/-! ## The rows a run has restarted (R154) -/

theorem refreshedThisRun_iff {s : State} {row : Nat} :
    refreshedThisRun s row = true ↔ s.frame.phase = .idle ∨
      (s.frame.phase = .refresh ∧ (row + 1 < s.frame.row ∨
        (row + 1 = s.frame.row ∧ FrameStrobed s))) := by
  simp [refreshedThisRun, frameStrobed_iff]

/-- A decision of the run leaves the rows before the one it came to restarted. -/
theorem refreshed_of_decided {w row : Nat} {s u : State} (hrow : row < s.cfg.dramRows)
    (hbusy : s.frame.phase ≠ .idle) (hframe : u.frame = (frameDecision w s).frame)
    (hfree : busyWith .fs u = false) : refreshedThisRun u row = true ↔ row < refreshFrom s := by
  have hnot : ¬FrameStrobed u := fun hs => by rw [hs.1] at hfree; cases hfree
  rw [refreshedThisRun_iff, hframe]
  rcases frameDecision_cases (w := w) hbusy with
    ⟨hph, -, hph', -⟩ | ⟨-, hph', hrow', -⟩ | ⟨hend, hph'⟩
  · simp [hph', refreshFrom, hph]
  · simp [hph', hrow', hnot]
  · simp [hph']; omega

/-- At the `done` of its operation the run has restarted the rows before the one it comes to. -/
theorem OnTime.refreshed_of_done {s : State} {row : Nat} (h : OnTime s) (hdone : doneOwner s = some .fs) :
    refreshedThisRun s row = true ↔ row < refreshFrom s := by
  have hbusy := h.agents.frame_busy_of_done hdone
  obtain ⟨hphase, hlast, howner⟩ := doneOwner_eq_some.mp hdone
  rw [refreshedThisRun_iff, refreshFrom]
  by_cases hph : s.frame.phase = .refresh
  · have hown := busyWith_iff.mpr ⟨hphase, howner⟩
    have hop : phaseOp s.eng.phase = some .refrow :=
      (h.refresh_op hph hown).1 ▸ h.agents.phase_op hphase
    have hone := (engineAdvance_idle_iff hphase (h.engine_dwells hphase)).mp hlast
    have hstrobed : FrameStrobed s := by
      refine ⟨hown, hop, (rowStrobed_iff hop).mpr fun hfirst => ?_⟩
      have hd := h.engine_dwells hphase
      rw [engineRemaining, if_neg hphase, hfirst] at hone
      simp only [firstPhase, dwellsAfter] at hone
      omega
    simp [hph, hstrobed]; omega
  · simp [hbusy, hph]

theorem frameStrobed_congr {s u : State} (heng : u.eng = s.eng) : FrameStrobed u ↔ FrameStrobed s := by
  simp only [FrameStrobed, busyWith, heng]

/-- What an edge does with the row's place in the run of the frame. -/
inductive RowEdge (s t : State) (row : Nat) : Prop where
  /-- a frame begins, with a run that has restarted no row yet -/
  | begins (idle : s.frame.phase = .idle) (when : AcceptsStart s ∨ Wraps s)
      (anew : refreshedThisRun t row = false)
  /-- the row's REFROW strobes -/
  | restarts (before : refreshedThisRun s row = false) (after : refreshedThisRun t row = true)
      (stamp : stampAt t row = s.t)
  /-- neither -/
  | keeps (when : s.frame.phase = .idle → ¬AcceptsStart s ∧ ¬Wraps s)
      (same : refreshedThisRun t row = refreshedThisRun s row)

theorem frame_busy_of_not_refreshed {s : State} {row : Nat} (hn : refreshedThisRun s row = false) :
    s.frame.phase ≠ .idle := fun hidle => by
  rw [refreshedThisRun_iff.mpr (.inl hidle)] at hn; cases hn

section
variable {s g t : State} {row : Nat} (h : OnTime s) (hstep : step s = .next t)
  (hrow : row < s.cfg.dramRows)
include h hstep hrow

/-- The strobe of the run's REFROW stamps the row with the edge's time (R75, R76). -/
theorem TimedStep.stamps (ht : TimedStep s g t) (c : ChipInv s) (hg : FrameStrobed g)
    (hs : ¬FrameStrobed s) (hph : t.frame.phase = .refresh) (hlast : row + 1 = t.frame.row) :
    stampAt t row = s.t := by
  obtain ⟨-, -, hr⟩ := h.wellTimed
  have hset := FrameStrobed.restarts (s := beginEdge s) hr ht.engine hg hs
  have hown := ((frameStrobed_congr ht.eng_eq).mpr hg).1
  have hop : g.eng.row = row := by
    have := ((step_onTime h hstep).refresh_op hph hown).2
    rw [ht.eng_eq] at this; omega
  have hlen : row < (beginEdge s).chip.rowStamp.length := c.rows.symm ▸ hrow
  rw [stampAt, ht.rowStamp_eq, hset, hop, List.getD_eq_getElem?_getD, List.getElem?_set_self hlen]
  rfl

theorem TimedStep.rowEdge (ht : TimedStep s g t) (c : ChipInv s) : RowEdge s t row := by
  have hcfg := step_cfg hstep
  obtain ⟨-, -, hr⟩ := h.wellTimed
  have hfree := fun hd => (busyWith_congr ht.eng_eq).trans (engineEdge_fs_free h.agents ht.engine hd)
  rcases ht.frame with ⟨hidle, hwhen, w, v, hv, hdrain, -, hframe, -⟩ |
    ⟨hbusy, hdone, w, v, hv, hsame, hframe, -⟩ | ⟨hwait, hwhen, hframe, -⟩
  · refine .begins hidle hwhen (Bool.eq_false_iff.mpr fun hrefreshed => ?_)
    have hpassed := (refreshed_of_decided (hv ▸ hrow) (by simp [hdrain]) hframe
      (hfree (.inl hidle))).mp hrefreshed
    simp [refreshFrom, hdrain] at hpassed
  · refine .keeps (fun hidle => absurd hidle hbusy) (Bool.eq_iff_iff.mpr ?_)
    rw [refreshed_of_decided (hv ▸ hrow) (hsame ▸ hbusy) hframe (hfree (.inr hdone)),
      h.refreshed_of_done hdone, refreshFrom, refreshFrom, hsame]
  · have hkept : FrameStrobed s → FrameStrobed t := fun hs =>
      (frameStrobed_congr ht.eng_eq).mpr
        (FrameStrobed.kept (s := beginEdge s) hr ht.engine hs (by rwa [doneOwner_beginEdge]))
    have hbefore := refreshedThisRun_iff (s := s) (row := row)
    have hafter := refreshedThisRun_iff (s := t) (row := row)
    rw [hframe] at hafter
    by_cases hnew : (FrameStrobed t ∧ ¬FrameStrobed s) ∧ s.frame.phase = .refresh ∧
        row + 1 = s.frame.row
    · obtain ⟨⟨hnow, hnot⟩, hph, hlast⟩ := hnew
      refine .restarts (Bool.eq_false_iff.mpr fun hrefreshed => ?_)
        (hafter.mpr (.inr ⟨hph, .inr ⟨hlast, hnow⟩⟩))
        (ht.stamps h hstep hrow c ((frameStrobed_congr ht.eng_eq).mp hnow) hnot
          (hframe ▸ hph) (hframe ▸ hlast))
      rcases hbefore.mp hrefreshed with hidle | ⟨-, hless | ⟨-, hs⟩⟩
      · rw [hidle] at hph; cases hph
      · omega
      · exact hnot hs
    · refine .keeps hwhen (Bool.eq_iff_iff.mpr ?_)
      rw [hbefore, hafter]
      exact or_congr_right (and_congr_right fun hph => or_congr_right (and_congr_right fun hlast =>
        ⟨fun hnow => by_contra fun hnot => hnew ⟨⟨hnow, hnot⟩, hph, hlast⟩, hkept⟩))

end

/-! ## Retention (R75, R154, R156) -/

section
variable {s t : State} {row : Nat}

/-- C_RET of R9: a row lasts a whole frame and the longest run of the next. -/
theorem OnTime.frame_le_retention (h : OnTime s) :
    s.cfg.totalLines * s.cfg.linePeriod + frameRunTime s.cfg ≤ s.cfg.retention := by
  obtain ⟨-, -, -, -, -, hret, -⟩ := h.config
  simp only [Config.RetentionOk] at hret
  simp only [frameRunTime]
  omega

theorem OnTime.frameElapsed_lt (h : OnTime s) :
    frameElapsed s < s.cfg.totalLines * s.cfg.linePeriod := by
  have hlines := Nat.mul_le_mul_right s.cfg.linePeriod h.line.line_lt
  have hcount := h.line.count_lt
  rw [Nat.succ_mul] at hlines
  simp only [frameElapsed]; omega

/-- A row in order is not expired: it was restarted in this frame, or the run has still to come to it. -/
theorem OnTime.not_expired (h : OnTime s) (hrun : s.host.running = true) (hk : RowKept s row) :
    expired s row = false := by
  have hret := h.frame_le_retention
  have helapsed := h.frameElapsed_lt
  have hage : s.t ≤ stampAt s row + s.cfg.retention := by
    rcases hwhich : refreshedThisRun s row with _ | _
    · have hlasts := hk.lasts hwhich
      have hends := h.frame_ends hrun (frame_busy_of_not_refreshed hwhich)
      omega
    · have hrestarted := hk.restarted hwhich
      omega
  simp only [expired, decide_eq_false_iff_not]
  omega

theorem step_stampAt_le (h : OnTime s) (c : ChipInv s) (hrst : (pinsNow s).rst = false)
    (hstep : step s = .next t) : stampAt s row ≤ stampAt t row := by
  obtain ⟨-, -, -, hstamp⟩ := step_chip_row hrst hstep (step_cfg hstep) h.wellTimed.2.2
  rcases hstamp row with hsame | ⟨hnow, -⟩
  · exact hsame.ge
  · exact hnow ▸ c.stamps row

theorem step_t (hrst : (pinsNow s).rst = false) (hstep : step s = .next t) : t.t = s.t + 1 := by
  obtain ⟨-, -, -, htime⟩ := step_host_rows hrst hstep
  exact htime

variable (h : OnTime s) (c : ChipInv s) (hrst : (pinsNow s).rst = false) (hstep : step s = .next t)
  (hrow : row < s.cfg.dramRows) (hrun' : t.host.running = true)
include h c hrst hstep hrow hrun'

/-- While the generator runs a row in order stays in order, and the REFROW of a run puts it in order. -/
theorem OnTime.rowKept_step (hrun : s.host.running = true)
    (hk : refreshedThisRun s row = false ∧ refreshedThisRun t row = true ∨ RowKept s row) :
    RowKept t row := by
  obtain ⟨g, ht⟩ := step_timedStep h hrst hstep
  have hcfg := step_cfg hstep
  have htime := step_t hrst hstep
  have hstamp := step_stampAt_le (row := row) h c hrst hstep
  have helapsed := h.frameElapsed_step ht.engine ht.generator hcfg hrun hrun'
  have hidle : Wraps s → s.frame.phase = .idle := fun hw => h.frame_idle_of_lastLine hrun hw.2
  rcases ht.rowEdge h hstep hrow c with ⟨hquiet, hwhen, hanew⟩ | ⟨hbefore, hafter, hnow⟩ |
    ⟨hwhen, hsame⟩
  · have hw := hwhen.resolve_left (not_acceptsStart_of_running hrun)
    obtain ⟨-, hzero, hwhole⟩ := helapsed.resolve_right fun hn => hn.1 hw
    have hret := h.frame_le_retention
    have hrefreshed := refreshedThisRun_iff (row := row).mpr (.inl hquiet)
    have hold := (hk.resolve_left (by simp [hrefreshed])).restarted hrefreshed
    refine ⟨fun hr => (nomatch hanew.symm.trans hr), fun _ => ?_⟩
    rw [hcfg]; omega
  · have hw : ¬Wraps s := fun hw => frame_busy_of_not_refreshed hbefore (hidle hw)
    obtain ⟨-, hnext⟩ := helapsed.resolve_left fun hn => hw hn.1
    exact ⟨fun _ => by omega, fun hr => (nomatch hafter.symm.trans hr)⟩
  · have hw : ¬Wraps s := fun hw => (hwhen (hidle hw)).2 hw
    obtain ⟨-, hnext⟩ := helapsed.resolve_left fun hn => hw hn.1
    have hold := hk.resolve_left fun hn => by rw [hn.1, hn.2] at hsame; cases hsame
    refine ⟨fun hr => ?_, fun hr => ?_⟩
    · have := hold.restarted (hsame ▸ hr)
      omega
    · have := hold.lasts (hsame ▸ hr)
      rw [hcfg]; omega

/-- START finds a row in order that lasts until the run it begins has restarted it (R302). -/
theorem OnTime.rowKept_of_start (hoff : s.host.running = false)
    (hduty : s.t + 1 + frameRunTime s.cfg ≤ stampAt s row + s.cfg.retention) : RowKept t row := by
  obtain ⟨g, ht⟩ := step_timedStep h hrst hstep
  have hcfg := step_cfg hstep
  have htime := step_t hrst hstep
  have hstamp := step_stampAt_le (row := row) h c hrst hstep
  have ha : AcceptsStart s := (ht.generator.running_row.mp hrun').resolve_right fun hn => by
    rw [hoff] at hn; exact absurd hn.1 (by simp)
  have hquiet := (h.agents.stopped_quiet hoff (by simp [h.agents.pending_idle ha.1])).2
  have hrefreshed := refreshedThisRun_iff (row := row).mpr (.inl hquiet)
  rcases ht.rowEdge h hstep hrow c with ⟨-, -, hanew⟩ | ⟨hbefore, -, -⟩ | ⟨hwhen, -⟩
  · refine ⟨fun hr => (nomatch hanew.symm.trans hr), fun _ => ?_⟩
    rw [hcfg]; omega
  · exact absurd hquiet (frame_busy_of_not_refreshed hbefore)
  · exact absurd ha (hwhen hquiet).1

end

/-- A reset edge stops the generator (R291). -/
theorem step_not_reset_of_running {s t : State} (hstep : step s = .next t)
    (hrun : t.host.running = true) : (pinsNow s).rst = false := by
  rcases step_cases hstep with ⟨-, rfl⟩ | ⟨hrst, -⟩
  · cases hrun
  · exact hrst

/-- Settles O59: being on time is an invariant of the step, from which no violation follows; and a row's
retention is kept by counting the cycles of the frame against C_RET. -/
theorem generatorStaysOnTime : Obligations.GeneratorStaysOnTime := by
  unfold Obligations.GeneratorStaysOnTime
  intro s t h hstep
  refine ⟨step_onTime h hstep, fun hrst hclear => ?_, fun c row hrow => ⟨h.not_expired, ?_, ?_, ?_⟩⟩
  · obtain ⟨g, ht⟩ := step_timedStep h hrst hstep
    refine Bool.eq_false_iff.mpr fun hraised => ?_
    rcases (step_violation hrst hstep).mp hraised with ⟨hwas, -⟩ | hlate
    · rw [hclear] at hwas; cases hwas
    · exact h.not_findsLate ht.engine hlate
  · intro hrun hrun' hk
    exact h.rowKept_step c (step_not_reset_of_running hstep hrun') hstep hrow hrun' hrun (.inr hk)
  · intro hrun hrun' hbefore hafter
    exact h.rowKept_step c (step_not_reset_of_running hstep hrun') hstep hrow hrun' hrun
      (.inl ⟨hbefore, hafter⟩)
  · intro hoff hrun' hduty
    exact h.rowKept_of_start c (step_not_reset_of_running hstep hrun') hstep hrow hrun' hoff hduty

end Sys2Proof.Machine
end

section
/-! PROOFS. The body of an active line (R191 to R195): the transfer's request and wait, the back porch,
and the stream, whose every cycle is given in closed form. -/

namespace Sys2Proof.Machine

/-! ## The line sequencer's edge in each phase after the sync pulse (R192 to R194) -/

section
variable {d : Bool} {s : State}

theorem lineAdvance_of_xfer (h : s.line.phase = .xfer) :
    lineAdvance d s = if d then endTransfer s else s := by
  simp only [lineAdvance, h]

theorem lineAdvance_of_bp (h : s.line.phase = .bp) :
    lineAdvance d s = if s.line.dwell ≤ 1 then beginStream s else lineWait s := by
  simp only [lineAdvance, endLinePhase, h]

theorem lineAdvance_of_stream (h : s.line.phase = .stream) :
    lineAdvance d s = if s.line.dwell ≤ 1 then
      if s.line.scHalf then endPulse s else endHighHalf s else lineWait s := by
  simp only [lineAdvance, endLinePhase, h]

theorem endPulse_of_more (h : s.line.pixCount + 1 < s.cfg.visibleWidth) :
    endPulse s = beginPulse { s with line := { s.line with pixCount := s.line.pixCount + 1 } } :=
  if_neg (Nat.not_le_of_lt h)

theorem endPulse_of_last (h : s.line.pixCount + 1 = s.cfg.visibleWidth) :
    endPulse s = { s with line := { s.line with
      pixCount := s.line.pixCount + 1, se := false, sc := false, phase := .idle } } :=
  if_pos h.ge

end

/-- Settles O38: each phase hands on to the next as its dwell or the transfer ends, and the entry of the
stream clocks the SAM once. -/
theorem activeLineBody : Obligations.ActiveLineBody := by
  intro d s _
  refine ⟨fun hphase hlast hactive => ?_, fun hphase => ?_, fun hphase hporch => ?_,
    fun hphase hnone => ?_, fun hphase hlong => ?_, fun hphase hlast => ?_, rfl⟩
  · rw [lineAdvance_of_hsync hphase, if_pos hlast, endHsync, if_pos hactive]
    rfl
  · exact lineAdvance_of_xfer hphase
  · rw [lineAdvance_of_xfer hphase, if_pos rfl, endTransfer, if_neg (Nat.ne_zero_of_lt hporch)]
  · rw [lineAdvance_of_xfer hphase, if_pos rfl, endTransfer, if_pos hnone]
  · rw [lineAdvance_of_bp hphase, if_neg (Nat.not_le_of_lt hlong)]
    rfl
  · rw [lineAdvance_of_bp hphase, if_pos hlast]

/-! ## The cycles of the stream (R194, R77) -/

/-- The state in cycle `k` of pulse `p` of the stream that shows the SAM of `s`: `SC` is high for the
first `SC_HIGH` cycles, and `ls_dwell` counts what is left of the half pulse (log 25). -/
def streamCycle (s : State) (p k : Nat) : State :=
  { s with
    line := { s.line with
      phase := .stream, pixCount := p, se := true
      sc := decide (k < s.cfg.scHigh), scHalf := !decide (k < s.cfg.scHigh)
      dwell := (if k < s.cfg.scHigh then s.cfg.scHigh else s.cfg.pixelClks) - k }
    chip := { s.chip with sd := samAt s p, samPtr := (p + 1) % s.cfg.dramCols } }

section
variable {s : State} {d : Bool} {p k : Nat}

theorem streamCycle_dwell_high (hk : k < s.cfg.scHigh) :
    (streamCycle s p k).line.dwell = s.cfg.scHigh - k := by
  simp only [streamCycle, if_pos hk]

theorem streamCycle_dwell_low (hk : ¬k < s.cfg.scHigh) :
    (streamCycle s p k).line.dwell = s.cfg.pixelClks - k := by
  simp only [streamCycle, if_neg hk]

theorem streamCycle_scHalf : (streamCycle s p k).line.scHalf = true ↔ ¬k < s.cfg.scHigh := by
  simp [streamCycle]

/-- Within a half pulse an edge takes one cycle off its dwell. -/
theorem lineWait_streamCycle (hk : k < s.cfg.scHigh ↔ k + 1 < s.cfg.scHigh) :
    lineWait (streamCycle s p k) = streamCycle s p (k + 1) := by
  simp only [lineWait, streamCycle, hk, Nat.sub_sub]

theorem endHighHalf_streamCycle (hk : k + 1 = s.cfg.scHigh) :
    endHighHalf (streamCycle s p k) = streamCycle s p (k + 1) := by
  simp [endHighHalf, streamCycle, hk]

/-- An edge that does not end the pulse. -/
theorem lineAdvance_streamCycle (hk : k + 1 < s.cfg.pixelClks) :
    lineAdvance d (streamCycle s p k) = streamCycle s p (k + 1) := by
  rw [lineAdvance_of_stream rfl]
  by_cases hhigh : k < s.cfg.scHigh
  · rw [streamCycle_dwell_high hhigh, if_neg (mt streamCycle_scHalf.mp (not_not_intro hhigh))]
    split
    · exact endHighHalf_streamCycle (by omega)
    · exact lineWait_streamCycle (by omega)
  · rw [streamCycle_dwell_low hhigh, if_neg (by omega)]
    exact lineWait_streamCycle (by omega)

/-- The last edge of a pulse, which has a low half to end. -/
theorem lineAdvance_streamCycle_last (hlow : 1 ≤ s.cfg.scLow) (hk : k + 1 = s.cfg.pixelClks) :
    lineAdvance d (streamCycle s p k) = endPulse (streamCycle s p k) := by
  have hhalf : ¬k < s.cfg.scHigh := by simp only [Config.pixelClks] at hk; omega
  rw [lineAdvance_of_stream rfl, streamCycle_dwell_low hhalf, if_pos (by omega),
    if_pos (streamCycle_scHalf.mpr hhalf)]

/-- Every pulse but the last hands on to the next, which shows the next SAM entry. -/
theorem endPulse_streamCycle (hhigh : 1 ≤ s.cfg.scHigh) (hp : p + 1 < s.cfg.visibleWidth)
    (hw : s.cfg.visibleWidth ≤ s.cfg.dramCols) :
    endPulse (streamCycle s p k) = streamCycle s (p + 1) 0 := by
  have hptr : (p + 1) % s.cfg.dramCols = p + 1 := Nat.mod_eq_of_lt (by omega)
  have hpos : 0 < s.cfg.scHigh := hhigh
  rw [endPulse_of_more (s := streamCycle s p k) hp]
  simp [beginPulse, serialClock, streamCycle, samAt, hptr, hpos]

theorem beginStream_eq_streamCycle (hhigh : 1 ≤ s.cfg.scHigh) (hptr : s.chip.samPtr = 0) :
    beginStream s = streamCycle s 0 0 := by
  have hpos : 0 < s.cfg.scHigh := hhigh
  simp [beginStream, beginPulse, serialClock, streamCycle, samAt, hptr, hpos]

end

/-! ## The run of the stream (R194, R195) -/

section
variable {s : State} {p k : Nat}

theorem lineEdges_streamCycle (hk : k < s.cfg.pixelClks) :
    lineEdges k (streamCycle s p 0) = streamCycle s p k := by
  induction k with
  | zero => rfl
  | succ k ih => rw [lineEdges_succ, ih (by omega), lineAdvance_streamCycle hk]

/-- A pulse lasts `PIXEL_CLKS` cycles. -/
theorem lineEdges_pulse (hlow : 1 ≤ s.cfg.scLow) :
    lineEdges s.cfg.pixelClks (streamCycle s p 0) =
      endPulse (streamCycle s p (s.cfg.pixelClks - 1)) := by
  have hclks : s.cfg.pixelClks - 1 + 1 = s.cfg.pixelClks :=
    Nat.sub_add_cancel (Nat.le_add_left_of_le hlow)
  calc lineEdges s.cfg.pixelClks (streamCycle s p 0)
      = lineAdvance false (lineEdges (s.cfg.pixelClks - 1) (streamCycle s p 0)) := by
        rw [← lineEdges_succ, hclks]
    _ = lineAdvance false (streamCycle s p (s.cfg.pixelClks - 1)) := by
        rw [lineEdges_streamCycle (by omega)]
    _ = endPulse (streamCycle s p (s.cfg.pixelClks - 1)) := lineAdvance_streamCycle_last hlow hclks

variable (hhigh : 1 ≤ s.cfg.scHigh) (hlow : 1 ≤ s.cfg.scLow)
  (hw : s.cfg.visibleWidth ≤ s.cfg.dramCols) (hptr : s.chip.samPtr = 0)
include hhigh hlow hw hptr

/-- Pulse `p` begins `p` pulses after the entry of the stream. -/
theorem lineEdges_beginStream_pulse (hp : p < s.cfg.visibleWidth) :
    lineEdges (p * s.cfg.pixelClks) (beginStream s) = streamCycle s p 0 := by
  induction p with
  | zero => rw [Nat.zero_mul]; exact beginStream_eq_streamCycle hhigh hptr
  | succ p ih =>
    rw [Nat.succ_mul, lineEdges_add, ih (Nat.lt_of_succ_lt hp), lineEdges_pulse hlow,
      endPulse_streamCycle hhigh hp hw]

theorem lineEdges_beginStream (hp : p < s.cfg.visibleWidth) (hk : k < s.cfg.pixelClks) :
    lineEdges (p * s.cfg.pixelClks + k) (beginStream s) = streamCycle s p k := by
  rw [lineEdges_add, lineEdges_beginStream_pulse hhigh hlow hw hptr hp, lineEdges_streamCycle hk]

/-- The stream ends as its last pulse does. -/
theorem lineEdges_beginStream_last (hp : p + 1 = s.cfg.visibleWidth) :
    lineEdges (s.cfg.visibleWidth * s.cfg.pixelClks) (beginStream s) =
      endPulse (streamCycle s p (s.cfg.pixelClks - 1)) := by
  rw [← hp, Nat.succ_mul, lineEdges_add,
    lineEdges_beginStream_pulse hhigh hlow hw hptr (hp ▸ Nat.lt_succ_self p), lineEdges_pulse hlow]

end

/-- Settles O39: by induction on the cycles of a pulse and then on the pulses every cycle of the stream is
`streamCycle`, from which the video is read off; the end of the last pulse blanks it. -/
theorem streamShowsRow : Obligations.StreamShowsRow := by
  intro s _ hhigh hlow hone hw hptr
  refine ⟨fun p k u hp hk hu => ?_, fun u hu => ?_⟩
  · rw [lineEdges_beginStream hhigh hlow hw hptr hp hk] at hu
    subst hu
    exact ⟨rfl, rfl, rfl, decide_eq_true_iff, rfl, rfl, rfl, rfl⟩
  · obtain ⟨p, hlast⟩ : ∃ p, p + 1 = s.cfg.visibleWidth := ⟨_, Nat.sub_add_cancel hone⟩
    rw [lineEdges_beginStream_last hhigh hlow hw hptr hlast, endPulse_of_last hlast] at hu
    subst hu
    exact ⟨rfl, rfl, rfl, rfl, hlast, congrArg (· % s.cfg.dramCols) hlast, rfl, rfl⟩

end Sys2Proof.Machine
end

section
/-! PROOFS. The producer of the ring: the three outcomes of ENQUEUE (R206), what a store does to the live
entries (R209), and the overflow, which drops the newest and keeps the oldest (R216). -/

namespace Sys2Proof.Machine

/-! ## The outcomes of ENQUEUE's body (R206) -/

/-- The store and the publication of an entry. -/
def pushEntry (e : PixelUpdate) (s : State) : State :=
  { s with host := { s.host with
      ring := s.host.ring.set s.host.writeIndex e
      writeIndex := nextIndex s.cfg s.host.writeIndex } }

section
variable {x y : Nat} {color : Nibble} {s : State}

theorem enqueuePixel_of_outside (hb : ¬(x < s.cfg.width ∧ y < s.cfg.height)) :
    enqueuePixel x y color s = (s, .fail) := by
  simp [enqueuePixel, inBounds, hb]

theorem enqueuePixel_of_full (hx : x < s.cfg.width) (hy : y < s.cfg.height)
    (hfull : nextIndex s.cfg s.host.writeIndex = s.frame.readIndex) :
    enqueuePixel x y color s = (raiseOverflow s, .fail) := by
  simp [enqueuePixel, inBounds, hx, hy, hfull]

theorem enqueuePixel_of_room (hx : x < s.cfg.width) (hy : y < s.cfg.height)
    (hroom : nextIndex s.cfg s.host.writeIndex ≠ s.frame.readIndex) :
    enqueuePixel x y color s =
      (pushEntry ⟨BitVec.ofNat 12 x, BitVec.ofNat 12 y, color⟩ s, .ok) := by
  simp [enqueuePixel, inBounds, hx, hy, hroom, pushEntry]

end

/-- A lone ENQUEUE answers with the status of its body. -/
theorem exec_enqueue (x y : Coord) (color : Nibble) (s : State) :
    exec (.enqueue x y color) s =
      .next (respond (enqueuePixel x.toNat y.toNat color s).2 0
        (enqueuePixel x.toNat y.toNat color s).1) := rfl

/-- Settles O10: the three outcomes of the body, answered. -/
theorem enqueueEffect : Obligations.EnqueueEffect := by
  rintro s x y color next -
  refine ⟨rfl, ?_⟩
  rintro rfl
  refine ⟨fun hb => ?_, fun hx hy hfull => ?_, fun hx hy hroom => ?_⟩
  · rw [exec_enqueue, enqueuePixel_of_outside hb, respond]
  · rw [exec_enqueue, enqueuePixel_of_full hx hy hfull]
    rfl
  · rw [exec_enqueue, enqueuePixel_of_room hx hy hroom, BitVec.ofNat_toNat, BitVec.ofNat_toNat,
      BitVec.setWidth_eq, BitVec.setWidth_eq]
    rfl

/-! ## The live entries after a store (R209, R81) -/

section
variable {s : State} {e : PixelUpdate} {k : Nat}

theorem liveEntry_pushEntry :
    liveEntry (pushEntry e s) k =
      (s.host.ring.set s.host.writeIndex e).getD ((s.frame.readIndex + k) % s.cfg.ringSlots)
        PixelUpdate.zero := rfl

/-- A store leaves the entries before it where they are. -/
theorem liveEntry_pushEntry_of_lt (h : RingInv s)
    (hk : k < occupancy s.cfg s.host.writeIndex s.frame.readIndex) :
    liveEntry (pushEntry e s) k = liveEntry s k := by
  rw [liveEntry_pushEntry, List.getD_eq_getElem?_getD,
    List.getElem?_set_ne (liveSlot_ne_write h.write_lt h.read_lt hk).symm,
    ← List.getD_eq_getElem?_getD]
  rfl

/-- The stored entry is the newest. -/
theorem liveEntry_pushEntry_last (h : RingInv s) :
    liveEntry (pushEntry e s) (occupancy s.cfg s.host.writeIndex s.frame.readIndex) = e := by
  rw [liveEntry_pushEntry, liveSlot_last h.write_lt h.read_lt, List.getD_eq_getElem?_getD,
    List.getElem?_set_self (h.slots ▸ h.write_lt), Option.getD_some]

end

/-! ## Enqueueing a list (R216) -/

/-- The record ENQUEUE stores for a pixel (R206). -/
def pixelEntry (p : Nat × Nat × Nibble) : PixelUpdate :=
  ⟨BitVec.ofNat 12 p.1, BitVec.ofNat 12 p.2.1, p.2.2⟩

/-- What the ring holds after the pixels `ps` were enqueued into the empty ring of `s`: the oldest
`capacity` of them. -/
structure HoldsOldest (ps : List (Nat × Nat × Nibble)) (s u : State) : Prop where
  cfg : u.cfg = s.cfg
  ring : RingInv u
  count : occupancy u.cfg u.host.writeIndex u.frame.readIndex = min ps.length s.cfg.capacity
  entry : ∀ k p, k < s.cfg.capacity → ps[k]? = some p → liveEntry u k = pixelEntry p
  overflow : u.health.overflow = true ↔ s.health.overflow = true ∨ s.cfg.capacity < ps.length

section
variable {ps : List (Nat × Nat × Nibble)} {p : Nat × Nat × Nibble} {s u : State}

theorem holdsOldest_nil (h : RingInv s) (hempty : s.host.writeIndex = s.frame.readIndex) :
    HoldsOldest [] s s where
  cfg := rfl
  ring := h
  count := by simpa using (occupancy_eq_zero h.write_lt h.read_lt).mpr hempty
  entry := by simp
  overflow := by simp

/-- A pixel offered to a full ring is dropped, and the flag says so. -/
theorem HoldsOldest.append_of_full (h : HoldsOldest ps s u) (hfull : s.cfg.capacity ≤ ps.length)
    (hring : RingInv (raiseOverflow u)) : HoldsOldest (ps ++ [p]) s (raiseOverflow u) where
  cfg := h.cfg
  ring := hring
  count := by
    refine h.count.trans ?_
    rw [List.length_append, List.length_singleton]
    omega
  entry k q hk hq := by
    rw [List.getElem?_append_left (by omega)] at hq
    exact h.entry k q hk hq
  overflow := by
    have hmore : s.cfg.capacity < (ps ++ [p]).length := by
      rw [List.length_append, List.length_singleton]; omega
    exact iff_of_true rfl (.inr hmore)

/-- A pixel offered to a ring with room becomes its newest entry. -/
theorem HoldsOldest.append_of_room (h : HoldsOldest ps s u) (hring2 : s.cfg.RingOk)
    (hroom : nextIndex u.cfg u.host.writeIndex ≠ u.frame.readIndex)
    (hlen : ps.length < s.cfg.capacity) (hring : RingInv (pushEntry (pixelEntry p) u)) :
    HoldsOldest (ps ++ [p]) s (pushEntry (pixelEntry p) u) := by
  have hcount : occupancy u.cfg u.host.writeIndex u.frame.readIndex = ps.length := by
    rw [h.count]; omega
  refine ⟨h.cfg, hring, ?_, fun k q hk hq => ?_, ?_⟩
  · refine (occupancy_push (h.cfg ▸ hring2) h.ring.write_lt h.ring.read_lt hroom).trans ?_
    rw [hcount, List.length_append, List.length_singleton]
    omega
  · rcases Nat.lt_trichotomy k ps.length with hlt | rfl | hgt
    · rw [List.getElem?_append_left hlt] at hq
      rw [liveEntry_pushEntry_of_lt h.ring (hcount ▸ hlt)]
      exact h.entry k q hk hq
    · obtain rfl : p = q := by simpa using hq
      rw [← hcount]
      exact liveEntry_pushEntry_last h.ring
    · obtain ⟨hin, -⟩ := List.getElem?_eq_some_iff.mp hq
      rw [List.length_append, List.length_singleton] at hin
      omega
  · have hfew : ¬s.cfg.capacity < (ps ++ [p]).length := by
      rw [List.length_append, List.length_singleton]; omega
    exact h.overflow.trans (or_congr_right (iff_of_false hlen.not_gt hfew))

/-- ENQUEUE's body on one more pixel in bounds: the ring is full or it has room. -/
theorem HoldsOldest.append_pixel (h : HoldsOldest ps s u) (hg : s.cfg.GeometryOk)
    (hring2 : s.cfg.RingOk) (hx : p.1 < s.cfg.width) (hy : p.2.1 < s.cfg.height) :
    HoldsOldest (ps ++ [p]) s (enqueuePixel p.1 p.2.1 p.2.2 u).1 := by
  have hring := enqueuePixel_ring p.1 p.2.1 p.2.2 (h.cfg ▸ hg) (h.cfg ▸ hring2) h.ring
  have hfull := nextIndex_eq_read (h.cfg ▸ hring2) h.ring.write_lt h.ring.read_lt
  rw [h.count, h.cfg] at hfull
  rw [← h.cfg] at hx hy
  by_cases hf : nextIndex u.cfg u.host.writeIndex = u.frame.readIndex
  · rw [enqueuePixel_of_full hx hy hf] at hring ⊢
    exact h.append_of_full (by rw [h.cfg] at hf; have := hfull.mp hf; omega) hring
  · rw [enqueuePixel_of_room hx hy hf] at hring ⊢
    refine h.append_of_room hring2 hf ?_ hring
    rw [h.cfg] at hf
    have := mt hfull.mpr hf
    omega

theorem holdsOldest_enqueueAll (hg : s.cfg.GeometryOk) (hring2 : s.cfg.RingOk) (h : RingInv s)
    (hempty : s.host.writeIndex = s.frame.readIndex)
    (hps : ∀ p, p ∈ ps → p.1 < s.cfg.width ∧ p.2.1 < s.cfg.height) :
    HoldsOldest ps s (enqueueAll ps s) := by
  induction ps using List.reverseRecOn with
  | nil => exact holdsOldest_nil h hempty
  | append_singleton ps p ih =>
    obtain ⟨hx, hy⟩ := hps p (by simp)
    rw [enqueueAll_append]
    exact (ih fun q hq => hps q (List.mem_append_left _ hq)).append_pixel hg hring2 hx hy

end

/-- Settles O43: by induction on the pixels, the last one last: the ring has room for it exactly while
fewer than `capacity` went before. -/
theorem overflowKeepsOldest : Obligations.OverflowKeepsOldest := by
  rintro s u ps ⟨hg, -⟩ hring2 h hempty hps rfl
  obtain ⟨hcfg, -, hcount, hentry, hoverflow⟩ := holdsOldest_enqueueAll hg hring2 h hempty hps
  refine ⟨hcfg ▸ hcount, fun k p hk hp => ?_, hoverflow, enqueueAll_only ps s⟩
  obtain ⟨-, -, -, hwidth, hheight, -⟩ := hg
  obtain ⟨hx, hy⟩ := hps p (List.mem_of_getElem? hp)
  rw [hentry k p hk hp]
  exact ⟨rfl, toNat_ofNat_of_lt (by omega), toNat_ofNat_of_lt (by omega)⟩

end Sys2Proof.Machine
end

section
/-! PROOFS. The consumer of the ring: a decision of DRAIN (R212 to R214), and the drain as a run of such
decisions, which pops the live entries oldest first (R209). -/

namespace Sys2Proof.Machine

/-! ## One decision (R214) -/

section
variable {w : Nat} {s : State}

theorem drainDecision_of_pop (hne : s.frame.readIndex ≠ w)
    (hbudget : s.frame.drained < s.cfg.drainBudget) :
    drainDecision w s = drainWrite (drainPop s) := if_pos ⟨hne, hbudget⟩

theorem drainDecision_of_end (h : ¬(s.frame.readIndex ≠ w ∧ s.frame.drained < s.cfg.drainBudget)) :
    drainDecision w s = beginRefresh s := if_neg h

theorem drainWrite_fs (s : State) :
    (drainWrite s).req.fs = some (writeRequest
      (mapPixel s.cfg s.frame.entry.x.toNat s.frame.entry.y.toNat).1
      (mapPixel s.cfg s.frame.entry.x.toNat s.frame.entry.y.toNat).2 s.frame.entry.color) := rfl

/-- With rows to refresh, the first decision of the refresh asks for row 0. -/
theorem beginRefresh_of_rows (hrows : 1 ≤ s.cfg.dramRows) :
    beginRefresh s = frameRequest (refrowRequest 0)
      { s with frame := { s.frame with phase := .refresh, row := 1 } } := if_pos hrows

end

/-- Settles O40 (`drainDecision` is the model's decision itself): its two branches. -/
theorem drainDecision_pop_or_refresh : Obligations.DrainDecision := by
  rintro w s -
  refine ⟨?_, drainDecision_of_end⟩
  rintro hne hbudget e rfl
  rw [drainDecision_of_pop hne hbudget]
  rfl

/-! ## The drain as a run (R209, R214) -/

/-- The first `k` live entries of `s` are popped and the drain goes on; the host context and the chip are
as they were. -/
structure Drained (k : Nat) (s u : State) : Prop where
  phase : u.frame.phase = .drain
  drained : u.frame.drained = k
  readIndex : u.frame.readIndex = (s.frame.readIndex + k) % s.cfg.ringSlots
  cfg : u.cfg = s.cfg
  host : u.host = s.host
  chip : u.chip = s.chip

section
variable {s u : State} {k n : Nat}

theorem drained_zero (h : RingInv s) (hphase : s.frame.phase = .drain) (hnone : s.frame.drained = 0) :
    Drained 0 s s :=
  ⟨hphase, hnone, (Nat.mod_eq_of_lt h.read_lt).symm, rfl, rfl, rfl⟩

/-- The entries that are left are the next in line. -/
theorem Drained.liveEntry_eq (h : Drained k s u) (j : Nat) : liveEntry u j = liveEntry s (k + j) := by
  simp only [liveEntry, ringAt, h.cfg, h.host, h.readIndex, Nat.mod_add_mod, Nat.add_assoc]

/-- With a live entry and a pop of the budget left, a decision pops the oldest entry. -/
theorem Drained.decision (h : Drained k s u) (hr : RingInv s)
    (hlive : k < occupancy s.cfg s.host.writeIndex s.frame.readIndex)
    (hbudget : k < s.cfg.drainBudget) :
    drainDecision u.host.writeIndex u = drainWrite (drainPop u) := by
  refine drainDecision_of_pop ?_ (by rw [h.drained, h.cfg]; exact hbudget)
  rw [h.readIndex, h.host]
  exact liveSlot_ne_write hr.write_lt hr.read_lt hlive

theorem Drained.pop (h : Drained k s u) (hr : RingInv s) :
    Drained (k + 1) s (drainWrite (drainPop u)) where
  phase := h.phase
  drained := congrArg (· + 1) h.drained
  readIndex := by
    have hslot : (s.frame.readIndex + k) % s.cfg.ringSlots < s.cfg.ringSlots :=
      Nat.mod_lt _ (Nat.zero_lt_of_lt hr.read_lt)
    calc nextIndex u.cfg u.frame.readIndex
        = nextIndex s.cfg ((s.frame.readIndex + k) % s.cfg.ringSlots) := by rw [h.cfg, h.readIndex]
      _ = (s.frame.readIndex + (k + 1)) % s.cfg.ringSlots := by
        rw [nextIndex_eq_mod hslot, Nat.mod_add_mod, Nat.add_assoc]
  cfg := h.cfg
  host := h.host
  chip := h.chip

/-- The entry a pop copies out is the next live entry of `s`. -/
theorem Drained.popped_eq (h : Drained k s u) :
    (drainPop u).frame.entry = liveEntry s k := by
  simp only [drainPop_entry, liveEntry, ringAt, h.host, h.readIndex]

/-- The ring is empty or the budget spent: the drain gives way to the refresh. -/
theorem Drained.decision_of_end (h : Drained n s u) (hr : RingInv s)
    (hn : n = occupancy s.cfg s.host.writeIndex s.frame.readIndex ∨ n = s.cfg.drainBudget) :
    drainDecision u.host.writeIndex u = beginRefresh u := by
  refine drainDecision_of_end ?_
  rw [h.readIndex, h.drained, h.host, h.cfg]
  rintro ⟨hne, hbudget⟩
  rcases hn with rfl | rfl
  · exact hne (liveSlot_last hr.write_lt hr.read_lt)
  · exact Nat.lt_irrefl _ hbudget

theorem drained_drainSteps (hr : RingInv s) (hphase : s.frame.phase = .drain)
    (hnone : s.frame.drained = 0)
    (hlive : k ≤ occupancy s.cfg s.host.writeIndex s.frame.readIndex)
    (hbudget : k ≤ s.cfg.drainBudget) : Drained k s (drainSteps k s) := by
  induction k with
  | zero => exact drained_zero hr hphase hnone
  | succ k ih =>
    have h := ih (Nat.le_of_succ_le hlive) (Nat.le_of_succ_le hbudget)
    rw [drainSteps_succ, h.decision hr hlive hbudget]
    exact h.pop hr

end

/-- Settles O41: by induction on the decisions, the next live entry being the one the run has come to; the
decision after the last pop finds the ring empty or the budget spent. -/
theorem drainOrder : Obligations.DrainOrder := by
  rintro s - - hr hrows hphase hnone n hn
  refine ⟨fun k u hk hu => ?_, fun u hu => ?_⟩
  · have h := drained_drainSteps hr hphase hnone (k := k) (by omega) (by omega)
    rw [drainSteps_succ, h.decision hr (by omega) (by omega)] at hu
    have hpop := h.pop hr
    subst hu
    refine ⟨hpop.phase, hpop.drained, h.popped_eq, hpop.readIndex, ?_⟩
    rw [drainWrite_fs, h.popped_eq, drainPop_cfg, h.cfg]
  · have h := drained_drainSteps hr hphase hnone (k := n) (by omega) (by omega)
    rw [drainSteps_succ, h.decision_of_end hr (by omega),
      beginRefresh_of_rows (by rw [h.cfg]; exact hrows)] at hu
    subst hu
    exact ⟨rfl, rfl, h.readIndex, h.host, h.chip, fun j _ => h.liveEntry_eq j⟩

end Sys2Proof.Machine
end

section
/-! PROOFS. The two loops that go over their pixels or cells in row-major order: DRAWRECT, one body of
ENQUEUE after the other (R218), and CLEARFB, one WRITE after the other (R220, R221). -/

namespace Sys2Proof.Machine

/-! ## Row-major order -/

section
variable {k cols rows : Nat}

theorem rowMajor_bounds (hk : k < cols * rows) : k % cols < cols ∧ k / cols < rows :=
  ⟨Nat.mod_lt _ (Nat.pos_of_mul_pos_right (Nat.zero_lt_of_lt hk)), Nat.div_lt_of_lt_mul hk⟩

/-- The last step is in the last column of the last row. -/
theorem rowMajor_last (hk : k + 1 = cols * rows) : k % cols + 1 = cols ∧ k / cols + 1 = rows := by
  obtain ⟨hcol, hrow⟩ := rowMajor_bounds (k := k) (cols := cols) (rows := rows) (by omega)
  have hcols : 0 < cols := Nat.zero_lt_of_lt hcol
  obtain ⟨hinner, houter⟩ := rowMajor_next (k := k) hcols
  have hmod : (k + 1) % cols = 0 := by rw [hk, Nat.mul_mod_right]
  have hdiv : (k + 1) / cols = rows := by rw [hk, Nat.mul_div_cancel_left rows hcols]
  by_cases hnext : k % cols + 1 < cols
  · rw [(hinner hnext).1] at hmod
    omega
  · rw [(houter hnext).2] at hdiv
    omega

end

/-! ## The loop counters (R35, log 12) -/

/-- The counters stand at step `k`: `hs_i` at its column and `hs_j` at its row. -/
structure CountedTo (cols k : Nat) (s : State) : Prop where
  column : s.host.i = BitVec.ofNat 12 (k % cols)
  row : s.host.j = BitVec.ofNat 12 (k / cols)

/-- The counters are set to step `k`. -/
def countTo (cols k : Nat) (s : State) : State :=
  setCounters (BitVec.ofNat 12 (k % cols)) (BitVec.ofNat 12 (k / cols)) s

theorem countTo_zero (cols : Nat) (s : State) : countTo cols 0 s = setCounters 0 0 s := by
  rw [countTo, Nat.zero_mod, Nat.zero_div]
  rfl

theorem countedTo_countTo (cols k : Nat) (s : State) : CountedTo cols k (countTo cols k s) :=
  ⟨rfl, rfl⟩

/-- The counters move on, columns inner and rows outer, and `next` follows; after the last step the
command answers. -/
def moveOn (cols rows : Nat) (next : State → State) (s : State) : State :=
  if s.host.i.toNat + 1 < cols then next (setCounters (s.host.i + 1) s.host.j s)
  else if s.host.j.toNat + 1 < rows then next (setCounters 0 (s.host.j + 1) s)
  else respond .ok 0 s

theorem rectNext_eq_moveOn (s : State) :
    rectNext s = moveOn (wField s.host.arg).toNat (hField s.host.arg).toNat id s := rfl

theorem clearNext_eq_moveOn (s : State) :
    clearNext s = moveOn s.cfg.dramCols s.cfg.dramRows clearRequest s := rfl

section
variable {cols rows k : Nat} {next : State → State} {s : State}

theorem CountedTo.column_toNat (h : CountedTo cols k s) (hcols : cols ≤ 4096)
    (hk : k < cols * rows) : s.host.i.toNat = k % cols := by
  rw [h.column, toNat_ofNat_of_lt (Nat.lt_of_lt_of_le (rowMajor_bounds hk).1 hcols)]

theorem CountedTo.row_toNat (h : CountedTo cols k s) (hrows : rows ≤ 4096)
    (hk : k < cols * rows) : s.host.j.toNat = k / cols := by
  rw [h.row, toNat_ofNat_of_lt (Nat.lt_of_lt_of_le (rowMajor_bounds hk).2 hrows)]

/-- From a step that is not the last the counters move on to the next one. -/
theorem CountedTo.moveOn_next (h : CountedTo cols k s) (hcols : cols ≤ 4096) (hrows : rows ≤ 4096)
    (hk : k + 1 < cols * rows) : moveOn cols rows next s = next (countTo cols (k + 1) s) := by
  obtain ⟨hcolumn, hrow⟩ := rowMajor_bounds hk
  obtain ⟨hinner, houter⟩ := rowMajor_next (k := k) (Nat.zero_lt_of_lt hcolumn)
  rw [moveOn, h.column_toNat hcols (Nat.lt_of_succ_lt hk),
    h.row_toNat hrows (Nat.lt_of_succ_lt hk), h.column, h.row, countTo]
  split
  next hcol =>
    obtain ⟨hmod, hdiv⟩ := hinner hcol
    rw [hmod, hdiv, BitVec.ofNat_add]
    rfl
  next hcol =>
    obtain ⟨hmod, hdiv⟩ := houter hcol
    rw [if_pos (hdiv ▸ hrow), hmod, hdiv, BitVec.ofNat_add]
    rfl

/-- The last step answers. -/
theorem CountedTo.moveOn_last (h : CountedTo cols k s) (hcols : cols ≤ 4096) (hrows : rows ≤ 4096)
    (hk : k + 1 = cols * rows) : moveOn cols rows next s = respond .ok 0 s := by
  have hlt : k < cols * rows := by omega
  obtain ⟨hcol, hrow⟩ := rowMajor_last hk
  rw [moveOn, h.column_toNat hcols hlt, h.row_toNat hrows hlt, if_neg hcol.not_lt,
    if_neg hrow.not_lt]

end

/-- In a multi-cycle phase an edge takes no word and is the phase's own (R94, R231). -/
theorem hostEdge_of_busy {p : PinIn} {s : State} (hp : s.host.pending = false)
    (hheld : s.host.held = none) (hbusy : s.host.phase ≠ .idle ∧ s.host.phase ≠ .word2) :
    hostEdge p s = .next (hostPhaseStep s) := by
  rw [hostEdge_of_not_pending hp,
    latchPins_of_none (incomingWord_of_not_ready hheld (cmdReady_eq_false_iff.mpr hbusy))]

/-! ## DRAWRECT (R218) -/

/-- The sums of a rectangle have one bit more than a coordinate, so they do not wrap. -/
theorem rectSum_eq (a : Coord) (i : BitVec 12) : rectSum a i = a.toNat + i.toNat := by
  have ha := a.isLt
  have hi := i.isLt
  rw [rectSum, BitVec.toNat_add, BitVec.toNat_setWidth, BitVec.toNat_setWidth]
  omega

@[simp] theorem enqueueAll_phase (ps : List (Nat × Nat × Nibble)) (s : State) :
    (enqueueAll ps s).host.phase = s.host.phase := by rw [enqueueAll_only]
@[simp] theorem enqueueAll_cmd (ps : List (Nat × Nat × Nibble)) (s : State) :
    (enqueueAll ps s).host.cmd = s.host.cmd := by rw [enqueueAll_only]
@[simp] theorem enqueueAll_arg (ps : List (Nat × Nat × Nibble)) (s : State) :
    (enqueueAll ps s).host.arg = s.host.arg := by rw [enqueueAll_only]

theorem ofNat_eq_sub_one {n : Nat} {v : BitVec 12} (h : n + 1 = v.toNat) :
    BitVec.ofNat 12 n = v - 1 := by bv_omega

section
variable {x y w h : Coord} {color : Nibble} {k : Nat} {s t : State}

theorem exec_drawrect_of_empty (hempty : w = 0 ∨ h = 0) :
    exec (.drawrect x y w h color) s = .next (respond .ok 0 s) := if_pos hempty

theorem exec_drawrect_of_pixels (hw : w ≠ 0) (hh : h ≠ 0) :
    exec (.drawrect x y w h color) s =
      .next (enterHostPhase .rect (.drawrect x y w h color) s) :=
  if_neg (not_or_intro hw hh)

/-- DRAWRECT, begun in `t`, has enqueued its first `k` pixels. -/
def drawnTo (x y w h : Coord) (color : Nibble) (k : Nat) (t : State) : State :=
  enqueueAll ((rectPixels x.toNat y.toNat w.toNat h.toNat color).take k) t

theorem drawnTo_succ (hk : k < w.toNat * h.toNat) :
    drawnTo x y w h color (k + 1) t =
      (enqueuePixel (x.toNat + k % w.toNat) (y.toNat + k / w.toNat) color
        (drawnTo x y w h color k t)).1 := by
  rw [drawnTo, List.take_add_one, rectPixels_get hk, enqueueAll_append]
  rfl

theorem drawnTo_all : drawnTo x y w h color (w.toNat * h.toNat) t =
    enqueueAll (rectPixels x.toNat y.toNat w.toNat h.toNat color) t := by
  rw [drawnTo, List.take_of_length_le (rectPixels_length ..).le]

section
variable (hcmd : t.host.cmd = mkW1 0x2 color y x) (harg : t.host.arg = mkW2R h w)
include hcmd harg

/-- A step enqueues the pixel the counters stand at, then moves them on. -/
theorem rectStep_drawnTo (hk : k < w.toNat * h.toNat) :
    rectStep (countTo w.toNat k (drawnTo x y w h color k t)) =
      moveOn w.toNat h.toNat id (countTo w.toNat k (drawnTo x y w h color (k + 1) t)) := by
  have hcount := countedTo_countTo w.toNat k (drawnTo x y w h color k t)
  have hi := hcount.column_toNat w.isLt.le hk
  have hj := hcount.row_toNat h.isLt.le hk
  have hword : (countTo w.toNat k (drawnTo x y w h color k t)).host.cmd = mkW1 0x2 color y x :=
    (enqueueAll_cmd _ t).trans hcmd
  have hsize : (countTo w.toNat k (drawnTo x y w h color (k + 1) t)).host.arg = mkW2R h w :=
    (enqueueAll_arg _ t).trans harg
  rw [rectStep, rectSum_eq, rectSum_eq, hi, hj, hword, xField_mkW1, yField_mkW1, cField_mkW1, countTo,
    enqueuePixel_setCounters, ← drawnTo_succ hk, ← countTo, rectNext_eq_moveOn, hsize, wField_mkW2R,
    hField_mkW2R]

variable (hstart : setCounters 0 0 t = t)
include hstart

/-- After `k` steps the first `k` pixels are enqueued and the counters stand at the next. -/
theorem rectSteps_eq (hk : k < w.toNat * h.toNat) :
    rectSteps k t = countTo w.toNat k (drawnTo x y w h color k t) := by
  induction k with
  | zero => exact hstart.symm.trans (countTo_zero ..).symm
  | succ k ih =>
    rw [rectSteps_succ, ih (Nat.lt_of_succ_lt hk), rectStep_drawnTo hcmd harg (Nat.lt_of_succ_lt hk),
      (countedTo_countTo ..).moveOn_next w.isLt.le h.isLt.le hk]
    rfl

/-- The step on the last pixel answers. -/
theorem rectSteps_all (hw : w ≠ 0) (hh : h ≠ 0) :
    rectSteps (w.toNat * h.toNat) t = respond .ok 0 (setCounters (w - 1) (h - 1)
      (enqueueAll (rectPixels x.toNat y.toNat w.toNat h.toNat color) t)) := by
  have hpos : 0 < w.toNat * h.toNat := Nat.mul_pos (by bv_omega) (by bv_omega)
  obtain ⟨k, hlast⟩ : ∃ k, k + 1 = w.toNat * h.toNat := ⟨_, Nat.sub_add_cancel hpos⟩
  have hk : k < w.toNat * h.toNat := by omega
  obtain ⟨hcol, hrow⟩ := rowMajor_last hlast
  calc rectSteps (w.toNat * h.toNat) t
      = rectStep (rectSteps k t) := by rw [← hlast, rectSteps_succ]
    _ = moveOn w.toNat h.toNat id (countTo w.toNat k (drawnTo x y w h color (k + 1) t)) := by
        rw [rectSteps_eq hcmd harg hstart hk, rectStep_drawnTo hcmd harg hk]
    _ = respond .ok 0 (countTo w.toNat k (drawnTo x y w h color (k + 1) t)) :=
        (countedTo_countTo ..).moveOn_last w.isLt.le h.isLt.le hlast
    _ = _ := by
        rw [hlast, drawnTo_all, countTo, ofNat_eq_sub_one hcol, ofNat_eq_sub_one hrow]

end

end

/-- Settles O11: by induction on the steps, the pixels before the one the counters stand at are enqueued in
order; the step on the last one answers. -/
theorem drawrectEffect : Obligations.DrawrectEffect := by
  rintro s x y w h color -
  refine ⟨rfl, exec_drawrect_of_empty, ?_, fun p hp hheld hphase => ?_⟩
  · rintro hw hh t rfl
    refine ⟨exec_drawrect_of_pixels hw hh, fun k hk => ?_, _, rfl, rectSteps_all rfl rfl rfl hw hh⟩
    rw [rectSteps_eq (x := x) (y := y) (color := color) rfl rfl rfl hk]
    exact ⟨enqueueAll_phase .., rfl⟩
  · rw [hostEdge_of_busy hp hheld (by simp [hphase])]
    simp [hostPhaseStep, hphase]

/-! ## CLEARFB (R220, R221) -/

section
variable {color : Nibble} {k : Nat} {s t : State}

theorem exec_clearfb_of_running (hrun : s.host.running = true) :
    exec (.clearfb color) s = .next (answerRefused s) :=
  congrArg Host.Outcome.next (gated_of_running _ hrun)

theorem exec_clearfb_of_stopped (hstop : s.host.running = false) (hrows : 1 ≤ s.cfg.dramRows)
    (hcols : 1 ≤ s.cfg.dramCols) :
    exec (.clearfb color) s =
      .next (hostRequest (writeRequest 0 0 color) (enterHostPhase .clear (.clearfb color) s)) := by
  rw [exec, execClearfb, gated_of_stopped _ hstop, if_neg (by omega), clearRequest, enterHostPhase_i,
    enterHostPhase_j, enterHostPhase_cmd, encode, cField_mkW1]
  rfl

/-- The sweep that began in `t` waits for the WRITE of cell `k`. -/
def clearingCell (color : Nibble) (k : Nat) (t : State) : State :=
  hostRequest (writeRequest (k / t.cfg.dramCols) (k % t.cfg.dramCols) color)
    (countTo t.cfg.dramCols k t)

theorem clearingCell_countedTo : CountedTo t.cfg.dramCols k (clearingCell color k t) := ⟨rfl, rfl⟩

section
variable (hrows : t.cfg.dramRows ≤ 4096) (hcols : t.cfg.dramCols ≤ 4096)
include hrows hcols

theorem clearRequest_countTo (hcmd : cField t.host.cmd = color)
    (hk : k < t.cfg.dramCols * t.cfg.dramRows) :
    clearRequest (countTo t.cfg.dramCols k t) = clearingCell color k t := by
  have hcount := countedTo_countTo t.cfg.dramCols k t
  rw [clearRequest, hcount.column_toNat hcols hk, hcount.row_toNat hrows hk, clearingCell, ← hcmd]
  rfl

/-- The `done` of a cell that is not the last asks for the cell after it. -/
theorem clearNext_clearingCell (hcmd : cField t.host.cmd = color)
    (hk : k + 1 < t.cfg.dramCols * t.cfg.dramRows) :
    clearNext (clearingCell color k t) = clearingCell color (k + 1) t :=
  calc clearNext (clearingCell color k t)
      = moveOn t.cfg.dramCols t.cfg.dramRows clearRequest (clearingCell color k t) :=
        clearNext_eq_moveOn _
    _ = clearRequest (countTo t.cfg.dramCols (k + 1) t) :=
        clearingCell_countedTo.moveOn_next hcols hrows hk
    _ = clearingCell color (k + 1) t := clearRequest_countTo hrows hcols hcmd hk

theorem clearSteps_eq (hcmd : cField t.host.cmd = color) (hstart : clearingCell color 0 t = t)
    (hk : k < t.cfg.dramCols * t.cfg.dramRows) : clearSteps k t = clearingCell color k t := by
  induction k with
  | zero => exact hstart.symm
  | succ k ih =>
    rw [clearSteps_succ, ih (Nat.lt_of_succ_lt hk), clearNext_clearingCell hrows hcols hcmd hk]

/-- The `done` of the last cell answers. -/
theorem clearSteps_all (hcmd : cField t.host.cmd = color) (hstart : clearingCell color 0 t = t)
    (hk : k + 1 = t.cfg.dramCols * t.cfg.dramRows) :
    clearSteps (k + 1) t = respond .ok 0 (clearingCell color k t) := by
  rw [clearSteps_succ, clearSteps_eq hrows hcols hcmd hstart (by omega),
    clearNext_eq_moveOn]
  exact clearingCell_countedTo.moveOn_last hcols hrows hk

end

end

/-- Settles O12: by induction on the WRITEs done, the sweep waits for each cell of the array in turn; the
`done` of the last one answers. -/
theorem clearfbEffect : Obligations.ClearfbEffect := by
  rintro s color -
  refine ⟨exec_clearfb_of_running, ?_, fun p hp hheld hphase => ?_⟩
  · intro hstop hpos hpos' hrows hcols t ht
    have hcfg : t.cfg = s.cfg := by rw [ht]
    have hcmd : cField t.host.cmd = color := by rw [ht]; exact cField_mkW1 ..
    have hstart : clearingCell color 0 t = t := by
      rw [clearingCell, countTo_zero, Nat.zero_div, Nat.zero_mod, ht]; rfl
    obtain ⟨k, hlast⟩ : ∃ k, k + 1 = s.cfg.dramRows * s.cfg.dramCols :=
      ⟨_, Nat.sub_add_cancel (Nat.mul_pos hpos hpos')⟩
    rw [← hlast]
    rw [Nat.mul_comm] at hlast
    rw [← hcfg] at hrows hcols hlast ⊢
    rw [clearSteps_all hrows hcols hcmd hstart hlast]
    refine ⟨?_, fun k' hk => ?_, rfl, rfl, rfl, rfl, ?_, ?_⟩
    · rw [exec_clearfb_of_stopped hstop hpos hpos', ht]
      rfl
    · exact clearSteps_eq hrows hcols hcmd hstart (hlast ▸ hk)
    all_goals rw [ht]; rfl
  · rw [hostEdge_of_busy hp hheld (by simp [hphase])]
    simp [hostPhaseStep, hphase]

end Sys2Proof.Machine
end

section
/-! PROOFS. Direct engine access (R233, R245 to R248): the range check, the state gate, the entry of
`HS_MEMOP` and its answer at `done`. -/

namespace Sys2Proof.Machine

/-! ## The execution edge (R232, R233) -/

section
variable {i : Instr} {s : State}

theorem directAccess_of_out_of_range (h : i.inRange s.cfg = false) :
    directAccess i s = answerIllegal s := if_neg (by simp [h])

theorem directAccess_of_running (hin : i.inRange s.cfg = true) (hrun : s.host.running = true) :
    directAccess i s = answerRefused s := (if_pos hin).trans (gated_of_running _ hrun)

theorem directAccess_of_stopped (hin : i.inRange s.cfg = true) (hstop : s.host.running = false) :
    directAccess i s = hostRequest (encode i).1 (enterHostPhase .memop i s) :=
  (if_pos hin).trans (gated_of_stopped _ hstop)

end

/-- The four direct engine commands. -/
def isDirect : Instr → Bool
  | .memwrite _ _ _ => true
  | .memread _ _ => true
  | .memxfer _ => true
  | .memrefrow _ => true
  | _ => false

theorem exec_direct {i : Instr} (h : isDirect i = true) (s : State) :
    exec i s = .next (directAccess i s) := by
  cases i
  case memwrite | memread | memxfer | memrefrow => rfl
  all_goals cases h

section
variable {c : Config} {row col : Coord}

theorem inRange_cell_iff {i : Instr} (hi : (∃ v, i = .memwrite row col v) ∨ i = .memread row col) :
    i.inRange c = true ↔ row.toNat < c.dramRows ∧ col.toNat < c.dramCols := by
  rcases hi with ⟨v, rfl⟩ | rfl <;> simp [Instr.inRange, Instr.rowInRange, Instr.colInRange]

theorem inRange_row_iff {i : Instr} (hi : i = .memxfer row ∨ i = .memrefrow row) :
    i.inRange c = true ↔ row.toNat < c.dramRows := by
  rcases hi with rfl | rfl <;> simp [Instr.inRange, Instr.rowInRange]

end

/-- Settles O22: out of range is the branch of `directAccess` that comes before the state gate. -/
theorem rangeCheckAnswersIllegal : Obligations.RangeCheckAnswersIllegal := by
  rintro s t row col value - rfl
  have hanswer : ∀ i, isDirect i = true → i.inRange s.cfg ≠ true →
      exec i s = .next (answerIllegal s) := fun i hi hout => by
    rw [exec_direct hi, directAccess_of_out_of_range (Bool.eq_false_iff.mpr hout)]
  refine ⟨fun hout => ⟨?_, ?_⟩, fun hout => ⟨?_, ?_⟩⟩
  · exact hanswer _ rfl (mt (inRange_cell_iff (.inl ⟨value, rfl⟩)).mp (by omega))
  · exact hanswer _ rfl (mt (inRange_cell_iff (.inr rfl)).mp (by omega))
  · exact hanswer _ rfl (mt (inRange_row_iff (.inl rfl)).mp (by omega))
  · exact hanswer _ rfl (mt (inRange_row_iff (.inr rfl)).mp (by omega))

/-! ## The wait for `done` (R231, R245 to R248) -/

section
variable {s : State}

/-- Where no command is latched, an edge withdraws the response and no more. -/
theorem hostReady_of_not_pending (hp : s.host.pending = false) :
    hostReady s = { s with host := { s.host with rspValid := false } } := by
  rw [hostReady, ← hp]

/-- In `HS_MEMOP` an edge waits for the `done` of the host sequencer's own operation. -/
theorem hostEdge_memop (p : PinIn) (hp : s.host.pending = false) (hheld : s.host.held = none)
    (hphase : s.host.phase = .memop) :
    hostEdge p s = .next (if doneOwner s = some .hs then
      memopAnswer (engineAdvance s).eng.val (hostReady s) else hostReady s) := by
  rw [hostEdge_of_busy hp hheld (by simp [hphase])]
  simp [hostPhaseStep, hphase]

end

/-- Settles O19: each of the four in range is the entry of `HS_MEMOP` with its own word, and of their words
MEMREAD's alone has the opcode whose answer carries the value. -/
theorem directCommandsEffect : Obligations.DirectCommandsEffect := by
  intro s row col value i w _ hi
  have hdirect : isDirect i = true := by
    rcases hi with ⟨rfl, -⟩ | ⟨rfl, -⟩ | ⟨rfl, -⟩ | ⟨rfl, -⟩ <;> rfl
  have hwords : encode i = (w, 0) := by
    rcases hi with ⟨rfl, rfl⟩ | ⟨rfl, rfl⟩ | ⟨rfl, rfl⟩ | ⟨rfl, rfl⟩ <;> rfl
  have hread : opField w = 0xA#4 ↔ i = .memread row col := by
    rcases hi with ⟨rfl, rfl⟩ | ⟨rfl, rfl⟩ | ⟨rfl, rfl⟩ | ⟨rfl, rfl⟩ <;> simp
  refine ⟨fun hstop hrow hcol => ?_, fun p hp hheld hphase hcmd => ?_⟩
  · have hin : i.inRange s.cfg = true := by
      rcases hi with ⟨rfl, -⟩ | ⟨rfl, -⟩ | ⟨rfl, -⟩ | ⟨rfl, -⟩
      · exact (inRange_cell_iff (.inl ⟨value, rfl⟩)).mpr ⟨hrow, hcol⟩
      · exact (inRange_cell_iff (.inr rfl)).mpr ⟨hrow, hcol⟩
      · exact (inRange_row_iff (.inl rfl)).mpr hrow
      · exact (inRange_row_iff (.inr rfl)).mpr hrow
    rw [exec_direct hdirect, directAccess_of_stopped hin hstop, enterHostPhase, hwords, hostRequest]
  · rw [hostEdge_memop p hp hheld hphase]
    refine ⟨fun hdone => ?_, fun hwait => ?_⟩
    · rw [if_pos hdone, memopAnswer, hostReady_cmd, hcmd, hostReady_of_not_pending hp]
      simp only [hread, respond]
    · rw [if_neg hwait, hostReady_of_not_pending hp]

end Sys2Proof.Machine
end

section
/-! PROOFS. A stopped block that serves one direct engine command (R136, R231, R245, R246): its edges are the
engine's alone, from the request to the answer at `done`. -/

namespace Sys2Proof.Machine

/-! ## Runs -/

/-- A run and one more step. -/
theorem run_succ_of_step (M : Host.Core) {k : Nat} {s u t : M.State} (hrun : M.run k s = .next u)
    (hstep : M.step u = .next t) : M.run (k + 1) s = .next t := by
  induction k generalizing s with
  | zero =>
    cases hrun
    simp only [Host.Core.run, hstep]
  | succ k ih =>
    rw [Host.Core.run] at hrun ⊢
    split at hrun
    next he => exact ih hrun
    all_goals cases hrun

/-! ## An edge of a stopped block (R231, R232, R268) -/

@[simp] theorem doneOwner_decay (s : State) : doneOwner (decay s) = doneOwner s :=
  doneOwner_congr rfl rfl

/-- The generator at rest: stopped, its line and frame sequencers idle, and the pins quiet for ever. -/
structure Quiet (s : State) : Prop where
  inputs : s.inputs = []
  running : s.host.running = false
  line : s.line.phase = .idle
  frame : s.frame.phase = .idle
  held : s.host.held = none

theorem AtRest.isQuiet {s : State} (h : AtRest s) : Quiet s :=
  ⟨h.quiet, h.running, h.line, h.frame, h.nothing_held⟩

theorem Quiet.congr {s u : State} (h : Quiet s) (hinputs : u.inputs = s.inputs)
    (hrun : u.host.running = s.host.running) (hline : u.line = s.line) (hframe : u.frame = s.frame)
    (hheld : u.host.held = s.host.held) : Quiet u :=
  ⟨hinputs.trans h.inputs, hrun.trans h.running, hline ▸ h.line, hframe ▸ h.frame,
    hheld.trans h.held⟩

section
variable {s h g : State} (hquiet : Quiet s)
include hquiet

theorem Quiet.pins_eq : pinsNow s = PinIn.quiet := by rw [pinsNow, hquiet.inputs]; rfl

/-- An edge of a quiet block begins with decay and no more. -/
theorem Quiet.beginEdge_eq : beginEdge s = decay s := by
  have hinputs : s.inputs.tail = s.inputs := by rw [hquiet.inputs]; rfl
  rw [beginEdge, hinputs]

theorem Quiet.latchPins_eq : latchPins (pinsNow s) (decay s) h = h := by
  refine latchPins_of_none ?_
  rw [hquiet.pins_eq, incomingWord, decay_host, hquiet.held]
  rfl

/-- A step of a quiet block that stays stopped is what its host sequencer and its engine do at the edge. -/
theorem Quiet.step_eq (hadm : s.cfg.Admitted) (hhost : hostEdge (pinsNow s) (decay s) = .next h)
    (hengine : engineEdge (decay s) = .next g) (hrun : h.host.running = false)
    (hline : h.line = s.line) (hfs : doneOwner s ≠ some .fs) :
    step s = .next (advanceTime (joinEdges (decay s) h g)) := by
  have hrst : (pinsNow s).rst = false := by rw [hquiet.pins_eq]; rfl
  have hstopped : (joinEdges (decay s) h g).host.running = false := hrun
  have hidle : (joinEdges (decay s) h g).line.phase = .idle :=
    (congrArg LineCtx.phase hline).trans hquiet.line
  have hsequencers : blockEdge (decay s) h g = joinEdges (decay s) h g := by
    rw [blockEdge, startsHere, hrun, Bool.false_and, if_neg Bool.false_ne_true, sequencersEdge,
      lineEdge_of_stopped hstopped, lineAdvance_of_idle hidle, doneOwner_decay]
    simp [frameAdvance, hfs]
  rw [step_of_admitted hadm, blockClock, hrst, if_neg Bool.false_ne_true, runningEdge,
    hquiet.beginEdge_eq, hhost]
  simp only [andThen, hengine, hsequencers]

end

/-! ## The wait in `HS_MEMOP` (R231, R245 to R248) -/

/-- The engine's edge touches nothing outside its own registers, its pins, the chip and the lines. -/
theorem engineEdge_only {b g : State} (he : engineEdge b = .next g) :
    g = { b with eng := g.eng, pins := g.pins, chip := g.chip, req := g.req } := by
  rcases engineEdge_cases he with ⟨rfl, -⟩ | ⟨-, w, op, row, col, v, -, rfl, -⟩
  · rw [engineAdvance_only]
  · rw [grant_only, engineAdvance_only]

theorem engineEdge_outside {b g : State} (he : engineEdge b = .next g) : g.host = b.host ∧
    g.line = b.line ∧ g.frame = b.frame ∧ g.health = b.health ∧ g.inputs = b.inputs := by
  rw [engineEdge_only he]
  exact ⟨rfl, rfl, rfl, rfl, rfl⟩

/-- A host sequencer that does no more than answer leaves the edge to the engine. -/
theorem joinEdges_of_engineEdge {b g : State} (he : engineEdge b = .next g) :
    joinEdges b b g = g := by
  have hls : mergeLine b.req.ls b.req.ls g.req.ls = g.req.ls :=
    mergeLine_engine rfl (engine_line_none he .ls)
  have hfs : mergeLine b.req.fs b.req.fs g.req.fs = g.req.fs :=
    mergeLine_engine rfl (engine_line_none he .fs)
  have hhs : mergeLine b.req.hs b.req.hs g.req.hs = g.req.hs :=
    mergeLine_engine rfl (engine_line_none he .hs)
  conv_rhs => rw [engineEdge_only he]
  rw [joinEdges, hls, hfs, hhs]

/-- A quiet block that waits for the `done` of the direct command with word `w`. -/
structure Serving (w : Word) (s : State) : Prop extends Quiet s where
  phase : s.host.phase = .memop
  cmd : s.host.cmd = w
  latched : s.host.pending = false
  unanswered : s.host.rspValid = false

section
variable {w : Word} {s g : State} (h : Serving w s) (hadm : s.cfg.Admitted)
  (hengine : engineEdge (decay s) = .next g)
include h

theorem Serving.not_ready : cmdReady false s = false := by simp [cmdReady, h.phase]

theorem Serving.hostReady_eq : hostReady (decay s) = decay s := by
  rw [hostReady_of_not_pending (s := decay s) h.latched, ← h.unanswered]
  rfl

theorem Serving.hostEdge_eq : hostEdge (pinsNow s) (decay s) = .next (if doneOwner s = some .hs then
    memopAnswer (engineAdvance (decay s)).eng.val (decay s) else decay s) := by
  rw [hostEdge_memop (s := decay s) _ h.latched h.held h.phase, h.hostReady_eq, doneOwner_decay]

include hadm hengine

/-- While it waits, the edge is the engine's. -/
theorem Serving.step_waits (hhs : doneOwner s ≠ some .hs) (hfs : doneOwner s ≠ some .fs) :
    step s = .next (advanceTime g) := by
  have hhost := h.hostEdge_eq
  rw [if_neg hhs] at hhost
  rw [h.step_eq hadm hhost hengine h.running rfl hfs, joinEdges_of_engineEdge hengine]

/-- At `done` the command is answered, by its opcode with the value the engine holds or with 0. -/
theorem Serving.step_answers (hhs : doneOwner s = some .hs) :
    step s = .next (respond .ok
      (if opField w = 0xA#4 then (engineAdvance (decay s)).eng.val.setWidth 32 else 0)
      (advanceTime g)) := by
  have hhost := h.hostEdge_eq
  rw [if_pos hhs, memopAnswer, decay_host, h.cmd] at hhost
  rw [h.step_eq hadm hhost hengine h.running rfl (by simp [hhs])]
  conv_rhs => rw [← joinEdges_of_engineEdge hengine]
  rfl

end

/-! ## The request (R231, R245, R246, log 11) -/

/-- A block at rest enters `HS_MEMOP` at the execution edge of a direct command, its engine still idle. -/
theorem AtRest.step_requests {s : State} {i : Instr} (h : AtRest s) (hadm : s.cfg.Admitted)
    (hp : s.host.pending = true) (hdec : decode .host s.host.cmd s.host.arg = .ok i)
    (hi : isDirect i = true) (hin : i.inRange s.cfg = true) :
    step s = .next (advanceTime
      (hostRequest (encode i).1 (enterHostPhase .memop i (hostReady (decay s))))) := by
  have hexec : executeCommand (decay s) =
      .next (hostRequest (encode i).1 (enterHostPhase .memop i (hostReady (decay s)))) := by
    rw [executeCommand, decay_host, hdec]
    change exec i _ = _
    rw [exec_direct hi, directAccess_of_stopped (s := hostReady (decay s)) hin h.running]
  have hhost := hostEdge_of_pending (p := pinsNow s) (s := decay s) hp hexec
  rw [h.isQuiet.latchPins_eq] at hhost
  have hengine : engineEdge (decay s) = .next (decay s) := by
    rw [engineEdge, engineAdvance_of_idle (s := decay s) h.engine, engineGrant,
      if_pos (c := (decay s).eng.phase = .idle) h.engine, decay_req, h.requests]
    rfl
  rw [h.isQuiet.step_eq hadm hhost hengine h.running rfl (by simp [doneOwner_of_idle h.engine])]
  simp only [joinEdges, decay_req, h.requests]
  rfl

end Sys2Proof.Machine
end

section
/-! PROOFS. MEMWRITE and MEMREAD from request to answer (R75, R122, R124, R136, R245, R246): what the edges of the
command leave alone, how the operation fares under decay, and the two runs. -/

namespace Sys2Proof.Machine

/-! ## What the edges leave alone (R42, R75) -/

/-- Every cell reads as in `s` or has decayed, except the one a WRITE is for. -/
def CellsKept (op : EngOp) (row col : Nat) (s u : State) : Prop :=
  ∀ r c, c < s.cfg.dramCols → (op = .write → (r, c) ≠ (row, col)) →
    cellAt u r c = cellAt s r c ∨ cellAt u r c = none

/-- State `u`, `k` edges after state `s`, in the service of the direct command with word `w`, whose operation
is `op` on this row and column. -/
structure Served (op : EngOp) (row col : Nat) (w : Word) (s : State) (k : Nat) (u : State) : Prop
    extends Serving w u where
  cfg_eq : u.cfg = s.cfg
  time_eq : u.t = s.t + k
  outside : u.host.ring = s.host.ring ∧ u.health = s.health ∧ u.line = s.line ∧ u.frame = s.frame
  cells : CellsKept op row col s u

section
variable {op : EngOp} {row col : Nat} {w : Word} {s u g : State} {k : Nat}

theorem CellsKept.decayed (h : CellsKept op row col s u) (hcfg : u.cfg = s.cfg) :
    CellsKept op row col s (decay u) := by
  intro r c hc hne
  rcases cellAt_decay_cases (s := u) (row := r) (hcfg ▸ hc) with hsame | ⟨hnone, -⟩
  · rw [hsame]; exact h r c hc hne
  · exact .inr hnone

/-- The engine stores for the operation it runs and nowhere else (R72). -/
theorem CellsKept.stored (h : CellsKept op row col s u) (hcfg : u.cfg = s.cfg)
    (hgcfg : g.cfg = u.cfg) (hst : Stored u g) (hop : phaseOp g.eng.phase = some .write → op = .write)
    (hrow : g.eng.row = row) (hcolumn : g.eng.col = col) (hcol : col < s.cfg.dramCols) :
    CellsKept op row col s g := by
  intro r c hc hne
  have hlook : cellAt g r c = cellLook (cellAddr u.cfg r c) g.chip.cells := by rw [cellAt, hgcfg]
  rcases hst with hcells | ⟨hphase, hcells⟩
  · rw [hlook, hcells]
    exact h r c hc hne
  · have hwrite : op = .write := hop (by rcases hphase with hp | hp <;> rw [hp] <;> rfl)
    have haddr : cellAddr u.cfg r c ≠ cellAddr u.cfg row col := fun he => hne hwrite (by
      obtain ⟨rfl, rfl⟩ := cellAddr_inj (hcfg ▸ hc) (hcfg ▸ hcol) he
      rfl)
    rw [hlook, hcells, hrow, hcolumn, cellLook_cellPut_other _ _ haddr]
    exact h r c hc hne

/-- An edge of the engine keeps the block in the service of the command. -/
theorem Served.edge (h : Served op row col w s k u) (he : engineEdge (decay u) = .next g)
    (hop : phaseOp g.eng.phase = some .write → op = .write) (hrow : g.eng.row = row)
    (hcolumn : g.eng.col = col) (hcol : col < s.cfg.dramCols) :
    Served op row col w s (k + 1) (advanceTime g) := by
  have hcfg : g.cfg = s.cfg := (engineEdge_cfg he).trans h.cfg_eq
  have htime : g.t = u.t := engineEdge_t (s := decay u) he
  have hcells : CellsKept op row col s g := (h.cells.decayed h.cfg_eq).stored (u := decay u)
    h.cfg_eq (engineEdge_cfg he) (engineEdge_stored he) hop hrow hcolumn hcol
  obtain ⟨hhost, hline, hframe, hhealth, hinputs⟩ := engineEdge_outside he
  obtain ⟨hring, hhealth', hline', hframe'⟩ := h.outside
  refine ⟨⟨h.toQuiet.congr hinputs ?_ hline hframe ?_, ?_, ?_, ?_, ?_⟩, hcfg, ?_,
    ⟨?_, ?_, ?_, ?_⟩, hcells⟩
  · exact congrArg HostCtx.running hhost
  · exact congrArg HostCtx.held hhost
  · exact (congrArg HostCtx.phase hhost).trans h.phase
  · exact (congrArg HostCtx.cmd hhost).trans h.cmd
  · exact (congrArg HostCtx.pending hhost).trans h.latched
  · exact (congrArg HostCtx.rspValid hhost).trans h.unanswered
  · change g.t + 1 = s.t + (k + 1)
    rw [htime, h.time_eq, Nat.add_assoc]
  · exact (congrArg HostCtx.ring hhost).trans hring
  · exact hhealth.trans hhealth'
  · exact hline.trans hline'
  · exact hframe.trans hframe'

end

/-! ## From the request to `done` (R130, R136) -/

/-- The engine runs the command's operation, and has still to take the cycles left of its time. -/
structure InService (op : EngOp) (row col : Nat) (w : Word) (s : State) (k : Nat) (u : State) : Prop
    extends Served op row col w s k u where
  requests : u.req = Requests.none
  owner : u.eng.owner = .hs
  busy : u.eng.phase ≠ .idle
  dwell : 1 ≤ u.eng.dwell
  remaining : engineRemaining u + k = operationTime s.cfg op + 1
  phase_op : phaseOp u.eng.phase = some op
  row_eq : u.eng.row = row
  col_eq : u.eng.col = col

/-- With no line raised the engine's edge is its advance (R130). -/
theorem engineEdge_of_no_request {b : State} (h : b.req = Requests.none) :
    engineEdge b = .next (engineAdvance b) := by
  rw [engineEdge, engineGrant, engineAdvance_req, h]
  split <;> rfl

section
variable {op : EngOp} {row col : Nat} {v : Nibble} {w : Word} {s u : State} {k : Nat}
  (hcol : col < s.cfg.dramCols)
include hcol

/-- The grant puts the block in service. -/
theorem Served.inService_of_grant (h : Served op row col w s 1 u)
    (hreq : u.req = ⟨none, none, some w⟩)
    (hgrant : engineEdge (decay u) = .next (grant op row col v (decay u))) :
    InService op row col w s 2 (advanceTime (grant op row col v (decay u))) where
  toServed := by
    refine h.edge hgrant (fun hw => ?_) (by simp) (by simp) hcol
    rw [grant_phaseOp (grant_busy op row col v)] at hw
    exact Option.some.inj hw
  requests := by rw [advanceTime_req, grant_req, decay_req, hreq]; rfl
  owner := by rw [advanceTime_eng, grant_eng_owner, decay_req, hreq]; rfl
  busy := grant_busy op row col v
  dwell := grant_dwell op row col v
  remaining := by
    have hrem := (grant_granted op row col v (decay u)).remaining
    rw [decay_cfg, h.cfg_eq] at hrem
    change engineRemaining (grant op row col v (decay u)) + 2 = _
    omega
  phase_op := grant_phaseOp (grant_busy op row col v)
  row_eq := grant_eng_row ..
  col_eq := grant_eng_col ..

variable (h : InService op row col w s k u)
include h

theorem InService.served_edge :
    Served op row col w s (k + 1) (advanceTime (engineAdvance (decay u))) := by
  refine h.toServed.edge (engineEdge_of_no_request h.requests) (fun hw => ?_)
    (by simpa using h.row_eq) (by simpa using h.col_eq) hcol
  have hbusy : (engineAdvance (decay u)).eng.phase ≠ .idle := fun hidle => by
    rw [hidle] at hw; cases hw
  rw [engineAdvance_phaseOp hbusy, decay_eng, h.phase_op] at hw
  exact Option.some.inj hw

omit hcol in
theorem InService.done_iff : doneOwner u = some .hs ↔ k = operationTime s.cfg op := by
  have hlast : (engineAdvance u).eng.phase = .idle ↔ engineRemaining u = 1 :=
    engineAdvance_idle_iff h.busy h.dwell
  have hrem := h.remaining
  rw [doneOwner_eq_some, hlast]
  exact ⟨fun hd => by omega, fun hk => ⟨h.busy, by omega, h.owner⟩⟩

omit hcol in
theorem InService.not_done_fs : doneOwner u ≠ some .fs := fun hd => by
  have howner := (doneOwner_eq_some.mp hd).2.2
  rw [h.owner] at howner; cases howner

/-- Before its last cycle the operation goes on. -/
theorem InService.edge (hk : k < operationTime s.cfg op) :
    InService op row col w s (k + 1) (advanceTime (engineAdvance (decay u))) := by
  have hone := engineAdvance_remaining (s := decay u) h.busy h.dwell
  have hrem : engineRemaining (decay u) + k = operationTime s.cfg op + 1 := h.remaining
  have hbusy : (engineAdvance (decay u)).eng.phase ≠ .idle := fun hidle => by
    have := (engineAdvance_idle_iff (s := decay u) h.busy h.dwell).mp hidle
    omega
  refine ⟨h.served_edge hcol, ?_, ?_, hbusy, engineAdvance_dwell hbusy, ?_, ?_, ?_, ?_⟩
  · simpa using h.requests
  · simpa using h.owner
  · change engineRemaining (engineAdvance (decay u)) + (k + 1) = _
    omega
  · exact (engineAdvance_phaseOp hbusy).trans h.phase_op
  · simpa using h.row_eq
  · simpa using h.col_eq

end

theorem two_le_operationTime (c : Config) (op : EngOp) : 2 ≤ operationTime c op := by
  rw [operationTime_eq]
  cases op <;> simp only [firstPhase, phaseDwell, dwellsAfter] <;> omega

/-- A direct command latched by a block at rest, and the operation it passes to the engine. -/
structure Passes (i : Instr) (op : EngOp) (row col : Nat) (v : Nibble) (s : State) : Prop where
  rest : AtRest s
  admitted : s.cfg.Admitted
  pending : s.host.pending = true
  decoded : decode .host s.host.cmd s.host.arg = .ok i
  direct : isDirect i = true
  inside : i.inRange s.cfg = true
  col_lt : col < s.cfg.dramCols
  granted : ∀ u, u.cfg = s.cfg → u.eng.phase = .idle → u.req = ⟨none, none, some (encode i).1⟩ →
    engineEdge u = .next (grant op row col v u)

/-- The state after the execution edge: the command waits in `HS_MEMOP`, its request raised. -/
def requested (i : Instr) (s : State) : State :=
  advanceTime (hostRequest (encode i).1 (enterHostPhase .memop i (hostReady (decay s))))

/-- What the grant establishes and every edge of the operation keeps. -/
structure Kept (M : State → Prop) (i : Instr) (op : EngOp) (row col : Nat) (v : Nibble) (s : State) :
    Prop where
  granted : M (advanceTime (grant op row col v (decay (requested i s))))
  edge : ∀ k u, k ≤ operationTime s.cfg op → InService op row col (encode i).1 s k u → M u →
    M (advanceTime (engineAdvance (decay u)))

section
variable {i : Instr} {op : EngOp} {row col : Nat} {v : Nibble} {s : State}
  (h : Passes i op row col v s)
include h

theorem Passes.step_requested : step s = .next (requested i s) :=
  h.rest.step_requests h.admitted h.pending h.decoded h.direct h.inside

theorem Passes.served_requested : Served op row col (encode i).1 s 1 (requested i s) where
  toQuiet := h.rest.isQuiet.congr rfl rfl rfl rfl rfl
  phase := rfl
  cmd := rfl
  latched := rfl
  unanswered := rfl
  cfg_eq := rfl
  time_eq := rfl
  outside := ⟨rfl, rfl, rfl, rfl⟩
  cells := CellsKept.decayed (u := s) (fun _ _ _ _ => .inl rfl) rfl

theorem Passes.req_requested : (requested i s).req = ⟨none, none, some (encode i).1⟩ := by
  change Requests.mk s.req.ls s.req.fs _ = _
  rw [h.rest.requests]
  rfl

theorem Passes.grant_requested : engineEdge (decay (requested i s)) =
    .next (grant op row col v (decay (requested i s))) :=
  h.granted _ rfl h.rest.engine h.req_requested

variable {M : State → Prop} (hM : Kept M i op row col v s)
include hM

/-- By induction on the edges since the grant: the operation takes its time. -/
theorem Passes.run_inService {n : Nat} (hn : n + 2 ≤ operationTime s.cfg op) :
    ∃ u : State, Host.Core.run core (n + 2) s = .next u ∧
      InService op row col (encode i).1 s (n + 2) u ∧ M u := by
  induction n with
  | zero =>
    have hserved := h.served_requested
    have hrun := run_succ_of_step core (k := 0) (s := s) rfl h.step_requested
    have hidle : doneOwner (requested i s) = none := doneOwner_of_idle h.rest.engine
    have hstep := hserved.toServing.step_waits h.admitted h.grant_requested (by simp [hidle])
      (by simp [hidle])
    exact ⟨_, run_succ_of_step core hrun hstep,
      hserved.inService_of_grant h.col_lt h.req_requested h.grant_requested, hM.granted⟩
  | succ n ih =>
    obtain ⟨u, hrun, hu, hm⟩ := ih (by omega)
    have hstep := hu.toServing.step_waits (hu.cfg_eq ▸ h.admitted)
      (engineEdge_of_no_request hu.requests) (mt hu.done_iff.mp (by omega)) hu.not_done_fs
    exact ⟨_, run_succ_of_step core hrun hstep, hu.edge h.col_lt (by omega),
      hM.edge _ u (by omega) hu hm⟩

theorem Passes.run_waits {k : Nat} (h1 : 1 ≤ k) (hk : k ≤ operationTime s.cfg op) :
    ∃ u : State, Host.Core.run core k s = .next u ∧ u.host.phase = .memop ∧
      u.host.rspValid = false ∧ cmdReady false u = false := by
  have hwaits : ∃ u : State, Host.Core.run core k s = .next u ∧ Serving (encode i).1 u := by
    obtain rfl | ⟨n, rfl⟩ : k = 1 ∨ ∃ n, k = n + 2 := by
      rcases k with _ | _ | n
      · omega
      · exact .inl rfl
      · exact .inr ⟨n, rfl⟩
    · exact ⟨_, run_succ_of_step core (k := 0) (s := s) rfl h.step_requested,
        h.served_requested.toServing⟩
    · obtain ⟨u, hrun, hu, -⟩ := h.run_inService hM hk
      exact ⟨u, hrun, hu.toServing⟩
  obtain ⟨u, hrun, hu⟩ := hwaits
  exact ⟨u, hrun, hu.phase, hu.unanswered, hu.not_ready⟩

theorem Passes.run_answers :
    ∃ g : State, Host.Core.run core (1 + operationTime s.cfg op) s = .next (respond .ok
        (if opField (encode i).1 = 0xA#4 then g.eng.val.setWidth 32 else 0) g) ∧
      Served op row col (encode i).1 s (operationTime s.cfg op + 1) g ∧ g.req = Requests.none ∧
      g.eng.phase = .idle ∧ M g := by
  obtain ⟨n, hn⟩ : ∃ n, n + 2 = operationTime s.cfg op :=
    ⟨_, Nat.sub_add_cancel (two_le_operationTime s.cfg op)⟩
  obtain ⟨u, hrun, hu, hm⟩ := h.run_inService hM (n := n) hn.le
  have hdone := hu.done_iff.mpr hn
  have hstep := hu.toServing.step_answers (hu.cfg_eq ▸ h.admitted)
    (engineEdge_of_no_request hu.requests) hdone
  have hidle := (doneOwner_eq_some.mp ((doneOwner_decay u).trans hdone)).2.1
  rw [Nat.add_comm, ← hn]
  exact ⟨advanceTime (engineAdvance (decay u)), run_succ_of_step core hrun hstep,
    hu.served_edge h.col_lt, by simpa using hu.requests, hidle, hM.edge _ u hn.le hu hm⟩

end

/-! ## An operation under decay (R72, R73, R75) -/

/-- The array holds these cells. -/
def withCells (m : Memory) (s : State) : State := { s with chip := { s.chip with cells := m } }

/-- State `u` is in the operation granted in state `b`, with the operation's time to `done` left. -/
structure Underway (op : EngOp) (row col : Nat) (v : Nibble) (b u : State) : Prop where
  runs : Runs op row col v b u.eng.phase u
  stop : u.t + engineRemaining u = doneTime op b + 1

section
variable {op : EngOp} {row col : Nat} {v : Nibble} {b u : State} {p : EngPhase} {m : Memory}

/-- The operation does not see a change of the cells before it moves its data; a READ sees none but that of
its own cell, ever. -/
theorem Runs.withCells (h : Runs op row col v b p u)
    (hm : dataMoved p = true →
      op = .read ∧ cellLook (cellAddr b.cfg row col) m = cellAt b row col) :
    Runs op row col v (withCells m b) p (withCells m u) where
  cfg_eq := h.cfg_eq
  phase_op := h.phase_op
  row_eq := h.row_eq
  col_eq := h.col_eq
  chip_eq := by
    have hchip : (Machine.withCells m u).chip =
        { operationChip op row col v b p with cells := m } := by rw [← h.chip_eq]; rfl
    rw [hchip]
    rcases hmoved : dataMoved p with _ | _
    · simp only [operationChip, hmoved]; rfl
    · obtain ⟨rfl, -⟩ := hm hmoved
      simp only [operationChip, hmoved, moveData]; rfl
  latched := h.latched
  sampled hr hmoved := by
    have hcell : cellAt (Machine.withCells m b) row col = cellAt b row col := (hm hmoved).2
    rw [hcell]
    exact h.sampled hr hmoved

theorem grant_underway (op : EngOp) (row col : Nat) (v : Nibble) (b : State) :
    Underway op row col v b (advanceTime (grant op row col v b)) where
  runs := (grant_runs op row col v b).congr rfl rfl rfl rfl rfl
  stop := by
    have hrem : engineRemaining (advanceTime (grant op row col v b)) = _ :=
      grant_remaining op row col v
    have ht : (advanceTime (grant op row col v b)).t = b.t + 1 := congrArg (· + 1) (grant_t ..)
    rw [hrem, ht, doneTime]
    omega

/-- An edge, decay first. -/
theorem Underway.edge (h : Underway op row col v b u) (hbusy : u.eng.phase ≠ .idle)
    (hdwell : 1 ≤ u.eng.dwell) (hm : dataMoved u.eng.phase = true →
      op = .read ∧ cellAt (decay u) row col = cellAt b row col) :
    Underway op row col v (withCells (decay u).chip.cells b)
      (advanceTime (engineAdvance (decay u))) := by
  have hruns : Runs op row col v (withCells (decay u).chip.cells b) u.eng.phase (decay u) :=
    h.runs.withCells fun hmoved => by
      have hcell := (hm hmoved).2
      rw [cellAt, decay_cfg, h.runs.cfg_eq] at hcell
      exact ⟨(hm hmoved).1, hcell⟩
  have hone := engineAdvance_remaining (s := decay u) hbusy hdwell
  have hrem : engineRemaining (decay u) = engineRemaining u := rfl
  have hadvance := engineAdvance_runs (u := decay u) (s := withCells (decay u).chip.cells b) hdwell
    h.stop hruns
  refine ⟨hadvance.congr rfl rfl rfl rfl rfl, ?_⟩
  have ht : (advanceTime (engineAdvance (decay u))).t = u.t + 1 :=
    congrArg (· + 1) (engineAdvance_t _)
  have hstop := h.stop
  change (advanceTime (engineAdvance (decay u))).t + engineRemaining (engineAdvance (decay u)) =
    doneTime op b + 1
  omega

end

/-! ## The cell of a MEMWRITE (R72, R75, R245) -/

/-- Past its data an access leaves the chip alone, phase by phase. -/
theorem phase_of_moved {p : EngPhase} (hm : dataMoved p = true) (hop : phaseOp p ≠ some .refrow) :
    (∀ s, (phaseEntry p s).chip = s.chip) ∧ (∀ s, (phaseEnd p s).chip = s.chip) ∧
    dataMoved (nextPhase p) = true ∧ phaseOp (nextPhase p) ≠ some .refrow := by
  cases p
  case rf0 | rf1 | rf2 | rf3 => exact absurd rfl hop
  case wr0 | wr1 | wr2 | rd0 | rd1 | rd2 | xf0 | xf1 | xf2 => cases hm
  all_goals exact ⟨fun _ => rfl, fun _ => rfl, rfl, nofun⟩

theorem enterPhase_of_moved {n : Nat} {p : EngPhase} {s : State} (hm : dataMoved p = true)
    (hop : phaseOp p ≠ some .refrow) :
    (enterPhase n p s).chip = s.chip ∧ dataMoved (enterPhase n p s).eng.phase = true := by
  induction n generalizing p s with
  | zero => exact ⟨rfl, hm⟩
  | succ n ih =>
    obtain ⟨hentry, hend, hm', hop'⟩ := phase_of_moved hm hop
    rw [enterPhase]
    split
    · obtain ⟨hchip, hmoved⟩ := ih (s := phaseEnd p (phaseEntry p s)) hm' hop'
      exact ⟨hchip.trans ((hend _).trans (hentry s)), hmoved⟩
    · exact ⟨hentry s, hm⟩

theorem engineAdvance_of_moved {s : State} (hm : dataMoved s.eng.phase = true)
    (hop : phaseOp s.eng.phase ≠ some .refrow) :
    (engineAdvance s).chip = s.chip ∧ dataMoved (engineAdvance s).eng.phase = true := by
  obtain ⟨-, hend, hm', hop'⟩ := phase_of_moved hm hop
  rw [engineAdvance]
  split
  · exact ⟨rfl, hm⟩
  · split
    · obtain ⟨hchip, hmoved⟩ := enterPhase_of_moved (n := phaseFuel)
        (s := phaseEnd s.eng.phase (addressMux s)) hm' hop'
      exact ⟨hchip.trans ((hend _).trans (addressMux_chip s)), hmoved⟩
    · exact ⟨addressMux_chip s, by simpa using hm⟩

/-- The cell holds the value, or its row has expired since. -/
def StoredOrExpired (row col : Nat) (v : Nibble) (u : State) : Prop :=
  cellAt u row col = some v ∨ (cellAt u row col = none ∧ u.cfg.retention < u.t - stampAt u row)

/-- A WRITE before and after its store, under decay. -/
def Writing (row col : Nat) (v : Nibble) (u : State) : Prop :=
  (dataMoved u.eng.phase = false ∧ ∃ b, Underway .write row col v b u) ∨
  (dataMoved u.eng.phase = true ∧ StoredOrExpired row col v u)

section
variable {row col : Nat} {v : Nibble} {b u : State}

theorem StoredOrExpired.decay (h : StoredOrExpired row col v u) (hcol : col < u.cfg.dramCols) :
    StoredOrExpired row col v (decay u) := by
  rcases cellAt_decay_cases (s := u) (row := row) hcol with hsame | hgone
  · rw [StoredOrExpired, hsame]; exact h
  · exact .inr hgone

/-- A row expired at an edge is expired after it, if its stamp stays. -/
theorem StoredOrExpired.congr {t : State} (h : StoredOrExpired row col v u) (hcfg : t.cfg = u.cfg)
    (hchip : t.chip = u.chip) (ht : u.t ≤ t.t) : StoredOrExpired row col v t := by
  have hcell : cellAt t row col = cellAt u row col := by rw [cellAt, hcfg, hchip]; rfl
  have hstamp : stampAt t row = stampAt u row := by rw [stampAt, hchip]; rfl
  rw [StoredOrExpired, hcell, hcfg, hstamp]
  exact h.imp_right fun hn => ⟨hn.1, by omega⟩

/-- The edge that passes WR2 leaves the value in the cell. -/
theorem Underway.writing (h : Underway .write row col v b u) : Writing row col v u := by
  rcases hmoved : dataMoved u.eng.phase with _ | _
  · exact .inl ⟨hmoved, b, h⟩
  · refine .inr ⟨hmoved, .inl ?_⟩
    rw [cellAt, h.runs.cfg_eq, h.runs.chip_eq, operationChip, hmoved]
    exact cellAt_setCell_same row col v b

theorem Writing.edge (h : Writing row col v u) (hbusy : u.eng.phase ≠ .idle)
    (hdwell : 1 ≤ u.eng.dwell) (hop : phaseOp u.eng.phase = some .write)
    (hcol : col < u.cfg.dramCols) : Writing row col v (advanceTime (engineAdvance (decay u))) := by
  rcases h with ⟨hmoved, b, hb⟩ | ⟨hmoved, hstored⟩
  · exact (hb.edge hbusy hdwell fun hm => by rw [hmoved] at hm; cases hm).writing
  · obtain ⟨hchip, hmoved'⟩ := engineAdvance_of_moved (s := decay u) hmoved (by simp [hop])
    have hlater : u.t ≤ (advanceTime (engineAdvance (decay u))).t := by simp [advanceTime]
    exact .inr ⟨hmoved', (hstored.decay hcol).congr (engineAdvance_cfg _) hchip hlater⟩

/-- At `done` the store is past. -/
theorem Writing.stored_of_idle (h : Writing row col v u) (hidle : u.eng.phase = .idle) :
    StoredOrExpired row col v u :=
  (h.resolve_left fun hn => by rw [hidle] at hn; cases hn.1).2

end

/-! ## The value of a MEMREAD (R73, R75, R246) -/

/-- A READ of a cell that holds `v`, in a row that does not expire before `deadline`. -/
def Reading (row col : Nat) (v : Nibble) (deadline : Nat) (u : State) : Prop :=
  ∃ b, Underway .read row col 0 b u ∧ cellAt b row col = some v ∧
    deadline ≤ b.cfg.retention + stampAt b row ∧ deadline ≤ b.cfg.retention + b.t

section
variable {row col : Nat} {v : Nibble} {deadline : Nat} {u : State}

/-- The stamp is the one the row had at the grant, or that of the row strobe. -/
theorem Runs.stampAt_cases {op : EngOp} {w : Nibble} {p : EngPhase} {b : State}
    (h : Runs op row col w b p u) : stampAt u row = stampAt b row ∨ b.t ≤ stampAt u row := by
  have hu : stampAt u row = (if rowStrobed p then strobedStamps op row b else b.chip.rowStamp).getD
      row 0 := by rw [stampAt, h.chip_eq]; rfl
  rw [hu, strobedStamps]
  split_ifs
  · rcases stampAt_restartRetention row row { b with t := b.t + phaseDwell b.cfg (firstPhase op) }
      with hsame | ⟨hnow, -⟩
    · exact .inl hsame
    · exact .inr ((Nat.le_add_right _ _).trans hnow.ge)
  · exact .inl rfl
  · exact .inl rfl

theorem Reading.cell (h : Reading row col v deadline u) : cellAt u row col = some v := by
  obtain ⟨b, hb, hcell, -⟩ := h
  rw [← hcell, cellAt, cellAt, hb.runs.cfg_eq, hb.runs.chip_eq, operationChip]
  split <;> rfl

/-- Until the deadline the cell does not decay. -/
theorem Reading.cell_decay (h : Reading row col v deadline u) (hcol : col < u.cfg.dramCols)
    (ht : u.t ≤ deadline) : cellAt (decay u) row col = some v := by
  rw [cellAt_decay_of_fresh hcol, h.cell]
  obtain ⟨b, hb, -, hstamp, hgrant⟩ := h
  rw [hb.runs.cfg_eq]
  rcases hb.runs.stampAt_cases with hs | hs <;> omega

theorem Reading.edge (h : Reading row col v deadline u) (hbusy : u.eng.phase ≠ .idle)
    (hdwell : 1 ≤ u.eng.dwell) (hcol : col < u.cfg.dramCols) (ht : u.t ≤ deadline) :
    Reading row col v deadline (advanceTime (engineAdvance (decay u))) := by
  have hdecay := h.cell_decay hcol ht
  obtain ⟨b, hb, hcell, hstamp, hgrant⟩ := h
  refine ⟨_, hb.edge hbusy hdwell fun _ => ⟨rfl, hdecay.trans hcell.symm⟩, ?_, hstamp, hgrant⟩
  rw [← hdecay, cellAt, cellAt, decay_cfg, hb.runs.cfg_eq]
  rfl

/-- At `done` the engine holds the cell's value. -/
theorem Reading.val_of_idle (h : Reading row col v deadline u) (hidle : u.eng.phase = .idle) :
    u.eng.val = v := by
  obtain ⟨b, hb, hcell, -⟩ := h
  obtain ⟨d, hval⟩ := hb.runs.sampled rfl (by rw [hidle]; rfl)
  rw [hval, hcell, Option.getD_some]

end

/-! ## The two commands (R245, R246) -/

section
variable {s : State} {row col : Coord} (hrest : AtRest s) (hadm : s.cfg.Admitted)
  (hp : s.host.pending = true) (hrow : row.toNat < s.cfg.dramRows)
  (hcol : col.toNat < s.cfg.dramCols)
include hrest hadm hp hrow hcol

omit hrow in
/-- The engine is handed the command's own word (R100) and grants its operation. -/
theorem passes_of_command {i j : Instr} {op : EngOp} {v : Nibble}
    (hdec : decode .host s.host.cmd s.host.arg = .ok i) (hi : isDirect i = true)
    (hin : i.inRange s.cfg = true) (hword : decode .engine (encode i).1 0 = .ok j)
    (hexec : ∀ u, u.cfg = s.cfg → u.eng.phase = .idle →
      exec j u = .next (grant op row.toNat col.toNat v u)) :
    Passes i op row.toNat col.toNat v s where
  rest := hrest
  admitted := hadm
  pending := hp
  decoded := hdec
  direct := hi
  inside := hin
  col_lt := hcol
  granted u hcfg hidle hreq := by
    have hadvance := engineAdvance_of_idle hidle
    have hrun := engineRunsWinningRequest.1 u (encode i).1 j (hcfg ▸ hadm) (by rw [hadvance, hidle])
      (by rw [hreq]; rfl) hword
    rw [hrun, hadvance, hexec u hcfg hidle]

theorem passes_memwrite {v : Nibble}
    (hdec : decode .host s.host.cmd s.host.arg = .ok (.memwrite row col v)) :
    Passes (.memwrite row col v) .write row.toNat col.toNat v s := by
  refine passes_of_command hrest hadm hp hcol (j := .write row col v) hdec rfl
    ((inRange_cell_iff (.inl ⟨v, rfl⟩)).mpr ⟨hrow, hcol⟩) (decodeOfEncode (.write row col v) rfl)
    fun u hcfg hidle => ?_
  rw [exec_write_inside v (hcfg ▸ hrow) (hcfg ▸ hcol), acceptRequest_of_idle hidle]

theorem passes_memread (hdec : decode .host s.host.cmd s.host.arg = .ok (.memread row col)) :
    Passes (.memread row col) .read row.toNat col.toNat 0 s := by
  refine passes_of_command hrest hadm hp hcol (j := .read row col) hdec rfl
    ((inRange_cell_iff (.inr rfl)).mpr ⟨hrow, hcol⟩) (decodeOfEncode (.read row col) rfl)
    fun u hcfg hidle => ?_
  rw [exec_read_inside (hcfg ▸ hrow) (hcfg ▸ hcol), acceptRequest_of_idle hidle]

end

section
variable {s : State} {i : Instr} {row col : Nat} {v : Nibble}

theorem Passes.keeps_writing (h : Passes i .write row col v s) :
    Kept (Writing row col v) i .write row col v s where
  granted := (grant_underway .write row col v _).writing
  edge _ _ _ hu hm := hm.edge hu.busy hu.dwell hu.phase_op (hu.cfg_eq ▸ h.col_lt)

/-- A READ of a cell that is defined in `s`, if its row does not expire before the READ is done. -/
def ReadsCell (row col : Nat) (s u : State) : Prop :=
  ∀ v, cellAt s row col = some v → stampAt s row ≤ s.t →
    s.t + s.cfg.tRead ≤ s.cfg.retention + stampAt s row →
    Reading row col v (s.t + s.cfg.tRead) u

/-- The row lasts until the READ is done, whether its strobe restarts retention or not. -/
theorem Passes.keeps_reading (h : Passes i .read row col 0 s) :
    Kept (ReadsCell row col s) i .read row col 0 s where
  granted v hcell hstamp hfresh := by
    have hfirst : cellAt (requested i s) row col = some v :=
      (cellAt_decay_of_fresh (s := s) h.col_lt (by omega)).trans hcell
    have hsecond : cellAt (decay (requested i s)) row col = some v := by
      refine (cellAt_decay_of_fresh (s := requested i s) h.col_lt ?_).trans hfirst
      have hlong : 2 ≤ s.cfg.tRead := two_le_operationTime s.cfg .read
      change s.t + 1 - stampAt s row ≤ s.cfg.retention
      omega
    refine ⟨_, grant_underway .read row col 0 _, hsecond, hfresh, ?_⟩
    change s.t + s.cfg.tRead ≤ s.cfg.retention + (s.t + 1)
    omega
  edge k u hk hu hm v hcell hstamp hfresh := by
    have hcol : col < u.cfg.dramCols := hu.cfg_eq ▸ h.col_lt
    have htime : u.t ≤ s.t + s.cfg.tRead := hu.time_eq ▸ Nat.add_le_add_left hk s.t
    exact (hm v hcell hstamp hfresh).edge hu.busy hu.dwell hcol htime

/-- The answer leaves a block at rest. -/
theorem Served.atRest_of_answer {op : EngOp} {w d : Word} {k : Nat} {g : State}
    (h : Served op row col w s k g) (hreq : g.req = Requests.none) (hidle : g.eng.phase = .idle) :
    AtRest (respond .ok d g) :=
  ⟨h.inputs, h.running, h.line, h.frame, hidle, hreq, h.held⟩

end

/-- Settles O20: the run is the command's service, in which the WRITE stores its value at the end of WR2, and
nothing but decay touches a cell before or after. -/
theorem memwriteRun : Obligations.MemwriteRun := by
  intro s row col value hadm hrest hp hdec hrow hcol
  have hpass := passes_memwrite hrest hadm hp hrow hcol hdec
  have hkeeps := hpass.keeps_writing
  obtain ⟨g, hrun, hg, hreq, hidle, hm⟩ := hpass.run_answers hkeeps
  have hop : opField (encode (.memwrite row col value)).1 ≠ 0xA#4 := by simp [encode]
  rw [if_neg hop] at hrun
  refine ⟨fun k h1 hk => hpass.run_waits hkeeps h1 hk, _, hrun, rfl, rfl, rfl, rfl,
    hg.atRest_of_answer hreq hidle, hg.latched, ?_, fun r c hc hne => hg.cells r c hc fun _ => hne,
    hg.outside⟩
  have hstored := hm.stored_of_idle hidle
  rw [StoredOrExpired, hg.cfg_eq] at hstored
  exact hstored

/-- Settles O21: the run is the command's service, in which the READ samples the cell at the end of RD2,
which a row that does not expire by then has kept. -/
theorem memreadRun : Obligations.MemreadRun := by
  intro s row col hadm hrest hp hdec hrow hcol
  have hpass := passes_memread hrest hadm hp hrow hcol hdec
  have hkeeps := hpass.keeps_reading
  obtain ⟨g, hrun, hg, hreq, hidle, hm⟩ := hpass.run_answers hkeeps
  have hop : opField (encode (.memread row col)).1 = 0xA#4 := opField_mkW1 ..
  rw [if_pos hop] at hrun
  refine ⟨fun k h1 hk => hpass.run_waits hkeeps h1 hk, _, hrun, rfl, rfl, rfl,
    hg.atRest_of_answer hreq hidle, hg.latched, fun v hcell hstamp hfresh => ?_,
    fun r c hc => hg.cells r c hc nofun, hg.outside⟩
  have hval := (hm v hcell hstamp hfresh).val_of_idle hidle
  change (g.eng.val.setWidth 32).toNat = v.toNat
  rw [hval, BitVec.toNat_setWidth_of_le (by decide)]

end Sys2Proof.Machine
end

section
/-! PROOFS. The other host commands at their execution edge (R231, R232, R240 to R244): START and STOP, the
diagnostics, and the state gate over all of them. -/

namespace Sys2Proof.Machine

/-! ## The execution edge (R231) -/

theorem andThen_assoc (r : Result) (f g : State → Result) :
    andThen (andThen r f) g = andThen r fun s => andThen (f s) g := by
  cases r <;> rfl

/-- The execution edge of a latched command is `exec` of it, and the latching of a word. -/
theorem hostEdge_of_decode {p : PinIn} {b : State} {i : Instr} (hp : b.host.pending = true)
    (hdec : decode .host b.host.cmd b.host.arg = .ok i) :
    hostEdge p b = andThen (exec i (hostReady b)) fun h => .next (latchPins p b h) := by
  rw [hostEdge, if_pos hp, executeCommand, hdec]

/-- A word of the opcode table is placed in the latches as it is. -/
theorem decode_withFetchWord {s : State} {nbits w : Nat} {i : Instr}
    (h : decodeTableWord nbits w = some i) :
    decode .host (s.withFetchWord nbits w).host.cmd (s.withFetchWord nbits w).host.arg = .ok i := by
  have hopt : (decode .host (s.withFetchWord nbits w).host.cmd
      (s.withFetchWord nbits w).host.arg).toOption = some i := h
  cases hdec : decode .host (s.withFetchWord nbits w).host.cmd
    (s.withFetchWord nbits w).host.arg with
  | ok j => rw [hdec] at hopt; exact congrArg _ (Option.some.inj hopt)
  | error e => rw [hdec] at hopt; cases hopt

/-- Settles O7: the parts of an edge, with the decoder's answer put in; a word placed in the latches waits
there with the pins quiet. -/
theorem stepRunsLatchedCommand : Obligations.StepRunsLatchedCommand := by
  refine ⟨fun s i hadm hp hrst hdec => ?_, fun s nbits w i h => ⟨rfl, rfl, decode_withFetchWord h⟩⟩
  rw [step_of_admitted hadm, blockClock, hrst, if_neg Bool.false_ne_true, runningEdge,
    hostEdge_of_decode (b := beginEdge s) hp hdec, andThen_assoc]
  rfl

/-! ## START (R240) -/

theorem exec_start_of_mode {mode : BitVec 28} {s : State} (hmode : mode ≠ 0) :
    exec (.start mode) s = .next (answerIllegal s) := if_neg hmode

theorem exec_start_of_running {s : State} (hrun : s.host.running = true) :
    exec (.start 0) s = .next (answerRefused s) :=
  congrArg Host.Outcome.next (gated_of_running _ hrun)

theorem exec_start_of_stopped {s : State} (hstop : s.host.running = false) :
    exec (.start 0) s = .next (startRunning s) :=
  congrArg Host.Outcome.next (gated_of_stopped _ hstop)

/-- START's first decision of the frame sequencer is that of a drain in the state it finds. -/
theorem startRunning_eq (s : State) {f : State} (hf : f = drainDecision s.host.writeIndex
      { s with frame := { s.frame with phase := .drain, drained := 0 } }) :
    startRunning s = { s with
      host := { s.host with
        running := true, phase := .idle, rspValid := true, rspStatus := .ok, rspData := 0 }
      line := (startRunning s).line
      frame := f.frame
      req := f.req } := by
  have hcongr := drainDecision_congr (w := s.host.writeIndex)
    (s := { s with frame := { s.frame with phase := .drain, drained := 0 } })
    (u := { s with
      host := { s.host with running := true }
      line := { s.line with
        hCount := 0, tickPending := false, currentLine := 0, framebufferRow := 0 }
      frame := { s.frame with phase := .drain, drained := 0 } }) rfl rfl rfl fun _ => rfl
  rw [← hf] at hcongr
  obtain ⟨hframe, hfs⟩ := hcongr
  have hreq : f.req = { s.req with fs := f.req.fs } := by rw [hf, drainDecision_only]
  rw [hreq, ← hframe, ← hfs]
  simp only [startRunning, startFrameRun, frameDecision]
  rw [drainDecision_only]
  rfl

/-- Settles O13: check (2), the gate, and the effect of an accepted START. -/
theorem startEffect : Obligations.StartEffect := by
  intro s _
  refine ⟨fun mode => exec_start_of_mode, exec_start_of_running, fun hstop f hf => ?_⟩
  rw [exec_start_of_stopped hstop, startRunning_eq s hf, startRunning_line]

/-! ## STOP (R167, R241) -/

theorem exec_stop_of_running {s : State} (hrun : s.host.running = true) :
    exec .stop s = .next (stopRunning s) := if_pos hrun

theorem exec_stop_of_stopped {s : State} (hstop : s.host.running = false) :
    exec .stop s = .next (respond .ok 0 s) := if_neg (by simp [hstop])

theorem allIdle_iff {s : State} : allIdle s = true ↔
    s.line.phase = .idle ∧ s.frame.phase = .idle ∧ s.eng.phase = .idle := decide_eq_true_iff

/-- The edges of `HS_STOPWAIT`: the wait, and the answer with `VSYNC` cleared. -/
theorem hostPhaseStep_stopwait {s : State} (hphase : s.host.phase = .stopwait) :
    hostPhaseStep s = if allIdle s then
      respond .ok 0 { hostReady s with line := { s.line with vsync := false } }
      else hostReady s := by
  simp only [hostPhaseStep, hphase, stopWait]
  rfl

/-- A step to a stopped generator is the host sequencer's and the line sequencer's: no tick is taken (R29, R163). -/
theorem step_to_stopped {s h t : State} (hrst : (pinsNow s).rst = false) (hstep : step s = .next t)
    (hhost : hostEdge (pinsNow s) (beginEdge s) = .next h) (hoff : h.host.running = false) :
    t.host = h.host ∧ t.health = h.health ∧
    ∃ u, u.line = h.line ∧ t.line = (lineAdvance (decide (doneOwner s = some .ls)) u).line := by
  rcases step_cases hstep with ⟨hr, -⟩ | ⟨-, h', g, hhost', -, rfl⟩
  · rw [hrst] at hr; cases hr
  · obtain rfl : h = h' := Host.Outcome.next.inj (hhost.symm.trans hhost')
    have hedge : blockEdge (beginEdge s) h g =
        sequencersEdge (beginEdge s) (joinEdges (beginEdge s) h g) := if_neg (by simp [startsHere, hoff])
    have hstopped : (joinEdges (beginEdge s) h g).host.running = false := hoff
    refine ⟨blockEdge_host _ h g, ?_, joinEdges (beginEdge s) h g, rfl, ?_⟩
    · rw [advanceTime_health, hedge, sequencersEdge_health, lineEdge_of_stopped hstopped,
        lineAdvance_health]
      rfl
    · rw [advanceTime_line, hedge, sequencersEdge_line, lineEdge_of_stopped hstopped,
        doneOwner_beginEdge]

theorem outputs_of_stopped {t : State} (h : t.host.running = false) :
    hsyncOut t = false ∧ vsyncOut t = false := by simp [hsyncOut, vsyncOut, h]

/-- At the edge of a STOP's answer the line sequencer is idle, and stays so. -/
theorem step_stopwait_answers {s t : State} (hp : s.host.pending = false)
    (hphase : s.host.phase = .stopwait) (hstop : s.host.running = false)
    (hrst : (pinsNow s).rst = false) (hstep : step s = .next t) (hrsp : t.host.rspValid = true) :
    s.line.phase = .idle ∧ t.line = { s.line with vsync := false } ∧ t.health = s.health ∧
    t.host.running = false ∧ t.host.ring = s.host.ring ∧ t.host.rspStatus = .ok ∧
    t.host.rspData = 0 := by
  have hhost := hostEdge_of_not_pending (p := pinsNow s) (s := beginEdge s) hp
  rw [hostPhaseStep_stopwait (s := beginEdge s) hphase] at hhost
  by_cases hidle : allIdle (beginEdge s) = true
  · rw [if_pos hidle] at hhost
    obtain ⟨hhost', hhealth, u, hu, hline⟩ :=
      step_to_stopped hrst hstep hhost ((latchPins_running ..).trans hstop)
    have hphase' : s.line.phase = .idle := (allIdle_iff.mp hidle).1
    rw [latchPins_line] at hu
    rw [hhost', hhealth, latchPins_running, latchPins_ring, latchPins_rspData, latchPins_health,
      latchPins_only]
    rw [lineAdvance_of_idle ((congrArg LineCtx.phase hu).trans hphase')] at hline
    exact ⟨hphase', hline.trans hu, rfl, hstop, rfl, rfl, rfl⟩
  · rw [if_neg hidle] at hhost
    obtain ⟨hhost', -⟩ := step_to_stopped hrst hstep hhost ((latchPins_running ..).trans hstop)
    rw [hhost', latchPins_rspValid] at hrsp
    cases hrsp

/-- Settles O14: the accepting edge and the wait are `stopRunning` and `stopWait`; a step that leaves the
generator stopped takes no tick, and with `running = 0` the sync outputs are 0. -/
theorem stopEffect : Obligations.StopEffect := by
  refine ⟨fun s _ => ⟨exec_stop_of_stopped, exec_stop_of_running⟩,
    fun p s _ hp hheld hphase => ⟨fun hline hframe heng => ?_, fun hbusy => ?_⟩,
    fun s t hp hrun hrst hdec hstep => ?_, fun s t hinv hp hphase hstop hrst hstep hrsp => ?_⟩
  · rw [hostEdge_of_busy hp hheld (by simp [hphase]), hostPhaseStep_stopwait hphase,
      if_pos (allIdle_iff.mpr ⟨hline, hframe, heng⟩), hostReady_of_not_pending hp]
    rfl
  · rw [hostEdge_of_busy hp hheld (by simp [hphase]), hostPhaseStep_stopwait hphase,
      if_neg (mt allIdle_iff.mp hbusy), hostReady_of_not_pending hp]
  · have hhost := hostEdge_stop (b := beginEdge s) (pinsNow s) ⟨hp, hdec⟩ hrun
    obtain ⟨hhost', hhealth, u, hu, hline⟩ :=
      step_to_stopped hrst hstep hhost (latchPins_running ..)
    have hoff : t.host.running = false := by rw [hhost', latchPins_running]; rfl
    obtain ⟨hhs, hvs⟩ := outputs_of_stopped hoff
    rw [latchPins_line] at hu
    rw [hoff, hhs, hvs, hline, hhealth, hhost', latchPins_health, latchPins_ring,
      latchPins_writeIndex, lineAdvance_hCount, lineAdvance_tickPending, lineAdvance_vsync, lineAdvance_currentLine,
      lineAdvance_frameCount, lineAdvance_inVblank, hu]
    exact ⟨rfl, rfl, rfl, rfl, rfl, rfl, rfl, rfl, rfl, rfl, rfl, rfl⟩
  · obtain ⟨hidle, hline, hhealth, hoff, hring, hstatus, hdata⟩ :=
      step_stopwait_answers hp hphase hstop hrst hstep hrsp
    obtain ⟨hhs, hvs⟩ := outputs_of_stopped hoff
    have hse : s.line.se = false := by rw [hinv.se, hidle]; rfl
    have hvideo : video t = none := by rw [video, hline]; simp [hse]
    rw [hvideo, hhs, hvs, hline]
    refine ⟨hstatus, hdata, ?_, rfl, rfl, rfl, ?_, hse, rfl, rfl, rfl, rfl, rfl, hring, hhealth⟩
    · rw [hinv.hsync, hidle]; rfl
    · rw [hinv.sc, hidle]; rfl

/-! ## GETHEALTH and GETFRAMECOUNT (R243, R244) -/

theorem healthWord_toNat (f : HealthFlags) :
    (healthWord f).toNat = f.overflow.toNat + 2 * f.violation.toNat := by
  obtain ⟨o, v⟩ := f
  cases o <;> cases v <;> rfl

/-- Settles O15: the answer is the flags as they were, and after the clear the edge raises only what LINETICK
finds late. -/
theorem gethealthEffect : Obligations.GethealthEffect := by
  refine ⟨rfl, fun s _ => ⟨_, rfl, healthWord_toNat s.health⟩,
    fun s t idle wraps held hp hrst hdec hstep hidle hwraps hheld => ?_⟩
  have hread : notReadingHealth s = false := by simp [notReadingHealth, hp, hdec]
  have hnostop : ¬LatchedStop s := fun hl => by rw [LatchedStop, hdec] at hl; cases hl.2
  have hviolation := step_violation hrst hstep
  simp only [hread, FindsLate, LineIdle, hnostop, not_false_eq_true, true_and, Bool.false_eq_true,
    and_false, false_or, ← hidle, ← hwraps, ← hheld] at hviolation
  have hhost := hostEdge_of_decode (p := pinsNow s) (b := beginEdge s) hp hdec
  rcases step_cases hstep with ⟨hr, -⟩ | ⟨-, h, g, hhost', -, rfl⟩
  · rw [hrst] at hr; cases hr
  · obtain rfl : _ = h := Host.Outcome.next.inj (hhost.symm.trans hhost')
    refine ⟨?_, ?_, ?_, ?_, hviolation⟩
    · rw [advanceTime_health, blockEdge_overflow, latchPins_health]; rfl
    · rw [advanceTime_host, blockEdge_host, latchPins_rspValid]; rfl
    · rw [advanceTime_host, blockEdge_host, latchPins_only]; rfl
    · rw [advanceTime_host, blockEdge_host, latchPins_rspData]
      exact healthWord_toNat s.health

/-- Settles O16: the answer is GETFRAMECOUNT's whole effect. -/
theorem getframecountEffect : Obligations.GetframecountEffect := fun _ _ => rfl

/-! ## The state gate (R232) -/

/-- The commands the gate lets through while the generator runs. -/
def ungated : Instr → Bool
  | .enqueue _ _ _ => true
  | .drawrect _ _ _ _ _ => true
  | .gethealth => true
  | .getframecount => true
  | .stop => true
  | _ => false

/-- No answer, or one that is not REFUSED. -/
def NotRefused (t : State) : Prop := t.host.rspValid = true → t.host.rspStatus ≠ .refused

theorem NotRefused.of_silent {t : State} (h : t.host.rspValid = false) : NotRefused t := fun hv => by
  rw [h] at hv; cases hv

theorem NotRefused.respond {st : Status} (h : st ≠ .refused) (d : Word) (s : State) :
    NotRefused (respond st d s) := fun _ => h

section
variable {s : State}

theorem NotRefused.gated {f : State → State} (hstop : s.host.running = false)
    (h : NotRefused (f s)) : NotRefused (gated s f) := by rwa [gated_of_stopped f hstop]

theorem NotRefused.beginRefall (hrsp : s.host.rspValid = false) (i : Instr) :
    NotRefused (beginRefall i s) := by
  simp only [Machine.beginRefall, refallAnswer]
  split
  · split
    · exact .respond (by decide) _ _
    · exact .respond (by decide) _ _
  · exact .of_silent hrsp

theorem NotRefused.directAccess (hrsp : s.host.rspValid = false) (hstop : s.host.running = false)
    (i : Instr) : NotRefused (directAccess i s) := by
  by_cases hin : i.inRange s.cfg = true
  · rw [directAccess_of_stopped hin hstop]
    exact .of_silent hrsp
  · rw [directAccess_of_out_of_range (by simpa using hin)]
    exact .respond (by decide) _ _

theorem enqueuePixel_status (x y : Nat) (c : Nibble) (s : State) :
    (enqueuePixel x y c s).2 ≠ .refused := by
  rcases enqueuePixel_cases x y c s with ⟨-, he⟩ | ⟨-, -, -, he⟩ | ⟨-, -, -, he⟩ <;> rw [he]
  all_goals nofun

/-- Only the gate refuses. -/
theorem exec_not_refused {i : Instr} {t : State} (hrsp : s.host.rspValid = false)
    (hport : i.port = .host) (hgate : s.host.running = false ∨ ungated i = true)
    (h : exec i s = .next t) : NotRefused t := by
  cases i
  case enqueue x y c => cases h; exact .respond (enqueuePixel_status _ _ _ _) _ _
  case drawrect x y w hh c =>
    simp only [exec, execDrawrect] at h
    split at h <;> cases h
    · exact .respond (by decide) _ _
    · exact .of_silent hrsp
  case stop =>
    simp only [exec, execStop] at h
    split at h <;> cases h
    · exact .of_silent hrsp
    · exact .respond (by decide) _ _
  case gethealth | getframecount => cases h; exact .respond (by decide) _ _
  case start m =>
    simp only [exec, execStart] at h
    split at h <;> cases h
    · exact .gated (hgate.resolve_right nofun) (.respond (by decide) _ _)
    · exact .respond (by decide) _ _
  case clearfb c =>
    cases h
    refine .gated (hgate.resolve_right nofun) ?_
    split
    · exact .respond (by decide) _ _
    · exact .of_silent hrsp
  case refreshifneeded now =>
    cases h
    refine .gated (hgate.resolve_right nofun) ?_
    split
    · exact .beginRefall hrsp _
    · exact .respond (by decide) _ _
  case memrefall => cases h; exact .gated (hgate.resolve_right nofun) (.beginRefall hrsp _)
  case memwrite | memread | memxfer | memrefrow =>
    cases h
    exact .directAccess hrsp (hgate.resolve_right nofun) _
  case write | read | xfer | refrow => cases hport

theorem exec_direct_of_running {i : Instr} (hi : isDirect i = true)
    (hwell : i.wellFormed s.cfg = true) (hrun : s.host.running = true) :
    exec i s = .next (answerRefused s) := by
  obtain ⟨-, hin⟩ := Bool.and_eq_true_iff.mp hwell
  rw [exec_direct hi, directAccess_of_running hin hrun]

/-- A stopped block with an idle host sequencer has no operation in flight. -/
theorem AgentsInv.engine_idle_of_stopped (a : AgentsInv s) (hstop : s.host.running = false)
    (hidle : s.host.phase = .idle) : s.eng.phase = .idle := by
  obtain ⟨hline, hframe⟩ := a.stopped_quiet hstop (by simp [hidle])
  have hls := (inFlight_eq_zero.mp (a.line_ops.trans (by simp [hline]))).2
  have hfs := (inFlight_eq_zero.mp (a.frame_ops.trans (by simp [hframe]))).2
  have hhs := (inFlight_eq_zero.mp (a.host_ops.trans (by simp [hostUsesEngine, hidle]))).2
  by_contra hbusy
  cases howner : s.eng.owner
  case ls => rw [busyWith_iff.mpr ⟨hbusy, howner⟩] at hls; cases hls
  case fs => rw [busyWith_iff.mpr ⟨hbusy, howner⟩] at hfs; cases hfs
  case hs => rw [busyWith_iff.mpr ⟨hbusy, howner⟩] at hhs; cases hhs

end

/-- Settles O23: each gated command is the gate's refusal while running; nothing else refuses; and a stopped
block with an idle host sequencer has nothing in flight. -/
theorem stateGate : Obligations.StateGate := by
  refine ⟨fun s i _ hrun hwell hi => ?_, fun s t i _ hrsp hport hgate hexec => ?_,
    fun s _ a hstop hidle => ?_⟩
  · rcases hi with
      ⟨c, rfl⟩ | rfl | ⟨now, rfl⟩ | ⟨r, c, v, rfl⟩ | ⟨r, c, rfl⟩ | ⟨r, rfl⟩ | ⟨r, rfl⟩ | rfl
    · exact exec_clearfb_of_running hrun
    · exact exec_start_of_running hrun
    · exact congrArg Host.Outcome.next (gated_of_running _ hrun)
    · exact exec_direct_of_running rfl hwell hrun
    · exact exec_direct_of_running rfl hwell hrun
    · exact exec_direct_of_running rfl hwell hrun
    · exact exec_direct_of_running rfl hwell hrun
    · exact congrArg Host.Outcome.next (gated_of_running _ hrun)
  · refine exec_not_refused hrsp hport (hgate.imp_right fun hi => ?_) hexec
    rcases hi with ⟨x, y, c, rfl⟩ | ⟨x, y, w, h, c, rfl⟩ | rfl | rfl | rfl <;> rfl
  · obtain ⟨hline, hframe⟩ := a.stopped_quiet hstop (by simp [hidle])
    exact ⟨hline, hframe, a.engine_idle_of_stopped hstop hidle⟩

end Sys2Proof.Machine
end

section
/-! PROOFS. From every safe state the machine goes on (R67, R79, R120, R260): a reset edge always does, the host
sequencer's edge always does, and the engine's does because each raised line carries a word it accepts. -/

namespace Sys2Proof.Machine

/-- The word the engine is to grant is one it accepts, whichever requester wins (R67, R132). -/
theorem SafeInv.requestOk_winning {s : State} {w : Word} (h : SafeInv s)
    (hwin : winningRequest s.req = some w) : requestOk s.cfg (some w) = true := by
  rw [← lineOf_winner hwin]
  cases winner s.req
  · exact h.request_ls
  · exact h.request_fs
  · exact h.request_hs

/-- An edge without reset goes on when the engine's part of it does: the host sequencer's always does (R231). -/
theorem runningEdge_goes_on (p : PinIn) {b g : State} (hengine : engineEdge b = .next g) :
    ∃ t, runningEdge p b = .next t := by
  obtain ⟨h0, -, hhost⟩ := hostEdge_cases p b
  exact ⟨_, by rw [runningEdge, hhost, andThen, hengine, andThen]⟩

/-- A safe state has a next state: no fault and no refusal is reached (R260). -/
theorem SafeInv.step_goes_on {s : State} (h : SafeInv s) : ∃ t, step s = .next t := by
  rw [step_of_admitted ⟨h.geometry, h.strobes⟩, blockClock]
  split
  · exact ⟨_, rfl⟩
  · obtain ⟨g, hengine⟩ := engineEdge_goes_on fun _ => (beginEdge_safeInv h).requestOk_winning
    exact runningEdge_goes_on _ hengine

/-- Settles O55: a safe state has a next state, and every part of the step to it keeps the invariant. -/
theorem safetyIsKept : Obligations.SafetyIsKept := by
  intro s h
  obtain ⟨t, hstep⟩ := h.step_goes_on
  exact ⟨t, hstep, step_safeInv h hstep⟩

end Sys2Proof.Machine
end

section
/-! PROOFS. The reset edge and the power-up state (R39, R40, R290 to R293): reset wins over everything at its
edge, every register takes a constant, and the chip depends only on whether an operation is in progress. -/

namespace Sys2Proof.Machine

/-! ## The chip at reset -/

/-- A `SAM` that an incomplete strobe sequence scrambled holds no value (R292). -/
theorem samAt_scrambleChip (s : State) (i : Nat) : samAt (scrambleChip s) i = none :=
  List.getElem?_getD_replicate_default_eq none s.cfg.dramCols i

/-- After power-up `SAM` holds no value (R39). -/
theorem samAt_resetWith (c : Config) (i : Nat) : samAt (State.resetWith c) i = none :=
  List.getElem?_getD_replicate_default_eq none c.dramCols i

/-- After power-up no cell is defined (R39). -/
theorem cellAt_resetWith (c : Config) (row col : Nat) : cellAt (State.resetWith c) row col = none := rfl

/-! ## The reset edge -/

/-- Nothing but the beginning of the edge and the reset happens at an edge with `rst = 1` (R290). -/
theorem step_of_rst {s : State} (hadm : s.cfg.Admitted) (hrst : (pinsNow s).rst = true) :
    step s = .next (advanceTime (resetEdge (beginEdge s))) := by
  rw [step_of_admitted hadm, blockClock, if_pos hrst]

/-- With no operation in progress the chip sees no strobe sequence cut short (R293). -/
theorem resetEdge_of_idle {s : State} (h : s.eng.phase = .idle) : resetEdge s = resetRegisters s := by
  rw [resetEdge, if_pos h]

/-- An operation in progress is cut short, and the chip is scrambled (R292). -/
theorem resetEdge_of_busy {s : State} (h : s.eng.phase ≠ .idle) :
    resetEdge s = resetRegisters (scrambleChip s) := by
  rw [resetEdge, if_neg h]

/-- The parameters, model time and the stamps go on over a reset, whatever the engine is doing (R293). -/
theorem resetEdge_keeps (s : State) :
    (resetEdge s).chip.rowStamp = s.chip.rowStamp ∧ (resetEdge s).cfg = s.cfg ∧
    (resetEdge s).t = s.t := by
  by_cases h : s.eng.phase = .idle
  · rw [resetEdge_of_idle h]; exact ⟨rfl, rfl, rfl⟩
  · rw [resetEdge_of_busy h]; exact ⟨rfl, rfl, rfl⟩

/-- Settles O52: the registers hold the constants of R291, and the chip is the one the edge begins with when the
engine is idle, the scrambled one when it is not. The `rfl`s stand in rows as the statement's clauses do. -/
theorem resetEdge_spec : Obligations.ResetEdge := by
  intro s hadm hrst
  obtain ⟨hstamps, hcfg, ht⟩ := resetEdge_keeps (beginEdge s)
  refine ⟨_, step_of_rst hadm hrst,
    rfl, rfl, rfl,
    rfl, rfl, rfl,
    rfl, rfl, rfl,
    rfl, rfl,
    rfl, rfl, rfl, rfl,
    rfl, rfl, rfl,
    rfl, rfl, rfl, rfl,
    rfl, rfl,
    rfl, rfl, rfl, rfl,
    rfl, rfl, rfl,
    rfl,
    fun hidle => ?idle, fun hbusy => ?busy,
    hstamps, hcfg, congrArg (· + 1) ht⟩
  case idle =>
    rw [resetEdge_of_idle (show (beginEdge s).eng.phase = .idle from hidle)]
    exact ⟨rfl, rfl, rfl, fun _ _ hcol => cellAt_beginEdge hcol⟩
  case busy =>
    rw [resetEdge_of_busy (show (beginEdge s).eng.phase ≠ .idle from hbusy)]
    exact ⟨fun _ _ => rfl, samAt_scrambleChip (beginEdge s)⟩

/-! ## The power-up state -/

/-- Settles O53: the registers hold the constants of R291, and the chip its power-up contents; `State.reset` is
the power-up state of CFG-S. -/
theorem resetState : Obligations.ResetState := by
  intro c s _ hs
  obtain ⟨c, rfl⟩ : ∃ c, s = State.resetWith c := hs.elim (⟨c, ·⟩) (⟨Config.cfgS, ·⟩)
  exact ⟨
    rfl, rfl, rfl,
    rfl, rfl, rfl,
    rfl, rfl, rfl,
    rfl, rfl,
    rfl, rfl, rfl, rfl,
    rfl, rfl, rfl,
    rfl, rfl,
    rfl, rfl,
    rfl, rfl, rfl, rfl,
    rfl, rfl, rfl,
    cellAt_resetWith c, samAt_resetWith c, rfl,
    rfl, stampAt_resetWith c, rfl⟩

end Sys2Proof.Machine
end
